-- ==== Sys2Proof/Word.lean ====
section
/-! DEFINITION. The word types of the machine (00_scope.md R4). -/

namespace Sys2Proof

/-- A byte. -/
abbrev Byte := BitVec 8

/-- A 32-bit word. -/
abbrev Word := BitVec 32

/-- A 64-bit doubleword. -/
abbrev DWord := BitVec 64

/-- A 7-bit operand specifier (R218). -/
abbrev Reg := BitVec 7

/-- One bit per position of a wave (at most 64). -/
abbrev Mask := BitVec 64

end Sys2Proof
end

