-- ==== Sys2Proof/Syntax.lean ====
section
/-! DEFINITION. The instructions and events of spec/opcode_table.json, one constructor per row, with
the fields of the formats of 10_encoding.md R215 to R217. An event of the table carries no encoding: its
arguments name what it acts on. -/

namespace Sys2Proof

/-- Format F3 (R215): destination, two sources, last-read bits, modifier, and the literal word that
follows when the B field is 0x7F (R208). -/
structure F3 where
  d : Reg
  a : Reg
  b : Reg
  la : Bool
  lb : Bool
  m : Bool
  lit : Word
  deriving DecidableEq, Repr

/-- Format FI (R215): a 9-bit immediate. -/
structure FI where
  d : Reg
  a : Reg
  imm : BitVec 9
  la : Bool
  deriving DecidableEq, Repr

/-- Format FP (R215): selection by predicate p. -/
structure FP where
  d : Reg
  a : Reg
  b : Reg
  p : BitVec 3
  lit : Word
  deriving DecidableEq, Repr

/-- Format FM (R215) with its extension word (R216). -/
structure FM where
  t : Reg
  a : Reg
  space : BitVec 3
  ord : BitVec 2
  scope : BitVec 3
  l : Bool
  x : Bool
  ext : Word
  deriving DecidableEq, Repr

/-- Format FB (R215): a conditional branch. -/
structure FB where
  p : BitVec 3
  n : Bool
  tgt : BitVec 10
  join : BitVec 10
  deriving DecidableEq, Repr

/-- Format FB long (R215): BRA and CALL. -/
structure FBL where
  tgt : BitVec 24
  deriving DecidableEq, Repr

/-- Format FE (R215), with its extension word where the opcode has one (R220) and its literal. -/
structure FE where
  d : Reg
  a : Reg
  b : Reg
  f : BitVec 3
  ext : Word
  lit : Word
  deriving DecidableEq, Repr

/-- One constructor per row of the table, in the table's order. -/
inductive Instr where
  /-- IADD (R234). -/
  | iadd (x : F3)
  /-- ISUB (R234). -/
  | isub (x : F3)
  /-- IMUL (R234). -/
  | imul (x : F3)
  /-- IMULH (R234). -/
  | imulh (x : F3)
  /-- IMULHU (R234). -/
  | imulhu (x : F3)
  /-- IMAD (R236). -/
  | imad (x : F3)
  /-- IMIN (R234). -/
  | imin (x : F3)
  /-- IMAX (R234). -/
  | imax (x : F3)
  /-- UMIN (R234). -/
  | umin (x : F3)
  /-- UMAX (R234). -/
  | umax (x : F3)
  /-- IABS (R235). -/
  | iabs (x : F3)
  /-- IADDS (R234). -/
  | iadds (x : F3)
  /-- ISUBS (R234). -/
  | isubs (x : F3)
  /-- SAD (R236). -/
  | sad (x : F3)
  /-- IMIN3 (R236). -/
  | imin3 (x : F3)
  /-- IMAX3 (R236). -/
  | imax3 (x : F3)
  /-- MINADD (R237). -/
  | minadd (x : F3)
  /-- MINADD.U (R237). -/
  | minaddU (x : F3)
  /-- IDP4 (R238). -/
  | idp4 (x : F3)
  /-- IDP4U (R238). -/
  | idp4u (x : F3)
  /-- IADD2 (R239). -/
  | iadd2 (x : F3)
  /-- ISUB2 (R239). -/
  | isub2 (x : F3)
  /-- IMIN2 (R239). -/
  | imin2 (x : F3)
  /-- IMAX2 (R239). -/
  | imax2 (x : F3)
  /-- IADD.64 (R240). -/
  | iadd64 (x : F3)
  /-- ISUB.64 (R240). -/
  | isub64 (x : F3)
  /-- IMUL.WIDE (R241). -/
  | imulWide (x : F3)
  /-- IMAD.WIDE (R241). -/
  | imadWide (x : F3)
  /-- SHL.64 (R242). -/
  | shl64 (x : F3)
  /-- SHR.64 (R242). -/
  | shr64 (x : F3)
  /-- LEA (R243). -/
  | lea (x : FI)
  /-- IADD3 (R236). -/
  | iadd3 (x : F3)
  /-- AND (R244). -/
  | and (x : F3)
  /-- OR (R244). -/
  | or (x : F3)
  /-- XOR (R244). -/
  | xor (x : F3)
  /-- ANDN (R244). -/
  | andn (x : F3)
  /-- LOP3 (R245). -/
  | lop3 (x : F3)
  /-- SHL (R244). -/
  | shl (x : F3)
  /-- SHR (R244). -/
  | shr (x : F3)
  /-- SAR (R244). -/
  | sar (x : F3)
  /-- ROTL (R244). -/
  | rotl (x : F3)
  /-- BFE (R246). -/
  | bfe (x : FI)
  /-- BFEU (R246). -/
  | bfeu (x : FI)
  /-- BFI (R246). -/
  | bfi (x : FI)
  /-- POPC (R247). -/
  | popc (x : F3)
  /-- CLZ (R247). -/
  | clz (x : F3)
  /-- BREV (R247). -/
  | brev (x : F3)
  /-- PRMT (R248). -/
  | prmt (x : FI)
  /-- MOV (R249). -/
  | mov (x : F3)
  /-- SEL (R250). -/
  | sel (x : FP)
  /-- PLANE (R251). -/
  | plane (x : FI)
  /-- UNPLANE (R251). -/
  | unplane (x : FI)
  /-- ICMP.EQ (R252). -/
  | icmpEq (x : F3)
  /-- ICMP.NE (R252). -/
  | icmpNe (x : F3)
  /-- ICMP.LT (R252). -/
  | icmpLt (x : F3)
  /-- ICMP.LE (R252). -/
  | icmpLe (x : F3)
  /-- ICMP.GT (R252). -/
  | icmpGt (x : F3)
  /-- ICMP.GE (R252). -/
  | icmpGe (x : F3)
  /-- ICMP.ULT (R252). -/
  | icmpUlt (x : F3)
  /-- ICMP.ULE (R252). -/
  | icmpUle (x : F3)
  /-- ICMP.UGT (R252). -/
  | icmpUgt (x : F3)
  /-- ICMP.UGE (R252). -/
  | icmpUge (x : F3)
  /-- PAND (R253). -/
  | pand (x : F3)
  /-- POR (R253). -/
  | por (x : F3)
  /-- PXOR (R253). -/
  | pxor (x : F3)
  /-- PNOT (R253). -/
  | pnot (x : F3)
  /-- BALLOT (R255). -/
  | ballot (x : F3)
  /-- VANY (R256). -/
  | vany (x : F3)
  /-- VALL (R256). -/
  | vall (x : F3)
  /-- MATCH (R257). -/
  | matchOp (x : F3)
  /-- FIRST (R258). -/
  | first (x : F3)
  /-- BCAST (R259). -/
  | bcast (x : F3)
  /-- SHFL.IDX (R260). -/
  | shflIdx (x : F3)
  /-- SHFL.UP (R260). -/
  | shflUp (x : FI)
  /-- SHFL.DN (R260). -/
  | shflDn (x : FI)
  /-- SHFL.XOR (R260). -/
  | shflXor (x : FI)
  /-- SHFL.ROT (R260). -/
  | shflRot (x : FI)
  /-- REDADD (R261). -/
  | redadd (x : F3)
  /-- REDMIN (R261). -/
  | redmin (x : F3)
  /-- REDMAX (R261). -/
  | redmax (x : F3)
  /-- REDUMIN (R261). -/
  | redumin (x : F3)
  /-- REDUMAX (R261). -/
  | redumax (x : F3)
  /-- REDAND (R261). -/
  | redand (x : F3)
  /-- REDOR (R261). -/
  | redor (x : F3)
  /-- REDXOR (R261). -/
  | redxor (x : F3)
  /-- REDFADD (R261). -/
  | redfadd (x : F3)
  /-- FADD (R263). -/
  | fadd (x : F3)
  /-- FADD.RZ (R263). -/
  | faddRz (x : F3)
  /-- FADD.RD (R263). -/
  | faddRd (x : F3)
  /-- FADD.RU (R263). -/
  | faddRu (x : F3)
  /-- FSUB (R263). -/
  | fsub (x : F3)
  /-- FSUB.RZ (R263). -/
  | fsubRz (x : F3)
  /-- FSUB.RD (R263). -/
  | fsubRd (x : F3)
  /-- FSUB.RU (R263). -/
  | fsubRu (x : F3)
  /-- FMUL (R263). -/
  | fmul (x : F3)
  /-- FMUL.RZ (R263). -/
  | fmulRz (x : F3)
  /-- FMUL.RD (R263). -/
  | fmulRd (x : F3)
  /-- FMUL.RU (R263). -/
  | fmulRu (x : F3)
  /-- FFMA (R263). -/
  | ffma (x : F3)
  /-- FFMA.RZ (R263). -/
  | ffmaRz (x : F3)
  /-- FFMA.RD (R263). -/
  | ffmaRd (x : F3)
  /-- FFMA.RU (R263). -/
  | ffmaRu (x : F3)
  /-- FMIN (R264). -/
  | fmin (x : F3)
  /-- FMAX (R264). -/
  | fmax (x : F3)
  /-- FMINNAN (R264). -/
  | fminnan (x : F3)
  /-- FMAXNAN (R264). -/
  | fmaxnan (x : F3)
  /-- FABS (R265). -/
  | fabs (x : F3)
  /-- FNEG (R265). -/
  | fneg (x : F3)
  /-- FSAT (R265). -/
  | fsat (x : F3)
  /-- FCLASS (R266). -/
  | fclass (x : F3)
  /-- FLDEXP (R267). -/
  | fldexp (x : F3)
  /-- FREXP (R268). -/
  | frexp (x : F3)
  /-- FDOT2 (R269). -/
  | fdot2 (x : F3)
  /-- BFDOT2 (R269). -/
  | bfdot2 (x : F3)
  /-- FCMP.EQ (R270). -/
  | fcmpEq (x : F3)
  /-- FCMP.NE (R270). -/
  | fcmpNe (x : F3)
  /-- FCMP.LT (R270). -/
  | fcmpLt (x : F3)
  /-- FCMP.LE (R270). -/
  | fcmpLe (x : F3)
  /-- FCMP.GT (R270). -/
  | fcmpGt (x : F3)
  /-- FCMP.GE (R270). -/
  | fcmpGe (x : F3)
  /-- FCMP.UN (R270). -/
  | fcmpUn (x : F3)
  /-- FCMP.ORD (R270). -/
  | fcmpOrd (x : F3)
  /-- FRCP (R271). -/
  | frcp (x : F3)
  /-- FRSQ (R271). -/
  | frsq (x : F3)
  /-- FSQRT (R271). -/
  | fsqrt (x : F3)
  /-- FEX2 (R271). -/
  | fex2 (x : F3)
  /-- FLG2 (R271). -/
  | flg2 (x : F3)
  /-- FSIN (R271). -/
  | fsin (x : F3)
  /-- FCOS (R271). -/
  | fcos (x : F3)
  /-- FRND.N (R272). -/
  | frndN (x : F3)
  /-- FRND.Z (R272). -/
  | frndZ (x : F3)
  /-- FRND.D (R272). -/
  | frndD (x : F3)
  /-- FRND.U (R272). -/
  | frndU (x : F3)
  /-- CVT.F32.I32 (R273). -/
  | cvtF32I32 (x : F3)
  /-- CVT.F32.U32 (R273). -/
  | cvtF32U32 (x : F3)
  /-- CVT.I32.F32 (R273). -/
  | cvtI32F32 (x : F3)
  /-- CVT.I32.F32.RZ (R273). -/
  | cvtI32F32Rz (x : F3)
  /-- CVT.I32.F32.RD (R273). -/
  | cvtI32F32Rd (x : F3)
  /-- CVT.I32.F32.RU (R273). -/
  | cvtI32F32Ru (x : F3)
  /-- CVT.U32.F32 (R273). -/
  | cvtU32F32 (x : F3)
  /-- CVT.F16X2.F32 (R274). -/
  | cvtF16x2F32 (x : F3)
  /-- CVT.F32.F16 (R275). -/
  | cvtF32F16 (x : FI)
  /-- CVT.BF16X2.F32 (R274). -/
  | cvtBf16x2F32 (x : F3)
  /-- CVT.F32.BF16 (R275). -/
  | cvtF32Bf16 (x : FI)
  /-- CVT.E4M3X2.F32 (R274). -/
  | cvtE4m3x2F32 (x : F3)
  /-- CVT.E5M2X2.F32 (R274). -/
  | cvtE5m2x2F32 (x : F3)
  /-- CVT.F32.E4M3 (R275). -/
  | cvtF32E4m3 (x : FI)
  /-- CVT.F32.E5M2 (R275). -/
  | cvtF32E5m2 (x : FI)
  /-- CVT.E2M1X2.F32 (R274). -/
  | cvtE2m1x2F32 (x : F3)
  /-- CVT.F32.E2M1 (R275). -/
  | cvtF32E2m1 (x : FI)
  /-- HADD2 (R276). -/
  | hadd2 (x : F3)
  /-- HMUL2 (R276). -/
  | hmul2 (x : F3)
  /-- HFMA2 (R276). -/
  | hfma2 (x : F3)
  /-- HMIN2 (R276). -/
  | hmin2 (x : F3)
  /-- HMAX2 (R276). -/
  | hmax2 (x : F3)
  /-- BADD2 (R276). -/
  | badd2 (x : F3)
  /-- BFMA2 (R276). -/
  | bfma2 (x : F3)
  /-- BMUL2 (R276). -/
  | bmul2 (x : F3)
  /-- BMIN2 (R276). -/
  | bmin2 (x : F3)
  /-- BMAX2 (R276). -/
  | bmax2 (x : F3)
  /-- LD.B (R305). -/
  | ldB (x : FM)
  /-- LD.SB (R305). -/
  | ldSb (x : FM)
  /-- LD.H (R305). -/
  | ldH (x : FM)
  /-- LD.SH (R305). -/
  | ldSh (x : FM)
  /-- LD.W (R305). -/
  | ldW (x : FM)
  /-- LD.D (R305). -/
  | ldD (x : FM)
  /-- LD.Q (R305). -/
  | ldQ (x : FM)
  /-- LDR (R307). -/
  | ldr (x : FM)
  /-- LDR.V4 (R307). -/
  | ldrV4 (x : FM)
  /-- LDU (R306). -/
  | ldu (x : FM)
  /-- LDU.D (R306). -/
  | lduD (x : FM)
  /-- ST.B (R308). -/
  | stB (x : FM)
  /-- ST.H (R308). -/
  | stH (x : FM)
  /-- ST.W (R308). -/
  | stW (x : FM)
  /-- ST.D (R308). -/
  | stD (x : FM)
  /-- ST.Q (R308). -/
  | stQ (x : FM)
  /-- STR (R310). -/
  | str (x : FM)
  /-- STR.V4 (R310). -/
  | strV4 (x : FM)
  /-- STU (R309). -/
  | stu (x : FM)
  /-- ATOM.ADD (R312). -/
  | atomAdd (x : FM)
  /-- ATOM.MIN (R312). -/
  | atomMin (x : FM)
  /-- ATOM.MAX (R312). -/
  | atomMax (x : FM)
  /-- ATOM.UMIN (R312). -/
  | atomUmin (x : FM)
  /-- ATOM.UMAX (R312). -/
  | atomUmax (x : FM)
  /-- ATOM.AND (R312). -/
  | atomAnd (x : FM)
  /-- ATOM.OR (R312). -/
  | atomOr (x : FM)
  /-- ATOM.XOR (R312). -/
  | atomXor (x : FM)
  /-- ATOM.XCHG (R312). -/
  | atomXchg (x : FM)
  /-- ATOM.CAS (R312). -/
  | atomCas (x : FM)
  /-- ATOM.FADD (R312). -/
  | atomFadd (x : FM)
  /-- ATOM.ADD64 (R312). -/
  | atomAdd64 (x : FM)
  /-- ATOM.XCHG64 (R312). -/
  | atomXchg64 (x : FM)
  /-- ATOM.CAS64 (R312). -/
  | atomCas64 (x : FM)
  /-- RED.ADD (R312). -/
  | redAdd (x : FM)
  /-- RED.MIN (R312). -/
  | redMin (x : FM)
  /-- RED.MAX (R312). -/
  | redMax (x : FM)
  /-- RED.UMIN (R312). -/
  | redUmin (x : FM)
  /-- RED.UMAX (R312). -/
  | redUmax (x : FM)
  /-- RED.AND (R312). -/
  | redAnd (x : FM)
  /-- RED.OR (R312). -/
  | redOr (x : FM)
  /-- RED.XOR (R312). -/
  | redXor (x : FM)
  /-- RED.FADD (R312). -/
  | redFadd (x : FM)
  /-- WAITC (R314). -/
  | waitc (x : FM)
  /-- WAITA (R315). -/
  | waita (x : FM)
  /-- WAITAE (R315). -/
  | waitae (x : FM)
  /-- DEPO (R316). -/
  | depo (x : FM)
  /-- WARV (R317). -/
  | warv (x : FM)
  /-- PROBE (R318). -/
  | probe (x : FM)
  /-- RESREQ (R319). -/
  | resreq (x : FM)
  /-- PREF (R320). -/
  | pref (x : FM)
  /-- PREF.L2 (R320). -/
  | prefL2 (x : FM)
  /-- CLWB (R321). -/
  | clwb (x : FM)
  /-- INVL (R321). -/
  | invl (x : FM)
  /-- NOP (R277). -/
  | nop
  /-- BRA (R278). -/
  | bra (x : FBL)
  /-- BRC (R279). -/
  | brc (x : FB)
  /-- BRC.ANY (R279). -/
  | brcAny (x : FB)
  /-- BRC.ALL (R279). -/
  | brcAll (x : FB)
  /-- BRC.U (R279). -/
  | brcU (x : FB)
  /-- BRI (R281). -/
  | bri (a : Reg)
  /-- JOIN (R282). -/
  | join
  /-- CALL (R281). -/
  | call (x : FBL)
  /-- CALLI (R281). -/
  | calli (a : Reg)
  /-- RET (R281). -/
  | ret
  /-- EXIT (R283). -/
  | exit
  /-- REORD (R33). -/
  | reord (k : BitVec 4) (key : Reg)
  /-- SPAWN (R285). -/
  | spawn (k : BitVec 10) (a1 a0 : Reg)
  /-- SPAWN.W (R285). -/
  | spawnW (k : BitVec 10) (a1 a0 : Reg)
  /-- SPAWN.AT (R285). -/
  | spawnAt (k : BitVec 10) (a1 a0 : Reg)
  /-- TRAP (R289). -/
  | trap (code : BitVec 24)
  /-- BKPT (R290). -/
  | bkpt (code : BitVec 24)
  /-- ERET (R293). -/
  | eret
  /-- YIELD (R297). -/
  | yield
  /-- WSLEEP (R298). -/
  | wsleep (a : Reg)
  /-- HALT (R291). -/
  | halt
  /-- ICINV (R299). -/
  | icinv (scope : BitVec 3)
  /-- CSRR (R300). -/
  | csrr (num : BitVec 12) (r : Reg)
  /-- CSRW (R300). -/
  | csrw (num : BitVec 12) (r : Reg)
  /-- CSRS (R300). -/
  | csrs (num : BitVec 12) (r : Reg)
  /-- CSRC (R300). -/
  | csrc (num : BitVec 12) (r : Reg)
  /-- COPY.GS (R325). -/
  | copyGs (x : FE)
  /-- COPY.SG (R325). -/
  | copySg (x : FE)
  /-- COPY.SS (R327). -/
  | copySs (x : FE)
  /-- COPY.MC (R325). -/
  | copyMc (x : FE)
  /-- MMA (R331). -/
  | mma (x : FE)
  /-- MMA.T (R331). -/
  | mmaT (x : FE)
  /-- MMAZ (R331). -/
  | mmaz (x : FE)
  /-- MZERO (R333). -/
  | mzero (x : FE)
  /-- MLD (R333). -/
  | mld (x : FE)
  /-- MST (R333). -/
  | mst (x : FE)
  /-- MRD (R333). -/
  | mrd (x : FE)
  /-- MWR (R333). -/
  | mwr (x : FE)
  /-- MDRAIN (R334). -/
  | mdrain (x : FE)
  /-- MFILL (R334). -/
  | mfill (x : FE)
  /-- NEVAL (R335). -/
  | neval (x : FE)
  /-- NEVAL.U (R335). -/
  | nevalU (x : FE)
  /-- NEVAL.F32 (R335). -/
  | nevalF32 (x : FE)
  /-- TEX (R340). -/
  | tex (x : FE)
  /-- TEX.L (R340). -/
  | texL (x : FE)
  /-- TEX.B (R340). -/
  | texB (x : FE)
  /-- TEX.D (R340). -/
  | texD (x : FE)
  /-- TEX.G (R340). -/
  | texG (x : FE)
  /-- TEXN (R344). -/
  | texn (x : FE)
  /-- TLD (R343). -/
  | tld (x : FE)
  /-- TQRY (R343). -/
  | tqry (x : FE)
  /-- TRACE (R345). -/
  | trace (x : FE)
  /-- TRACE.A (R345). -/
  | traceA (x : FE)
  /-- DLOAD (R350). -/
  | dload (x : FE)
  /-- DWIN (R351). -/
  | dwin (x : FE)
  /-- DLAUNCH (R352). -/
  | dlaunch (x : FE)
  /-- DLAUNCH.R (R352). -/
  | dlaunchR (x : FE)
  /-- DCAPT (R353). -/
  | dcapt (x : FE)
  /-- DCAPT.W (R353). -/
  | dcaptW (x : FE)
  /-- DRESET (R354). -/
  | dreset (x : FE)
  /-- GSUB (R358). -/
  | gsub (x : FE)
  /-- GABORT (R359). -/
  | gabort (x : FE)
  /-- GSTOP (R359). -/
  | gstop (x : FE)
  /-- GQRY (R360). -/
  | gqry (x : FE)
  /-- GHINT (R361). -/
  | ghint (x : FE)
  /-- GWAIT (R361). -/
  | gwait (x : FE)
  /-- TREL (R361). -/
  | trel (x : FE)
  /-- TLSIG (R362). -/
  | tlsig (x : FE)
  /-- TLWAIT (R362). -/
  | tlwait (x : FE)
  /-- TLRD (R362). -/
  | tlrd (x : FE)
  /-- TLSET (R362). -/
  | tlset (x : FE)
  /-- MBRECV (R363). -/
  | mbrecv (x : FE)
  /-- MBSEND (R363). -/
  | mbsend (x : FE)
  /-- DBGSEND (R364). -/
  | dbgsend (x : FE)
  /-- CLAUSE_FETCH (R209): Fetches a clause header and its words and checks the clause before its first instruction issues. -/
  | clauseFetch
  /-- PENDING_TRAP (R287): Takes a pending completion fault, WATCH, STEP or save trap at the next instruction boundary. -/
  | pendingTrap
  /-- SQ_DRAIN (R170): Moves a store-queue entry whose release condition holds into the lowest view, performing atomics there. -/
  | sqDrain (w i : Nat)
  /-- PROPAGATE (R170): Writes a dirty copy of an aligned block from a view into its parent view. -/
  | propagate (view blk : Nat)
  /-- DROP (R170): Removes clean copies of an aligned block from a view. -/
  | drop (view blk : Nat)
  /-- DEPO_DELIVER (R316): Delivers a released deposit to the target's arrival counter. -/
  | depoDeliver (w i : Nat)
  /-- HELD_DEPOSIT_DELIVER (R154): Delivers a deposit held by a full ACNT once a WARV has made room. -/
  | heldDepositDeliver (w : Nat)
  /-- WARV_PASS (R154): Releases a waiting WARV when ACNT reaches n, subtracting n and acquiring. -/
  | warvPass (w : Nat) (pb : Bool)
  /-- WAITA_TEST (R315): Retests a waiting WAITA or WAITAE word after a write reaches the tested view. -/
  | waitaTest (w : Nat) (pb : Bool)
  /-- WSLEEP_EXPIRY (R298): Lets a sleeping path issue again once its core's CLK has advanced n cycles. -/
  | wsleepExpiry (w : Nat) (pb : Bool)
  /-- ICINV_COMPLETE (R299): Ends an ICINV stall once every cache in scope holds no line fetched before it. -/
  | icinvComplete (w : Nat) (pb : Bool)
  /-- MSHR_RELEASE (R119): Frees a miss-status entry and grants it to the head of the wait list, which replays when complete. -/
  | mshrRelease (core i : Nat)
  /-- ENGINE_START (R117): An engine takes the next operation from its queue. -/
  | engineStart (id : Nat)
  /-- COPY_COMPLETE (R326): A copy completes, writing its results and completion word and decrementing CPY. -/
  | copyComplete (id : Nat)
  /-- MXE_COMPLETE (R329): A matrix-engine operation completes on its tile and decrements MTX. -/
  | mxeComplete (id : Nat)
  /-- BATON_TIMEOUT (R337): Dispatches a filling Baton tile with padding rows 64 cycles after its first row entered. -/
  | batonTimeout (core key : Nat)
  /-- BATON_TILE_DONE (R338): A Baton tile completes, completing the NEVAL and TEXN instructions whose last tile it is. -/
  | batonTileDone (id : Nat)
  /-- TEX_COMPLETE (R342): A sampler operation completes, writing its results and decrementing GTH. -/
  | texComplete (id : Nat)
  /-- TRACE_COMPLETE (R346): A ray traversal completes, writing hit results and decrementing GTH. -/
  | traceComplete (id : Nat)
  /-- DASH_COMPLETE (R355): A Dash operation completes in queue order and decrements DSH. -/
  | dashComplete (id : Nat)
  /-- REORD_TIMEOUT (R33): Closes a REORD collection 256 cycles after its first wave parked. -/
  | reordTimeout (wg i : Nat)
  /-- REORD_REPACK (R34): Repacks a closed collection's threads by key once all participants' counters are zero. -/
  | reordRepack (wg i : Nat)
  /-- SPAWN_ENQUEUE (R116): Enters a stalled spawn block or sub-block into a spawn queue when room appears. -/
  | spawnEnqueue (w : Nat) (pb : Bool)
  /-- WORKGROUP_PLACE (R39): Canopy places a ready tile task's workgroup on a core where it fits. -/
  | workgroupPlace (part : Nat)
  /-- CHILD_PLACE (R41): Places the head child of a core's spawn queue when resources free. -/
  | childPlace (core : Nat)
  /-- TASK_RETIRE (R107): Performs the retirement action of a tile task whose workgroup and descendants have ended. -/
  | taskRetire (part g p k : Nat)
  /-- TILE_CLOSURE (R181): Closes a TREL's tiles to RETIRED once the fixed entry set has reached the DEVICE view. -/
  | tileClosure (w : Nat) (pb : Bool)
  /-- PASS_AGEING (R108): Raises a queued pass one priority level per 50 µs waited. -/
  | passAgeing (part g p : Nat)
  /-- PWRBUD_REFRESH (R164): Refreshes PWRBUD.BUDGET every 10 µs and retests deferred passes. -/
  | pwrbudRefresh (part : Nat)
  /-- GRAPH_TEARDOWN (R113): Tears a graph down: stops placement, freezes and ends its waves, frees its resources and queues its event. -/
  | graphTeardown (part g : Nat)
  /-- EVENT_ENQUEUE (R101): Enters a waiting graph event message into event mailbox 15 and frees its graph slot. -/
  | eventEnqueue (part : Nat)
  /-- GSUB_ACCEPT (R358): Accepts a waiting GSUB once a graph slot and arena shares are free, reading and checking its image. -/
  | gsubAccept (w : Nat) (pb : Bool)
  /-- MBRECV_DEQUEUE (R363): Dequeues a message for a blocked MBRECV when its mailbox receives an entry. -/
  | mbrecvDequeue (w : Nat) (pb : Bool)
  /-- MBSEND_ENQUEUE (R363): Enqueues a stalled MBSEND's message when its outbound mailbox has room. -/
  | mbsendEnqueue (w : Nat) (pb : Bool)
  /-- DBGSEND_APPEND (R102): Appends a stalled DBGSEND's word when the debug mailbox has room. -/
  | dbgsendAppend (w : Nat) (pb : Bool)
  /-- WAVE_FREEZE (R43): Freezes a wave at an instruction boundary and drains its engine work for pre-emption or teardown. -/
  | waveFreeze (w : Nat)
  /-- PCMD_CREATE (R373): Creates a partition without a pacer after checking its resources. -/
  | pcmdCreate (part : Nat)
  /-- PCMD_DESTROY (R374): Destroys a partition, tearing down its graphs and returning its resources. -/
  | pcmdDestroy (part : Nat)
  /-- PCMD_START_PACER (R374): Checks kernel-table entry 0 and starts the partition's pacer. -/
  | pcmdStartPacer (part : Nat)
  /-- PCMD_PARTITION_RESET (R374): Destroys and recreates the partition without zeroing GDDR7, then starts the pacer. -/
  | pcmdPartitionReset (part : Nat)
  /-- PCMD_PREEMPT (R375): Requests pre-emption: stops placement and freezes every wave of the partition within 8 µs. -/
  | pcmdPreempt (part : Nat)
  /-- PCMD_RESUME (R375): Resumes an evicted partition, placing the pacer and evicted workgroups again. -/
  | pcmdResume (part : Nat)
  /-- REGISTER_WRITE (R372): Writes a host-visible register that has no behaviour of its own. -/
  | registerWrite (fn off : Nat) (v : DWord)
  /-- MBIN (R377): Stages host bytes for an inbound mailbox, committing a message when byte 63 is written. -/
  | mbin (vf m off : Nat) (data : List Byte)
  /-- MBPOP (R377): Dequeues the head entry of an outbound mailbox. -/
  | mbpop (vf : Nat) (v : DWord)
  /-- DBGDATA (R377): Returns the oldest debug word and dequeues it when valid. -/
  | dbgdata (vf : Nat)
  /-- TLBINV (R380): Starts or extends a TLB invalidation for the partition. -/
  | tlbinv (vf : Nat) (v : DWord)
  /-- TLBINV_COMPLETE (R380): Completes a TLB invalidation once every entry present at its start is dropped. -/
  | tlbinvComplete (part : Nat)
  /-- HOST_BAR2_WRITE (R379): Writes host data into the SYSTEM view of the partition's GDDR7 shares. -/
  | hostBar2Write (vf addr : Nat) (data : List Byte)
  /-- HOST_BAR2_READ (R379): Returns values held in the SYSTEM view of the partition's GDDR7 shares. -/
  | hostBar2Read (vf addr n : Nat)
  /-- FWCMD_RECOVERY (R384): Verifies, stores and boots a recovery firmware image. -/
  | fwcmdRecovery
  /-- FWCMD_UPDATE (R384): Verifies and stores a firmware update for the next device reset. -/
  | fwcmdUpdate
  /-- ATTGO (R384): Starts building a signed attestation report. -/
  | attgo
  /-- ATTEST_REPORT_READY (R385): Completes the attestation report and fires PF vector 2. -/
  | attestReportReady
  /-- ERRGD (R387): A write clears the GDDR7 correction count. -/
  | errgd
  /-- ERRHW (R387): A write clears the Heartwood correction count. -/
  | errhw
  /-- ERRSP (R387): A write clears the scratchpad correction count. -/
  | errsp
  /-- ERRPAR (R387): A write clears the dropped-parity-line count. -/
  | errpar
  /-- PATROL_SCRUB (R387): Periodically reads and corrects or poisons a Heartwood line or GDDR7 block. -/
  | patrolScrub (hw : Bool) (loc : Nat)
  /-- DEVICE_RESET (R388): Destroys every partition, zeroes CLK and TIMEBASE and boots from the ROM. -/
  | deviceReset
  /-- VF_RESET (R388): Clears a VF's staging bytes without affecting its partition. -/
  | vfReset (vf : Nat)
  /-- LINK_DOWN (R381): On surprise removal, completes host reads with all-ones and tears down host-touching graphs. -/
  | linkDown
  /-- REENUMERATION (R382): On re-enumeration, empties every partition's mailboxes and staging and clears MBDROP. -/
  | reenumeration
  /-- FLIT_REPLAY (R383): Replays a UCIe flit that failed its CRC. -/
  | flitReplay
  /-- LINK_RETRAIN_FAIL (R383): A UCIe link that cannot be retrained puts the device into the fatal state. -/
  | linkRetrainFail
  /-- CLOCK_THROTTLE (R386): Lowers both clocks by 100 MHz when board power or junction temperature exceeds its limit. -/
  | clockThrottle
  /-- CLOCK_RESTORE (R386): Raises both clocks one step after both conditions have cleared for 10 ms. -/
  | clockRestore
  /-- THERMAL_FATAL (R386): Stops every core and enters the fatal state at 110 °C. -/
  | thermalFatal
  /-- SOFT_ERROR (R97): A soft error strikes a protected structure, leaving a single-bit or uncorrectable error in its stored data. -/
  | softError (strct loc : Nat) (single : Bool)
  deriving DecidableEq, Repr

end Sys2Proof
end

