-- ==== Sys2Proof/Config.lean ====
section
/-! DEFINITION. What the part fixes, and the free values: what the spec leaves open, as constants without a body. -/

namespace Sys2Proof.Config

/-- Waves slots per core (R10). -/
def slotsPerCore : Nat := 96

/-- Bytes of a core's scratchpad (R12). -/
def scratchBytes : Nat := 196608

/-- Units of TIMEBASE per nanosecond: the least common multiple of 10 to 19, so that a cycle at every clock setting
of R386 is a whole number of units. -/
def unitsPerNs : Nat := 232792560

/-- R163: the offset of a core's CLK from the common cycle count, fixed at each device reset (epoch, core). Free. -/
opaque clkOffset : Nat → Nat → Nat

/-- R164: the power in watts a partition used in the 10 µs that ended at a refresh (partition, refresh). Free. -/
opaque sensorPower : Nat → Nat → Nat

/-- R25: cycles after an issue in which the operands of the wave's next instruction are not free in the scoreboard, beyond
those that the model tracks (slot key, cycle of the issue). Free. -/
opaque latency : Nat → Nat → Nat

/-- R384: whether the ROM's signature check accepts an image. Free. -/
opaque imageValid : List (Nat × Byte) → Bool

/-- R385: bytes of the SHA-384 of a firmware image (image, byte). The hash's values are not evaluated here. -/
opaque imageDigest : List (Nat × Byte) → Nat → Byte

/-- R385: bytes of the SHA-384 of the partition table (its registers in order, byte). The spec gives no layout. -/
opaque tableDigest : List DWord → Nat → Byte

/-- R385: bytes of the signature of an attestation report (fresh counter, byte). Free. -/
opaque signature : Nat → Nat → Byte

/-- A free value: one the spec does not state (fresh counter). Nothing constrains it. -/
opaque freeWord : Nat → Word

/-- A free byte (fresh counter). -/
opaque freeByte : Nat → Byte

end Sys2Proof.Config
end

