-- ==== Sys2Proof/Machine/State.lean ====
section
/-! DEFINITION. Everything the spec gives the machine, as plain data, and the machine right after reset.
A sparse array is a list of key and value pairs (Tab), keys strictly rising, no entry equal to what an unlisted
key reads as. -/

namespace Sys2Proof.Machine

/-- A sparse array: key and value pairs in rising order of key. -/
abbrev Tab (α : Type) := List (Nat × α)

/-- The bytes of the SYSTEM view (R166): Host.Cell pairs. Keys are locations: GDDR7 byte p at p, host byte a at
2^60 + a, scratchpad byte o of core c at 2^61 + c * 2^20 + o, device scratch and ring bytes above. -/
abbrev Memory := List Host.Cell

/-- Why the machine itself stops. -/
inductive Fault where
  /-- A step asks a path to issue that does not exist or has no live thread; raised by every instruction's meaning
  when State.cur names no path. Safe: no such issue happens on the hardware. -/
  | noIssuer
  /-- No core of the device runs any more (DEVSTAT.STATE 3, R386) and a step asks one to issue. Safe. -/
  | deviceFatal
  deriving DecidableEq, Repr

/-- Why a step has no meaning. -/
inductive Refusal where
  /-- An instruction of the table that the model does not cover yet; raised by exec's arms. Safe. -/
  | notModelled (mnemonic : String)
  deriving DecidableEq, Repr

/-- A thread of a wave, at one position (R20, R21). -/
structure Thread where
  tid : Nat
  live : Bool
  /-- The written copies of v0 to v63; a register not listed is unwritten (R50). -/
  v : Tab Word
  /-- p1 to p7; bit 0 is not read, because p0 is true in every thread (R56). -/
  p : BitVec 8
  /-- v registers whose parity fails (R97). -/
  bad : List Nat
  deriving DecidableEq, Repr

/-- Storage form of a v register (R52). FULL is the form of a register not listed. -/
inductive Form where
  | uniform
  | affine (base stride : Word)
  deriving DecidableEq, Repr

/-- A clause as fetched (R209): the header's address, the header, and its words. -/
structure Clause where
  base : Nat
  head : Word
  words : List Word
  deriving DecidableEq, Repr

/-- What an access of one thread reaches. -/
inductive Acc where
  /-- Its bytes: locations and the bits of each. -/
  | mem (bytes : List (Nat × Byte))
  /-- Outside its window or bounds: reads zero, stores nothing, WSTAT.OOB (R79, R127). -/
  | outside
  /-- A page with V = 0 and SPARSE = 1 (R92). -/
  | sparse
  /-- An EMPTY ring tile: reads zero (R88). -/
  | empty
  /-- A ring tile whose storage has been given back: the spec states no value. -/
  | freed
  deriving DecidableEq, Repr

/-- Where one channel of an element lies, as byte offsets. -/
inductive Elem where
  | bytes (o n : Nat)
  | nib (o : Nat) (hi : Bool)
  /-- Bits of planes, most significant plane first: byte and bit. -/
  | planes (l : List (Nat × Nat))
  deriving DecidableEq, Repr

/-- One thread's access: position, what it reaches, its space, its virtual address, the ranges that a watchpoint sees (first
byte, bytes: of an element kept in planes each byte apart), and whether the thread was outside its record's bounds. -/
structure Plan where
  q : Nat
  acc : Acc
  space : Nat
  addr : Nat
  spans : List (Nat × Nat)
  oob : Bool
  deriving DecidableEq, Repr

/-- A thread's access as its instruction issued it: the plan, a record's channels with the offsets of their bytes, the
pieces that a store puts in the SQ, and the operands of an atomic. A replay (R119) takes them as they are, and reads
neither registers nor records again (R123, R304). -/
structure Access where
  plan : Plan
  elems : List Elem
  offs : List (Nat × Byte)
  data : List (List (Nat × Byte × Byte))
  b : DWord
  c : DWord
  deriving DecidableEq, Repr

/-- What a memory instruction does with the access of a thread. -/
inductive MemAct where
  /-- A load into regs registers, sign-extended from sx bits unless sx is 0 (R305). -/
  | load (regs sx : Nat)
  /-- A record load into regs registers of nch channels, converted by the record's words (R307). -/
  | loadRec (regs nch : Nat) (recd : List DWord)
  /-- A load made once for the wave (R306). -/
  | once (wide : Bool)
  /-- A store; once for the wave, or by thread. -/
  | store (once : Bool)
  /-- An atomic or reduction: opcode (R312), width, and whether it returns. -/
  | atom (op : Nat) (wide ret : Bool)
  deriving DecidableEq, Repr

/-- What holds a path before its next instruction (R120). The instruction at the path's PC has issued and is not
complete, or, for hdr, the clause header's waits are not met. -/
inductive Wait where
  /-- Nothing: the path may issue. -/
  | ready
  /-- A clause header's wait fields (R210), or WAITC (R314): thresholds of CPY, MTX, GTH, DSH, 15 no wait. -/
  | counters (hdr : Bool) (cpy mtx gth dsh : Nat)
  | warv (n : Nat)
  /-- WAITA or WAITAE (R315): the registers that its last-read bit releases; the positions still testing, each with its
  address, its location or none, and its comparison value; and of them those whose test waits for a miss-status entry (R119). -/
  | waita (eq : Bool) (scope : Nat) (last : List Nat) (tests : List (Nat × Nat × Option Nat × Word)) (rej : List Nat)
  | sleep (untilCycle : Nat)
  /-- REORD (R33): key width, key specifier, and the number of the closed collection, 0 while it is open. -/
  | reord (k key set : Nat)
  | icinv (scope : Nat)
  /-- SPAWN waiting for queue room (R116): its blocks are in Wave.spawns. -/
  | spawn
  | mbrecv (mb off : Nat) (d : Nat)
  | mbsend (mb off : Nat)
  | dbgsend (w : Word)
  /-- RESREQ whose messages, of this number, have still to enter mailbox 15 (R319). -/
  | resreq (id : Nat)
  /-- GSUB waiting for Canopy (R358): the image's address, D, and KTAB as it stood at issue (R66). -/
  | gsub (addr : Nat) (d : Nat) (ktab : DWord)
  | gwait
  | trel
  | tlwait (t : Nat) (h : DWord) (d : Nat)
  /-- An atomic with ACQ or AR: entries of the SQ numbered lo to hi must have been performed (R173). -/
  | atom (lo hi : Nat)
  /-- A memory instruction some of whose threads were rejected (R119): what it does, its fields, the SQ number of its
  first entry, and the accesses still to be made. -/
  | mshr (act : MemAct) (x : FM) (grp : Nat) (todo : List Access)
  /-- A NEVAL or TEXN with groups still to enter Baton (R337). -/
  | baton (id : Nat)
  /-- Held at issue: queue full or counter at 255 (R118), tile busy (R60), deposit held (R154), or a register
  pending in the scoreboard (R25). It issues again when the cause is gone. -/
  | stall
  deriving DecidableEq, Repr

/-- A path of a wave (R26). -/
structure Path where
  mask : Mask
  pc : Nat
  code : Option Clause
  wait : Wait
  /-- R212: the clause to fetch again so that the path resumes inside it, waits not tested: its header and COUNT. -/
  resume : Option (Nat × Nat)
  deriving DecidableEq, Repr

/-- An entry of the divergence stack (R26). fromB says on which path of the entry below it was pushed. -/
structure Pair where
  join : Nat
  a : Path
  b : Path
  arrA : Bool
  arrB : Bool
  fromB : Bool
  deriving DecidableEq, Repr

/-- The wave CSRs 0x000 to 0x023 that hold state of their own (R62). -/
structure Csrs where
  wstat : DWord
  wctl : DWord
  tcause : DWord
  tepc : DWord
  tval : DWord
  tmaska : DWord
  tmaskb : DWord
  tfmask : DWord
  tstk : DWord
  tscr0 : DWord
  tscr1 : DWord
  tscr2 : DWord
  tscr3 : DWord
  brtab : DWord
  whtab : DWord
  smtab : DWord
  tvec : DWord
  privb : DWord
  resmask : DWord
  watch0a : DWord
  watch0c : DWord
  watch1a : DWord
  watch1c : DWord
  deriving DecidableEq, Repr

/-- What an SQ entry does when it leaves the SQ (R170 move 2). -/
inductive SqKind where
  | store
  /-- An atomic or reduction: its opcode (R312), operands, destination register and %tid, if it returns. -/
  | atom (op : Nat) (wide : Bool) (b c : DWord) (dst : Option (Nat × Nat))
  /-- A DEPO's deposit (R316): the target value. -/
  | depo (target : Nat)
  deriving DecidableEq, Repr

/-- An entry of the store queue (R166). Each byte is a location, a bit mask (R391) and a value. -/
structure SqEntry where
  seq : Nat
  /-- First entry of the same instruction. -/
  grp : Nat
  kind : SqKind
  bytes : List (Nat × Byte × Byte)
  scope : Nat
  rel : Bool
  acq : Bool
  /-- R171, second condition: dirty copies (view, location) still to reach the scope's level. -/
  toks : List (Nat × Nat)
  /-- Virtual address and poison source, for faults at drain. -/
  va : Nat
  deriving DecidableEq, Repr

/-- A pending completion fault, WATCH, STEP or save trap (R287). -/
structure Pend where
  code : Nat
  cls : Nat
  tval : DWord
  fmask : Mask
  pathB : Bool
  /-- Raised by MDRAIN or MFILL in a save or restore handler (R324). -/
  handler : Bool := false
  deriving DecidableEq, Repr

/-- The hardware save area of a trap (R32): the stack, the cause as taken, and for PREEMPT save or restore. -/
structure Saved where
  base : Path
  stack : List Pair
  code : Nat
  pathB : Bool
  restore : Bool
  deriving DecidableEq, Repr

/-- An entry of a Dash replay list (R350): base, CL bit, first row, rows. -/
structure DashEnt where
  a : Nat
  cl : Bool
  row0 : Nat
  n : Nat
  deriving DecidableEq, Repr

/-- A cluster's Dash array (R349). Cells (row * 128 + column), outputs and winners read 1023, 1023 and 255 where not
listed. -/
structure Dash where
  holder : Option Nat
  /-- The holder is a workgroup placed again, whose resuming ERET has still to take the grant (R356). -/
  reserved : Bool
  cells : Tab Nat
  w : Nat
  out : Tab Nat
  win : Tab Nat
  maxMode : Bool
  lwin : Nat
  replay : List DashEnt
  loaded : Bool
  max : Bool
  deriving DecidableEq, Repr

/-- A kernel-table entry as read (R133). -/
structure KEnt where
  entry : Nat
  psz : Nat
  strict : Bool
  dash : Bool
  waves : Nat
  tiles : Nat
  scratch : Nat
  vregs8 : Nat
  widthCode : Nat
  brtab : DWord
  whtab : DWord
  smtab : DWord
  tvec : DWord
  privBase : Nat
  deriving DecidableEq, Repr

/-- What a workgroup is (R20). A child carries its root tile task. -/
inductive WgKind where
  | pacer
  | task (g p k : Nat)
  | child (g p k : Nat)
  deriving DecidableEq, Repr

/-- A child waiting to enter a spawn queue, or in one (R36, R116). -/
structure Child where
  part : Nat
  g : Nat
  p : Nat
  k : Nat
  ent : KEnt
  kbase : Nat
  kidx : Nat
  depth : Nat
  tilex : Nat
  tiley : Nat
  arg0 : Word
  arg1 : Word
  deriving DecidableEq, Repr

/-- An engine operation that has issued and not completed (R117, R323). vals are the register operands read at issue,
one list per position. -/
structure EngOp where
  id : Nat
  wave : Nat
  core : Nat
  /-- Opcode in class ENG and the instruction's fields. -/
  op : Nat
  x : FE
  mask : Mask
  started : Bool
  seq : Nat
  /-- Operands held once for the wave. -/
  a : DWord
  b : DWord
  d : DWord
  /-- Operand registers by position. -/
  vals : List (Nat × List Word)
  /-- Record words or format block read at issue. -/
  recd : List DWord
  /-- Copies (view, location) that its release at a scope above WG has still to carry up: those dirty at its issue, and those
  that older entries of its wave leave (R171, R174). -/
  toks : List (Nat × Nat)
  deriving DecidableEq, Repr

/-- A spawn begun and not complete (R116): stack depth, path and PC of the instruction, and its blocks not yet entered,
by core. A reissue after a freeze enters only these (R44), byAddr those of SPAWN.AT. -/
structure SpawnSt where
  depth : Nat
  pathB : Bool
  pc : Nat
  left : List (Nat × List Child)
  byAddr : Bool
  deriving DecidableEq, Repr

/-- A wave, held at its slot (R10). -/
structure Wave where
  wg : Nat
  num : Nat
  /-- One per position, 0 to width - 1. -/
  threads : List Thread
  s : Tab Word
  /-- s registers whose parity fails (R97). -/
  sbad : List Nat
  forms : Tab Form
  base : Path
  stack : List Pair
  csr : Csrs
  acnt : Nat
  cpy : Nat
  mtx : Nat
  gth : Nat
  dsh : Nat
  sq : List SqEntry
  saved : Option Saved
  /-- Pending completion faults in order of arrival, then WATCH, STEP, save trap (R287). -/
  faults : List Pend
  watch : Option Pend
  step : Option Pend
  save : Bool
  halted : Bool
  frozen : Bool
  /-- R46: a freeze has been asked for. -/
  freezing : Bool
  /-- REORD (R33): the cycle at which the wave parked. -/
  parkedAt : Nat
  /-- The device cycle at which the workgroup was placed: R25's age, since CLK differs from it by a constant. -/
  age : Nat
  /-- YIELD (R297): one more than the cycle of the wave's last YIELD, 0 before the first. -/
  yieldAt : Nat
  /-- The device cycle from which the operands of the wave's next instruction are free after its last issue (R25, entry 59). -/
  freeAt : Nat
  /-- WSTAT.HFAULT was set by a completion that no wait on GTH has ordered since (R367). -/
  hfOpen : Bool
  /-- Deposits to this wave held by its full ACNT, by depositor (the number of its SQ), oldest first (R154). -/
  heldDeps : List Nat
  /-- Deposits that arrived while the wave was parked at REORD (R35), by depositor. -/
  parkedDeps : List Nat
  /-- Spawns begun and not complete, oldest first (R116). -/
  spawns : List SpawnSt
  /-- Abandoned TRACE operations (R45). -/
  abandoned : List EngOp
  /-- Completion faults of the drain at a freeze, taken after the restoring ERET (R45). -/
  drainFaults : List Pend
  /-- R324: between the pre-emption freeze and the ERET that ends the restore handler. -/
  span : Bool
  /-- Dash state saved at eviction (R356). -/
  dashSave : Option Dash
  deriving DecidableEq, Repr

/-- A workgroup placed on a core. Tiles are keyed tile * 1024 + word and read 0 where not listed. -/
structure Wg where
  part : Nat
  core : Nat
  kind : WgKind
  ent : KEnt
  kbase : Nat
  kidx : Nat
  frame : Nat
  depth : Nat
  tilex : Nat
  tiley : Nat
  arg0 : Word
  arg1 : Word
  /-- First scratch granule (R111). -/
  scr : Nat
  tiles : Tab Word
  /-- Tile words whose parity fails (R97). -/
  tbad : List Nat
  /-- Slot keys of its waves that have not ended. -/
  slots : List Nat
  age : Nat
  /-- The core whose spawn queue a child left (R38). -/
  home : Nat
  deriving DecidableEq, Repr

/-- A row of a Baton tile (R337): operation, position, inputs as FP16. -/
structure Row where
  op : Nat
  pos : Nat
  ins : List (BitVec 16)
  deriving DecidableEq, Repr

/-- A Baton tile, filling or dispatched (R337). -/
structure BTile where
  id : Nat
  core : Nat
  whtab : DWord
  handle : Nat
  rows : List Row
  openedAt : Nat
  dispatched : Bool
  /-- Results of a dispatched tile's rows: valid handle, outputs. -/
  outs : List (Bool × List Word)
  fault : Option Pend
  deriving DecidableEq, Repr

/-- What a Baton operation still waits for and has received (R338): outputs per position, validity. -/
structure BRes where
  op : Nat
  /-- WHTAB as the instruction read it at its issue (R337). -/
  whtab : DWord
  outs : List (Nat × Bool × List Word)
  /-- Positions of rows still to come. -/
  left : Nat
  /-- Groups still to enter (R337): handle and positions with inputs. -/
  waiting : List (Nat × List Row)
  fault : List Pend
  /-- Positions whose handle was invalid, with it. -/
  invalid : List (Nat × Nat)
  deriving DecidableEq, Repr

/-- The SQ entries of a wave that has ended, which still drain (R170); root is the workgroup's kind. -/
structure Orphan where
  core : Nat
  wg : Nat
  part : Nat
  num : Nat
  root : WgKind
  sq : List SqEntry
  deriving DecidableEq, Repr

/-- A wave that waits for miss-status entries (R119), and how many its rejected lines still need. -/
structure MWait where
  wave : Nat
  need : Nat
  deriving DecidableEq, Repr

/-- A core (R12). -/
structure Core where
  perf0 : DWord
  perf1 : DWord
  perf2 : DWord
  perf3 : DWord
  /-- Miss-status entries in use: wave and line (R119). -/
  mshr : List (Nat × Nat)
  mwait : List MWait
  spawnq : List Child
  icache : Tab Word
  /-- By slice, one more than the wave slot served last (R25). -/
  last : Tab Nat
  /-- Invalidations that a freeze has left to run to their end (R44): partition and scope. -/
  icinv : List (Nat × Nat)
  deriving DecidableEq, Repr

/-- A copy of the bits of one byte location held by a view (R166, R391): value, bits held, bits dirty. -/
structure VCell where
  val : Byte
  has : Byte
  dirty : Byte
  deriving DecidableEq, Repr

/-- A pass entry with its kernel entry (R141). -/
structure PassEnt where
  ent : KEnt
  kidx : Nat
  cost : Nat
  maxInfl : Nat
  defer : Bool
  early : Bool
  prio : Nat
  gh : Nat
  gw : Nat
  cmask : DWord
  stl : Nat
  sthr : DWord
  writes : List Nat
  deriving DecidableEq, Repr

/-- A resource entry (R142), with what its record adds. -/
structure ResEnt where
  height : Nat
  width : Nat
  home : Nat
  lth : Nat
  ltw : Nat
  enc : Nat
  recidx : Nat
  ovtiles : Nat
  slots : Nat
  /-- Bytes of one tile (R85), channels and interleave taken from the record (R142). -/
  tileBytes : Nat
  chn : Nat
  ilv : Nat
  ovOff : Nat
  deriving DecidableEq, Repr

/-- A stencil entry (R143). -/
structure Sten where
  pass : Nat
  res : Nat
  dx : Int
  dy : Int
  deriving DecidableEq, Repr

/-- What Canopy keeps of a graph image (R140). -/
structure Image where
  ashare : Nat
  dsext : Nat
  ovbase : Nat
  ctl : Nat
  cval : DWord
  passes : List PassEnt
  ress : List ResEnt
  stens : List Sten
  /-- The KTAB value the image was checked against (R66). -/
  kbase : Nat
  deriving DecidableEq, Repr

/-- A tile task from its first placement test on (R105, R106). -/
inductive TaskSt where
  /-- Failed the storage test (R158). -/
  | held
  | placed (wg : Nat)
  | retired
  deriving DecidableEq, Repr

/-- The state Canopy keeps of a tile task. -/
structure Task where
  st : TaskSt
  hinted : Bool
  /-- TREL: the closing point has been taken (R181), with the waiting wave. -/
  closing : Bool
  closed : Bool
  /-- The SQ number at the closing point: the closure waits for the entries below it. -/
  closeAt : Nat
  /-- Cores on which waves of the task and its descendants have run (R180). -/
  cores : List Nat
  /-- Where and when its last workgroup so far ended: events of one core keep their order (R157). -/
  ended : Option (Nat × Nat)
  deriving DecidableEq, Repr

/-- The state of a pass (R104, R108, R115). -/
structure PassSt where
  started : Bool
  /-- TIMEBASE units when the pass entered the queue or last placed (R108). -/
  queued : Option Nat
  level : Nat
  lastCore : Option Nat
  tasks : Tab Task
  deriving DecidableEq, Repr

/-- Tile scoreboard state (R156); n is the current last-reader count. -/
inductive TileState where
  | empty
  | writing
  | retired
  | freed
  deriving DecidableEq, Repr

/-- A tile of a resource (R156). -/
structure TileSt where
  st : TileState
  count : Nat
  /-- Ring slot, or overflow tile when ov is set. -/
  store : Option (Bool × Nat)
  deriving DecidableEq, Repr

/-- A resource (R158): its tiles by index y * gridwidth + x. -/
structure ResSt where
  tiles : List TileSt
  stalls : Nat
  deriving DecidableEq, Repr

/-- How far a graph has ended (R113, R159, R359). -/
inductive GPhase where
  | live
  /-- GSTOP: tasks in flight drain. -/
  | stopping
  /-- Teardown by event kind (R101), with its message bytes once known. -/
  | teardown (kind : Nat)
  | completed
  | torn
  deriving DecidableEq, Repr

/-- A graph slot (R103). -/
structure Graph where
  image : Image
  passes : List PassSt
  ress : List ResSt
  phase : GPhase
  /-- The slot is still taken (R103). -/
  live : Bool
  /-- R381: an access to a HOST page was made while the link was up. -/
  host : Bool
  /-- First pass fault, as its event message (R101, R112). -/
  faultMsg : List Byte
  /-- The core whose pass fault began the teardown, when, and whether the graph was stopping then: what this core had sent
  before still counts (R157). -/
  tearAt : Option (Nat × Nat × Bool)
  deriving DecidableEq, Repr

/-- An evicted workgroup (R46): its waves in ascending wave number, as (old slot key, wave). -/
structure Evicted where
  id : Nat
  wg : Wg
  waves : List (Nat × Wave)
  deriving DecidableEq, Repr

/-- PSTAT.STATE (R372). -/
inductive PState where
  | free
  | running
  | noPacer
  | preempting
  | evicted
  deriving DecidableEq, Repr

/-- A destruction or reset that waits for the partition's waves to end (R374). -/
inductive Ending where
  | none
  | destroy
  | reset
  deriving DecidableEq, Repr

/-- What a message that waits for mailbox 15 comes from (R101, R319): a graph slot's event, or a RESREQ by number. -/
inductive EvSrc where
  | graph (g : Nat)
  | resreq (id : Nat)
  deriving DecidableEq, Repr

/-- A partition: its block (R372), Canopy state, queues and timelines. -/
structure Part where
  state : PState
  err : Nat
  clmask : DWord
  hwsh : DWord
  gdsh : DWord
  ptroot : DWord
  ktabBlk : DWord
  allot : DWord
  vf0 : DWord
  vf1 : DWord
  ktab : DWord
  pwrbud : BitVec 4
  /-- The multiple of 10 µs at which PWRBUD was last refreshed, or the last one before the creation (R164). -/
  budgetAt : Nat
  timelines : Tab DWord
  /-- Mailboxes 0 to 15, each entry 64 bytes, oldest first. -/
  mbox : Tab (List (List Byte))
  dbg : List Word
  mbdrop : Nat
  /-- An invalidation is running (R380). -/
  tlbinv : Bool
  graphs : Tab Graph
  /-- Messages waiting for mailbox 15, in the order they arose (R101, R319). -/
  events : List (EvSrc × List Byte)
  evicted : List Evicted
  ending : Ending
  /-- The pacer has ended (R375). -/
  pacerGone : Bool
  /-- TIMEBASE units spent evicted, for R108. -/
  evictedAt : Option Nat
  deriving DecidableEq, Repr

/-- What the next instructions may choose (the MODEL's own): levels filled by reads (move 4), old translations, old
code words, which of unequal 4 MiB leaves, and what an engine sees of younger stores (R91, R94, R96, R170, R176). -/
structure Choice where
  fill : BitVec 4
  oldTlb : Bool
  oldCode : BitVec 16
  leaf : Nat
  /-- Bit 64 * (i % 2^20) + k % 64: an engine's read of its element i sees the k-th younger entry of its wave that is still queued
  (R176). -/
  young : Nat
  /-- A CSRR reads WSTAT.HFAULT as it was before a completion that no wait orders before it (R367). -/
  oldFlag : Bool
  deriving DecidableEq, Repr

/-- The MODEL's own: a move still to make. -/
inductive Move where
  | issue (w : Nat) (pathB : Bool)
  | dual (w : Nat)
  | event (i : Instr)
  | tick (n : Nat)
  /-- A host read of a register or of BAR bytes (R371): function, offset, bytes. -/
  | read (fn off n : Nat)
  | choose (c : Choice)
  deriving DecidableEq, Repr

/-- DEVSTAT.STATE (R384). -/
inductive DevState where
  | boot
  | ready
  | recovery
  | fatal
  deriving DecidableEq, Repr

/-- A soft error in stored data (R97): structure code, location, correctable; and of an uncorrectable one the view whose copy
it struck, when it stands in a cached line of Heartwood, else storeView for the store itself (GDDR7, a ring or device scratch in
Heartwood, a scratchpad). -/
structure SErr where
  strct : Nat
  loc : Nat
  single : Bool
  view : Nat
  deriving DecidableEq, Repr

/-- What SErr.view shows for the SYSTEM view's own bytes: a number that no view has. -/
def storeView : Nat := 323

/-- The device outside the cores (R163, R384 to R388). -/
structure Dev where
  stat : DevState
  cycle : Nat
  /-- Clock in units of 100 MHz, 10 to 19 (R386). -/
  clock : Nat
  /-- TIMEBASE in units of 1/232792560 ns. -/
  time : Nat
  linkUp : Bool
  errgd : Nat
  errhw : Nat
  errsp : Nat
  errpar : Nat
  errue : DWord
  attnonce : Tab Byte
  attrep : Tab Byte
  attBusy : Bool
  /-- Nonce taken by the report being built (R385). -/
  attUse : Tab Byte
  flash : Tab Byte
  running : Tab Byte
  window : Tab Byte
  /-- MSI-X vectors fired, oldest first: function (0 PF, v + 1 VF v) and vector (R378). -/
  msix : List (Nat × Nat)
  staging : Tab Byte
  hostData : List Byte
  serr : List SErr
  deriving DecidableEq, Repr

/-- The whole machine. -/
structure State where
  mem : Memory
  /-- Views WG (core c at c), CLUSTER (256 + c), DIE (320 + d), DEVICE (322) (R166). -/
  views : Tab (Tab VCell)
  /-- TLBs: cores at 0 to 255, dies at 256 and 257; key part * 2^40 + page (R94). -/
  tlbs : Tab (Tab DWord)
  waves : Tab Wave
  /-- SQs of ended waves, by number from 24576 on. -/
  orph : Tab Orphan
  wgs : Tab Wg
  cores : Tab Core
  dash : Tab Dash
  parts : Tab Part
  ops : List EngOp
  btiles : List BTile
  bres : List BRes
  dev : Dev
  nextId : Nat
  /-- The MODEL's own fields. -/
  cur : Nat
  curB : Bool
  choice : Choice
  agenda : List Move
  fresh : Nat
  seq : Nat
  epoch : Nat
  deriving DecidableEq, Repr

/-- A core as reset leaves it. -/
def Core.init : Core :=
  { perf0 := 0, perf1 := 0, perf2 := 0, perf3 := 0, mshr := [], mwait := [], spawnq := [], icache := [], last := [], icinv := [] }

/-- A Dash array without a grant, every item at its reset value (R349). -/
def Dash.init : Dash :=
  { holder := none, reserved := false, cells := [], w := 1023, out := [], win := [], maxMode := false, lwin := 1023, replay := [],
    loaded := false, max := false }

/-- A partition block with every register 0 (R372). -/
def Part.init : Part :=
  { state := .free, err := 0, clmask := 0, hwsh := 0, gdsh := 0, ptroot := 0, ktabBlk := 0, allot := 0, vf0 := 0,
    vf1 := 0, ktab := 0, pwrbud := 15, budgetAt := 0, timelines := [], mbox := [], dbg := [], mbdrop := 0, tlbinv := false,
    graphs := [], events := [], evicted := [], ending := .none, pacerGone := false, evictedAt := none }

def Choice.init : Choice := { fill := 0, oldTlb := false, oldCode := 0, leaf := 0, young := 0, oldFlag := false }

def Dev.init : Dev :=
  { stat := .boot, cycle := 0, clock := 19, time := 0, linkUp := true, errgd := 0, errhw := 0, errsp := 0, errpar := 0,
    errue := 0, attnonce := [], attrep := [], attBusy := false, attUse := [], flash := [], running := [], window := [],
    msix := [], staging := [], hostData := [], serr := [] }

/-- The machine right after device reset (R388): every partition destroyed, every VF unbound, CLK and TIMEBASE 0, the
boot ROM about to run (DEVSTAT 0), memory with nothing listed. -/
def State.reset : State :=
  { mem := [], views := [], tlbs := [], waves := [], orph := [], wgs := [], cores := [], dash := [], parts := [], ops := [],
    btiles := [], bres := [], dev := Dev.init, nextId := 0, cur := 0, curB := false, choice := Choice.init,
    agenda := [], fresh := 0, seq := 0, epoch := 0 }

end Sys2Proof.Machine
end

