-- ==== Sys2Proof/Machine/Tab.lean ====
section
/-! DEFINITION. Sparse arrays: reading, writing and removing an entry, and the canonical form (keys strictly rising, no
entry equal to the default). The memory of the SYSTEM view is one of them, with default 0. -/

namespace Sys2Proof.Machine

/-- The entry at a key, if it is listed. -/
def tabGet? {α : Type} : Tab α → Nat → Option α
  | [], _ => none
  | (j, v) :: t, k => if k = j then some v else tabGet? t k

/-- The entry at a key, or the default. -/
def tabGet {α : Type} (d : α) (t : Tab α) (k : Nat) : α := (tabGet? t k).getD d

/-- List an entry, in its place. -/
def tabPut {α : Type} : Tab α → Nat → α → Tab α
  | [], k, v => [(k, v)]
  | (j, u) :: t, k, v =>
    if k = j then (k, v) :: t else if k < j then (k, v) :: (j, u) :: t else (j, u) :: tabPut t k v

/-- Remove an entry. -/
def tabDel {α : Type} : Tab α → Nat → Tab α
  | [], _ => []
  | (j, u) :: t, k => if k = j then tabDel t k else (j, u) :: tabDel t k

/-- Write an entry, listing it only when it differs from the default. -/
def tabSet {α : Type} [DecidableEq α] (d : α) (t : Tab α) (k : Nat) (v : α) : Tab α :=
  if v = d then tabDel t k else tabPut t k v

/-- Change an entry that is listed. -/
def tabMod {α : Type} (t : Tab α) (k : Nat) (f : α → α) : Tab α :=
  match tabGet? t k with
  | some v => tabPut t k (f v)
  | none => t

/-- Keys strictly rise, from above a bound. -/
def tabRising {α : Type} : Option Nat → Tab α → Bool
  | _, [] => true
  | lo, (j, _) :: t => (match lo with | none => true | some b => decide (b < j)) && tabRising (some j) t

/-- The canonical form with a default. -/
def tabWf {α : Type} [DecidableEq α] (d : α) (t : Tab α) : Bool := tabRising none t && t.all (fun e => decide (e.2 ≠ d))

/-- What a byte of memory that nothing has written reads as. Scratchpads, device scratch and ring slots are zero where
the spec zeroes them (R73). GDDR7 at power-up is undefined in the spec and host memory has no stated contents: 0 is a
DESIGN CHOICE (entry 1), unsafe. -/
def unlistedByte : Byte := 0

/-- The canonical form of the memory. -/
def memoryWf (m : Memory) : Bool := tabWf unlistedByte m

/-- One byte of the SYSTEM view. -/
def memByte (m : Memory) (a : Nat) : Byte := tabGet unlistedByte m a

/-- Write one byte of the SYSTEM view, keeping the canonical form. -/
def memPut (m : Memory) (a : Nat) (v : Byte) : Memory := tabSet unlistedByte m a v

/-- Remove every byte from lo up to hi, which then read as unlisted. -/
def memClear (m : Memory) (lo hi : Nat) : Memory := m.filter (fun c => decide (c.1 < lo ∨ hi ≤ c.1))

/-- Change one entry of a list. -/
def listMod {α : Type} (l : List α) (i : Nat) (f : α → α) : List α :=
  match l, i with
  | [], _ => []
  | x :: t, 0 => f x :: t
  | x :: t, i + 1 => x :: listMod t i f

/-- Insert into a list sorted by a key, after the entries with an equal key. -/
def insBy {α : Type} (key : α → Nat) (x : α) : List α → List α
  | [] => [x]
  | y :: t => if key x < key y then x :: y :: t else y :: insBy key x t

/-- A stable sort by a key. -/
def sortBy {α : Type} (key : α → Nat) : List α → List α
  | [] => []
  | x :: t => insLow key x (sortBy key t)
where
  /-- Insert before the entries with an equal key. -/
  insLow {α : Type} (key : α → Nat) (x : α) : List α → List α
    | [] => [x]
    | y :: t => if key y < key x then y :: insLow key x t else x :: y :: t

end Sys2Proof.Machine
end

