-- ==== Sys2Proof/Machine/Bits.lean ====
section
/-! DEFINITION. Bit fields, sign extension, byte order and masks (00_scope.md R4, R7). -/

namespace Sys2Proof.Machine

/-- Bits [hi:lo] of a natural number. -/
def bits (n lo len : Nat) : Nat := (n >>> lo) % 2 ^ len

/-- A bit of a natural number. -/
def bitN (n k : Nat) : Bool := n.testBit k

/-- The n low bits of x read as two's complement. -/
def sextN (n x : Nat) : Int := if x.testBit (n - 1) then (x % 2 ^ n : Nat) - (2 ^ n : Nat) else ((x % 2 ^ n : Nat) : Int)

/-- SExt of R7: the n-bit field, sign-extended to 32 bits. -/
def sext32 (n x : Nat) : Word := BitVec.ofInt 32 (sextN n x)

/-- Clamp an integer. -/
def clampI (lo hi x : Int) : Int := if x < lo then lo else if hi < x then hi else x

/-- Sat32 of R7. -/
def sat32 (x : Int) : Word := BitVec.ofInt 32 (clampI (-2147483648) 2147483647 x)

/-- SatU32 of R230. -/
def satU32 (x : Int) : Word := BitVec.ofInt 32 (clampI 0 4294967295 x)

/-- Little-endian value of bytes (R4). -/
def natOfBytes : List Byte → Nat
  | [] => 0
  | b :: t => b.toNat + 256 * natOfBytes t

/-- n bytes of a value, lowest address first. -/
def bytesOf : Nat → Nat → List Byte
  | 0, _ => []
  | n + 1, x => BitVec.ofNat 8 x :: bytesOf n (x / 256)

/-- The positions of a mask, ascending. -/
def positions (m : Mask) : List Nat := (List.range 64).filter (fun q => m.getLsbD q)

/-- A mask of one position. -/
def posBit (q : Nat) : Mask := (1#64) <<< q

/-- The mask of a list of positions. -/
def maskOf (l : List Nat) : Mask := l.foldl (fun m q => m ||| posBit q) 0

/-- The numbers of the bits set in a doubleword. -/
def setBits (d : DWord) : List Nat := (List.range 64).filter (fun k => d.getLsbD k)

/-- High and low words of a doubleword. -/
def loWord (d : DWord) : Word := d.extractLsb' 0 32
def hiWord (d : DWord) : Word := d.extractLsb' 32 32

/-- A doubleword of two words, low first. -/
def dword (lo hi : Word) : DWord := (hi ++ lo : BitVec 64)

/-- Round up to a multiple of m. -/
def roundUp (n m : Nat) : Nat := (n + m - 1) / m * m

/-- Every one of a list of checks, the first failure standing. -/
def firstError {ε : Type} : List (Except ε Unit) → Except ε Unit
  | [] => .ok ()
  | .ok _ :: t => firstError t
  | .error e :: _ => .error e

/-- A check that fails with an error. -/
def orElseErr {ε : Type} (c : Bool) (e : ε) : Except ε Unit := if c then .ok () else .error e

/-- The first result of a list that is there. -/
def firstSome {α β : Type} (f : α → Option β) : List α → Option β
  | [] => none
  | x :: t => match f x with | some y => some y | none => firstSome f t

/-- Exceptions in a left fold. -/
def foldE {ε α β : Type} (f : β → α → Except ε β) : β → List α → Except ε β
  | b, [] => .ok b
  | b, x :: t => match f b x with | .ok b' => foldE f b' t | .error e => .error e

end Sys2Proof.Machine
end

