-- ==== Sys2Proof/Machine/Waves.lean ====
section
/-! DEFINITION. Waves, paths and the register state: the one place where vector, scalar, predicate and special
registers are read and written (03_registers.md R48 to R58). -/

namespace Sys2Proof.Machine

/-- Core, cluster and die of a slot key (R10). -/
def coreOf (w : Nat) : Nat := w / Config.slotsPerCore
def clusterOf (core : Nat) : Nat := core / 4
def dieOf (core : Nat) : Nat := core / 128

def getWave (s : State) (w : Nat) : Option Wave := tabGet? s.waves w
def setWave (s : State) (w : Nat) (v : Wave) : State := { s with waves := tabPut s.waves w v }
def updWave (s : State) (w : Nat) (f : Wave → Wave) : State := { s with waves := tabMod s.waves w f }
def getWg (s : State) (g : Nat) : Option Wg := tabGet? s.wgs g
def updWg (s : State) (g : Nat) (f : Wg → Wg) : State := { s with wgs := tabMod s.wgs g f }
def getCore (s : State) (c : Nat) : Core := tabGet Core.init s.cores c
def setCore (s : State) (c : Nat) (x : Core) : State := { s with cores := tabSet Core.init s.cores c x }
def getDash (s : State) (c : Nat) : Dash := tabGet Dash.init s.dash c

/-- A workgroup holds an array's grant: one that is placed again takes it at its resuming ERET (R356). -/
def dashOwned (d : Dash) (wg : Nat) : Bool := d.holder == some wg && !d.reserved
def setDash (s : State) (c : Nat) (x : Dash) : State := { s with dash := tabSet Dash.init s.dash c x }
def getPart (s : State) (n : Nat) : Part := tabGet Part.init s.parts n
def setPart (s : State) (n : Nat) (x : Part) : State := { s with parts := tabSet Part.init s.parts n x }
def updPart (s : State) (n : Nat) (f : Part → Part) : State := setPart s n (f (getPart s n))

/-- Positions that hold an unexited thread (R20). -/
def liveMask (v : Wave) : Mask :=
  maskOf ((List.range v.threads.length).filter (fun q => (v.threads[q]?.map (·.live)).getD false))

/-- The path that issues: path A or B of the top pair unless it has arrived, or the whole wave (R26, R27). -/
def pathOf (v : Wave) (pb : Bool) : Option Path :=
  match v.stack with
  | [] => if pb then none else some v.base
  | p :: _ => if pb then (if p.arrB then none else some p.b) else (if p.arrA then none else some p.a)

def setPath (v : Wave) (pb : Bool) (x : Path) : Wave :=
  match v.stack with
  | [] => { v with base := x }
  | p :: t => if pb then { v with stack := { p with b := x } :: t } else { v with stack := { p with a := x } :: t }

/-- Active threads of a path: its mask less the exited threads. -/
def activeMask (v : Wave) (x : Path) : Mask := x.mask &&& liveMask v

/-- The issuing path with everything it stands on. -/
structure Ctx where
  w : Nat
  wave : Wave
  g : Wg
  pb : Bool
  path : Path
  mask : Mask

def Ctx.core (c : Ctx) : Nat := coreOf c.w

/-- The path named by cur, when it exists, its wave is neither halted nor frozen, and it has an active thread (R24). -/
def ctxAt (s : State) (w : Nat) (pb : Bool) : Option Ctx :=
  match getWave s w with
  | none => none
  | some v =>
    match getWg s v.wg, pathOf v pb with
    | some g, some x =>
      if v.halted || v.frozen || activeMask v x == 0 then none
      else some { w := w, wave := v, g := g, pb := pb, path := x, mask := activeMask v x }
    | _, _ => none

def threadAt (v : Wave) (q : Nat) : Option Thread := v.threads[q]?

def tidAt (v : Wave) (q : Nat) : Nat := ((threadAt v q).map (·.tid)).getD 0

/-- Active positions in ascending %tid (R7). -/
def byTid (v : Wave) (m : Mask) : List Nat := sortBy (tidAt v) (positions m)

/-- The active thread with the lowest %tid (R285, R306). -/
def lowestTid (v : Wave) (m : Mask) : Nat := (byTid v m).headD 0

/-- A v register of a position; none when unwritten (R50). -/
def vReg (v : Wave) (q r : Nat) : Option Word :=
  match threadAt v q with
  | none => none
  | some t => tabGet? t.v r

def setVReg (v : Wave) (q r : Nat) (x : Word) : Wave :=
  { v with threads := listMod v.threads q (fun t => { t with v := tabPut t.v r x, bad := t.bad.filter (· != r) }) }

/-- Release a v register of a position (R51). -/
def dropVReg (v : Wave) (q r : Nat) : Wave :=
  { v with threads := listMod v.threads q (fun t => { t with v := tabDel t.v r, bad := t.bad.filter (· != r) }) }

/-- A scalar register (R55). -/
def sReg (v : Wave) (n : Nat) : Word := tabGet 0 v.s n
def setSReg (v : Wave) (n : Nat) (x : Word) : Wave := { v with s := tabSet 0 v.s n x, sbad := v.sbad.filter (· != n) }
def sPair (v : Wave) (n : Nat) : DWord := dword (sReg v n) (sReg v (n + 1))
def setSPair (v : Wave) (n : Nat) (x : DWord) : Wave := setSReg (setSReg v n (loWord x)) (n + 1) (hiWord x)

/-- A predicate of a position; p0 is true (R56). -/
def predReg (v : Wave) (q k : Nat) : Bool :=
  if k = 0 then true else ((threadAt v q).map (fun t => t.p.getLsbD k)).getD false

/-- Write a predicate of a position; writes to p0 are ignored (R56). -/
def setPred (v : Wave) (q k : Nat) (b : Bool) : Wave :=
  if k = 0 then v
  else { v with threads := listMod v.threads q (fun t =>
    { t with p := if b then t.p ||| ((1#8) <<< k) else t.p &&& ~~~((1#8) <<< k) }) }

def widthOf (v : Wave) : Nat := v.threads.length

/-- The pass index of a workgroup's root task (R22). -/
def rootPass : WgKind → Nat
  | .pacer => 0
  | .task _ p _ => p
  | .child _ p _ => p

/-- %wg: the tile index of a tile task, 0 otherwise (R22). -/
def wgNumber : WgKind → Nat
  | .task _ _ k => k
  | _ => 0

/-- The graph slot of a workgroup's root task. -/
def rootGraph : WgKind → Option Nat
  | .pacer => none
  | .task g _ _ => some g
  | .child g _ _ => some g

/-- Root pass and tile index of a task or child. -/
def rootTask : WgKind → Option (Nat × Nat × Nat)
  | .pacer => none
  | .task g p k => some (g, p, k)
  | .child g p k => some (g, p, k)

/-- The specials 0x68 to 0x77 (R58, R22). -/
def special (w : Nat) (v : Wave) (g : Wg) (q n : Nat) : Word :=
  match n with
  | 0 => BitVec.ofNat 32 (tidAt v q)
  | 1 => BitVec.ofNat 32 (q % 16)
  | 2 => BitVec.ofNat 32 (q / 16)
  | 3 => BitVec.ofNat 32 v.num
  | 4 => BitVec.ofNat 32 (wgNumber g.kind)
  | 5 => BitVec.ofNat 32 g.tilex
  | 6 => BitVec.ofNat 32 g.tiley
  | 7 => BitVec.ofNat 32 (rootPass g.kind)
  | 8 => BitVec.ofNat 32 (coreOf w)
  | 9 => BitVec.ofNat 32 (clusterOf (coreOf w))
  | 10 => BitVec.ofNat 32 (dieOf (coreOf w))
  | 11 => BitVec.ofNat 32 (widthOf v)
  | 12 => BitVec.ofNat 32 (widthOf v * g.ent.waves)
  | 13 => BitVec.ofNat 32 g.depth
  | 14 => g.arg0
  | _ => g.arg1

/-- The constants 0x78 to 0x7E (R218). -/
def constant (n : Nat) : Word :=
  match n with
  | 0 => 0x00000000#32
  | 1 => 0x00000001#32
  | 2 => 0xFFFFFFFF#32
  | 3 => 0x3F800000#32
  | 4 => 0x3F000000#32
  | 5 => 0xBF800000#32
  | _ => 0x7F800000#32

/-- The kinds of specifier of R218. -/
inductive Spec where
  | v (n : Nat)
  | s (n : Nat)
  | p (n : Nat)
  | sp (n : Nat)
  | k (n : Nat)
  | lit
  deriving DecidableEq, Repr

def specOf (r : Reg) : Spec :=
  let n := r.toNat
  if n < 0x40 then .v n else if n < 0x60 then .s (n - 0x40) else if n < 0x68 then .p (n - 0x60)
  else if n < 0x78 then .sp (n - 0x68) else if n < 0x7F then .k (n - 0x78) else .lit

/-- The value of a specifier at a position; an unwritten v copy reads zero (R50). -/
def rdSpec (c : Ctx) (q : Nat) (r : Reg) (lit : Word) : Word :=
  match specOf r with
  | .v n => (vReg c.wave q n).getD 0
  | .s n => sReg c.wave n
  | .p n => if predReg c.wave q n then 1 else 0
  | .sp n => special c.w c.wave c.g q n
  | .k n => constant n
  | .lit => lit

/-- A pair operand (R231): registers, the constants 0, 1 and -1, or the literal sign-extended. -/
def rdPair (c : Ctx) (q : Nat) (r : Reg) (lit : Word) : DWord :=
  match specOf r with
  | .v n => dword ((vReg c.wave q n).getD 0) ((vReg c.wave q (n + 1)).getD 0)
  | .s n => sPair c.wave n
  | .k 1 => 1
  | .k 2 => 0xFFFFFFFFFFFFFFFF#64
  | .lit => lit.signExtend 64
  | _ => 0

/-- Whether a position's copy of a v register operand of n registers is unwritten (R50). -/
def unwritten (c : Ctx) (q : Nat) (r : Reg) (n : Nat) : Bool :=
  match specOf r with
  | .v k => (List.range n).any (fun i => (vReg c.wave q (k + i)).isNone)
  | _ => false

/-- Held once for the wave (R24): no v register, predicate, %tid, %lane or %beat. -/
def heldOnce (r : Reg) : Bool :=
  match specOf r with
  | .s _ => true
  | .sp n => decide (2 < n)
  | .k _ => true
  | .lit => true
  | _ => false

/-- Declared v registers: 8 G (R49). -/
def vCount (g : Wg) : Nat := 8 * g.ent.vregs8

/-- The v registers r to r + n - 1 lie within the declared count. -/
def vRange (g : Wg) (r : Reg) (n : Nat) : Bool := r.toNat < 0x40 && r.toNat + n ≤ vCount g

/-- A value operand is accepted (R49, R218, R231). -/
def valueOk (g : Wg) (r : Reg) (litOk : Bool) : Bool :=
  match specOf r with
  | .v n => decide (n < vCount g)
  | .lit => litOk
  | _ => true

/-- A pair operand is accepted (R231). -/
def pairOk (g : Wg) (r : Reg) (litOk : Bool) : Bool :=
  match specOf r with
  | .v n => n % 2 = 0 && n + 1 < vCount g
  | .s n => n % 2 = 0
  | .k n => n ≤ 2
  | .lit => litOk
  | _ => false

def predOk (r : Reg) : Bool := match specOf r with | .p _ => true | _ => false

/-- Predicate number of a specifier. -/
def predNum (r : Reg) : Nat := r.toNat - 0x60

/-- WCTL fields (R64). -/
def wStrict (v : Wave) : Bool := v.csr.wctl.getLsbD 0
def wStep (v : Wave) : Bool := v.csr.wctl.getLsbD 1
def wBken (v : Wave) : Bool := v.csr.wctl.getLsbD 2
def wWatch (v : Wave) : Bool := v.csr.wctl.getLsbD 3
def wTrap (v : Wave) : Bool := v.csr.wctl.getLsbD 4

/-- Set flags of WSTAT (R63): UR 0, OOB 1, NRES 2, NANRAY 3, HFAULT 4. -/
def setStat (v : Wave) (bit : Nat) : Wave :=
  { v with csr := { v.csr with wstat := v.csr.wstat ||| ((1#64) <<< bit) } }

def setStatIf (v : Wave) (b : Bool) (bit : Nat) : Wave := if b then setStat v bit else v

/-- Set bits of RESMASK (R68). -/
def setRes (v : Wave) (m : Mask) : Wave := { v with csr := { v.csr with resmask := v.csr.resmask ||| m } }

/-! Storage forms (R52, R53). -/

def formOf (v : Wave) (r : Nat) : Option Form := tabGet? v.forms r

def setForm (v : Wave) (r : Nat) (f : Option Form) : Wave :=
  match f with
  | some x => { v with forms := tabPut v.forms r x }
  | none => { v with forms := tabDel v.forms r }

/-- A uniform source (R52). -/
def uniformSrc (c : Ctx) (r : Reg) : Bool :=
  match specOf r with
  | .v n => formOf c.wave n == some .uniform && (positions (liveMask c.wave)).all (fun q => (vReg c.wave q n).isSome)
  | _ => heldOnce r

/-- The form a VEC instruction gives a v destination whose result is neither MOV of %tid nor an affine sum: UNIFORM when
every unexited thread is active and every source uniform, else FULL (R52). -/
def plainForm (c : Ctx) (srcs : List Reg) : Option Form :=
  if c.mask = liveMask c.wave && srcs.all (uniformSrc c) then some .uniform else none

/-- The registers of a pair operand, each of which must be uniform (R52). -/
def bothOf (r : Reg) : List Reg := match specOf r with | .v _ => [r, r + 1] | _ => [r]

/-- MOV's form (R52). -/
def movForm (c : Ctx) (a : Reg) : Option Form :=
  if c.mask = liveMask c.wave && a == 0x68 then some (.affine 0 1) else plainForm c [a]

/-- IADD's form (R52). -/
def iaddForm (c : Ctx) (a b : Reg) (lit : Word) : Option Form :=
  let aff (x y : Reg) : Option Form :=
    match specOf x with
    | .v n =>
      match formOf c.wave n with
      | some (.affine base stride) =>
        if uniformSrc c y then some (.affine (base + rdSpec c ((positions c.mask).headD 0) y lit) stride) else none
      | _ => none
    | _ => none
  if c.mask = liveMask c.wave then
    match aff a b with
    | some f => some f
    | none => match aff b a with | some f => some f | none => plainForm c [a, b]
  else none

end Sys2Proof.Machine
end

