-- ==== Sys2Proof/Machine/Views.lean ====
section
/-! DEFINITION. Locations, and the views of the ordering machine (08_ordering.md R166 to R172, R391): reading along a
path, writing into the lowest view, propagating, filling, dropping, acquiring. -/

namespace Sys2Proof.Machine

/-! Locations (R167). -/

def locHost (a : Nat) : Nat := 2 ^ 60 + a
def locScr (core off : Nat) : Nat := 2 ^ 61 + core * 2 ^ 20 + off
def locDs (part g off : Nat) : Nat := 2 ^ 62 + (part * 4 + g) * 2 ^ 32 + off
def locRing (part g res off : Nat) : Nat := 2 ^ 63 + ((part * 4 + g) * 64 + res) * 2 ^ 32 + off

/-- HOST pages live in the SYSTEM view only, and scratchpad bytes have one copy (R167). -/
def singleCopy (loc : Nat) : Bool := decide (2 ^ 60 ≤ loc ∧ loc < 2 ^ 62)

def isHostLoc (loc : Nat) : Bool := decide (2 ^ 60 ≤ loc ∧ loc < 2 ^ 61)

def isScrLoc (loc : Nat) : Bool := decide (2 ^ 61 ≤ loc ∧ loc < 2 ^ 62)

/-- The core of a scratchpad location. -/
def scrCore (loc : Nat) : Nat := (loc - 2 ^ 61) / 2 ^ 20

/-- Where an engine's read or write of a byte on a sparse page goes: it reads zero and is not written (R92). -/
def locNone : Nat := 2 ^ 62 - 1

/-! Views of a core's path (R166). Level 0 WG, 1 CLUSTER, 2 DIE, 3 DEVICE, 4 SYSTEM. -/

def viewAt (core level : Nat) : Nat :=
  match level with
  | 0 => core % 256
  | 1 => 256 + core % 256 / 4
  | 2 => 320 + core % 256 / 128
  | _ => 322

/-- The level of a view. -/
def levelOf (view : Nat) : Nat := if view < 256 then 0 else if view < 320 then 1 else if view < 322 then 2 else 3

/-- The parent of a view; none for DEVICE, whose parent is the SYSTEM view. -/
def parentOf (view : Nat) : Option Nat :=
  if view < 256 then some (256 + view / 4) else if view < 320 then some (320 + (view - 256) / 32)
  else if view < 322 then some 322 else none

/-- The level of a scope code (R168). -/
def scopeLevel (s : Nat) : Nat := if s ≤ 2 then 0 else s - 2

def noCell : VCell := { val := 0, has := 0, dirty := 0 }

def cellAt (s : State) (view loc : Nat) : VCell := tabGet noCell (tabGet [] s.views view) loc

/-- Write a view's cell; a cell that holds nothing is not listed. -/
def putCell (s : State) (view loc : Nat) (c : VCell) : State :=
  let t := tabGet [] s.views view
  { s with views := tabSet [] s.views view (if c.has = 0 then tabDel t loc else tabPut t loc c) }

/-- The bits of v under mask m, the other bits of old. -/
def mergeBits (old v m : Byte) : Byte := (old &&& ~~~m) ||| (v &&& m)

/-- Write bits of a byte of the SYSTEM view. -/
def memBits (s : State) (loc : Nat) (m v : Byte) : State :=
  if loc = locNone then s else { s with mem := memPut s.mem loc (mergeBits (memByte s.mem loc) v m) }

/-- The bits `need` of a byte, from the lowest of the views that holds each, and from the SYSTEM view (R170 move 1,
R391). -/
def readBits (s : State) (loc : Nat) : List Nat → Byte → Byte → Byte
  | [], need, acc => acc ||| (memByte s.mem loc &&& need)
  | v :: t, need, acc =>
    let c := cellAt s v loc
    readBits s loc t (need &&& ~~~(need &&& c.has)) (acc ||| (c.val &&& (need &&& c.has)))

/-- The views of a core's path from a level up. -/
def pathFrom (core level : Nat) : List Nat := ((List.range 4).drop level).map (viewAt core)

/-- One byte as a reader at a level of a core's path sees it, SQs left aside. -/
def byteAt (s : State) (core level loc : Nat) : Byte :=
  readBits s loc (if singleCopy loc then [] else pathFrom core level) 0xFF 0

/-- Bytes that follow one another. -/
def bytesAt (s : State) (core level loc n : Nat) : List Byte := (List.range n).map (fun i => byteAt s core level (loc + i))

/-- Bits of a location that an SQ's entries carry, newest entry first, and what they hold. -/
def sqBits (loc : Nat) : List SqEntry → Byte → Byte → Byte × Byte
  | [], need, acc => (need, acc)
  | e :: t, need, acc =>
    match e.bytes.find? (fun b => b.1 = loc) with
    | some (_, m, v) => sqBits loc t (need &&& ~~~(need &&& m)) (acc ||| (v &&& (need &&& m)))
    | none => sqBits loc t need acc

/-- An entry of the SQ that touches a location. -/
def touches (e : SqEntry) (loc : Nat) : Bool := e.bytes.any (fun b => b.1 = loc)

def isAtomEntry (e : SqEntry) : Bool := match e.kind with | .atom .. => true | _ => false

/-- Of the bits `need` of a location, an atomic is the newest entry for some: newest entry first. -/
def atomBits (loc : Nat) : List SqEntry → Byte → Bool
  | [], _ => false
  | e :: t, need =>
    match e.bytes.find? (fun b => b.1 = loc) with
    | some (_, m, _) => (isAtomEntry e && need &&& m != 0) || atomBits loc t (need &&& ~~~m)
    | none => atomBits loc t need

/-- The newest entry for some bit of a location is an atomic, whose value is not known before it is performed (R172, R173,
R391). -/
def atomAhead (sq : List SqEntry) (loc : Nat) : Bool := atomBits loc sq.reverse 0xFF

/-- One byte as a wave's load takes it: SQ first, then the path (R170 move 1). -/
def loadByte (s : State) (sq : List SqEntry) (core loc : Nat) : Byte :=
  let (need, acc) := sqBits loc sq.reverse 0xFF 0
  acc ||| readBits s loc (if singleCopy loc then [] else pathFrom core 0) need 0 &&& need

/-- Fill (R170 move 4): the bits a view of the path lacks and the read took from above, into the views the choice names. -/
def fillBits (s : State) (loc : Nat) (val : Byte) (levels : BitVec 4) : List Nat → Byte → State
  | [], _ => s
  | v :: t, need =>
    let c := cellAt s v loc
    let miss := need &&& ~~~c.has
    let s' :=
      if levels.getLsbD (levelOf v) && miss != 0 then
        putCell s v loc { val := mergeBits c.val val miss, has := c.has ||| miss, dirty := c.dirty } else s
    fillBits s' loc val levels t miss

/-- The fills of one byte that was read. -/
def fillByte (s : State) (sq : List SqEntry) (core loc : Nat) : State :=
  if singleCopy loc || s.choice.fill == 0 then s
  else
    let need := (sqBits loc sq.reverse 0xFF 0).1
    fillBits s loc (loadByte s sq core loc) s.choice.fill (pathFrom core 0) need

/-- Write bits of a byte into the lowest view that can hold it, dirty (R170 move 2). -/
def lowWrite (s : State) (core loc : Nat) (m v : Byte) : State :=
  if singleCopy loc then memBits s loc m v
  else
    let c := cellAt s (viewAt core 0) loc
    putCell s (viewAt core 0) loc { val := mergeBits c.val v m, has := c.has ||| m, dirty := c.dirty ||| m }

/-- Move one byte's dirty bits from a view into its parent (R170 move 3, R391). -/
def propByte (s : State) (view loc : Nat) : State :=
  let c := cellAt s view loc
  if c.dirty = 0 then s
  else
    let s1 := putCell s view loc { c with dirty := 0 }
    match parentOf view with
    | none => memBits s1 loc c.dirty c.val
    | some p =>
      let d := cellAt s1 p loc
      putCell s1 p loc { val := mergeBits d.val c.val c.dirty, has := d.has ||| c.dirty, dirty := d.dirty ||| c.dirty }

/-- The eight locations of a block. -/
def blockLocs (blk : Nat) : List Nat := (List.range 8).map (fun i => 8 * blk + i)


/-! Poison in Heartwood moves with the copies that it struck (R97). -/

/-- The bytes of a block that a view holds some bits of. -/
def holdsBlock (s : State) (view blk : Nat) : Bool := (blockLocs blk).any (fun l => (cellAt s view l).has != 0)

/-- The block of a view's copy is poisoned. -/
def badBlock (s : State) (view blk : Nat) : Bool := s.dev.serr.any (fun e => !e.single && e.view = view && e.loc / 8 = blk)

/-- Poison goes with the copy that it stands in, once the view holds nothing of the block. -/
def pruneErr (s : State) : State :=
  if s.dev.serr.isEmpty then s
  else { s with dev := { s.dev with serr := s.dev.serr.filter (fun e =>
    e.single || e.view = storeView || holdsBlock s e.view (e.loc / 8)) } }

/-- Poison of the structure that a view's parent is: Heartwood, of a ring or device scratch too, or GDDR7. -/
def errOf (view blk : Nat) : SErr :=
  { strct := if view = storeView && decide (8 * blk < 2 ^ 60) then 0 else 1, loc := 8 * blk, single := false, view := view }

/-- Poison under locations whose dirty bytes are about to move from a view into its parent: it is carried along, into GDDR7 on
write-back, and a sound block that is written whole heals the parent's. -/
def moveErr (s : State) (view : Nat) (locs : List Nat) : State :=
  if s.dev.serr.isEmpty then s
  else
    let p := (parentOf view).getD storeView
    let blks := ((locs.filter (fun l => (cellAt s view l).dirty != 0)).map (· / 8)).eraseDups
    let whole (b : Nat) : Bool := (blockLocs b).all (fun l => locs.contains l && (cellAt s view l).dirty = 0xFF)
    let healed (e : SErr) : Bool :=
      !e.single && e.view = p && blks.contains (e.loc / 8) && whole (e.loc / 8) && !badBlock s view (e.loc / 8)
    let new := blks.filter (fun b => badBlock s view b && !badBlock s p b)
    { s with dev := { s.dev with serr := s.dev.serr.filter (fun e => !healed e) ++ new.map (errOf p) } }

/-- A token (view, location) of a release after the location's copy has moved up from a view (R171). -/
def moveTok (view : Nat) (locs : List Nat) (level : Nat) (t : Nat × Nat) : Option (Nat × Nat) :=
  if t.1 = view && locs.contains t.2 then
    match parentOf view with
    | none => none
    | some p => if level ≤ levelOf p then none else some (p, t.2)
  else some t

/-- Move the tokens of one SQ. -/
def moveToks (view : Nat) (locs : List Nat) (sq : List SqEntry) : List SqEntry :=
  sq.map (fun e => if e.toks.isEmpty then e
    else { e with toks := e.toks.filterMap (moveTok view locs (scopeLevel e.scope)) })

/-- The level of an engine operation's scope: the SCOPE field of a COPY form, WG of the others (R174). -/
def opLevel (o : EngOp) : Nat := if o.op < 0x10 then scopeLevel (bits o.x.ext.toNat 24 3) else 0

/-- The tokens that an operation's release holds, as a move leaves them. -/
def mapOpToks (f : Nat → Nat × Nat → Option (Nat × Nat)) (o : EngOp) : EngOp :=
  if o.toks.isEmpty then o else { o with toks := o.toks.filterMap (f (opLevel o)) }

/-- Move the tokens of every SQ and of every engine operation. -/
def moveAllToks (s : State) (view : Nat) (locs : List Nat) : State :=
  { s with waves := s.waves.map (fun e => (e.1, { e.2 with sq := moveToks view locs e.2.sq })),
           orph := s.orph.map (fun e => (e.1, { e.2 with sq := moveToks view locs e.2.sq })),
           ops := s.ops.map (mapOpToks (moveTok view locs)) }

/-- Move the dirty bytes of some locations from a view into its parent. -/
def propLocs (s : State) (view : Nat) (locs : List Nat) : State :=
  moveAllToks (locs.foldl (fun s l => propByte s view l) (moveErr s view locs)) view locs

/-- Drop the clean bits of some locations from a view. -/
def dropLocs (s : State) (view : Nat) (locs : List Nat) : State :=
  pruneErr (locs.foldl (fun s l =>
    let c := cellAt s view l
    if c.has = 0 then s else putCell s view l { c with has := c.dirty, val := c.val &&& c.dirty }) s)

/-- Locations a view holds dirty. -/
def dirtyLocs (s : State) (view : Nat) : List Nat :=
  (tabGet [] s.views view).filterMap (fun e => if e.2.dirty = 0 then none else some e.1)

/-- Propagate everything dirty in a view. -/
def propView (s : State) (view : Nat) : State := propLocs s view (dirtyLocs s view)

/-- Propagate every dirty copy on a core's path below a level up to that level (R171). -/
def propPath (s : State) (core level : Nat) : State :=
  ((List.range 4).filter (· < level)).foldl (fun s l => propView s (viewAt core l)) s

/-- Acquire at a level (R171): drop every clean copy in the views below it on a core's path. -/
def dropClean (t : Tab VCell) : Tab VCell :=
  t.filterMap (fun e => if e.2.dirty = 0 then none else some (e.1, { e.2 with has := e.2.dirty, val := e.2.val &&& e.2.dirty }))

def acquire (s : State) (core level : Nat) : State :=
  pruneErr (((List.range 4).filter (· < level)).foldl (fun s l =>
    { s with views := tabSet [] s.views (viewAt core l) (dropClean (tabGet [] s.views (viewAt core l))) }) s)

/-- Push a location's dirty copies below a level on a core's path up to it (R173, R174). -/
def pushByte (s : State) (core level loc : Nat) : State :=
  if singleCopy loc then s
  else ((List.range 4).filter (· < level)).foldl (fun s l =>
    propLocs s (viewAt core l) [loc]) s

/-- A token whose copy a later write at a higher view of the path has replaced now waits for that write (R166, reached). -/
def liftTok (core level loc : Nat) (need : Nat) (t : Nat × Nat) : Option (Nat × Nat) :=
  if t.2 = loc && levelOf t.1 < level && t.1 = viewAt core (levelOf t.1) then
    if level = 4 || need ≤ level then none else some (viewAt core level, loc)
  else some t

def liftToks (core level loc : Nat) (sq : List SqEntry) : List SqEntry :=
  sq.map (fun e => if e.toks.isEmpty then e
    else { e with toks := e.toks.filterMap (liftTok core level loc (scopeLevel e.scope)) })

def liftAllToks (s : State) (core level loc : Nat) : State :=
  { s with waves := s.waves.map (fun e => (e.1, { e.2 with sq := liftToks core level loc e.2.sq })),
           orph := s.orph.map (fun e => (e.1, { e.2 with sq := liftToks core level loc e.2.sq })),
           ops := s.ops.map (mapOpToks (liftTok core level loc)) }

/-- Write bits of a byte at H(S), dirty, and clean into every view below it on the path (R173, R175). -/
def highWrite (s : State) (core level loc : Nat) (m v : Byte) : State :=
  if singleCopy loc then memBits s loc m v
  else
    let s1 :=
      if level = 4 then memBits s loc m v
      else
        let c := cellAt s (viewAt core level) loc
        putCell s (viewAt core level) loc { val := mergeBits c.val v m, has := c.has ||| m, dirty := c.dirty ||| m }
    liftAllToks (((List.range 4).filter (· < level)).foldl (fun s l =>
      let c := cellAt s (viewAt core l) loc
      putCell s (viewAt core l) loc { val := mergeBits c.val v m, has := c.has ||| m, dirty := c.dirty &&& ~~~m }) s1)
      core level loc

/-- Write bytes at H(S). -/
def highBytes (s : State) (core level loc : Nat) (bs : List Byte) : State :=
  (bs.zipIdx).foldl (fun s e => highWrite s core level (loc + e.2) 0xFF e.1) s

/-- Write bytes of a single-copy store. -/
def memBytes (s : State) (loc : Nat) (bs : List Byte) : State :=
  (bs.zipIdx).foldl (fun s e => memBits s (loc + e.2) 0xFF e.1) s

/-- A host write (R379): the SYSTEM view takes the byte, and every clean copy in a lower view is dropped. -/
def hostWriteByte (s : State) (loc : Nat) (v : Byte) : State :=
  let s1 := memBits s loc 0xFF v
  pruneErr { s1 with views := s1.views.filterMap (fun e =>
      match tabGet? e.2 loc with
      | none => some e
      | some c =>
        let t := if c.dirty = 0 then tabDel e.2 loc else tabPut e.2 loc { c with has := c.dirty, val := c.val &&& c.dirty }
        if t.isEmpty then none else some (e.1, t)) }

/-- The copies dirty below a level on a core's path, as tokens (R171). -/
def dirtyToks (s : State) (core level : Nat) : List (Nat × Nat) :=
  ((List.range 4).filter (· < level)).flatMap (fun l => (dirtyLocs s (viewAt core l)).map (fun x => (viewAt core l, x)))

/-- Remove everything that views hold of a range of locations. -/
def clearViews (s : State) (lo hi : Nat) : State :=
  { s with views := s.views.filterMap (fun e =>
      let t := e.2.filter (fun c => decide (c.1 < lo ∨ hi ≤ c.1))
      if t.isEmpty then none else some (e.1, t)) }

/-- Errors in a range of locations are gone once all of it is written (R97). -/
def healRange (s : State) (lo hi : Nat) : State :=
  { s with dev := { s.dev with serr := s.dev.serr.filter (fun e => decide (2 < e.strct ∨ e.loc < lo ∨ hi ≤ e.loc)) } }

/-- Zero a range of locations in every view (R73). -/
def zeroRange (s : State) (lo hi : Nat) : State :=
  let s1 := healRange (clearViews s lo hi) lo hi
  { s1 with mem := memClear s1.mem lo hi }

end Sys2Proof.Machine
end

