-- ==== Sys2Proof/Machine/Translate.lean ====
section
/-! DEFINITION. Virtual memory (04_memories.md R89 to R94, 06_tables.md R147, R148): the walk, the TLBs, permissions. -/

namespace Sys2Proof.Machine

/-- n bytes read through the DEVICE view, or the SYSTEM view for a HOST page (R122): all ones after surprise removal
(R95). -/
def devBytes (s : State) (loc n : Nat) : List Byte :=
  (List.range n).map (fun i =>
    if isHostLoc (loc + i) && !s.dev.linkUp then 0xFF
    else readBits s (loc + i) (if singleCopy (loc + i) then [] else [322]) 0xFF 0)

def devDword (s : State) (loc : Nat) : DWord := BitVec.ofNat 64 (natOfBytes (devBytes s loc 8))

/-- A physical address in a GDDR7 share of the partition (R90, R95). -/
def inShares (p : Part) (pa : Nat) : Bool := decide (pa < 2 ^ 36) && p.gdsh.getLsbD (pa / 2 ^ 30)

/-- How a walk ends. -/
inductive Walk where
  /-- A well-formed leaf with V = 1. -/
  | leaf (e : DWord)
  /-- An entry with V = 0, at any level; sparse or not. -/
  | absent (sparse : Bool)
  /-- A field that must be zero, a malformed 4 MiB leaf, or a pointer outside the shares (R91, R148). -/
  | bad
  deriving DecidableEq, Repr

/-- Fields of a pointer entry that must be zero (R147). -/
def ptrMbz (e : DWord) : Bool := (e &&& 0xFFF0000000001FE0#64) != 0

/-- Fields of a leaf that must be zero (R147). -/
def leafMbz (e : DWord) : Bool := (e &&& 0xFF0000000001FF80#64) != 0

/-- A leaf on its own: malformed whatever its V (R91, R148), absent, or usable. -/
def leafOutcome (e : DWord) : Walk :=
  if leafMbz e || (e.getLsbD 6 && (e.extractLsb' 17 5) != 0) then .bad
  else if !e.getLsbD 0 then .absent (e.getLsbD 4)
  else .leaf e

/-- The leaf that an access uses: of a 4 MiB page, any of the 32 entries that cover it, one with V = 0 among them, when
each is well formed (R91). The choice names one number for every access of a step, where R91 lets each access use any, and
where the 32 entries do not all have PS = 1 an access uses its own (entry 46, DESIGN CHOICE). -/
def pickLeaf (s : State) (tbl idx : Nat) (e : DWord) : Walk :=
  let leaf (i : Nat) : DWord := devDword s (tbl + 8 * (idx / 32 * 32 + i))
  let fits (x : DWord) : Bool := x.getLsbD 6 && leafOutcome x != .bad
  if s.choice.leaf % 32 != idx % 32 && fits e && (List.range 32).all (fun i => fits (leaf i)) then
    leafOutcome (leaf (s.choice.leaf % 32))
  else leafOutcome e

/-- The walk from a table of a level (1 to 4) on (R89, R148). fuel is the levels left. Of a pointer entry with V = 0 and SPARSE
= 1, R148's list and its last sentence can both hold: a nonzero field that must be zero faults, and a PA outside the shares,
which no walk follows, does not (entry 70, DESIGN CHOICE). -/
def walkFrom (s : State) (p : Part) (va : Nat) : Nat → Nat → Walk
  | 0, _ => .bad
  | 1, tbl => pickLeaf s tbl (bits va 17 10) (devDword s (tbl + 8 * bits va 17 10))
  | n + 1, tbl =>
    let e := devDword s (tbl + 8 * bits va (17 + 10 * n) 10)
    let next := bits e.toNat 13 39 * 8192
    if ptrMbz e then .bad
    else if !e.getLsbD 0 then .absent (e.getLsbD 4)
    else if !inShares p next then .bad
    else walkFrom s p va n next

/-- The walk of a virtual address of a partition. -/
def walk (s : State) (part va : Nat) : Walk := walkFrom s (getPart s part) va 4 (getPart s part).ptroot.toNat

/-- A walk's outcome as a TLB holds it: the leaf, 0 absent, 16 sparse, 2^63 malformed. -/
def walkEntry : Walk → DWord
  | .leaf e => e
  | .absent sp => if sp then 16 else 0
  | .bad => 0x8000000000000000#64

/-- The key of a page in a TLB. -/
def tlbKey (part va : Nat) : Nat := part * 2 ^ 40 + va / 2 ^ 17

/-- The entry a TLB of the core, or of its die, holds (R94). -/
def tlbOld (s : State) (part core va : Nat) : Option DWord :=
  match tabGet? (tabGet [] s.tlbs core) (tlbKey part va) with
  | some e => some e
  | none => tabGet? (tabGet [] s.tlbs (256 + dieOf core)) (tlbKey part va)

/-- The entry an access uses: an old one until the invalidation, when the choice says so, else the walk's (R94). The
choice is one for all accesses of a step, and an old entry is one that a TLB of the core or its die holds: fewer outcomes
than R94 allows (entry 46). -/
def pageEntry (s : State) (part core va : Nat) : DWord :=
  match (if s.choice.oldTlb then tlbOld s part core va else none) with
  | some e => e
  | none => walkEntry (walk s part va)

/-- A TLB takes an entry for a page it does not hold. -/
def tlbAdd (s : State) (u : Nat) (k : Nat) (e : DWord) : State :=
  let t := tabGet [] s.tlbs u
  match tabGet? t k with
  | some _ => s
  | none => { s with tlbs := tabPut s.tlbs u (tabPut t k e) }

/-- The misses of one access fill the core's and the die's TLB. -/
def tlbFill (s : State) (part core va : Nat) : State :=
  if va < 2 ^ 57 then
    let e := pageEntry s part core va
    tlbAdd (tlbAdd s core (tlbKey part va) e) (256 + dieOf core) (tlbKey part va) e
  else s

/-- The outcome of translating an access. -/
inductive Tr where
  | ok (loc : Nat)
  | sparse
  | fault
  deriving DecidableEq, Repr

/-- Access kinds of R75: 0 load, 1 store, 2 atomic or reduction, 3 fetch. -/
def permits (e : DWord) (kind : Nat) : Bool :=
  match kind with
  | 0 => e.getLsbD 1
  | 1 => e.getLsbD 2
  | 2 => e.getLsbD 1 && e.getLsbD 2
  | _ => e.getLsbD 3

/-- Physical address of a leaf for an address (R89, R91). -/
def leafPa (e : DWord) (va : Nat) : Nat :=
  if e.getLsbD 6 then bits e.toNat 22 30 * 2 ^ 22 + va % 2 ^ 22 else bits e.toNat 17 35 * 2 ^ 17 + va % 2 ^ 17

/-- Apply an entry to an access (R90, R92). -/
def applyEntry (p : Part) (part : Nat) (e : DWord) (kind va : Nat) : Tr :=
  if e.getLsbD 63 then .fault
  else if !e.getLsbD 0 then (if e.getLsbD 4 && kind != 3 then .sparse else .fault)
  else if !permits e kind then .fault
  else if (e.extractLsb' 52 4).toNat != part % 16 then .fault
  else if e.getLsbD 5 then (if kind = 3 then .fault else .ok (locHost (leafPa e va)))
  else if inShares p (leafPa e va) then .ok (leafPa e va) else .fault

/-- Translate an access of a partition on a core (R89 to R92). An address of more than 57 bits faults (R74). -/
def translate (s : State) (part core kind va : Nat) : Tr :=
  if 2 ^ 57 ≤ va then .fault else applyEntry (getPart s part) part (pageEntry s part core va) kind va

/-- n bytes of a table at a virtual address, through the DEVICE view; sparse pages read zero bytes (R122). None when a
byte fails translation. -/
def tableBytes (s : State) (part core va n : Nat) : Option (List Byte) :=
  (List.range n).foldr (fun i acc =>
    match acc with
    | none => none
    | some l =>
      match translate s part core 0 (va + i) with
      | .ok loc => some ((devBytes s loc 1).headD 0 :: l)
      | .sparse => some (0 :: l)
      | .fault => none) (some [])

/-- A table read that the loss of the link answers with all ones (R95, R382). -/
def tableLost (s : State) (part core va n : Nat) : Bool :=
  !s.dev.linkUp && (List.range n).any (fun i =>
    match translate s part core 0 (va + i) with
    | .ok loc => isHostLoc loc
    | _ => false)

/-- n doublewords of a table. -/
def tableDwords (s : State) (part core va n : Nat) : Option (List DWord) :=
  (List.range n).foldr (fun i acc =>
    match acc, tableBytes s part core (va + 8 * i) 8 with
    | some l, some b => some (BitVec.ofNat 64 (natOfBytes b) :: l)
    | _, _ => none) (some [])

end Sys2Proof.Machine
end

