-- ==== Sys2Proof/Machine/Ops.lean ====
section
/-! DEFINITION. Shared operations: performance counters, messages, the end and the halt of a wave, pass faults, TAKING A
TRAP (R287) and RETURNING FROM ONE (R293), the issue of an instruction and its completion, the store queue's tail. -/

namespace Sys2Proof.Machine

/-! Performance counters (R165). -/

def perfOne (ev n : Nat) (r : DWord) : DWord :=
  if r.getLsbD 16 && (r.extractLsb' 0 16).toNat = ev then
    dword (loWord r) (BitVec.ofNat 32 (Nat.min 4294967295 ((hiWord r).toNat + n)))
  else r

def perfAdd (s : State) (core ev n : Nat) : State :=
  let c := getCore s core
  setCore s core { c with perf0 := perfOne ev n c.perf0, perf1 := perfOne ev n c.perf1,
                          perf2 := perfOne ev n c.perf2, perf3 := perfOne ev n c.perf3 }

/-- TIMEBASE (R163). -/
def timeNs (s : State) : Nat := s.dev.time / Config.unitsPerNs

/-- CLK of a core (R163). -/
def clkOf (s : State) (core : Nat) : Nat := s.dev.cycle + Config.clkOffset s.epoch core

/-- A vector of a function fires (R378): function 0 is the PF, v + 1 is VF v. -/
def msix (s : State) (fn vec : Nat) : State := { s with dev := { s.dev with msix := s.dev.msix ++ [(fn, vec)] } }

/-- The VFs bound to a partition (R372). -/
def boundVfs (p : Part) : List Nat :=
  if p.state = .free then [] else setBits p.vf0 ++ (setBits p.vf1).map (· + 64)

/-- A vector of every bound VF fires. -/
def msixVfs (s : State) (part vec : Nat) : State := (boundVfs (getPart s part)).foldl (fun s v => msix s (v + 1) vec) s

/-! Graph slots of a partition. -/

def getGraph (s : State) (part g : Nat) : Option Graph := tabGet? (getPart s part).graphs g

def updGraph (s : State) (part g : Nat) (f : Graph → Graph) : State :=
  updPart s part (fun p => { p with graphs := tabMod p.graphs g f })

/-- Change a tile task of a graph. -/
def updTask (s : State) (part g p k : Nat) (f : Task → Task) : State :=
  updGraph s part g (fun x => { x with passes := listMod x.passes p (fun ps => { ps with tasks := tabMod ps.tasks k f }) })

/-! Soft errors that a read meets (R97). -/

/-- Bits of a byte that some views do not supply. -/
def unsupplied (s : State) (loc : Nat) (views : List Nat) (need : Byte) : Byte :=
  views.foldl (fun m u => m &&& ~~~(cellAt s u loc).has) need

/-- Whether a read at a level of a core's path meets what an error struck (R97), store queue first: the copy of its view when
that supplies some bit of the byte, the store itself when no view does. A single-bit error of Heartwood is met by every read
that L1 does not serve. -/
def servedBy (s : State) (sq : List SqEntry) (core level : Nat) (e : SErr) (loc : Nat) : Bool :=
  let need := (sqBits loc sq.reverse 0xFF 0).1
  let views := if singleCopy loc then [] else pathFrom core level
  if e.view != storeView then
    views.contains e.view && unsupplied s loc (views.takeWhile (· != e.view)) need &&& (cellAt s e.view loc).has != 0
  else if e.single && e.strct = 1 then unsupplied s loc (views.filter (· < 256)) need != 0
  else unsupplied s loc views need != 0

/-- The poison that a read of a byte consumes: that of its 64-bit block. -/
def poisonAt (s : State) (sq : List SqEntry) (core level loc : Nat) : Option SErr :=
  s.dev.serr.find? (fun e => !e.single && e.loc / 8 = loc / 8 && servedBy s sq core level e loc)

/-- Poison that a read of these bytes consumes. -/
def poisonIn (s : State) (sq : List SqEntry) (core level : Nat) (bs : List (Nat × Byte)) : Option SErr :=
  firstSome (fun b => poisonAt s sq core level b.1) bs

/-- A correction is counted in the PF error log (R387), whose vector fires. -/
def countFix (s : State) (strct : Nat) : State :=
  let d := s.dev
  let up (n : Nat) : Nat := Nat.min 4294967295 (n + 1)
  msix { s with dev := match strct with
    | 0 => { d with errgd := up d.errgd }
    | 1 => { d with errhw := up d.errhw }
    | 2 => { d with errsp := up d.errsp }
    | _ => { d with errpar := up d.errpar } } 0 0

/-- The single-bit errors that a condition names are corrected and counted. -/
def fixErrs (s : State) (hit : SErr → Bool) : State :=
  let met (e : SErr) : Bool := e.single && hit e
  (s.dev.serr.filter met).foldl (fun s e => countFix s e.strct)
    { s with dev := { s.dev with serr := s.dev.serr.filter (fun e => !met e) } }

/-- Single-bit errors in the blocks of some bytes that are read are corrected and counted (R97). -/
def fixBytes (s : State) (sq : List SqEntry) (core level : Nat) (locs : List Nat) : State :=
  fixErrs s (fun e => locs.any (fun l => l / 8 = e.loc / 8 && servedBy s sq core level e l))

/-- The same for n bytes that follow one another. -/
def fixRange (s : State) (core level loc n : Nat) : State :=
  fixErrs s (fun e => decide (loc / 8 ≤ e.loc / 8 ∧ e.loc / 8 ≤ (loc + n - 1) / 8) && servedBy s [] core level e e.loc)

/-- The locations of a table's bytes, as the core's translations give them. -/
def tableLocs (s : State) (part core va n : Nat) : List Nat :=
  (List.range n).filterMap (fun i => match translate s part core 0 (va + i) with | .ok l => some l | _ => none)

/-- Single-bit errors in a table that is read are corrected and counted. -/
def fixTable (s : State) (part core va n : Nat) : State :=
  if s.dev.serr.isEmpty then s else fixBytes s [] core 3 (tableLocs s part core va n)

/-- The poison that a table read of n bytes consumes (entry 28): the structure and the address. -/
def tablePoison (s : State) (part core va n : Nat) : Option (Nat × Nat) :=
  if s.dev.serr.isEmpty then none
  else firstSome (fun i =>
    match translate s part core 0 (va + i) with
    | .ok l => (poisonAt s [] core 3 l).map (fun e => (e.strct, va + i))
    | _ => none) (List.range n)

/-- Locations of the page-table entries that a walk reads, from a table of a level (1 to 4) on. fuel is the levels left. -/
def walkLocs (s : State) (p : Part) (va : Nat) : Nat → Nat → List Nat
  | 0, _ => []
  | n + 1, tbl =>
    let a := tbl + 8 * bits va (17 + 10 * n) 10
    let e := devDword s a
    let next := bits e.toNat 13 39 * 8192
    if n = 0 || ptrMbz e || !e.getLsbD 0 || !inShares p next then [a] else a :: walkLocs s p va n next

/-- The poison that the walk of an access consumes, which reads the page tables through the DEVICE view unless a TLB's entry is
used (R94, R122; entry 28). -/
def walkPoison (s : State) (part core va : Nat) : Option SErr :=
  if s.dev.serr.isEmpty || decide (2 ^ 57 ≤ va) || (s.choice.oldTlb && (tlbOld s part core va).isSome) then none
  else firstSome (poisonAt s [] core 3) (walkLocs s (getPart s part) va 4 (getPart s part).ptroot.toNat)

/-- A table read of n bytes (R122) leaves its translations in the TLBs (R94), corrects single-bit errors (R97), and marks its
graph when it reaches a HOST page while the link is up (R381). -/
def markTable (s : State) (g : Wg) (core va n : Nat) : State :=
  let host (a : Nat) : Bool := match translate s g.part core 0 a with | .ok l => isHostLoc l | _ => false
  let s1 := fixTable (tlbFill (tlbFill s g.part core va) g.part core (va + n - 1)) g.part core va n
  match rootGraph g.kind with
  | some k => if s.dev.linkUp && (host va || host (va + n - 1)) then updGraph s1 g.part k (fun x => { x with host := true }) else s1
  | none => s1

/-- The event message of a pass fault (R101), from the faulting wave. -/
def faultMessage (s : State) (w : Nat) (v : Wave) (g : Wg) : List Byte :=
  bytesOf 4 1 ++ bytesOf 4 ((rootGraph g.kind).getD 0) ++ bytesOf 4 (rootPass g.kind) ++
  bytesOf 4 (v.csr.tcause.toNat % 2 ^ 13) ++ bytesOf 2 g.tilex ++ bytesOf 2 g.tiley ++ bytesOf 4 (coreOf w) ++
  bytesOf 8 v.csr.tepc.toNat ++ bytesOf 8 v.csr.tval.toNat ++ bytesOf 8 v.csr.tfmask.toNat ++
  bytesOf 8 (timeNs s) ++ bytesOf 8 0

/-- The event message of GABORT (kind 2) or host loss (kind 3): bytes 16 to 47 zero (R101). -/
def endMessage (s : State) (kind g : Nat) : List Byte :=
  bytesOf 4 kind ++ bytesOf 4 g ++ bytesOf 4 0xFFFFFFFF ++ bytesOf 4 0 ++ bytesOf 32 0 ++ bytesOf 8 (timeNs s) ++ bytesOf 8 0

/-- Step 1 of R113 for a pass fault: the retirements of tasks that ended on the faulting wave's core before are still
performed (R157). -/
def beginFault (s : State) (w : Nat) (v : Wave) (g : Wg) (k : Nat) : State :=
  updGraph s g.part k (fun x =>
    { x with phase := .teardown 1, faultMsg := faultMessage s w v g, tearAt := some (coreOf w, s.nextId, x.phase == .stopping) })

/-- Canopy records the first pass fault of a graph (R112): the graph goes into teardown with its event. -/
def passFault (s : State) (w : Nat) (v : Wave) (g : Wg) : State :=
  match rootGraph g.kind with
  | none => s
  | some k =>
    match getGraph s g.part k with
    | none => s
    | some gr =>
      match gr.phase with
      | .live => beginFault s w v g k
      | .stopping => beginFault s w v g k
      | _ => s

/-! The end of a wave (R20). -/

/-- The partition's state after its pacer has ended (R99, R374, R375). -/
def pacerEnded (s : State) (part : Nat) : State :=
  let p := getPart s part
  if p.state = .running && p.ending = .none then msix (setPart s part { p with state := .noPacer, pacerGone := true }) 0 3
  else setPart s part { p with pacerGone := true }

/-- The workgroup is among the evicted. -/
def isEvicted (s : State) (part id : Nat) : Bool := (getPart s part).evicted.any (fun e => e.id = id)

/-- What Dash keeps of an evicted workgroup goes with its waves (R356), and the array's grant returns; one that has not
taken its grant again keeps what its waves hold. -/
def saveDash (s : State) (id : Nat) (g : Wg) : State :=
  let d := getDash s (clusterOf g.core)
  let s1 := if d.holder = some id then setDash s (clusterOf g.core) Dash.init else s
  if dashOwned d id then
    updPart s1 g.part (fun p =>
      { p with evicted := p.evicted.map (fun e =>
        if e.id = id then { e with waves := e.waves.map (fun x => (x.1, { x.2 with dashSave := some d })) } else e) })
  else s1

/-- A workgroup ends when its last wave has: its tiles, scratch and Dash grant return. Where other waves of it are
evicted, it goes on as theirs. -/
def endWg (s : State) (id : Nat) (g : Wg) : State :=
  let cl := clusterOf g.core
  let s1 := if isEvicted s g.part id then saveDash s id g
    else if (getDash s cl).holder = some id then setDash s cl Dash.init else s
  let s2 := { s1 with wgs := tabDel s1.wgs id }
  match rootTask g.kind with
  | none => pacerEnded s2 g.part
  | some (gi, p, k) =>
    { updTask s2 g.part gi p k (fun t => { t with ended := some (g.core, s.nextId) }) with nextId := s.nextId + 1 }

/-- The depositor of a held deposit whose wave has ended with an empty SQ: no SQ has this number. -/
def noDepositor : Nat := 2 ^ 32

/-- The depositors of the deposits that a wave holds. -/
def depositors (v : Wave) : List Nat := (v.heldDeps ++ v.parkedDeps).filter (· < noDepositor)

/-- A number from 24576 on for the SQ of an ended wave: above that of every such SQ, and of every depositor of a held deposit,
whose own SQ may have drained since. -/
def freeOrphan (s : State) : Nat :=
  (s.orph.map (·.1) ++ s.waves.flatMap (fun e => depositors e.2) ++
    s.parts.flatMap (fun p => p.2.evicted.flatMap (fun e => e.waves.flatMap (fun x => depositors x.2)))).foldl
    (fun n d => Nat.max n (d + 1)) 24576

/-- Give the deposits of a depositor, held anywhere, another depositor. -/
def renameDeps (a b : Nat) (v : Wave) : Wave :=
  let f (l : List Nat) : List Nat := l.map (fun d => if d = a then b else d)
  { v with heldDeps := f v.heldDeps, parkedDeps := f v.parkedDeps }

/-- Give a depositor's deposits another depositor, in the slots and among the evicted. -/
def renameDepositor (s : State) (a b : Nat) : State :=
  { s with waves := s.waves.map (fun e => (e.1, renameDeps a b e.2)),
           parts := s.parts.map (fun p => (p.1, { p.2 with evicted := p.2.evicted.map (fun e =>
             { e with waves := e.waves.map (fun x => (x.1, renameDeps a b x.2)) }) })) }

/-- A wave ends: its slot frees; entries left in its SQ still drain, and deposits it made that are held keep that SQ's
number as their depositor. -/
def endWave (s : State) (w : Nat) (v : Wave) : State :=
  match getWg s v.wg with
  | none => { s with waves := tabDel s.waves w }
  | some g =>
    let s1 := if v.sq.isEmpty then s
      else { s with orph := tabPut s.orph (freeOrphan s) { core := coreOf w, wg := v.wg, part := g.part, num := v.num, root := g.kind, sq := v.sq } }
    let s2 := renameDepositor { s1 with waves := tabDel s1.waves w } w (if v.sq.isEmpty then noDepositor else freeOrphan s)
    let c := getCore s2 (coreOf w)
    let s3 := setCore s2 (coreOf w) { c with mwait := c.mwait.filter (fun e => e.wave != w) }
    let slots := g.slots.filter (· != w)
    let s4 := updWg s3 v.wg (fun g => { g with slots := slots })
    if slots.isEmpty then endWg s4 v.wg { g with slots := slots } else s4

/-- All four outstanding counters are zero. -/
def countersZero (v : Wave) : Bool := v.cpy = 0 && v.mtx = 0 && v.gth = 0 && v.dsh = 0

/-- STATE 4 (R375): every wave of a partition being pre-empted has been evicted, has halted or has ended, and no graph of
it is being torn down. -/
def evictCheck (s : State) (part : Nat) : State :=
  let p := getPart s part
  let waiting := s.waves.any (fun e => !e.2.halted && ((getWg s e.2.wg).map (·.part)) == some part)
  let tearing := p.graphs.any (fun e => match e.2.phase with | .teardown _ => true | _ => false)
  if p.state = .preempting && !waiting && !tearing then
    msix (setPart s part { p with state := .evicted, evictedAt := some s.dev.time }) 0 3
  else s

/-- R20: the wave ends when every thread has exited, or it has halted (R295), and its counters are zero. -/
def endIfDone (s : State) (w : Nat) : State :=
  match getWave s w with
  | none => s
  | some v =>
    if (v.halted || liveMask v = 0) && countersZero v then
      match getWg s v.wg with
      | some g => evictCheck (endWave s w v) g.part
      | none => endWave s w v
    else s

/-- TRACE or TRACE.A. -/
def isTrace (o : EngOp) : Bool := o.op = 0x30 || o.op = 0x31

/-- Abandon the wave's TRACE operations (R45, R295): their GTH counts are removed. Returns the operations set aside. -/
def abandonTraces (s : State) (w : Nat) : State × List EngOp :=
  let mine := s.ops.filter (fun o => o.wave = w && isTrace o)
  (updWave { s with ops := s.ops.filter (fun o => !(o.wave = w && isTrace o)) } w
    (fun v => { v with gth := v.gth - mine.length }), mine)

/-- A wave is parked at REORD. -/
def isParked (v : Wave) : Bool := match v.base.wait with | .reord _ _ _ => true | _ => false

/-- Waves of a workgroup that hold an unexited thread and have not halted, in ascending wave number (R33). -/
def runningWaves (s : State) (wg : Nat) : List (Nat × Wave) :=
  sortBy (·.2.num) ((((getWg s wg).map (·.slots)).getD []).filterMap (fun w =>
    match getWave s w with
    | some v => if v.halted || liveMask v = 0 then none else some (w, v)
    | none => none))

/-- Mark a parked wave's collection as closed, unless it is already. -/
def markSet (set : Nat) (v : Wave) : Wave :=
  match v.base.wait with
  | .reord k key 0 => { v with base := { v.base with wait := .reord k key set } }
  | _ => v

/-- R33's first condition: when every running wave of the workgroup is parked at one address, the open collection there
closes. -/
def reordCheck (s : State) (wg : Nat) : State :=
  match runningWaves s wg with
  | [] => s
  | (w, v) :: t =>
    if ((w, v) :: t).all (fun e => isParked e.2 && e.2.base.pc = v.base.pc) then
      ((w, v) :: t).foldl (fun s e => updWave s e.1 (markSet s.nextId)) s |> fun s1 => { s1 with nextId := s.nextId + 1 }
    else s

/-- A wave leaves REORD: the deposits held for it reach its slot in their order (R35); those past a full ACNT are held
(R154). -/
def leavePark (v : Wave) : Wave :=
  let room := if v.heldDeps.isEmpty then 65535 - v.acnt else 0
  { v with acnt := v.acnt + Nat.min room v.parkedDeps.length, parkedDeps := [],
           heldDeps := v.heldDeps ++ v.parkedDeps.drop room }

/-- A wave halts (R295): it issues nothing more, its TRACEs are abandoned, and for a tile task or a descendant it is a
pass fault. -/
def haltWave (s : State) (w : Nat) : State :=
  let s1 := (abandonTraces s w).1
  match getWave s1 w with
  | none => s1
  | some v =>
    let s2 := setWave s1 w { v with halted := true }
    match getWg s2 v.wg with
    | none => s2
    | some g => evictCheck (endIfDone (reordCheck (passFault s2 w v g) v.wg) w) g.part

/-! Traps (R286 to R288). -/

/-- A trap cause with its class, TVAL and the positions that raised it. -/
structure Trap where
  code : Nat
  cls : Nat
  tval : DWord
  fmask : Mask
  /-- WSTAT.UR is set as well (R50). -/
  ur : Bool
  deriving DecidableEq, Repr

def trapOf (code cls : Nat) (tval : Nat) (m : Mask) : Trap :=
  { code := code, cls := cls, tval := BitVec.ofNat 64 tval, fmask := m, ur := false }

def illegalClause (tval : Nat) (m : Mask) : Trap := trapOf 0x01 0 tval m
def illegalOp (w : Word) (m : Mask) : Trap := trapOf 0x02 0 w.toNat m
def illegalOperand (tval : Nat) (m : Mask) : Trap := trapOf 0x03 0 tval m
def misalignedTarget (a : Nat) (m : Mask) : Trap := trapOf 0x04 0 a m
def dstackOvf (m : Mask) : Trap := trapOf 0x05 0 16 m
def unwrittenTrap (r : Reg) (m : Mask) : Trap := { trapOf 0x06 0 r.toNat m with ur := true }
def scratchBounds (off : Nat) (m : Mask) : Trap := trapOf 0x07 1 off m
def recordBounds (i : Nat) (m : Mask) : Trap := trapOf 0x08 1 i m
def pageFault (va kind : Nat) (m : Mask) : Trap := trapOf 0x09 1 (va % 2 ^ 57 + kind * 2 ^ 62) m
def ringUndecl (r x y : Nat) (m : Mask) : Trap := trapOf 0x0A 3 (r % 256 + x % 256 * 256 + y % 256 * 65536) m
def tileClosed (r x y : Nat) (m : Mask) : Trap := trapOf 0x0B 3 (r % 256 + x % 256 * 256 + y % 256 * 65536) m
def handleInvalid (h : Nat) (m : Mask) : Trap := trapOf 0x0C 2 h m
def spawnDepth (m : Mask) : Trap := trapOf 0x0D 0 4 m
def scopeReserved (m : Mask) : Trap := trapOf 0x0E 0 7 m
def dashOwn (m : Mask) : Trap := trapOf 0x0F 2 0 m
def alignTrap (a : Nat) (m : Mask) : Trap := trapOf 0x10 1 a m
def pcieLost (va : Nat) (m : Mask) : Trap := trapOf 0x16 7 va m
def eccTrap (strct a : Nat) (m : Mask) : Trap := trapOf 0x17 7 (strct * 2 ^ 60 + a % 2 ^ 57) m

/-- Causes whose handler's ERET halts the wave (R286): PAGE_FAULT, RING_UNDECL, TILE_CLOSED, PCIE_LOST, ECC. -/
def haltsAtEret (code : Nat) : Bool := code = 0x09 || code = 0x0A || code = 0x0B || code = 0x16 || code = 0x17

/-- Every path of a wave, those of the divergence stack among them. -/
def allPaths (v : Wave) : List Path :=
  match v.stack with
  | [] => [v.base]
  | _ => v.stack.flatMap (fun p => [p.a, p.b])

/-- Change every path of a wave. -/
def mapPaths (f : Path → Path) (v : Wave) : Wave :=
  { v with base := f v.base, stack := v.stack.map (fun p => { p with a := f p.a, b := f p.b }) }

/-- Change one path of the entry that makes the stack a given depth. -/
def updPathAt (v : Wave) (depth : Nat) (pb : Bool) (f : Path → Path) : Wave :=
  if depth = 0 then { v with base := f v.base }
  else
    let g (p : Pair) : Pair := if pb then { p with b := f p.b } else { p with a := f p.a }
    { v with stack := listMod v.stack (v.stack.length - depth) g }

/-- An instruction of the path has issued and is not complete: no boundary (R287). -/
def midInstr (x : Path) : Bool :=
  match x.wait with
  | .atom _ _ => true
  | .mshr _ _ _ _ => true
  | .baton _ => true
  | _ => false

/-- Every path stands at a boundary. -/
def atBoundary (v : Wave) : Bool := (allPaths v).all (fun x => !midInstr x)

/-- A path stopped at the boundary before an instruction that waits: it issues that instruction again (R43, R44), but
what has begun and is not repeated keeps its place: an atomic, a replay, groups for Baton, residency messages. -/
def unwait (x : Path) : Path :=
  match x.wait with
  | .atom _ _ => x
  | .mshr _ _ _ _ => x
  | .baton _ => x
  | .resreq _ => x
  | _ => { x with wait := .ready }

/-- A path that waits in TREL. -/
def inTrel (x : Path) : Bool := match x.wait with | .trel => true | _ => false

/-- A TREL that stops before its closure has closed nothing (R44): its reissue takes a new closing point. -/
def openTrel (s : State) (v : Wave) (g : Wg) : State :=
  if (allPaths v).any inTrel then
    match rootTask g.kind with
    | some (gi, p, k) => updTask s g.part gi p k (fun t => { t with closing := false })
    | none => s
  else s

/-- The scope of a path's ICINV that has begun, if it waits in one. -/
def icinvScope (x : Path) : Option Nat := match x.wait with | .icinv sc => some sc | _ => none

/-- An invalidation that a path leaves runs to its end (R44): the core keeps it. -/
def leaveIcinv (s : State) (w : Nat) (v : Wave) (g : Wg) : State :=
  match (allPaths v).filterMap icinvScope with
  | [] => s
  | l =>
    let c := getCore s (coreOf w)
    setCore s (coreOf w) { c with icinv := c.icinv ++ l.map (fun sc => (g.part, sc)) }

def unwaitPair (p : Pair) : Pair := { p with a := unwait p.a, b := unwait p.b }

/-- The masks and depth of the stack as the trap CSRs show them (R65). -/
def trapMasks (v : Wave) : Mask × Mask × Nat :=
  match v.stack with
  | [] => (activeMask v v.base, 0, 0)
  | p :: _ => (activeMask v p.a, activeMask v p.b, v.stack.length)

/-- Poison that the read of entry i of the trap vector table meets, in its walk or in its word: structure and address. -/
def vectorEcc (s : State) (w part : Nat) (v : Wave) (cls : Nat) : Option (Nat × Nat) :=
  let a := bits v.csr.tvec.toNat 7 50 * 128 + 8 * cls
  match walkPoison s part (coreOf w) a with
  | some e => some (e.strct, a)
  | none => tablePoison s part (coreOf w) a 8

/-- Entry i of the trap vector table as R149 reads it: the handler's address, or none when the wave halts. An entry that
poison makes unreadable halts the wave with its original cause too (R97; entry 28, DEDUCED). -/
def vectorEntry (s : State) (w part : Nat) (v : Wave) (cls : Nat) : Option Nat :=
  let base := bits v.csr.tvec.toNat 7 50 * 128
  if base = 0 || (vectorEcc s w part v cls).isSome then none
  else
    match tableDwords s part (coreOf w) (base + 8 * cls) 1 with
    | some [e] => if e = 0 || e.toNat / 2 ^ 57 != 0 || e.toNat % 4 != 0 then none else some e.toNat
    | _ => none

/-- TCAUSE (R65). -/
def causeWord (pb : Bool) (cls code : Nat) : DWord := BitVec.ofNat 64 ((if pb then 4096 else 0) + cls * 256 + code)

/-- All positions of a wave. -/
def allPositions (v : Wave) : Mask := maskOf (List.range v.threads.length)

/-- ERRUE takes an uncorrectable error, in TVAL's layout, and PF vector 0 fires (R97, R387). -/
def putErrue (s : State) (x : DWord) : State := msix { s with dev := { s.dev with errue := x } } 0 0

/-- ERRUE takes the structure and address of an ECC trap. -/
def noteEcc (s : State) (t : Trap) : State := if t.code = 0x17 then putErrue s t.tval else s

/-- What the read of a vector table entry leaves: what any table read does, and ERRUE where it met poison. -/
def markVector (s : State) (w : Nat) (v : Wave) (g : Wg) (cls : Nat) : State :=
  let base := bits v.csr.tvec.toNat 7 50 * 128
  if base = 0 then s
  else
    let s1 := match vectorEcc s w g.part v cls with
      | some (st, a) => putErrue s (BitVec.ofNat 64 (st * 2 ^ 60 + a % 2 ^ 57))
      | none => s
    markTable s1 g (coreOf w) (base + 8 * cls) 8

/-- Trap entry (R287), as one step: the trap CSRs, the stack moved to the save area, trap mode, every unexited thread
active, the handler's address from the vector table; or a halt when R149 says so. -/
def enterTrap (s : State) (w : Nat) (pb : Bool) (t : Trap) (epc : Nat) (restore : Bool) : State :=
  match getWave s w with
  | none => s
  | some v =>
    match getWg s v.wg with
    | none => s
    | some g =>
      let (ma, mb, depth) := trapMasks v
      let csr := { v.csr with
        tcause := causeWord pb t.cls t.code, tepc := BitVec.ofNat 64 (epc % 2 ^ 57 / 4 * 4), tval := t.tval,
        tmaska := ma, tmaskb := mb, tfmask := t.fmask &&& liveMask v, tstk := BitVec.ofNat 64 depth,
        wctl := v.csr.wctl ||| 16#64 }
      let s0 := markVector (noteEcc s t) w v g t.cls
      let s1 := perfAdd (leaveIcinv (openTrel s0 v g) w v g) (coreOf w) 0x000C 1
      let v1 := { (if isParked v then leavePark v else v) with
        csr := csr, stack := [],
        base := { mask := allPositions v, pc := 0, code := none, wait := .ready, resume := none },
        saved := some { base := unwait v.base, stack := v.stack.map unwaitPair, code := t.code, pathB := pb, restore := restore } }
      match vectorEntry s w g.part v t.cls with
      | some pc => setWave s1 w { v1 with base := { v1.base with pc := pc } }
      | none => haltWave (setWave s1 w v1) w

/-- A synchronous fault in trap mode is not taken: the wave halts and reports DOUBLE (R288). -/
def doubleFault (s : State) (w : Nat) (pb : Bool) (t : Trap) (epc : Nat) : State :=
  haltWave (updWave (noteEcc s t) w (fun v => { v with csr := { v.csr with
    tcause := causeWord pb t.cls 0x18, tepc := BitVec.ofNat 64 (epc % 2 ^ 57 / 4 * 4), tval := t.tval,
    tfmask := t.fmask &&& liveMask v } })) w

/-- TAKING A TRAP: a synchronous fault of a path at the instruction at epc. STEP pending is dropped (R287). While another
path is within an instruction the trap waits for its boundary (R32); the faulting instruction is not performed. -/
def takeTrap (s : State) (w : Nat) (pb : Bool) (t : Trap) (epc : Nat) : State :=
  match getWave s w with
  | none => s
  | some v0 =>
    let v := setStatIf v0 t.ur 0
    if !atBoundary (match pathOf v0 pb with | some x => setPath v0 pb { x with wait := .ready } | none => v0) then s
    else if wTrap v then doubleFault (setWave s w v) w pb t epc
    else enterTrap (setWave s w { v with step := none }) w pb t epc false

/-- A completion fault becomes pending (R287). -/
def pendFault (s : State) (w : Nat) (t : Trap) : State :=
  updWave s w (fun v => { v with faults := v.faults ++
    [{ code := t.code, cls := t.cls, tval := t.tval, fmask := t.fmask, pathB := false }] })

/-! Issue and completion of an instruction. -/

/-- The next PC of a path after n words, its clause dropped when the clause ends. -/
def stepPath (x : Path) (n : Nat) : Path :=
  let pc := x.pc + 4 * n
  let code := match x.code with
    | some c => if pc < c.base + 4 * (c.words.length + 1) then some c else none
    | none => none
  { x with pc := pc, code := code, wait := .ready, resume := none }

/-- A path at another address, which it reads as a clause header. -/
def jumpPath (x : Path) (pc : Nat) : Path := { x with pc := pc, code := none, wait := .ready, resume := none }

/-- STEP becomes pending for a completed instruction, when it was armed before the instruction (R292). No thread raises it
as a fault: its TFMASK is 0 (entry 50, DESIGN CHOICE). -/
def stepPend (armed : Bool) (pb : Bool) (v : Wave) : Wave :=
  if armed && v.step.isNone then
    { v with step := some { code := 0x12, cls := 4, tval := 0, fmask := 0, pathB := pb } } else v

def stepArmed (v : Wave) : Bool := wStep v && !wTrap v

/-- A path has completed an instruction of n words. -/
def advance (c : Ctx) (n : Nat) (v : Wave) : Wave :=
  match pathOf v c.pb with
  | some x => stepPend (stepArmed c.wave) c.pb (setPath v c.pb (stepPath x n))
  | none => v

/-- A path has completed a transfer to an address. -/
def jump (c : Ctx) (pc : Nat) (v : Wave) : Wave :=
  match pathOf v c.pb with
  | some x => stepPend (stepArmed c.wave) c.pb (setPath v c.pb (jumpPath x pc))
  | none => v

/-- Complete an instruction of n words in the state. -/
def finish (s : State) (c : Ctx) (n : Nat) : State := updWave s c.w (advance c n)

/-- Hold the path at its instruction. -/
def hold (s : State) (c : Ctx) (wt : Wait) : State :=
  updWave s c.w (fun v => match pathOf v c.pb with | some x => setPath v c.pb { x with wait := wt } | none => v)

abbrev Answer := Host.Outcome State Fault Refusal

/-- The issue of an instruction by the path named by cur: its effect, or the trap it takes. -/
def issue (s : State) (f : Ctx → Except Trap State) : Answer :=
  if s.dev.stat = .fatal then .fault .deviceFatal
  else
    match ctxAt s s.cur s.curB with
    | none => .fault .noIssuer
    | some c =>
      match f c with
      | .ok s' => .next s'
      | .error t => .next (takeTrap s c.w c.pb t c.path.pc)

/-- An event of the table: a step of the machine that no path issues. -/
def event (s : State) : Answer := .next s

/-! Returning from a trap (R293, R212). -/

/-- Whether an address lies in the body of a clause. -/
def inClause (cl : Clause) (pc : Nat) : Bool := decide (cl.base < pc ∧ pc < cl.base + 4 * (cl.words.length + 1))

/-- A path that resumes at TEPC: inside the clause in which the trap was taken it fetches that clause again (R212). A
clause that ILLEGAL_CLAUSE stopped was not entered, so a TEPC within it is read as a header (entry 55, DEDUCED). -/
def resumePath (x : Path) (pc : Nat) : Path :=
  match x.code with
  | some cl =>
    if inClause cl pc then { x with pc := pc, code := none, wait := .ready, resume := some (cl.base, cl.words.length) }
    else jumpPath x pc
  | none =>
    match x.resume with
    | some (b, n) => if b < pc && pc < b + 4 * (n + 1) then { x with pc := pc, wait := .ready } else jumpPath x pc
    | none => jumpPath x pc

/-- Restore the saved stack and resume the trapping path at TEPC; leave trap mode (R70). A path with an atomic still to
be performed keeps its wait only when TEPC has not moved. -/
def restoreStack (v : Wave) (sv : Saved) : Wave :=
  let pc := v.csr.tepc.toNat
  let keep (x : Path) : Path :=
    match x.wait with
    | .ready => resumePath x pc
    | _ => if x.pc = pc then x else resumePath x pc
  let v1 := { v with csr := { v.csr with wctl := v.csr.wctl &&& ~~~16#64 }, saved := none, base := sv.base, stack := sv.stack }
  match sv.stack with
  | [] => { v1 with base := keep sv.base }
  | p :: t => { v1 with stack := (if sv.pathB then { p with b := keep p.b } else { p with a := keep p.a }) :: t }

/-! The store queue's tail (R170 move 1, R171). -/

/-- Append an entry to a wave's SQ. A release waits for older entries, and for the copies dirty on its path now. THREAD
and WAVE releases wait for nothing (R168). -/
def appendSq (s : State) (w grp : Nat) (kind : SqKind) (bytes : List (Nat × Byte × Byte)) (scope : Nat) (rel acq : Bool)
    (va : Nat) : State :=
  let r := rel && decide (2 ≤ scope)
  let e : SqEntry := {
    seq := s.seq, grp := grp, kind := kind, bytes := bytes, scope := scope, rel := r, acq := acq,
    toks := if r then dirtyToks s (coreOf w) (scopeLevel scope) else [], va := va }
  updWave { s with seq := s.seq + 1 } w (fun v => { v with sq := v.sq ++ [e] })

end Sys2Proof.Machine
end

