-- ==== Sys2Proof/Machine/Operands.lean ====
section
/-! DEFINITION. Operand forms: legality, unwritten copies, last reads, destinations (03_registers.md R49 to R57,
11_isa_vector_int.md R230 to R233). Fields are checked in the order D, A, B (entry 10). -/

namespace Sys2Proof.Machine

/-- The kinds of operand of R231. -/
inductive SrcKind where
  | value
  | pair
  | pred
  /-- Four registers, for the 16-byte stores. -/
  | quad
  /-- n v registers in sequence, one operand of an engine instruction. -/
  | range (n : Nat)
  deriving DecidableEq, Repr

/-- A source operand: specifier, kind, whether the literal may stand there, its last-read bit. -/
structure Src where
  r : Reg
  kind : SrcKind
  lit : Bool
  last : Bool
  deriving DecidableEq, Repr

/-- Registers that a source reads. -/
def Src.regs (x : Src) : Nat := match x.kind with | .pair => 2 | .quad => 4 | .range n => n | _ => 1

def isVSpec (r : Reg) : Bool := match specOf r with | .v _ => true | _ => false
def isSSpec (r : Reg) : Bool := match specOf r with | .s _ => true | _ => false

/-- A quad of registers, or the constant 0 (R303). -/
def quadOk (g : Wg) (r : Reg) : Bool :=
  match specOf r with
  | .v n => n % 4 = 0 && n + 3 < vCount g
  | .s n => decide (n % 4 = 0)
  | .k n => n = 0
  | _ => false

/-- A source is legal: its kind, its register range, its literal (R231, R49), its last-read bit (R51), and held once
for the wave when the destination is an s register (R24). -/
def srcOk (g : Wg) (once : Bool) (x : Src) : Bool :=
  (match x.kind with
   | .value => valueOk g x.r x.lit
   | .pair => pairOk g x.r x.lit
   | .quad => quadOk g x.r
   | .range n => vRange g x.r n
   | .pred => predOk x.r) && (!once || heldOnce x.r) && (!x.last || isVSpec x.r)

/-- ILLEGAL_OPERAND for the first illegal source. -/
def srcsOk (c : Ctx) (once : Bool) (srcs : List Src) : Except Trap Unit :=
  match srcs.find? (fun x => !srcOk c.g once x) with
  | some x => .error (illegalOperand x.r.toNat c.mask)
  | none => .ok ()

/-- Positions of the path that read an unwritten copy of a source (R50). -/
def unwMask (c : Ctx) (srcs : List Src) : Mask :=
  maskOf ((positions c.mask).filter (fun q => srcs.any (fun x => unwritten c q x.r x.regs)))

/-- The unwritten reads of an instruction: UNWRITTEN under STRICT outside trap mode, else WSTAT.UR (R50). -/
def unwrittenCheck (c : Ctx) (srcs : List Src) : Except Trap Wave :=
  let m := unwMask c srcs
  if m = 0 then .ok c.wave
  else if wStrict c.wave && !wTrap c.wave then
    match srcs.find? (fun x => (positions c.mask).any (fun q => unwritten c q x.r x.regs)) with
    | some x => .error (unwrittenTrap x.r m)
    | none => .ok (setStat c.wave 0)
  else .ok (setStat c.wave 0)

/-- Whether a position's read of a source meets a register whose parity fails (R97). -/
def srcBad (c : Ctx) (q : Nat) (x : Src) : Bool :=
  match specOf x.r with
  | .v n => ((threadAt c.wave q).map (fun t => (List.range x.regs).any (fun i => t.bad.contains (n + i)))).getD false
  | .s n => (List.range x.regs).any (fun i => c.wave.sbad.contains (n + i))
  | _ => false

/-- ECC at the reading instruction (R97): structure 3, the specifier. -/
def parityCheck (c : Ctx) (srcs : List Src) : Except Trap Unit :=
  match srcs.find? (fun x => (positions c.mask).any (fun q => srcBad c q x)) with
  | none => .ok ()
  | some x =>
    .error (eccTrap 3 x.r.toNat (maskOf ((positions c.mask).filter (fun q => srcs.any (fun x => srcBad c q x)))))

/-- ECC where positions qs read copies of other positions: each source with the position whose copy a position reads. -/
def parityFrom (c : Ctx) (qs : List Nat) (srcs : List (Src × (Nat → Nat))) : Except Trap Unit :=
  match srcs.find? (fun x => qs.any (fun q => srcBad c (x.2 q) x.1)) with
  | none => .ok ()
  | some x => .error (eccTrap 3 x.1.r.toNat (maskOf (qs.filter (fun q => srcs.any (fun y => srcBad c (y.2 q) y.1)))))

/-- Release the marked registers for the active threads (R51). -/
def releaseSrcs (c : Ctx) (srcs : List Src) (v : Wave) : Wave :=
  srcs.foldl (fun v x =>
    if x.last then
      match specOf x.r with
      | .v n => (positions c.mask).foldl (fun v q => (List.range x.regs).foldl (fun v i => dropVReg v q (n + i)) v) v
      | _ => v
    else v) v

/-- Check and read the sources, and release the marked ones: the wave from which the destination is then written. -/
def readSrcs (c : Ctx) (once : Bool) (srcs : List Src) : Except Trap Wave :=
  match srcsOk c once srcs, parityCheck c srcs with
  | .error t, _ => .error t
  | _, .error t => .error t
  | .ok _, .ok _ => (unwrittenCheck c srcs).map (releaseSrcs c srcs)

/-- A destination of a VEC instruction: a v register within the count or an s register; even, and its partner too, when
it names a pair (R49, R55, R57, R232). -/
def dstOk (g : Wg) (d : Reg) (wide : Bool) : Bool :=
  match specOf d with
  | .v n => if wide then n % 2 = 0 && n + 1 < vCount g else decide (n < vCount g)
  | .s n => if wide then n % 2 = 0 else true
  | _ => false

/-- Write one register for the active threads with a form. -/
def writeV (c : Ctx) (v : Wave) (r : Nat) (form : Option Form) (f : Nat → Word) : Wave :=
  setForm ((positions c.mask).foldl (fun v q => setVReg v q r (f q)) v) r form

/-- Write a destination: a v register or pair for the active threads, or an s register or pair once (R232). -/
def writeDst (c : Ctx) (v : Wave) (d : Reg) (wide : Bool) (form : Option Form) (f : Nat → DWord) : Wave :=
  match specOf d with
  | .v r =>
    let v1 := writeV c v r form (fun q => loWord (f q))
    if wide then writeV c v1 (r + 1) form (fun q => hiWord (f q)) else v1
  | .s r =>
    let x := f ((positions c.mask).headD 0)
    if wide then setSPair v r x else setSReg v r (loWord x)
  | _ => v

/-- Write a predicate for the active threads. -/
def writeP (c : Ctx) (v : Wave) (d : Reg) (f : Nat → Bool) : Wave :=
  (positions c.mask).foldl (fun v q => setPred v q (predNum d) (f q)) v

/-- A 32-bit result in a doubleword. -/
def lowOnly (x : Word) : DWord := x.setWidth 64

/-- Words of an instruction whose B field may hold the literal (R208). -/
def wordsB (b : Reg) : Nat := if b = 0x7F then 2 else 1

/-- ILLEGAL_OPERAND unless a condition holds of a specifier. -/
def needSpec (c : Ctx) (ok : Bool) (r : Reg) : Except Trap Unit :=
  if ok then .ok () else .error (illegalOperand r.toNat c.mask)

/-- A VEC instruction that writes D from its sources: the shape of R230 to R232. -/
def vecDst (s : State) (d : Reg) (wide : Bool) (n : Nat) (srcs : List Src) (form : Ctx → Option Form)
    (f : Ctx → Nat → DWord) : Answer :=
  issue s fun c =>
    match needSpec c (dstOk c.g d wide) d with
    | .error t => .error t
    | .ok _ =>
      match readSrcs c (isSSpec d) srcs with
      | .error t => .error t
      | .ok v => .ok (setWave s c.w (advance c n (writeDst c v d wide (form c) (f c))))

/-- A VEC instruction that writes a predicate from its sources. -/
def vecPred (s : State) (d : Reg) (n : Nat) (srcs : List Src) (f : Ctx → Nat → Bool) : Answer :=
  issue s fun c =>
    match needSpec c (predOk d) d with
    | .error t => .error t
    | .ok _ =>
      match readSrcs c false srcs with
      | .error t => .error t
      | .ok v => .ok (setWave s c.w (advance c n (writeP c v d (f c))))

/-- A VEC instruction that its own entry refuses: ILLEGAL_OP, after check 3 of R221 has passed its operands. -/
def vecRefused (s : State) (w : Word) (d : Reg) (srcs : List Src) : Answer :=
  issue s fun c =>
    match needSpec c (dstOk c.g d false) d, srcsOk c (isSSpec d) srcs with
    | .error t, _ => .error t
    | _, .error t => .error t
    | .ok _, .ok _ => .error (illegalOp w c.mask)

/-- Sources of format F3. -/
def srcA (x : F3) : Src := ⟨x.a, .value, false, x.la⟩
def srcB (x : F3) : Src := ⟨x.b, .value, true, x.lb⟩
def srcD (x : F3) : Src := ⟨x.d, .value, false, false⟩
def srcPA (x : F3) : Src := ⟨x.a, .pair, false, x.la⟩
def srcPB (x : F3) : Src := ⟨x.b, .pair, true, x.lb⟩
def srcPD (x : F3) : Src := ⟨x.d, .pair, false, false⟩

/-- One-source F3 instruction: D := f A. -/
def vec1 (s : State) (x : F3) (f : Word → Word) : Answer :=
  vecDst s x.d false 1 [srcA x] (fun c => plainForm c [x.a]) (fun c q => lowOnly (f (rdSpec c q x.a 0)))

/-- Two-source F3 instruction: D := f A B. -/
def vec2 (s : State) (x : F3) (f : Word → Word → Word) : Answer :=
  vecDst s x.d false (wordsB x.b) [srcA x, srcB x] (fun c => plainForm c [x.a, x.b])
    (fun c q => lowOnly (f (rdSpec c q x.a 0) (rdSpec c q x.b x.lit)))

/-- Accumulating F3 instruction: D := f A B D, D read as a third source (R236). -/
def vec3 (s : State) (x : F3) (f : Word → Word → Word → Word) : Answer :=
  vecDst s x.d false (wordsB x.b) [srcA x, srcB x, srcD x] (fun c => plainForm c [x.a, x.b, x.d])
    (fun c q => lowOnly (f (rdSpec c q x.a 0) (rdSpec c q x.b x.lit) (rdSpec c q x.d 0)))

/-- FI instruction: D := f A. -/
def vecI (s : State) (x : FI) (f : Word → Word) : Answer :=
  vecDst s x.d false 1 [⟨x.a, .value, false, x.la⟩] (fun c => plainForm c [x.a])
    (fun c q => lowOnly (f (rdSpec c q x.a 0)))

/-- Comparison: predicate D := f A B (R252, R270). -/
def vecCmp (s : State) (x : F3) (f : Word → Word → Bool) : Answer :=
  vecPred s x.d (wordsB x.b) [srcA x, srcB x] (fun c q => f (rdSpec c q x.a 0) (rdSpec c q x.b x.lit))

end Sys2Proof.Machine
end

