-- ==== Sys2Proof/Machine/Flags.lean ====
section
/-! DEFINITION. Integer conditions that predicates take (11_isa_vector_int.md R252 to R257), and packed-half and byte
arithmetic helpers (R186, R230). Flags of WSTAT are set by setStat (Waves). -/

namespace Sys2Proof.Machine

/-- s(A) < s(B), s(A) ≤ s(B) and the unsigned tests of R252. -/
def sLt (a b : Word) : Bool := decide (a.toInt < b.toInt)
def sLe (a b : Word) : Bool := decide (a.toInt ≤ b.toInt)
def uLt (a b : Word) : Bool := decide (a.toNat < b.toNat)
def uLe (a b : Word) : Bool := decide (a.toNat ≤ b.toNat)

/-- The lesser and greater of two words. -/
def sMin (a b : Word) : Word := if sLe a b then a else b
def sMax (a b : Word) : Word := if sLe a b then b else a
def uMin (a b : Word) : Word := if uLe a b then a else b
def uMax (a b : Word) : Word := if uLe a b then b else a

/-- The 16-bit element i of a word (R186). -/
def half (x : Word) (i : Nat) : BitVec 16 := x.extractLsb' (16 * i) 16

/-- A word of two halves, element 0 in the low bits. -/
def ofHalves (h0 h1 : BitVec 16) : Word := (h1 ++ h0 : BitVec 32)

/-- Byte i of a word. -/
def byteOf (x : Word) (i : Nat) : Byte := x.extractLsb' (8 * i) 8

/-- A word of four bytes, byte 0 in the low bits. -/
def ofBytes (b0 b1 b2 b3 : Byte) : Word := (b3 ++ b2 ++ b1 ++ b0 : BitVec 32)

/-- Each half on its own (R239). -/
def onHalves (f : BitVec 16 → BitVec 16 → BitVec 16) (a b : Word) : Word :=
  ofHalves (f (half a 0) (half b 0)) (f (half a 1) (half b 1))

/-- Sat16 of R230. -/
def sat16 (x : Int) : BitVec 16 := BitVec.ofInt 16 (clampI (-32768) 32767 x)

/-- MATCH (R257): every active thread, or another active thread, holds the same value. -/
def matchAll (vals : List (Nat × Word)) (x : Word) : Bool := vals.all (fun e => e.2 == x)
def matchAny (vals : List (Nat × Word)) (q : Nat) (x : Word) : Bool := vals.any (fun e => e.1 != q && e.2 == x)

end Sys2Proof.Machine
end

