-- ==== Sys2Proof/Machine/Float.lean ====
section
/-! DEFINITION. Floating-point formats, exact values, rounding and the arithmetic on them (09_arithmetic.md R185 to R191,
R193, R194). -/

namespace Sys2Proof.Machine

/-- An exact value: NaN, an infinity, or (-1)^neg * m * 2^e. -/
inductive Num where
  | nan
  | inf (neg : Bool)
  | fin (neg : Bool) (m : Nat) (e : Int)
  deriving DecidableEq, Repr

/-- Which patterns of a format are special (R185). -/
inductive FmtKind where
  /-- All ones in the exponent: infinity, NaN. -/
  | ieee
  /-- Only the code of all ones is NaN. -/
  | oneNan
  /-- No infinity and no NaN. -/
  | finite
  deriving DecidableEq, Repr

/-- A floating-point format (R185): exponent bits, mantissa bits, bias, specials, largest finite code, the NaN written. -/
structure Fmt where
  ebits : Nat
  mbits : Nat
  bias : Int
  kind : FmtKind
  maxFin : Nat
  nanCode : Nat
  deriving DecidableEq, Repr

def fmtF32 : Fmt := ⟨8, 23, 127, .ieee, 0x7F7FFFFF, 0x7FC00000⟩
def fmtF16 : Fmt := ⟨5, 10, 15, .ieee, 0x7BFF, 0x7E00⟩
def fmtBf16 : Fmt := ⟨8, 7, 127, .ieee, 0x7F7F, 0x7FC0⟩
def fmtE4m3 : Fmt := ⟨4, 3, 7, .oneNan, 0x7E, 0x7F⟩
def fmtE5m2 : Fmt := ⟨5, 2, 15, .ieee, 0x7B, 0x7E⟩
def fmtE2m1 : Fmt := ⟨2, 1, 1, .finite, 0x7, 0x0⟩

/-- Bits of a format below the sign. -/
def Fmt.mag (f : Fmt) : Nat := f.ebits + f.mbits

/-- The value a code of a format stands for (R185). -/
def decodeF (f : Fmt) (x : Nat) : Num :=
  let neg := x.testBit f.mag
  let ex := bits x f.mbits f.ebits
  let m := bits x 0 f.mbits
  let top := 2 ^ f.ebits - 1
  if f.kind = .ieee ∧ ex = top then (if m = 0 then .inf neg else .nan)
  else if f.kind = .oneNan ∧ x % 2 ^ f.mag = 2 ^ f.mag - 1 then .nan
  else if ex = 0 then .fin neg m (1 - f.bias - f.mbits)
  else .fin neg (2 ^ f.mbits + m) (ex - f.bias - f.mbits)

/-- Rounding modes (R189). -/
inductive Rnd where
  | rne
  | rtz
  | rdn
  | rup
  deriving DecidableEq, Repr

/-- Whether a magnitude n with a nonzero remainder rounds away from zero; cmp compares the remainder with a half. -/
def roundsUp (mode : Rnd) (neg odd : Bool) (cmp : Ordering) : Bool :=
  match mode with
  | .rne => match cmp with | .gt => true | .eq => odd | .lt => false
  | .rtz => false
  | .rdn => neg
  | .rup => !neg

/-- A magnitude m * 2^(-k) rounded to an integer; a shift far below the last bit leaves less than a half. -/
def shiftRound (mode : Rnd) (neg : Bool) (m k : Nat) : Nat :=
  if m = 0 then 0
  else if Nat.log2 m + 1 < k then (if roundsUp mode neg false .lt then 1 else 0)
  else
    let n := m >>> k
    let r := m % 2 ^ k
    if r = 0 then n
    else if roundsUp mode neg (n % 2 = 1) (compare (2 * r) (2 ^ k)) then n + 1 else n

/-- Overflow of a rounding (R189, R194). -/
def overflowCode (f : Fmt) (mode : Rnd) (sat neg : Bool) : Nat :=
  let toInf := match mode with | .rne => true | .rtz => false | .rdn => neg | .rup => !neg
  if f.kind = .ieee && toInf && !sat then (2 ^ f.ebits - 1) * 2 ^ f.mbits else f.maxFin

/-- The sign bit of a code. -/
def signCode (f : Fmt) (neg : Bool) (c : Nat) : Nat := if neg then c + 2 ^ f.mag else c

/-- A nonzero exact magnitude rounded to a format's code, subnormals kept (R189). -/
def roundMag (f : Fmt) (mode : Rnd) (sat neg : Bool) (m : Nat) (e : Int) : Nat :=
  let emin := 1 - f.bias
  let top := e + (Nat.log2 m : Int)
  let ex := if top < emin then emin else top
  let q := ex - f.mbits
  if f.bias + 1 < ex then overflowCode f mode sat neg
  else
    let n := if q ≤ e then m <<< (e - q).toNat else shiftRound mode neg m (q - e).toNat
    let c := (ex - emin).toNat * 2 ^ f.mbits + n
    if f.maxFin < c then overflowCode f mode sat neg else c

/-- An exact value rounded to a format (R189, R190, R194); sat makes overflow and infinities the largest finite. -/
def encodeF (f : Fmt) (mode : Rnd) (sat : Bool) (x : Num) : Nat :=
  match x with
  | .nan => f.nanCode
  | .inf neg =>
    signCode f neg (if f.kind = .ieee && !sat then (2 ^ f.ebits - 1) * 2 ^ f.mbits else f.maxFin)
  | .fin neg m e => signCode f neg (if m = 0 then 0 else roundMag f mode sat neg m e)

/-- F(x) of R262. -/
def f32 (x : Word) : Num := decodeF fmtF32 x.toNat

/-- RoundF32(x, mode). -/
def toF32 (mode : Rnd) (x : Num) : Word := BitVec.ofNat 32 (encodeF fmtF32 mode false x)

/-- RoundF32(x, RNE). -/
def rne32 (x : Num) : Word := toF32 .rne x

/-- Multiplication (R189, R190). -/
def Num.mul (x y : Num) : Num :=
  match x, y with
  | .nan, _ => .nan
  | _, .nan => .nan
  | .inf a, .inf b => .inf (a != b)
  | .inf a, .fin b m _ => if m = 0 then .nan else .inf (a != b)
  | .fin a m _, .inf b => if m = 0 then .nan else .inf (a != b)
  | .fin a m e, .fin b n f => .fin (a != b) (m * n) (e + f)

/-- A magnitude at a lower exponent, with its sign. -/
def alignInt (neg : Bool) (m : Nat) (e e0 : Int) : Int :=
  let x : Nat := m <<< (e - e0).toNat
  if neg then -(x : Int) else (x : Int)

/-- Addition (R189, R190); rd gives the sign of an exact zero in RDN. -/
def Num.add (rd : Bool) (x y : Num) : Num :=
  match x, y with
  | .nan, _ => .nan
  | _, .nan => .nan
  | .inf a, .inf b => if a = b then .inf a else .nan
  | .inf a, .fin .. => .inf a
  | .fin .., .inf b => .inf b
  | .fin a m e, .fin b n f =>
    if m = 0 ∧ n = 0 then .fin (if a = b then a else rd) 0 0
    else if m = 0 then .fin b n f
    else if n = 0 then .fin a m e
    else
      let e0 := if e ≤ f then e else f
      let z := alignInt a m e e0 + alignInt b n f e0
      if z = 0 then .fin rd 0 0 else .fin (decide (z < 0)) z.natAbs e0

/-- Negation. -/
def Num.neg : Num → Num
  | .nan => .nan
  | .inf a => .inf (!a)
  | .fin a m e => .fin (!a) m e

/-- Exact comparison; none with a NaN. -/
def Num.cmp (x y : Num) : Option Ordering :=
  match x, y with
  | .nan, _ => none
  | _, .nan => none
  | .inf a, .inf b => some (if a = b then .eq else if a then .lt else .gt)
  | .inf a, .fin .. => some (if a then .lt else .gt)
  | .fin .., .inf b => some (if b then .gt else .lt)
  | .fin a m e, .fin b n f =>
    if m = 0 ∧ n = 0 then some .eq
    else
      let e0 := if e ≤ f then e else f
      some (compare (alignInt a m e e0) (alignInt b n f e0))

def Num.lt (x y : Num) : Bool := x.cmp y == some .lt
def Num.le (x y : Num) : Bool := x.cmp y == some .lt || x.cmp y == some .eq
def Num.eqv (x y : Num) : Bool := x.cmp y == some .eq
def Num.isNan (x : Num) : Bool := x == .nan

/-- +0, 1 and an exact integer. -/
def Num.zero : Num := .fin false 0 0
def Num.one : Num := .fin false 1 0
def Num.ofInt (x : Int) : Num := .fin (decide (x < 0)) x.natAbs 0

/-- A value with a bit below its last, standing for what lies strictly between two of its neighbours: it rounds as the
exact value does. -/
def sticky (neg : Bool) (m : Nat) (e : Int) (more : Bool) : Num := .fin neg (2 * m + (if more then 1 else 0)) (e - 1)

/-- The quotient of finite nonzero magnitudes, to 64 bits and a sticky bit. -/
def divMag (neg : Bool) (m : Nat) (e : Int) (n : Nat) (f : Int) : Num :=
  let k := 64 + Nat.log2 n
  let x := m <<< k
  sticky neg (x / n) (e - f - k) (x % n != 0)

/-- Division; a zero divisor gives infinity, and 0/0 and infinity over infinity NaN (R190, R192). -/
def Num.div (x y : Num) : Num :=
  match x, y with
  | .nan, _ => .nan
  | _, .nan => .nan
  | .inf _, .inf _ => .nan
  | .inf a, .fin b _ _ => .inf (a != b)
  | .fin a _ _, .inf b => .fin (a != b) 0 0
  | .fin a m e, .fin b n f =>
    if n = 0 then (if m = 0 then .nan else .inf (a != b))
    else if m = 0 then .fin (a != b) 0 0
    else divMag (a != b) m e n f

/-- An exact sum of values. -/
def sumNum (l : List Num) : Num :=
  match l with
  | [] => .zero
  | x :: t => t.foldl (Num.add false) x

/-- FADD and its forms, on patterns (R263). -/
def fAdd (mode : Rnd) (a b : Word) : Word := toF32 mode ((f32 a).add (mode == .rdn) (f32 b))
def fSub (mode : Rnd) (a b : Word) : Word := toF32 mode ((f32 a).add (mode == .rdn) (f32 b).neg)
def fMul (mode : Rnd) (a b : Word) : Word := toF32 mode ((f32 a).mul (f32 b))
def fFma (mode : Rnd) (a b d : Word) : Word := toF32 mode (((f32 a).mul (f32 b)).add (mode == .rdn) (f32 d))

/-- The order of the non-NaN codes of a format in which -0 lies below +0 (R191). -/
def fltKey (f : Fmt) (x : Nat) : Int :=
  let m : Int := (x % 2 ^ f.mag : Nat)
  if x.testBit f.mag then -m - 1 else m

/-- FMIN and FMAX (R191): the code of one operand, or the written NaN; strict is the NAN form. -/
def minMax (f : Fmt) (max strict : Bool) (a b : Nat) : Nat :=
  let na := (decodeF f a).isNan
  let nb := (decodeF f b).isNan
  if na && nb then f.nanCode
  else if na then (if strict then f.nanCode else b)
  else if nb then (if strict then f.nanCode else a)
  else if max then (if fltKey f a < fltKey f b then b else a)
  else (if fltKey f b < fltKey f a then b else a)

def minMax32 (max strict : Bool) (a b : Word) : Word := BitVec.ofNat 32 (minMax fmtF32 max strict a.toNat b.toNat)

/-- FSAT (R265). -/
def fSat (a : Word) : Word :=
  match f32 a with
  | .nan => 0
  | .inf neg => if neg then 0 else 0x3F800000
  | .fin neg m e => if neg then 0 else if Num.one.lt (.fin neg m e) then 0x3F800000 else a

/-- FCLASS's class word (R266). -/
def fClass (a : Word) : Word :=
  let neg := a.msb
  let ex := (a.extractLsb' 23 8).toNat
  match f32 a with
  | .nan => 0x100
  | .inf _ => if neg then 1 else 0x80
  | .fin _ m _ =>
    if m = 0 then (if neg then 8 else 0x10)
    else if ex = 0 then (if neg then 4 else 0x20)
    else (if neg then 2 else 0x40)

/-- FLDEXP (R267). -/
def fLdexp (a b : Word) : Word :=
  match f32 a with
  | .fin neg m e => rne32 (.fin neg m (e + b.toInt))
  | x => rne32 x

/-- FREXP's fraction and exponent (R268). -/
def fRexp (a : Word) : Word :=
  match f32 a with
  | .fin neg m _ => if m = 0 then a else rne32 (.fin neg m (-(Nat.log2 m : Int) - 1))
  | x => rne32 x

def fRexpE (a : Word) : Word :=
  match f32 a with
  | .fin _ m e => if m = 0 then 0 else BitVec.ofInt 32 (e + (Nat.log2 m : Int) + 1)
  | _ => 0

/-- FCMP's conditions (R270, R191). -/
def fEq (a b : Word) : Bool := (f32 a).eqv (f32 b)
def fLt (a b : Word) : Bool := (f32 a).lt (f32 b)
def fLe (a b : Word) : Bool := (f32 a).le (f32 b)
def fUn (a b : Word) : Bool := (f32 a).isNan || (f32 b).isNan

/-- The magnitude of a finite value rounded to an integer (R190, R193). -/
def roundInt (mode : Rnd) (neg : Bool) (m : Nat) (e : Int) : Nat :=
  if 0 ≤ e then m <<< e.toNat else shiftRound mode neg m (-e).toNat

/-- FRND (R190, R272): integral, with the sign of the input. -/
def fRnd (mode : Rnd) (a : Word) : Word :=
  match f32 a with
  | .fin neg m e => rne32 (.fin neg (roundInt mode neg m e) 0)
  | x => rne32 x

/-- A value rounded to an integer, saturated between lo and hi; NaN gives 0 (R193). -/
def toIntSat (mode : Rnd) (lo hi : Int) (x : Num) : Int :=
  match x with
  | .nan => 0
  | .inf neg => if neg then lo else hi
  | .fin neg m e =>
    let n : Int := (roundInt mode neg m e : Nat)
    clampI lo hi (if neg then -n else n)

def cvtI32 (mode : Rnd) (a : Word) : Word := BitVec.ofInt 32 (toIntSat mode (-2147483648) 2147483647 (f32 a))
def cvtU32 (a : Word) : Word := BitVec.ofInt 32 (toIntSat .rne 0 4294967295 (f32 a))

/-- Narrowing (R194): RNE; E4M3 and E2M1 saturate. -/
def narrow (f : Fmt) (a : Word) : Nat := encodeF f .rne false (f32 a)

/-- Widening (R194). -/
def widen (f : Fmt) (x : Nat) : Word := rne32 (decodeF f x)

/-- Packed arithmetic on 16-bit elements (R195, R276). -/
def packed2 (f : Fmt) (op : Num → Num → Num) (a b : Word) : Word :=
  onHalves (fun x y => BitVec.ofNat 16 (encodeF f .rne false (op (decodeF f x.toNat) (decodeF f y.toNat)))) a b

def packedFma (f : Fmt) (a b d : Word) : Word :=
  let el (i : Nat) : BitVec 16 :=
    BitVec.ofNat 16 (encodeF f .rne false
      (((decodeF f (half a i).toNat).mul (decodeF f (half b i).toNat)).add false (decodeF f (half d i).toNat)))
  ofHalves (el 0) (el 1)

def packedMinMax (f : Fmt) (max : Bool) (a b : Word) : Word :=
  onHalves (fun x y => BitVec.ofNat 16 (minMax f max false x.toNat y.toNat)) a b

/-- FDOT2 and BFDOT2 (R195, R269). -/
def dot2 (f : Fmt) (a b d : Word) : Word :=
  let pr (i : Nat) : Num := (decodeF f (half a i).toNat).mul (decodeF f (half b i).toNat)
  rne32 (((pr 0).add false (pr 1)).add false (f32 d))

/-- One level of the tree of R200. -/
def pairUp : List Word → List Word
  | x :: y :: t => fAdd .rne x y :: pairUp t
  | l => l

/-- REDFADD's tree (R200); fuel 6 covers 64 leaves. -/
def treeSum : Nat → List Word → Word
  | 0, l => l.headD 0
  | n + 1, l => if l.length ≤ 1 then l.headD 0 else treeSum n (pairUp l)

end Sys2Proof.Machine
end

