-- ==== Sys2Proof/Machine/Blocks.lean ====
section
/-! DEFINITION. The aligned blocks that moves 3 to 5 act on (08_ordering.md R170): the blocks of an element of a ring or an
overflow tile that move together (R183), the push and the carrying of dirty copies, and the fills of a read. -/

namespace Sys2Proof.Machine

/-! Tiles and their groups of blocks (R85, R86, R183). -/

/-- The location of a virtual address as the page tables stand. -/
def mappedLoc (s : State) (part va : Nat) : Option Nat :=
  match applyEntry (getPart s part) part (walkEntry (walk s part va)) 0 va with
  | .ok l => some l
  | _ => none

/-- Where the bytes of a tile lie: the first location and the length of each piece; those of an overflow tile, which lies at
a virtual address, page by page. -/
def tileSpans (s : State) (part va n : Nat) : List (Nat × Nat) :=
  let k := Nat.min n (2 ^ 17 - va % 2 ^ 17)
  [(va, k), (va + k, n - k)].filterMap (fun e => if e.2 = 0 then none else (mappedLoc s part e.1).map (fun l => (l, e.2)))

/-- How elements lie in the tiles of a resource: the planes of a tile, the bytes of one, and the bytes of a plane after which
no element goes on into the next block. -/
structure TileShape where
  planes : Nat
  plane : Nat
  chunk : Nat
  deriving DecidableEq, Repr

/-- The shape of a resource's tiles: eight planes with a bit for each channel (PLANES), or one run of elements. A tile starts
at a multiple of 8 and holds at least 64 elements (R140, R142), so that it is a whole number of chunks. -/
def tileShape (e : ResEnt) : TileShape :=
  if e.ilv = 2 then { planes := 8, plane := e.tileBytes / 8, chunk := Nat.lcm e.chn 64 / 8 }
  else { planes := 1, plane := e.tileBytes, chunk := Nat.lcm (2 * e.tileBytes / 2 ^ (e.ltw + e.lth)) 16 / 2 }

/-- Some element of the resource lies in more than one block. -/
def wideElems (e : ResEnt) : Bool := decide (0 < e.tileBytes) && ((tileShape e).planes != 1 || (tileShape e).chunk != 8)

/-- The overflow tiles of a graph's resources with such elements. -/
def wideOverflow (s : State) (part : Nat) (gr : Graph) : List (TileShape × List (Nat × Nat)) :=
  gr.image.ress.flatMap (fun e =>
    if wideElems e then
      (List.range e.ovtiles).map (fun n => (tileShape e, tileSpans s part (gr.image.ovbase + e.ovOff + n * e.tileBytes) e.tileBytes))
    else [])

/-- A location lies in one of some pieces. -/
def inSpans (l : List (Nat × Nat)) (loc : Nat) : Bool := l.any (fun r => decide (r.1 ≤ loc ∧ loc < r.1 + r.2))

/-- The tile with such elements that holds a location, in a ring slot or in an overflow tile: its shape and its pieces. -/
def wideTile (s : State) (loc : Nat) : Option (TileShape × List (Nat × Nat)) :=
  if loc < 2 ^ 60 then
    (s.parts.flatMap (fun p => p.2.graphs.flatMap (fun g => if g.2.live then wideOverflow s p.1 g.2 else []))).find?
      (fun t => inSpans t.2 loc)
  else if loc < 2 ^ 63 then none
  else
    let key := (loc - 2 ^ 63) / 2 ^ 32
    match tabGet? (getPart s (key / 256)).graphs (key / 64 % 4) with
    | none => none
    | some gr =>
      match gr.image.ress[key % 64]? with
      | some e =>
        let base := 2 ^ 63 + key * 2 ^ 32
        if wideElems e then some (tileShape e, [(base + (loc - base) / e.tileBytes * e.tileBytes, e.tileBytes)]) else none
      | none => none

/-- The offset of a location in its pieces, and the location of an offset. -/
def spanOff (loc : Nat) : List (Nat × Nat) → Nat
  | [] => 0
  | r :: t => if r.1 ≤ loc && decide (loc < r.1 + r.2) then loc - r.1 else r.2 + spanOff loc t

def spanAt (o : Nat) : List (Nat × Nat) → Option Nat
  | [] => none
  | r :: t => if o < r.2 then some (r.1 + o) else spanAt (o - r.2) t

/-- The blocks that hold the elements of a block's chunk, in every plane: an element is read whole (R183). -/
def groupOf (s : State) (loc : Nat) : List Nat :=
  match wideTile s loc with
  | none => []
  | some (k, l) =>
    let o := spanOff loc l % k.plane / k.chunk * k.chunk
    (List.range k.planes).flatMap (fun p =>
      (List.range (k.chunk / 8)).filterMap (fun j => (spanAt (p * k.plane + o + 8 * j) l).map (· / 8)))

/-- The blocks that move with a block. -/
def blockGroup (s : State) (blk : Nat) : List Nat := (blk :: groupOf s (8 * blk)).eraseDups

/-- The locations that move with a block. -/
def groupLocs (s : State) (blk : Nat) : List Nat := (blockGroup s blk).flatMap blockLocs

/-- Propagate (R170 move 3): every dirty byte of a view's aligned 8-byte block, and of the blocks that move with it. -/
def propBlock (s : State) (view blk : Nat) : State := propLocs s view (groupLocs s blk)

/-- Drop (R170 move 5): every clean bit of a view's aligned 8-byte block, and of the blocks that move with it. -/
def dropBlock (s : State) (view blk : Nat) : State := dropLocs s view (groupLocs s blk)

/-- Push the dirty copies of some bytes on a core's path up to a level, block by block (R174). -/
def pushBlocks (s : State) (core level : Nat) (locs : List Nat) : State :=
  ((List.range 4).filter (· < level)).foldl (fun s l =>
    (((locs.filter (fun x => (cellAt s (viewAt core l) x).dirty != 0)).map (· / 8)).eraseDups).foldl
      (fun s b => propBlock s (viewAt core l) b) s) s

/-- Propagate the copies that a release still has to carry up, view by view from the lowest level on, until none is left
(R171). toks reads them in a state. -/
def carryToks (toks : State → List (Nat × Nat)) (s : State) : State :=
  (List.range 4).foldl (fun s l =>
    ((toks s).filter (fun t => levelOf t.1 = l)).foldl (fun s t => propBlock s t.1 (t.2 / 8)) s) s

/-! Fills (R170 move 4). -/

/-- The locations that the fills of a read place: the bytes read and, where an element of a tile lies in several blocks, all
bytes of those blocks, so that no view holds a part of one (R183). A block that would give poison is left out: poison does
not go clean into a lower view (R97). -/
def fillLocs (s : State) (sq : List SqEntry) (core : Nat) (locs : List Nat) : List Nat :=
  ((locs.map (· / 8)).eraseDups).flatMap (fun b =>
    let l := match groupOf s (8 * b) with
      | [] => locs.filter (fun x => x / 8 = b)
      | g => g.flatMap blockLocs
    if l.any (fun x => (poisonAt s sq core 0 x).isSome) then [] else l)

/-- The fills of the bytes that a read of a core took, into the levels that the choice names. One choice of levels serves
every read of a step, of all its threads (entry 46). -/
def fillRead (s : State) (sq : List SqEntry) (core : Nat) (locs : List Nat) : State :=
  if s.choice.fill == 0 then s else (fillLocs s sq core locs).foldl (fun s l => fillByte s sq core l) s

end Sys2Proof.Machine
end

