-- ==== Sys2Proof/Decode.lean ====
section
/-! DEFINITION. The encoding tables of 10_encoding.md R206 to R221: the decoder, total on any words and bytes,
rejecting by name, and the encoder written from the same tables. -/

namespace Sys2Proof

/-- Why a word is not an instruction of its class (R221, checks 1 and 2). Both raise ILLEGAL_OP. -/
inductive Reject where
  /-- The OP is unassigned in the class, or the class does not exist. -/
  | unassigned
  /-- A field that must hold a fixed value holds another. -/
  | fixedField
  /-- Fewer words than the instruction takes (R209 check 3 keeps this out of a checked clause). -/
  | short
  deriving DecidableEq, Repr

/-! Fields of a word. -/

def fldOp (w : Word) : BitVec 8 := w.extractLsb' 0 8
def fldD (w : Word) : Reg := w.extractLsb' 8 7
def fldA (w : Word) : Reg := w.extractLsb' 15 7
def fldB (w : Word) : Reg := w.extractLsb' 22 7

/-- One bit of a word as a Bool. -/
def bitAt (w : Word) (k : Nat) : Bool := w.getLsbD k

/-- A Bool as one bit. -/
def bit1 (b : Bool) : BitVec 1 := BitVec.ofBool b

def F3.of (w lit : Word) : F3 :=
  ⟨fldD w, fldA w, fldB w, bitAt w 29, bitAt w 30, bitAt w 31, if fldB w = 0x7F then lit else 0⟩
def F3.word (o : BitVec 8) (x : F3) : Word := (bit1 x.m ++ bit1 x.lb ++ bit1 x.la ++ x.b ++ x.a ++ x.d ++ o : BitVec 32)

def FI.of (w : Word) : FI := ⟨fldD w, fldA w, w.extractLsb' 22 9, bitAt w 31⟩
def FI.word (o : BitVec 8) (x : FI) : Word := (bit1 x.la ++ x.imm ++ x.a ++ x.d ++ o : BitVec 32)

def FP.of (w lit : Word) : FP :=
  ⟨fldD w, fldA w, fldB w, w.extractLsb' 29 3, if fldB w = 0x7F then lit else 0⟩
def FP.word (o : BitVec 8) (x : FP) : Word := (x.p ++ x.b ++ x.a ++ x.d ++ o : BitVec 32)

def FM.of (w ext : Word) : FM :=
  ⟨fldD w, fldA w, w.extractLsb' 22 3, w.extractLsb' 25 2, w.extractLsb' 27 3, bitAt w 30, bitAt w 31,
    if bitAt w 31 then ext else 0⟩
def FM.word (o : BitVec 8) (x : FM) : Word :=
  (bit1 x.x ++ bit1 x.l ++ x.scope ++ x.ord ++ x.space ++ x.a ++ x.t ++ o : BitVec 32)

def FB.of (w : Word) : FB := ⟨w.extractLsb' 8 3, bitAt w 11, w.extractLsb' 12 10, w.extractLsb' 22 10⟩
def FB.word (o : BitVec 8) (x : FB) : Word := (x.join ++ x.tgt ++ bit1 x.n ++ x.p ++ o : BitVec 32)

def FBL.of (w : Word) : FBL := ⟨w.extractLsb' 8 24⟩
def FBL.word (o : BitVec 8) (x : FBL) : Word := (x.tgt ++ o : BitVec 32)

def FE.of (w ext lit : Word) : FE :=
  ⟨fldD w, fldA w, fldB w, w.extractLsb' 29 3, ext, if fldB w = 0x7F then lit else 0⟩
def FE.word (o : BitVec 8) (x : FE) : Word := (x.f ++ x.b ++ x.a ++ x.d ++ o : BitVec 32)

def wordA (o : BitVec 8) (a : Reg) : Word := (0#10 ++ a ++ 0#7 ++ o : BitVec 32)
def wordReord (o : BitVec 8) (k : BitVec 4) (key : Reg) : Word := (0#13 ++ k ++ key ++ o : BitVec 32)
def wordSpawn (o : BitVec 8) (k : BitVec 10) (a1 a0 : Reg) : Word := (k ++ a1 ++ a0 ++ o : BitVec 32)
def wordCode (o : BitVec 8) (code : BitVec 24) : Word := (code ++ o : BitVec 32)
def wordScope (o : BitVec 8) (s : BitVec 3) : Word := (0#21 ++ s ++ o : BitVec 32)
def wordCsr (o : BitVec 8) (n : BitVec 12) (r : Reg) : Word := (n ++ 0#5 ++ r ++ o : BitVec 32)


/-- The class of an instruction (R207): 0 VEC, 1 MEM, 2 CTL, 3 ENG, 4 GRF; none for an event. -/
def classOf : Instr → Option Nat
  | .iadd _ => some 0
  | .isub _ => some 0
  | .imul _ => some 0
  | .imulh _ => some 0
  | .imulhu _ => some 0
  | .imad _ => some 0
  | .imin _ => some 0
  | .imax _ => some 0
  | .umin _ => some 0
  | .umax _ => some 0
  | .iabs _ => some 0
  | .iadds _ => some 0
  | .isubs _ => some 0
  | .sad _ => some 0
  | .imin3 _ => some 0
  | .imax3 _ => some 0
  | .minadd _ => some 0
  | .minaddU _ => some 0
  | .idp4 _ => some 0
  | .idp4u _ => some 0
  | .iadd2 _ => some 0
  | .isub2 _ => some 0
  | .imin2 _ => some 0
  | .imax2 _ => some 0
  | .iadd64 _ => some 0
  | .isub64 _ => some 0
  | .imulWide _ => some 0
  | .imadWide _ => some 0
  | .shl64 _ => some 0
  | .shr64 _ => some 0
  | .lea _ => some 0
  | .iadd3 _ => some 0
  | .and _ => some 0
  | .or _ => some 0
  | .xor _ => some 0
  | .andn _ => some 0
  | .lop3 _ => some 0
  | .shl _ => some 0
  | .shr _ => some 0
  | .sar _ => some 0
  | .rotl _ => some 0
  | .bfe _ => some 0
  | .bfeu _ => some 0
  | .bfi _ => some 0
  | .popc _ => some 0
  | .clz _ => some 0
  | .brev _ => some 0
  | .prmt _ => some 0
  | .mov _ => some 0
  | .sel _ => some 0
  | .plane _ => some 0
  | .unplane _ => some 0
  | .icmpEq _ => some 0
  | .icmpNe _ => some 0
  | .icmpLt _ => some 0
  | .icmpLe _ => some 0
  | .icmpGt _ => some 0
  | .icmpGe _ => some 0
  | .icmpUlt _ => some 0
  | .icmpUle _ => some 0
  | .icmpUgt _ => some 0
  | .icmpUge _ => some 0
  | .pand _ => some 0
  | .por _ => some 0
  | .pxor _ => some 0
  | .pnot _ => some 0
  | .ballot _ => some 0
  | .vany _ => some 0
  | .vall _ => some 0
  | .matchOp _ => some 0
  | .first _ => some 0
  | .bcast _ => some 0
  | .shflIdx _ => some 0
  | .shflUp _ => some 0
  | .shflDn _ => some 0
  | .shflXor _ => some 0
  | .shflRot _ => some 0
  | .redadd _ => some 0
  | .redmin _ => some 0
  | .redmax _ => some 0
  | .redumin _ => some 0
  | .redumax _ => some 0
  | .redand _ => some 0
  | .redor _ => some 0
  | .redxor _ => some 0
  | .redfadd _ => some 0
  | .fadd _ => some 0
  | .faddRz _ => some 0
  | .faddRd _ => some 0
  | .faddRu _ => some 0
  | .fsub _ => some 0
  | .fsubRz _ => some 0
  | .fsubRd _ => some 0
  | .fsubRu _ => some 0
  | .fmul _ => some 0
  | .fmulRz _ => some 0
  | .fmulRd _ => some 0
  | .fmulRu _ => some 0
  | .ffma _ => some 0
  | .ffmaRz _ => some 0
  | .ffmaRd _ => some 0
  | .ffmaRu _ => some 0
  | .fmin _ => some 0
  | .fmax _ => some 0
  | .fminnan _ => some 0
  | .fmaxnan _ => some 0
  | .fabs _ => some 0
  | .fneg _ => some 0
  | .fsat _ => some 0
  | .fclass _ => some 0
  | .fldexp _ => some 0
  | .frexp _ => some 0
  | .fdot2 _ => some 0
  | .bfdot2 _ => some 0
  | .fcmpEq _ => some 0
  | .fcmpNe _ => some 0
  | .fcmpLt _ => some 0
  | .fcmpLe _ => some 0
  | .fcmpGt _ => some 0
  | .fcmpGe _ => some 0
  | .fcmpUn _ => some 0
  | .fcmpOrd _ => some 0
  | .frcp _ => some 0
  | .frsq _ => some 0
  | .fsqrt _ => some 0
  | .fex2 _ => some 0
  | .flg2 _ => some 0
  | .fsin _ => some 0
  | .fcos _ => some 0
  | .frndN _ => some 0
  | .frndZ _ => some 0
  | .frndD _ => some 0
  | .frndU _ => some 0
  | .cvtF32I32 _ => some 0
  | .cvtF32U32 _ => some 0
  | .cvtI32F32 _ => some 0
  | .cvtI32F32Rz _ => some 0
  | .cvtI32F32Rd _ => some 0
  | .cvtI32F32Ru _ => some 0
  | .cvtU32F32 _ => some 0
  | .cvtF16x2F32 _ => some 0
  | .cvtF32F16 _ => some 0
  | .cvtBf16x2F32 _ => some 0
  | .cvtF32Bf16 _ => some 0
  | .cvtE4m3x2F32 _ => some 0
  | .cvtE5m2x2F32 _ => some 0
  | .cvtF32E4m3 _ => some 0
  | .cvtF32E5m2 _ => some 0
  | .cvtE2m1x2F32 _ => some 0
  | .cvtF32E2m1 _ => some 0
  | .hadd2 _ => some 0
  | .hmul2 _ => some 0
  | .hfma2 _ => some 0
  | .hmin2 _ => some 0
  | .hmax2 _ => some 0
  | .badd2 _ => some 0
  | .bfma2 _ => some 0
  | .bmul2 _ => some 0
  | .bmin2 _ => some 0
  | .bmax2 _ => some 0
  | .ldB _ => some 1
  | .ldSb _ => some 1
  | .ldH _ => some 1
  | .ldSh _ => some 1
  | .ldW _ => some 1
  | .ldD _ => some 1
  | .ldQ _ => some 1
  | .ldr _ => some 1
  | .ldrV4 _ => some 1
  | .ldu _ => some 1
  | .lduD _ => some 1
  | .stB _ => some 1
  | .stH _ => some 1
  | .stW _ => some 1
  | .stD _ => some 1
  | .stQ _ => some 1
  | .str _ => some 1
  | .strV4 _ => some 1
  | .stu _ => some 1
  | .atomAdd _ => some 1
  | .atomMin _ => some 1
  | .atomMax _ => some 1
  | .atomUmin _ => some 1
  | .atomUmax _ => some 1
  | .atomAnd _ => some 1
  | .atomOr _ => some 1
  | .atomXor _ => some 1
  | .atomXchg _ => some 1
  | .atomCas _ => some 1
  | .atomFadd _ => some 1
  | .atomAdd64 _ => some 1
  | .atomXchg64 _ => some 1
  | .atomCas64 _ => some 1
  | .redAdd _ => some 1
  | .redMin _ => some 1
  | .redMax _ => some 1
  | .redUmin _ => some 1
  | .redUmax _ => some 1
  | .redAnd _ => some 1
  | .redOr _ => some 1
  | .redXor _ => some 1
  | .redFadd _ => some 1
  | .waitc _ => some 1
  | .waita _ => some 1
  | .waitae _ => some 1
  | .depo _ => some 1
  | .warv _ => some 1
  | .probe _ => some 1
  | .resreq _ => some 1
  | .pref _ => some 1
  | .prefL2 _ => some 1
  | .clwb _ => some 1
  | .invl _ => some 1
  | .nop => some 2
  | .bra _ => some 2
  | .brc _ => some 2
  | .brcAny _ => some 2
  | .brcAll _ => some 2
  | .brcU _ => some 2
  | .bri _ => some 2
  | .join => some 2
  | .call _ => some 2
  | .calli _ => some 2
  | .ret => some 2
  | .exit => some 2
  | .reord _ _ => some 2
  | .spawn _ _ _ => some 2
  | .spawnW _ _ _ => some 2
  | .spawnAt _ _ _ => some 2
  | .trap _ => some 2
  | .bkpt _ => some 2
  | .eret => some 2
  | .yield => some 2
  | .wsleep _ => some 2
  | .halt => some 2
  | .icinv _ => some 2
  | .csrr _ _ => some 2
  | .csrw _ _ => some 2
  | .csrs _ _ => some 2
  | .csrc _ _ => some 2
  | .copyGs _ => some 3
  | .copySg _ => some 3
  | .copySs _ => some 3
  | .copyMc _ => some 3
  | .mma _ => some 3
  | .mmaT _ => some 3
  | .mmaz _ => some 3
  | .mzero _ => some 3
  | .mld _ => some 3
  | .mst _ => some 3
  | .mrd _ => some 3
  | .mwr _ => some 3
  | .mdrain _ => some 3
  | .mfill _ => some 3
  | .neval _ => some 3
  | .nevalU _ => some 3
  | .nevalF32 _ => some 3
  | .tex _ => some 3
  | .texL _ => some 3
  | .texB _ => some 3
  | .texD _ => some 3
  | .texG _ => some 3
  | .texn _ => some 3
  | .tld _ => some 3
  | .tqry _ => some 3
  | .trace _ => some 3
  | .traceA _ => some 3
  | .dload _ => some 3
  | .dwin _ => some 3
  | .dlaunch _ => some 3
  | .dlaunchR _ => some 3
  | .dcapt _ => some 3
  | .dcaptW _ => some 3
  | .dreset _ => some 3
  | .gsub _ => some 4
  | .gabort _ => some 4
  | .gstop _ => some 4
  | .gqry _ => some 4
  | .ghint _ => some 4
  | .gwait _ => some 4
  | .trel _ => some 4
  | .tlsig _ => some 4
  | .tlwait _ => some 4
  | .tlrd _ => some 4
  | .tlset _ => some 4
  | .mbrecv _ => some 4
  | .mbsend _ => some 4
  | .dbgsend _ => some 4
  | .clauseFetch => none
  | .pendingTrap => none
  | .sqDrain _ _ => none
  | .propagate _ _ => none
  | .drop _ _ => none
  | .depoDeliver _ _ => none
  | .heldDepositDeliver _ => none
  | .warvPass _ _ => none
  | .waitaTest _ _ => none
  | .wsleepExpiry _ _ => none
  | .icinvComplete _ _ => none
  | .mshrRelease _ _ => none
  | .engineStart _ => none
  | .copyComplete _ => none
  | .mxeComplete _ => none
  | .batonTimeout _ _ => none
  | .batonTileDone _ => none
  | .texComplete _ => none
  | .traceComplete _ => none
  | .dashComplete _ => none
  | .reordTimeout _ _ => none
  | .reordRepack _ _ => none
  | .spawnEnqueue _ _ => none
  | .workgroupPlace _ => none
  | .childPlace _ => none
  | .taskRetire _ _ _ _ => none
  | .tileClosure _ _ => none
  | .passAgeing _ _ _ => none
  | .pwrbudRefresh _ => none
  | .graphTeardown _ _ => none
  | .eventEnqueue _ => none
  | .gsubAccept _ _ => none
  | .mbrecvDequeue _ _ => none
  | .mbsendEnqueue _ _ => none
  | .dbgsendAppend _ _ => none
  | .waveFreeze _ => none
  | .pcmdCreate _ => none
  | .pcmdDestroy _ => none
  | .pcmdStartPacer _ => none
  | .pcmdPartitionReset _ => none
  | .pcmdPreempt _ => none
  | .pcmdResume _ => none
  | .registerWrite _ _ _ => none
  | .mbin _ _ _ _ => none
  | .mbpop _ _ => none
  | .dbgdata _ => none
  | .tlbinv _ _ => none
  | .tlbinvComplete _ => none
  | .hostBar2Write _ _ _ => none
  | .hostBar2Read _ _ _ => none
  | .fwcmdRecovery => none
  | .fwcmdUpdate => none
  | .attgo => none
  | .attestReportReady => none
  | .errgd => none
  | .errhw => none
  | .errsp => none
  | .errpar => none
  | .patrolScrub _ _ => none
  | .deviceReset => none
  | .vfReset _ => none
  | .linkDown => none
  | .reenumeration => none
  | .flitReplay => none
  | .linkRetrainFail => none
  | .clockThrottle => none
  | .clockRestore => none
  | .thermalFatal => none
  | .softError _ _ _ => none

/-- The instruction word (R215 to R217). An event has none and gives 0. -/
def headWord : Instr → Word
  | .iadd x => x.word 0x00#8
  | .isub x => x.word 0x01#8
  | .imul x => x.word 0x02#8
  | .imulh x => x.word 0x03#8
  | .imulhu x => x.word 0x04#8
  | .imad x => x.word 0x05#8
  | .imin x => x.word 0x06#8
  | .imax x => x.word 0x07#8
  | .umin x => x.word 0x08#8
  | .umax x => x.word 0x09#8
  | .iabs x => x.word 0x0A#8
  | .iadds x => x.word 0x0B#8
  | .isubs x => x.word 0x0C#8
  | .sad x => x.word 0x0D#8
  | .imin3 x => x.word 0x0E#8
  | .imax3 x => x.word 0x0F#8
  | .minadd x => x.word 0x10#8
  | .minaddU x => x.word 0x11#8
  | .idp4 x => x.word 0x12#8
  | .idp4u x => x.word 0x13#8
  | .iadd2 x => x.word 0x14#8
  | .isub2 x => x.word 0x15#8
  | .imin2 x => x.word 0x16#8
  | .imax2 x => x.word 0x17#8
  | .iadd64 x => x.word 0x18#8
  | .isub64 x => x.word 0x19#8
  | .imulWide x => x.word 0x1A#8
  | .imadWide x => x.word 0x1B#8
  | .shl64 x => x.word 0x1C#8
  | .shr64 x => x.word 0x1D#8
  | .lea x => x.word 0x1E#8
  | .iadd3 x => x.word 0x1F#8
  | .and x => x.word 0x20#8
  | .or x => x.word 0x21#8
  | .xor x => x.word 0x22#8
  | .andn x => x.word 0x23#8
  | .lop3 x => x.word 0x24#8
  | .shl x => x.word 0x25#8
  | .shr x => x.word 0x26#8
  | .sar x => x.word 0x27#8
  | .rotl x => x.word 0x28#8
  | .bfe x => x.word 0x29#8
  | .bfeu x => x.word 0x2A#8
  | .bfi x => x.word 0x2B#8
  | .popc x => x.word 0x2C#8
  | .clz x => x.word 0x2D#8
  | .brev x => x.word 0x2E#8
  | .prmt x => x.word 0x2F#8
  | .mov x => x.word 0x30#8
  | .sel x => x.word 0x31#8
  | .plane x => x.word 0x32#8
  | .unplane x => x.word 0x33#8
  | .icmpEq x => x.word 0x38#8
  | .icmpNe x => x.word 0x39#8
  | .icmpLt x => x.word 0x3A#8
  | .icmpLe x => x.word 0x3B#8
  | .icmpGt x => x.word 0x3C#8
  | .icmpGe x => x.word 0x3D#8
  | .icmpUlt x => x.word 0x3E#8
  | .icmpUle x => x.word 0x3F#8
  | .icmpUgt x => x.word 0x40#8
  | .icmpUge x => x.word 0x41#8
  | .pand x => x.word 0x44#8
  | .por x => x.word 0x45#8
  | .pxor x => x.word 0x46#8
  | .pnot x => x.word 0x47#8
  | .ballot x => x.word 0x48#8
  | .vany x => x.word 0x49#8
  | .vall x => x.word 0x4A#8
  | .matchOp x => x.word 0x4B#8
  | .first x => x.word 0x4C#8
  | .bcast x => x.word 0x4D#8
  | .shflIdx x => x.word 0x4E#8
  | .shflUp x => x.word 0x4F#8
  | .shflDn x => x.word 0x50#8
  | .shflXor x => x.word 0x51#8
  | .shflRot x => x.word 0x52#8
  | .redadd x => x.word 0x53#8
  | .redmin x => x.word 0x54#8
  | .redmax x => x.word 0x55#8
  | .redumin x => x.word 0x56#8
  | .redumax x => x.word 0x57#8
  | .redand x => x.word 0x58#8
  | .redor x => x.word 0x59#8
  | .redxor x => x.word 0x5A#8
  | .redfadd x => x.word 0x5B#8
  | .fadd x => x.word 0x60#8
  | .faddRz x => x.word 0x61#8
  | .faddRd x => x.word 0x62#8
  | .faddRu x => x.word 0x63#8
  | .fsub x => x.word 0x64#8
  | .fsubRz x => x.word 0x65#8
  | .fsubRd x => x.word 0x66#8
  | .fsubRu x => x.word 0x67#8
  | .fmul x => x.word 0x68#8
  | .fmulRz x => x.word 0x69#8
  | .fmulRd x => x.word 0x6A#8
  | .fmulRu x => x.word 0x6B#8
  | .ffma x => x.word 0x6C#8
  | .ffmaRz x => x.word 0x6D#8
  | .ffmaRd x => x.word 0x6E#8
  | .ffmaRu x => x.word 0x6F#8
  | .fmin x => x.word 0x70#8
  | .fmax x => x.word 0x71#8
  | .fminnan x => x.word 0x72#8
  | .fmaxnan x => x.word 0x73#8
  | .fabs x => x.word 0x74#8
  | .fneg x => x.word 0x75#8
  | .fsat x => x.word 0x76#8
  | .fclass x => x.word 0x77#8
  | .fldexp x => x.word 0x78#8
  | .frexp x => x.word 0x79#8
  | .fdot2 x => x.word 0x7A#8
  | .bfdot2 x => x.word 0x7B#8
  | .fcmpEq x => x.word 0x80#8
  | .fcmpNe x => x.word 0x81#8
  | .fcmpLt x => x.word 0x82#8
  | .fcmpLe x => x.word 0x83#8
  | .fcmpGt x => x.word 0x84#8
  | .fcmpGe x => x.word 0x85#8
  | .fcmpUn x => x.word 0x86#8
  | .fcmpOrd x => x.word 0x87#8
  | .frcp x => x.word 0x88#8
  | .frsq x => x.word 0x89#8
  | .fsqrt x => x.word 0x8A#8
  | .fex2 x => x.word 0x8B#8
  | .flg2 x => x.word 0x8C#8
  | .fsin x => x.word 0x8D#8
  | .fcos x => x.word 0x8E#8
  | .frndN x => x.word 0x8F#8
  | .frndZ x => x.word 0x90#8
  | .frndD x => x.word 0x91#8
  | .frndU x => x.word 0x92#8
  | .cvtF32I32 x => x.word 0xA0#8
  | .cvtF32U32 x => x.word 0xA1#8
  | .cvtI32F32 x => x.word 0xA2#8
  | .cvtI32F32Rz x => x.word 0xA3#8
  | .cvtI32F32Rd x => x.word 0xA4#8
  | .cvtI32F32Ru x => x.word 0xA5#8
  | .cvtU32F32 x => x.word 0xA6#8
  | .cvtF16x2F32 x => x.word 0xA7#8
  | .cvtF32F16 x => x.word 0xA8#8
  | .cvtBf16x2F32 x => x.word 0xA9#8
  | .cvtF32Bf16 x => x.word 0xAA#8
  | .cvtE4m3x2F32 x => x.word 0xAB#8
  | .cvtE5m2x2F32 x => x.word 0xAC#8
  | .cvtF32E4m3 x => x.word 0xAD#8
  | .cvtF32E5m2 x => x.word 0xAE#8
  | .cvtE2m1x2F32 x => x.word 0xAF#8
  | .cvtF32E2m1 x => x.word 0xB0#8
  | .hadd2 x => x.word 0xB8#8
  | .hmul2 x => x.word 0xB9#8
  | .hfma2 x => x.word 0xBA#8
  | .hmin2 x => x.word 0xBB#8
  | .hmax2 x => x.word 0xBC#8
  | .badd2 x => x.word 0xBD#8
  | .bfma2 x => x.word 0xBE#8
  | .bmul2 x => x.word 0xBF#8
  | .bmin2 x => x.word 0xC0#8
  | .bmax2 x => x.word 0xC1#8
  | .ldB x => x.word 0x00#8
  | .ldSb x => x.word 0x01#8
  | .ldH x => x.word 0x02#8
  | .ldSh x => x.word 0x03#8
  | .ldW x => x.word 0x04#8
  | .ldD x => x.word 0x05#8
  | .ldQ x => x.word 0x06#8
  | .ldr x => x.word 0x07#8
  | .ldrV4 x => x.word 0x08#8
  | .ldu x => x.word 0x09#8
  | .lduD x => x.word 0x0A#8
  | .stB x => x.word 0x10#8
  | .stH x => x.word 0x11#8
  | .stW x => x.word 0x12#8
  | .stD x => x.word 0x13#8
  | .stQ x => x.word 0x14#8
  | .str x => x.word 0x15#8
  | .strV4 x => x.word 0x16#8
  | .stu x => x.word 0x17#8
  | .atomAdd x => x.word 0x20#8
  | .atomMin x => x.word 0x21#8
  | .atomMax x => x.word 0x22#8
  | .atomUmin x => x.word 0x23#8
  | .atomUmax x => x.word 0x24#8
  | .atomAnd x => x.word 0x25#8
  | .atomOr x => x.word 0x26#8
  | .atomXor x => x.word 0x27#8
  | .atomXchg x => x.word 0x28#8
  | .atomCas x => x.word 0x29#8
  | .atomFadd x => x.word 0x2A#8
  | .atomAdd64 x => x.word 0x2B#8
  | .atomXchg64 x => x.word 0x2C#8
  | .atomCas64 x => x.word 0x2D#8
  | .redAdd x => x.word 0x30#8
  | .redMin x => x.word 0x31#8
  | .redMax x => x.word 0x32#8
  | .redUmin x => x.word 0x33#8
  | .redUmax x => x.word 0x34#8
  | .redAnd x => x.word 0x35#8
  | .redOr x => x.word 0x36#8
  | .redXor x => x.word 0x37#8
  | .redFadd x => x.word 0x38#8
  | .waitc x => x.word 0x40#8
  | .waita x => x.word 0x41#8
  | .waitae x => x.word 0x42#8
  | .depo x => x.word 0x43#8
  | .warv x => x.word 0x44#8
  | .probe x => x.word 0x45#8
  | .resreq x => x.word 0x46#8
  | .pref x => x.word 0x47#8
  | .prefL2 x => x.word 0x48#8
  | .clwb x => x.word 0x49#8
  | .invl x => x.word 0x4A#8
  | .nop => 0x00000000#32
  | .bra x => x.word 0x01#8
  | .brc x => x.word 0x02#8
  | .brcAny x => x.word 0x03#8
  | .brcAll x => x.word 0x04#8
  | .brcU x => x.word 0x05#8
  | .bri a => wordA 0x06#8 a
  | .join => 0x00000007#32
  | .call x => x.word 0x08#8
  | .calli a => wordA 0x09#8 a
  | .ret => 0x0000000A#32
  | .exit => 0x0000000B#32
  | .reord k key => wordReord 0x0C#8 k key
  | .spawn k a1 a0 => wordSpawn 0x0D#8 k a1 a0
  | .spawnW k a1 a0 => wordSpawn 0x0E#8 k a1 a0
  | .spawnAt k a1 a0 => wordSpawn 0x0F#8 k a1 a0
  | .trap code => wordCode 0x10#8 code
  | .bkpt code => wordCode 0x11#8 code
  | .eret => 0x00000012#32
  | .yield => 0x00000013#32
  | .wsleep a => wordA 0x14#8 a
  | .halt => 0x00000015#32
  | .icinv scope => wordScope 0x16#8 scope
  | .csrr num r => wordCsr 0x17#8 num r
  | .csrw num r => wordCsr 0x18#8 num r
  | .csrs num r => wordCsr 0x19#8 num r
  | .csrc num r => wordCsr 0x1A#8 num r
  | .copyGs x => x.word 0x00#8
  | .copySg x => x.word 0x01#8
  | .copySs x => x.word 0x02#8
  | .copyMc x => x.word 0x03#8
  | .mma x => x.word 0x10#8
  | .mmaT x => x.word 0x11#8
  | .mmaz x => x.word 0x12#8
  | .mzero x => x.word 0x13#8
  | .mld x => x.word 0x14#8
  | .mst x => x.word 0x15#8
  | .mrd x => x.word 0x16#8
  | .mwr x => x.word 0x17#8
  | .mdrain x => x.word 0x18#8
  | .mfill x => x.word 0x19#8
  | .neval x => x.word 0x20#8
  | .nevalU x => x.word 0x21#8
  | .nevalF32 x => x.word 0x22#8
  | .tex x => x.word 0x28#8
  | .texL x => x.word 0x29#8
  | .texB x => x.word 0x2A#8
  | .texD x => x.word 0x2B#8
  | .texG x => x.word 0x2C#8
  | .texn x => x.word 0x2D#8
  | .tld x => x.word 0x2E#8
  | .tqry x => x.word 0x2F#8
  | .trace x => x.word 0x30#8
  | .traceA x => x.word 0x31#8
  | .dload x => x.word 0x38#8
  | .dwin x => x.word 0x39#8
  | .dlaunch x => x.word 0x3A#8
  | .dlaunchR x => x.word 0x3B#8
  | .dcapt x => x.word 0x3C#8
  | .dcaptW x => x.word 0x3D#8
  | .dreset x => x.word 0x3E#8
  | .gsub x => x.word 0x00#8
  | .gabort x => x.word 0x01#8
  | .gstop x => x.word 0x02#8
  | .gqry x => x.word 0x03#8
  | .ghint x => x.word 0x04#8
  | .gwait x => x.word 0x05#8
  | .trel x => x.word 0x06#8
  | .tlsig x => x.word 0x07#8
  | .tlwait x => x.word 0x08#8
  | .tlrd x => x.word 0x09#8
  | .tlset x => x.word 0x0A#8
  | .mbrecv x => x.word 0x0B#8
  | .mbsend x => x.word 0x0C#8
  | .dbgsend x => x.word 0x0D#8
  | .clauseFetch => 0
  | .pendingTrap => 0
  | .sqDrain _ _ => 0
  | .propagate _ _ => 0
  | .drop _ _ => 0
  | .depoDeliver _ _ => 0
  | .heldDepositDeliver _ => 0
  | .warvPass _ _ => 0
  | .waitaTest _ _ => 0
  | .wsleepExpiry _ _ => 0
  | .icinvComplete _ _ => 0
  | .mshrRelease _ _ => 0
  | .engineStart _ => 0
  | .copyComplete _ => 0
  | .mxeComplete _ => 0
  | .batonTimeout _ _ => 0
  | .batonTileDone _ => 0
  | .texComplete _ => 0
  | .traceComplete _ => 0
  | .dashComplete _ => 0
  | .reordTimeout _ _ => 0
  | .reordRepack _ _ => 0
  | .spawnEnqueue _ _ => 0
  | .workgroupPlace _ => 0
  | .childPlace _ => 0
  | .taskRetire _ _ _ _ => 0
  | .tileClosure _ _ => 0
  | .passAgeing _ _ _ => 0
  | .pwrbudRefresh _ => 0
  | .graphTeardown _ _ => 0
  | .eventEnqueue _ => 0
  | .gsubAccept _ _ => 0
  | .mbrecvDequeue _ _ => 0
  | .mbsendEnqueue _ _ => 0
  | .dbgsendAppend _ _ => 0
  | .waveFreeze _ => 0
  | .pcmdCreate _ => 0
  | .pcmdDestroy _ => 0
  | .pcmdStartPacer _ => 0
  | .pcmdPartitionReset _ => 0
  | .pcmdPreempt _ => 0
  | .pcmdResume _ => 0
  | .registerWrite _ _ _ => 0
  | .mbin _ _ _ _ => 0
  | .mbpop _ _ => 0
  | .dbgdata _ => 0
  | .tlbinv _ _ => 0
  | .tlbinvComplete _ => 0
  | .hostBar2Write _ _ _ => 0
  | .hostBar2Read _ _ _ => 0
  | .fwcmdRecovery => 0
  | .fwcmdUpdate => 0
  | .attgo => 0
  | .attestReportReady => 0
  | .errgd => 0
  | .errhw => 0
  | .errsp => 0
  | .errpar => 0
  | .patrolScrub _ _ => 0
  | .deviceReset => 0
  | .vfReset _ => 0
  | .linkDown => 0
  | .reenumeration => 0
  | .flitReplay => 0
  | .linkRetrainFail => 0
  | .clockThrottle => 0
  | .clockRestore => 0
  | .thermalFatal => 0
  | .softError _ _ _ => 0

/-- The bits of the instruction word that must hold a fixed value, that value (R215 to R217, the table's mask and
match), and the bits of the extension word that must be zero (R216, R311, R316; in class ENG they are check 1 of R322, which
comes after the specifiers and SCOPE). IMM9 bits that PLANE, UNPLANE and the FI shuffles show as zero (R251, R260) are refused
here, as fields of check 2 of R221, before the operands: the table's masks fix them, and the entries do not say when they are
tested (entry 32, DESIGN CHOICE). -/
def fixedBits : Instr → Word × Word × Word
  | .iadd _ => (0x800000FF#32, 0x00000000#32, 0x00000000#32)
  | .isub _ => (0x800000FF#32, 0x00000001#32, 0x00000000#32)
  | .imul _ => (0x800000FF#32, 0x00000002#32, 0x00000000#32)
  | .imulh _ => (0x800000FF#32, 0x00000003#32, 0x00000000#32)
  | .imulhu _ => (0x800000FF#32, 0x00000004#32, 0x00000000#32)
  | .imad _ => (0x800000FF#32, 0x00000005#32, 0x00000000#32)
  | .imin _ => (0x800000FF#32, 0x00000006#32, 0x00000000#32)
  | .imax _ => (0x800000FF#32, 0x00000007#32, 0x00000000#32)
  | .umin _ => (0x800000FF#32, 0x00000008#32, 0x00000000#32)
  | .umax _ => (0x800000FF#32, 0x00000009#32, 0x00000000#32)
  | .iabs _ => (0xDFC000FF#32, 0x0000000A#32, 0x00000000#32)
  | .iadds _ => (0x000000FF#32, 0x0000000B#32, 0x00000000#32)
  | .isubs _ => (0x000000FF#32, 0x0000000C#32, 0x00000000#32)
  | .sad _ => (0x000000FF#32, 0x0000000D#32, 0x00000000#32)
  | .imin3 _ => (0x000000FF#32, 0x0000000E#32, 0x00000000#32)
  | .imax3 _ => (0x000000FF#32, 0x0000000F#32, 0x00000000#32)
  | .minadd _ => (0x800000FF#32, 0x00000010#32, 0x00000000#32)
  | .minaddU _ => (0x800000FF#32, 0x00000011#32, 0x00000000#32)
  | .idp4 _ => (0x000000FF#32, 0x00000012#32, 0x00000000#32)
  | .idp4u _ => (0x000000FF#32, 0x00000013#32, 0x00000000#32)
  | .iadd2 _ => (0x000000FF#32, 0x00000014#32, 0x00000000#32)
  | .isub2 _ => (0x000000FF#32, 0x00000015#32, 0x00000000#32)
  | .imin2 _ => (0x000000FF#32, 0x00000016#32, 0x00000000#32)
  | .imax2 _ => (0x000000FF#32, 0x00000017#32, 0x00000000#32)
  | .iadd64 _ => (0x800000FF#32, 0x00000018#32, 0x00000000#32)
  | .isub64 _ => (0x800000FF#32, 0x00000019#32, 0x00000000#32)
  | .imulWide _ => (0x000000FF#32, 0x0000001A#32, 0x00000000#32)
  | .imadWide _ => (0x000000FF#32, 0x0000001B#32, 0x00000000#32)
  | .shl64 _ => (0x800000FF#32, 0x0000001C#32, 0x00000000#32)
  | .shr64 _ => (0x000000FF#32, 0x0000001D#32, 0x00000000#32)
  | .lea _ => (0x000000FF#32, 0x0000001E#32, 0x00000000#32)
  | .iadd3 _ => (0x800000FF#32, 0x0000001F#32, 0x00000000#32)
  | .and _ => (0x800000FF#32, 0x00000020#32, 0x00000000#32)
  | .or _ => (0x800000FF#32, 0x00000021#32, 0x00000000#32)
  | .xor _ => (0x800000FF#32, 0x00000022#32, 0x00000000#32)
  | .andn _ => (0x800000FF#32, 0x00000023#32, 0x00000000#32)
  | .lop3 _ => (0xDFC000FF#32, 0x1FC00024#32, 0x00000000#32)
  | .shl _ => (0x800000FF#32, 0x00000025#32, 0x00000000#32)
  | .shr _ => (0x800000FF#32, 0x00000026#32, 0x00000000#32)
  | .sar _ => (0x800000FF#32, 0x00000027#32, 0x00000000#32)
  | .rotl _ => (0x800000FF#32, 0x00000028#32, 0x00000000#32)
  | .bfe _ => (0x000000FF#32, 0x00000029#32, 0x00000000#32)
  | .bfeu _ => (0x000000FF#32, 0x0000002A#32, 0x00000000#32)
  | .bfi _ => (0x000000FF#32, 0x0000002B#32, 0x00000000#32)
  | .popc _ => (0xDFC000FF#32, 0x0000002C#32, 0x00000000#32)
  | .clz _ => (0xDFC000FF#32, 0x0000002D#32, 0x00000000#32)
  | .brev _ => (0xDFC000FF#32, 0x0000002E#32, 0x00000000#32)
  | .prmt _ => (0x000000FF#32, 0x0000002F#32, 0x00000000#32)
  | .mov _ => (0xDFC000FF#32, 0x00000030#32, 0x00000000#32)
  | .sel _ => (0x000000FF#32, 0x00000031#32, 0x00000000#32)
  | .plane _ => (0x7C0000FF#32, 0x00000032#32, 0x00000000#32)
  | .unplane _ => (0x780000FF#32, 0x00000033#32, 0x00000000#32)
  | .icmpEq _ => (0x800000FF#32, 0x00000038#32, 0x00000000#32)
  | .icmpNe _ => (0x800000FF#32, 0x00000039#32, 0x00000000#32)
  | .icmpLt _ => (0x800000FF#32, 0x0000003A#32, 0x00000000#32)
  | .icmpLe _ => (0x800000FF#32, 0x0000003B#32, 0x00000000#32)
  | .icmpGt _ => (0x800000FF#32, 0x0000003C#32, 0x00000000#32)
  | .icmpGe _ => (0x800000FF#32, 0x0000003D#32, 0x00000000#32)
  | .icmpUlt _ => (0x800000FF#32, 0x0000003E#32, 0x00000000#32)
  | .icmpUle _ => (0x800000FF#32, 0x0000003F#32, 0x00000000#32)
  | .icmpUgt _ => (0x800000FF#32, 0x00000040#32, 0x00000000#32)
  | .icmpUge _ => (0x800000FF#32, 0x00000041#32, 0x00000000#32)
  | .pand _ => (0x800000FF#32, 0x00000044#32, 0x00000000#32)
  | .por _ => (0x800000FF#32, 0x00000045#32, 0x00000000#32)
  | .pxor _ => (0x800000FF#32, 0x00000046#32, 0x00000000#32)
  | .pnot _ => (0xDFC000FF#32, 0x00000047#32, 0x00000000#32)
  | .ballot _ => (0xDFC000FF#32, 0x00000048#32, 0x00000000#32)
  | .vany _ => (0xDFC000FF#32, 0x00000049#32, 0x00000000#32)
  | .vall _ => (0xDFC000FF#32, 0x0000004A#32, 0x00000000#32)
  | .matchOp _ => (0x5FC000FF#32, 0x0000004B#32, 0x00000000#32)
  | .first _ => (0xDFC000FF#32, 0x0000004C#32, 0x00000000#32)
  | .bcast _ => (0xDFC000FF#32, 0x0000004D#32, 0x00000000#32)
  | .shflIdx _ => (0x800000FF#32, 0x0000004E#32, 0x00000000#32)
  | .shflUp _ => (0x700000FF#32, 0x0000004F#32, 0x00000000#32)
  | .shflDn _ => (0x700000FF#32, 0x00000050#32, 0x00000000#32)
  | .shflXor _ => (0x700000FF#32, 0x00000051#32, 0x00000000#32)
  | .shflRot _ => (0x700000FF#32, 0x00000052#32, 0x00000000#32)
  | .redadd _ => (0xDFC000FF#32, 0x00000053#32, 0x00000000#32)
  | .redmin _ => (0xDFC000FF#32, 0x00000054#32, 0x00000000#32)
  | .redmax _ => (0xDFC000FF#32, 0x00000055#32, 0x00000000#32)
  | .redumin _ => (0xDFC000FF#32, 0x00000056#32, 0x00000000#32)
  | .redumax _ => (0xDFC000FF#32, 0x00000057#32, 0x00000000#32)
  | .redand _ => (0xDFC000FF#32, 0x00000058#32, 0x00000000#32)
  | .redor _ => (0xDFC000FF#32, 0x00000059#32, 0x00000000#32)
  | .redxor _ => (0xDFC000FF#32, 0x0000005A#32, 0x00000000#32)
  | .redfadd _ => (0xDFC000FF#32, 0x0000005B#32, 0x00000000#32)
  | .fadd _ => (0x800000FF#32, 0x00000060#32, 0x00000000#32)
  | .faddRz _ => (0x800000FF#32, 0x00000061#32, 0x00000000#32)
  | .faddRd _ => (0x800000FF#32, 0x00000062#32, 0x00000000#32)
  | .faddRu _ => (0x800000FF#32, 0x00000063#32, 0x00000000#32)
  | .fsub _ => (0x800000FF#32, 0x00000064#32, 0x00000000#32)
  | .fsubRz _ => (0x800000FF#32, 0x00000065#32, 0x00000000#32)
  | .fsubRd _ => (0x800000FF#32, 0x00000066#32, 0x00000000#32)
  | .fsubRu _ => (0x800000FF#32, 0x00000067#32, 0x00000000#32)
  | .fmul _ => (0x800000FF#32, 0x00000068#32, 0x00000000#32)
  | .fmulRz _ => (0x800000FF#32, 0x00000069#32, 0x00000000#32)
  | .fmulRd _ => (0x800000FF#32, 0x0000006A#32, 0x00000000#32)
  | .fmulRu _ => (0x800000FF#32, 0x0000006B#32, 0x00000000#32)
  | .ffma _ => (0x800000FF#32, 0x0000006C#32, 0x00000000#32)
  | .ffmaRz _ => (0x800000FF#32, 0x0000006D#32, 0x00000000#32)
  | .ffmaRd _ => (0x800000FF#32, 0x0000006E#32, 0x00000000#32)
  | .ffmaRu _ => (0x800000FF#32, 0x0000006F#32, 0x00000000#32)
  | .fmin _ => (0x800000FF#32, 0x00000070#32, 0x00000000#32)
  | .fmax _ => (0x800000FF#32, 0x00000071#32, 0x00000000#32)
  | .fminnan _ => (0x800000FF#32, 0x00000072#32, 0x00000000#32)
  | .fmaxnan _ => (0x800000FF#32, 0x00000073#32, 0x00000000#32)
  | .fabs _ => (0xDFC000FF#32, 0x00000074#32, 0x00000000#32)
  | .fneg _ => (0xDFC000FF#32, 0x00000075#32, 0x00000000#32)
  | .fsat _ => (0xDFC000FF#32, 0x00000076#32, 0x00000000#32)
  | .fclass _ => (0x800000FF#32, 0x00000077#32, 0x00000000#32)
  | .fldexp _ => (0x800000FF#32, 0x00000078#32, 0x00000000#32)
  | .frexp _ => (0x5FC000FF#32, 0x00000079#32, 0x00000000#32)
  | .fdot2 _ => (0x800000FF#32, 0x0000007A#32, 0x00000000#32)
  | .bfdot2 _ => (0x800000FF#32, 0x0000007B#32, 0x00000000#32)
  | .fcmpEq _ => (0x800000FF#32, 0x00000080#32, 0x00000000#32)
  | .fcmpNe _ => (0x800000FF#32, 0x00000081#32, 0x00000000#32)
  | .fcmpLt _ => (0x800000FF#32, 0x00000082#32, 0x00000000#32)
  | .fcmpLe _ => (0x800000FF#32, 0x00000083#32, 0x00000000#32)
  | .fcmpGt _ => (0x800000FF#32, 0x00000084#32, 0x00000000#32)
  | .fcmpGe _ => (0x800000FF#32, 0x00000085#32, 0x00000000#32)
  | .fcmpUn _ => (0x800000FF#32, 0x00000086#32, 0x00000000#32)
  | .fcmpOrd _ => (0x800000FF#32, 0x00000087#32, 0x00000000#32)
  | .frcp _ => (0xDFC000FF#32, 0x00000088#32, 0x00000000#32)
  | .frsq _ => (0xDFC000FF#32, 0x00000089#32, 0x00000000#32)
  | .fsqrt _ => (0xDFC000FF#32, 0x0000008A#32, 0x00000000#32)
  | .fex2 _ => (0xDFC000FF#32, 0x0000008B#32, 0x00000000#32)
  | .flg2 _ => (0xDFC000FF#32, 0x0000008C#32, 0x00000000#32)
  | .fsin _ => (0xDFC000FF#32, 0x0000008D#32, 0x00000000#32)
  | .fcos _ => (0xDFC000FF#32, 0x0000008E#32, 0x00000000#32)
  | .frndN _ => (0xDFC000FF#32, 0x0000008F#32, 0x00000000#32)
  | .frndZ _ => (0xDFC000FF#32, 0x00000090#32, 0x00000000#32)
  | .frndD _ => (0xDFC000FF#32, 0x00000091#32, 0x00000000#32)
  | .frndU _ => (0xDFC000FF#32, 0x00000092#32, 0x00000000#32)
  | .cvtF32I32 _ => (0xDFC000FF#32, 0x000000A0#32, 0x00000000#32)
  | .cvtF32U32 _ => (0xDFC000FF#32, 0x000000A1#32, 0x00000000#32)
  | .cvtI32F32 _ => (0xDFC000FF#32, 0x000000A2#32, 0x00000000#32)
  | .cvtI32F32Rz _ => (0xDFC000FF#32, 0x000000A3#32, 0x00000000#32)
  | .cvtI32F32Rd _ => (0xDFC000FF#32, 0x000000A4#32, 0x00000000#32)
  | .cvtI32F32Ru _ => (0xDFC000FF#32, 0x000000A5#32, 0x00000000#32)
  | .cvtU32F32 _ => (0xDFC000FF#32, 0x000000A6#32, 0x00000000#32)
  | .cvtF16x2F32 _ => (0x800000FF#32, 0x000000A7#32, 0x00000000#32)
  | .cvtF32F16 _ => (0x7F8000FF#32, 0x000000A8#32, 0x00000000#32)
  | .cvtBf16x2F32 _ => (0x800000FF#32, 0x000000A9#32, 0x00000000#32)
  | .cvtF32Bf16 _ => (0x7F8000FF#32, 0x000000AA#32, 0x00000000#32)
  | .cvtE4m3x2F32 _ => (0x800000FF#32, 0x000000AB#32, 0x00000000#32)
  | .cvtE5m2x2F32 _ => (0x800000FF#32, 0x000000AC#32, 0x00000000#32)
  | .cvtF32E4m3 _ => (0x7F0000FF#32, 0x000000AD#32, 0x00000000#32)
  | .cvtF32E5m2 _ => (0x7F0000FF#32, 0x000000AE#32, 0x00000000#32)
  | .cvtE2m1x2F32 _ => (0x800000FF#32, 0x000000AF#32, 0x00000000#32)
  | .cvtF32E2m1 _ => (0x7E0000FF#32, 0x000000B0#32, 0x00000000#32)
  | .hadd2 _ => (0x800000FF#32, 0x000000B8#32, 0x00000000#32)
  | .hmul2 _ => (0x800000FF#32, 0x000000B9#32, 0x00000000#32)
  | .hfma2 _ => (0x800000FF#32, 0x000000BA#32, 0x00000000#32)
  | .hmin2 _ => (0x800000FF#32, 0x000000BB#32, 0x00000000#32)
  | .hmax2 _ => (0x800000FF#32, 0x000000BC#32, 0x00000000#32)
  | .badd2 _ => (0x800000FF#32, 0x000000BD#32, 0x00000000#32)
  | .bfma2 _ => (0x800000FF#32, 0x000000BE#32, 0x00000000#32)
  | .bmul2 _ => (0x800000FF#32, 0x000000BF#32, 0x00000000#32)
  | .bmin2 _ => (0x800000FF#32, 0x000000C0#32, 0x00000000#32)
  | .bmax2 _ => (0x800000FF#32, 0x000000C1#32, 0x00000000#32)
  | .ldB _ => (0x000000FF#32, 0x00000000#32, 0x00000000#32)
  | .ldSb _ => (0x000000FF#32, 0x00000001#32, 0x00000000#32)
  | .ldH _ => (0x000000FF#32, 0x00000002#32, 0x00000000#32)
  | .ldSh _ => (0x000000FF#32, 0x00000003#32, 0x00000000#32)
  | .ldW _ => (0x000000FF#32, 0x00000004#32, 0x00000000#32)
  | .ldD _ => (0x000000FF#32, 0x00000005#32, 0x00000000#32)
  | .ldQ _ => (0x000000FF#32, 0x00000006#32, 0x00000000#32)
  | .ldr _ => (0x800000FF#32, 0x80000007#32, 0x00000000#32)
  | .ldrV4 _ => (0x800000FF#32, 0x80000008#32, 0x00000000#32)
  | .ldu _ => (0x000000FF#32, 0x00000009#32, 0x00000000#32)
  | .lduD _ => (0x000000FF#32, 0x0000000A#32, 0x00000000#32)
  | .stB _ => (0x000000FF#32, 0x00000010#32, 0x00000000#32)
  | .stH _ => (0x000000FF#32, 0x00000011#32, 0x00000000#32)
  | .stW _ => (0x000000FF#32, 0x00000012#32, 0x00000000#32)
  | .stD _ => (0x000000FF#32, 0x00000013#32, 0x00000000#32)
  | .stQ _ => (0x000000FF#32, 0x00000014#32, 0x00000000#32)
  | .str _ => (0x800000FF#32, 0x80000015#32, 0x00000000#32)
  | .strV4 _ => (0x800000FF#32, 0x80000016#32, 0x00000000#32)
  | .stu _ => (0x000000FF#32, 0x00000017#32, 0x00000000#32)
  | .atomAdd _ => (0x800000FF#32, 0x80000020#32, 0x00003F80#32)
  | .atomMin _ => (0x800000FF#32, 0x80000021#32, 0x00003F80#32)
  | .atomMax _ => (0x800000FF#32, 0x80000022#32, 0x00003F80#32)
  | .atomUmin _ => (0x800000FF#32, 0x80000023#32, 0x00003F80#32)
  | .atomUmax _ => (0x800000FF#32, 0x80000024#32, 0x00003F80#32)
  | .atomAnd _ => (0x800000FF#32, 0x80000025#32, 0x00003F80#32)
  | .atomOr _ => (0x800000FF#32, 0x80000026#32, 0x00003F80#32)
  | .atomXor _ => (0x800000FF#32, 0x80000027#32, 0x00003F80#32)
  | .atomXchg _ => (0x800000FF#32, 0x80000028#32, 0x00003F80#32)
  | .atomCas _ => (0x800000FF#32, 0x80000029#32, 0x00000000#32)
  | .atomFadd _ => (0x800000FF#32, 0x8000002A#32, 0x00003F80#32)
  | .atomAdd64 _ => (0x800000FF#32, 0x8000002B#32, 0x00003F80#32)
  | .atomXchg64 _ => (0x800000FF#32, 0x8000002C#32, 0x00003F80#32)
  | .atomCas64 _ => (0x800000FF#32, 0x8000002D#32, 0x00000000#32)
  | .redAdd _ => (0x80007FFF#32, 0x80000030#32, 0x00003F80#32)
  | .redMin _ => (0x80007FFF#32, 0x80000031#32, 0x00003F80#32)
  | .redMax _ => (0x80007FFF#32, 0x80000032#32, 0x00003F80#32)
  | .redUmin _ => (0x80007FFF#32, 0x80000033#32, 0x00003F80#32)
  | .redUmax _ => (0x80007FFF#32, 0x80000034#32, 0x00003F80#32)
  | .redAnd _ => (0x80007FFF#32, 0x80000035#32, 0x00003F80#32)
  | .redOr _ => (0x80007FFF#32, 0x80000036#32, 0x00003F80#32)
  | .redXor _ => (0x80007FFF#32, 0x80000037#32, 0x00003F80#32)
  | .redFadd _ => (0x80007FFF#32, 0x80000038#32, 0x00003F80#32)
  | .waitc _ => (0xFF0000FF#32, 0x00000040#32, 0x00000000#32)
  | .waita _ => (0x060000FF#32, 0x00000041#32, 0x00000000#32)
  | .waitae _ => (0x060000FF#32, 0x00000042#32, 0x00000000#32)
  | .depo _ => (0x7FC07FFF#32, 0x00000043#32, 0xFFFF0000#32)
  | .warv _ => (0x7FC07FFF#32, 0x00000044#32, 0xFFFF0000#32)
  | .probe _ => (0x000000FF#32, 0x00000045#32, 0x00000000#32)
  | .resreq _ => (0x3E0000FF#32, 0x00000046#32, 0x00000000#32)
  | .pref _ => (0x7E007FFF#32, 0x00000047#32, 0x00000000#32)
  | .prefL2 _ => (0x7E007FFF#32, 0x00000048#32, 0x00000000#32)
  | .clwb _ => (0x06007FFF#32, 0x00000049#32, 0x00000000#32)
  | .invl _ => (0x06007FFF#32, 0x0000004A#32, 0x00000000#32)
  | .nop => (0xFFFFFFFF#32, 0x00000000#32, 0x00000000#32)
  | .bra _ => (0x000000FF#32, 0x00000001#32, 0x00000000#32)
  | .brc _ => (0x000000FF#32, 0x00000002#32, 0x00000000#32)
  | .brcAny _ => (0xFFC000FF#32, 0x00000003#32, 0x00000000#32)
  | .brcAll _ => (0xFFC000FF#32, 0x00000004#32, 0x00000000#32)
  | .brcU _ => (0xFFC000FF#32, 0x00000005#32, 0x00000000#32)
  | .bri _ => (0xFFC07FFF#32, 0x00000006#32, 0x00000000#32)
  | .join => (0xFFFFFFFF#32, 0x00000007#32, 0x00000000#32)
  | .call _ => (0x000000FF#32, 0x00000008#32, 0x00000000#32)
  | .calli _ => (0xFFC07FFF#32, 0x00000009#32, 0x00000000#32)
  | .ret => (0xFFFFFFFF#32, 0x0000000A#32, 0x00000000#32)
  | .exit => (0xFFFFFFFF#32, 0x0000000B#32, 0x00000000#32)
  | .reord _ _ => (0xFFF800FF#32, 0x0000000C#32, 0x00000000#32)
  | .spawn _ _ _ => (0x000000FF#32, 0x0000000D#32, 0x00000000#32)
  | .spawnW _ _ _ => (0x000000FF#32, 0x0000000E#32, 0x00000000#32)
  | .spawnAt _ _ _ => (0x000000FF#32, 0x0000000F#32, 0x00000000#32)
  | .trap _ => (0x000000FF#32, 0x00000010#32, 0x00000000#32)
  | .bkpt _ => (0x000000FF#32, 0x00000011#32, 0x00000000#32)
  | .eret => (0xFFFFFFFF#32, 0x00000012#32, 0x00000000#32)
  | .yield => (0xFFFFFFFF#32, 0x00000013#32, 0x00000000#32)
  | .wsleep _ => (0xFFC07FFF#32, 0x00000014#32, 0x00000000#32)
  | .halt => (0xFFFFFFFF#32, 0x00000015#32, 0x00000000#32)
  | .icinv _ => (0xFFFFF8FF#32, 0x00000016#32, 0x00000000#32)
  | .csrr _ _ => (0x000F80FF#32, 0x00000017#32, 0x00000000#32)
  | .csrw _ _ => (0x000F80FF#32, 0x00000018#32, 0x00000000#32)
  | .csrs _ _ => (0x000F80FF#32, 0x00000019#32, 0x00000000#32)
  | .csrc _ _ => (0x000F80FF#32, 0x0000001A#32, 0x00000000#32)
  | .copyGs _ => (0xE00000FF#32, 0x00000000#32, 0x00000000#32)
  | .copySg _ => (0xE00000FF#32, 0x00000001#32, 0x00000000#32)
  | .copySs _ => (0xE00000FF#32, 0x00000002#32, 0x00000000#32)
  | .copyMc _ => (0xE00000FF#32, 0x00000003#32, 0x00000000#32)
  | .mma _ => (0x000000FF#32, 0x00000010#32, 0x00000000#32)
  | .mmaT _ => (0x000000FF#32, 0x00000011#32, 0x00000000#32)
  | .mmaz _ => (0x000000FF#32, 0x00000012#32, 0x00000000#32)
  | .mzero _ => (0x1FFFFFFF#32, 0x1E3C7813#32, 0x00000000#32)
  | .mld _ => (0x1FC07FFF#32, 0x1E007814#32, 0x00000000#32)
  | .mst _ => (0x1FC07FFF#32, 0x1E007815#32, 0x00000000#32)
  | .mrd _ => (0x1FC000FF#32, 0x1E000016#32, 0x00000000#32)
  | .mwr _ => (0x00007FFF#32, 0x00007817#32, 0x00000000#32)
  | .mdrain _ => (0x00007FFF#32, 0x00007818#32, 0x00000000#32)
  | .mfill _ => (0x00007FFF#32, 0x00007819#32, 0x00000000#32)
  | .neval _ => (0xE00000FF#32, 0x00000020#32, 0x00000000#32)
  | .nevalU _ => (0xE00000FF#32, 0x00000021#32, 0x00000000#32)
  | .nevalF32 _ => (0xE00000FF#32, 0x00000022#32, 0x00000000#32)
  | .tex _ => (0xFFC000FF#32, 0x1E000028#32, 0x00000000#32)
  | .texL _ => (0xE00000FF#32, 0x00000029#32, 0x00000000#32)
  | .texB _ => (0xE00000FF#32, 0x0000002A#32, 0x00000000#32)
  | .texD _ => (0xE00000FF#32, 0x0000002B#32, 0x00000000#32)
  | .texG _ => (0xFFC000FF#32, 0x1E00002C#32, 0x00000000#32)
  | .texn _ => (0xFFC000FF#32, 0x1E00002D#32, 0x00000000#32)
  | .tld _ => (0xE00000FF#32, 0x0000002E#32, 0x00000000#32)
  | .tqry _ => (0xFFC000FF#32, 0x1E00002F#32, 0x00000000#32)
  | .trace _ => (0xFFC000FF#32, 0x1E000030#32, 0x00000000#32)
  | .traceA _ => (0xFFC000FF#32, 0x1E000031#32, 0x00000000#32)
  | .dload _ => (0xFFC07FFF#32, 0x1E007838#32, 0x00000000#32)
  | .dwin _ => (0xFFC07FFF#32, 0x1E007839#32, 0x00000000#32)
  | .dlaunch _ => (0xDFC07FFF#32, 0x1E00783A#32, 0x00000000#32)
  | .dlaunchR _ => (0xDFC07FFF#32, 0x1E00783B#32, 0x00000000#32)
  | .dcapt _ => (0xFFC07FFF#32, 0x1E00783C#32, 0x00000000#32)
  | .dcaptW _ => (0xFFC07FFF#32, 0x1E00783D#32, 0x00000000#32)
  | .dreset _ => (0xFFFFFFFF#32, 0x1E3C783E#32, 0x00000000#32)
  | .gsub _ => (0xFFC000FF#32, 0x1E000000#32, 0x00000000#32)
  | .gabort _ => (0xFFC07FFF#32, 0x1E007801#32, 0x00000000#32)
  | .gstop _ => (0xFFC07FFF#32, 0x1E007802#32, 0x00000000#32)
  | .gqry _ => (0xE00000FF#32, 0x00000003#32, 0x00000000#32)
  | .ghint _ => (0xFFFFFFFF#32, 0x1E3C7804#32, 0x00000000#32)
  | .gwait _ => (0xFFFFFFFF#32, 0x1E3C7805#32, 0x00000000#32)
  | .trel _ => (0xFFFFFFFF#32, 0x1E3C7806#32, 0x00000000#32)
  | .tlsig _ => (0xE0007FFF#32, 0x00007807#32, 0x00000000#32)
  | .tlwait _ => (0xE00000FF#32, 0x00000008#32, 0x00000000#32)
  | .tlrd _ => (0xE03F80FF#32, 0x003C0009#32, 0x00000000#32)
  | .tlset _ => (0xE0007FFF#32, 0x0000780A#32, 0x00000000#32)
  | .mbrecv _ => (0xE00000FF#32, 0x0000000B#32, 0x00000000#32)
  | .mbsend _ => (0xE0007FFF#32, 0x0000780C#32, 0x00000000#32)
  | .dbgsend _ => (0xFFC07FFF#32, 0x1E00780D#32, 0x00000000#32)
  | .clauseFetch => (0, 0, 0)
  | .pendingTrap => (0, 0, 0)
  | .sqDrain _ _ => (0, 0, 0)
  | .propagate _ _ => (0, 0, 0)
  | .drop _ _ => (0, 0, 0)
  | .depoDeliver _ _ => (0, 0, 0)
  | .heldDepositDeliver _ => (0, 0, 0)
  | .warvPass _ _ => (0, 0, 0)
  | .waitaTest _ _ => (0, 0, 0)
  | .wsleepExpiry _ _ => (0, 0, 0)
  | .icinvComplete _ _ => (0, 0, 0)
  | .mshrRelease _ _ => (0, 0, 0)
  | .engineStart _ => (0, 0, 0)
  | .copyComplete _ => (0, 0, 0)
  | .mxeComplete _ => (0, 0, 0)
  | .batonTimeout _ _ => (0, 0, 0)
  | .batonTileDone _ => (0, 0, 0)
  | .texComplete _ => (0, 0, 0)
  | .traceComplete _ => (0, 0, 0)
  | .dashComplete _ => (0, 0, 0)
  | .reordTimeout _ _ => (0, 0, 0)
  | .reordRepack _ _ => (0, 0, 0)
  | .spawnEnqueue _ _ => (0, 0, 0)
  | .workgroupPlace _ => (0, 0, 0)
  | .childPlace _ => (0, 0, 0)
  | .taskRetire _ _ _ _ => (0, 0, 0)
  | .tileClosure _ _ => (0, 0, 0)
  | .passAgeing _ _ _ => (0, 0, 0)
  | .pwrbudRefresh _ => (0, 0, 0)
  | .graphTeardown _ _ => (0, 0, 0)
  | .eventEnqueue _ => (0, 0, 0)
  | .gsubAccept _ _ => (0, 0, 0)
  | .mbrecvDequeue _ _ => (0, 0, 0)
  | .mbsendEnqueue _ _ => (0, 0, 0)
  | .dbgsendAppend _ _ => (0, 0, 0)
  | .waveFreeze _ => (0, 0, 0)
  | .pcmdCreate _ => (0, 0, 0)
  | .pcmdDestroy _ => (0, 0, 0)
  | .pcmdStartPacer _ => (0, 0, 0)
  | .pcmdPartitionReset _ => (0, 0, 0)
  | .pcmdPreempt _ => (0, 0, 0)
  | .pcmdResume _ => (0, 0, 0)
  | .registerWrite _ _ _ => (0, 0, 0)
  | .mbin _ _ _ _ => (0, 0, 0)
  | .mbpop _ _ => (0, 0, 0)
  | .dbgdata _ => (0, 0, 0)
  | .tlbinv _ _ => (0, 0, 0)
  | .tlbinvComplete _ => (0, 0, 0)
  | .hostBar2Write _ _ _ => (0, 0, 0)
  | .hostBar2Read _ _ _ => (0, 0, 0)
  | .fwcmdRecovery => (0, 0, 0)
  | .fwcmdUpdate => (0, 0, 0)
  | .attgo => (0, 0, 0)
  | .attestReportReady => (0, 0, 0)
  | .errgd => (0, 0, 0)
  | .errhw => (0, 0, 0)
  | .errsp => (0, 0, 0)
  | .errpar => (0, 0, 0)
  | .patrolScrub _ _ => (0, 0, 0)
  | .deviceReset => (0, 0, 0)
  | .vfReset _ => (0, 0, 0)
  | .linkDown => (0, 0, 0)
  | .reenumeration => (0, 0, 0)
  | .flitReplay => (0, 0, 0)
  | .linkRetrainFail => (0, 0, 0)
  | .clockThrottle => (0, 0, 0)
  | .clockRestore => (0, 0, 0)
  | .thermalFatal => (0, 0, 0)
  | .softError _ _ _ => (0, 0, 0)

/-- The extension word, where the instruction has one (R216, R220). -/
def extWord : Instr → Option Word
  | .ldB x => if x.x then some x.ext else none
  | .ldSb x => if x.x then some x.ext else none
  | .ldH x => if x.x then some x.ext else none
  | .ldSh x => if x.x then some x.ext else none
  | .ldW x => if x.x then some x.ext else none
  | .ldD x => if x.x then some x.ext else none
  | .ldQ x => if x.x then some x.ext else none
  | .ldr x => if x.x then some x.ext else none
  | .ldrV4 x => if x.x then some x.ext else none
  | .ldu x => if x.x then some x.ext else none
  | .lduD x => if x.x then some x.ext else none
  | .stB x => if x.x then some x.ext else none
  | .stH x => if x.x then some x.ext else none
  | .stW x => if x.x then some x.ext else none
  | .stD x => if x.x then some x.ext else none
  | .stQ x => if x.x then some x.ext else none
  | .str x => if x.x then some x.ext else none
  | .strV4 x => if x.x then some x.ext else none
  | .stu x => if x.x then some x.ext else none
  | .atomAdd x => if x.x then some x.ext else none
  | .atomMin x => if x.x then some x.ext else none
  | .atomMax x => if x.x then some x.ext else none
  | .atomUmin x => if x.x then some x.ext else none
  | .atomUmax x => if x.x then some x.ext else none
  | .atomAnd x => if x.x then some x.ext else none
  | .atomOr x => if x.x then some x.ext else none
  | .atomXor x => if x.x then some x.ext else none
  | .atomXchg x => if x.x then some x.ext else none
  | .atomCas x => if x.x then some x.ext else none
  | .atomFadd x => if x.x then some x.ext else none
  | .atomAdd64 x => if x.x then some x.ext else none
  | .atomXchg64 x => if x.x then some x.ext else none
  | .atomCas64 x => if x.x then some x.ext else none
  | .redAdd x => if x.x then some x.ext else none
  | .redMin x => if x.x then some x.ext else none
  | .redMax x => if x.x then some x.ext else none
  | .redUmin x => if x.x then some x.ext else none
  | .redUmax x => if x.x then some x.ext else none
  | .redAnd x => if x.x then some x.ext else none
  | .redOr x => if x.x then some x.ext else none
  | .redXor x => if x.x then some x.ext else none
  | .redFadd x => if x.x then some x.ext else none
  | .waitc x => if x.x then some x.ext else none
  | .waita x => if x.x then some x.ext else none
  | .waitae x => if x.x then some x.ext else none
  | .depo x => if x.x then some x.ext else none
  | .warv x => if x.x then some x.ext else none
  | .probe x => if x.x then some x.ext else none
  | .resreq x => if x.x then some x.ext else none
  | .pref x => if x.x then some x.ext else none
  | .prefL2 x => if x.x then some x.ext else none
  | .clwb x => if x.x then some x.ext else none
  | .invl x => if x.x then some x.ext else none
  | .copyGs x => some x.ext
  | .copySg x => some x.ext
  | .copySs x => some x.ext
  | .copyMc x => some x.ext
  | .mma x => some x.ext
  | .mmaT x => some x.ext
  | .mmaz x => some x.ext
  | .mld x => some x.ext
  | .mst x => some x.ext
  | .neval x => some x.ext
  | .nevalU x => some x.ext
  | .nevalF32 x => some x.ext
  | .tex x => some x.ext
  | .texL x => some x.ext
  | .texB x => some x.ext
  | .texD x => some x.ext
  | .texG x => some x.ext
  | .texn x => some x.ext
  | .tld x => some x.ext
  | .tqry x => some x.ext
  | .trace x => some x.ext
  | .traceA x => some x.ext
  | .dload x => some x.ext
  | .dlaunch x => some x.ext
  | .dcapt x => some x.ext
  | .dcaptW x => some x.ext
  | _ => none

/-- The literal word, where the B field holds 0x7F (R208). LOP3 keeps its control word there (R245). -/
def litWord : Instr → Option Word
  | .iadd x => if x.b = 0x7F then some x.lit else none
  | .isub x => if x.b = 0x7F then some x.lit else none
  | .imul x => if x.b = 0x7F then some x.lit else none
  | .imulh x => if x.b = 0x7F then some x.lit else none
  | .imulhu x => if x.b = 0x7F then some x.lit else none
  | .imad x => if x.b = 0x7F then some x.lit else none
  | .imin x => if x.b = 0x7F then some x.lit else none
  | .imax x => if x.b = 0x7F then some x.lit else none
  | .umin x => if x.b = 0x7F then some x.lit else none
  | .umax x => if x.b = 0x7F then some x.lit else none
  | .iabs x => if x.b = 0x7F then some x.lit else none
  | .iadds x => if x.b = 0x7F then some x.lit else none
  | .isubs x => if x.b = 0x7F then some x.lit else none
  | .sad x => if x.b = 0x7F then some x.lit else none
  | .imin3 x => if x.b = 0x7F then some x.lit else none
  | .imax3 x => if x.b = 0x7F then some x.lit else none
  | .minadd x => if x.b = 0x7F then some x.lit else none
  | .minaddU x => if x.b = 0x7F then some x.lit else none
  | .idp4 x => if x.b = 0x7F then some x.lit else none
  | .idp4u x => if x.b = 0x7F then some x.lit else none
  | .iadd2 x => if x.b = 0x7F then some x.lit else none
  | .isub2 x => if x.b = 0x7F then some x.lit else none
  | .imin2 x => if x.b = 0x7F then some x.lit else none
  | .imax2 x => if x.b = 0x7F then some x.lit else none
  | .iadd64 x => if x.b = 0x7F then some x.lit else none
  | .isub64 x => if x.b = 0x7F then some x.lit else none
  | .imulWide x => if x.b = 0x7F then some x.lit else none
  | .imadWide x => if x.b = 0x7F then some x.lit else none
  | .shl64 x => if x.b = 0x7F then some x.lit else none
  | .shr64 x => if x.b = 0x7F then some x.lit else none
  | .iadd3 x => if x.b = 0x7F then some x.lit else none
  | .and x => if x.b = 0x7F then some x.lit else none
  | .or x => if x.b = 0x7F then some x.lit else none
  | .xor x => if x.b = 0x7F then some x.lit else none
  | .andn x => if x.b = 0x7F then some x.lit else none
  | .lop3 x => if x.b = 0x7F then some x.lit else none
  | .shl x => if x.b = 0x7F then some x.lit else none
  | .shr x => if x.b = 0x7F then some x.lit else none
  | .sar x => if x.b = 0x7F then some x.lit else none
  | .rotl x => if x.b = 0x7F then some x.lit else none
  | .popc x => if x.b = 0x7F then some x.lit else none
  | .clz x => if x.b = 0x7F then some x.lit else none
  | .brev x => if x.b = 0x7F then some x.lit else none
  | .mov x => if x.b = 0x7F then some x.lit else none
  | .sel x => if x.b = 0x7F then some x.lit else none
  | .icmpEq x => if x.b = 0x7F then some x.lit else none
  | .icmpNe x => if x.b = 0x7F then some x.lit else none
  | .icmpLt x => if x.b = 0x7F then some x.lit else none
  | .icmpLe x => if x.b = 0x7F then some x.lit else none
  | .icmpGt x => if x.b = 0x7F then some x.lit else none
  | .icmpGe x => if x.b = 0x7F then some x.lit else none
  | .icmpUlt x => if x.b = 0x7F then some x.lit else none
  | .icmpUle x => if x.b = 0x7F then some x.lit else none
  | .icmpUgt x => if x.b = 0x7F then some x.lit else none
  | .icmpUge x => if x.b = 0x7F then some x.lit else none
  | .pand x => if x.b = 0x7F then some x.lit else none
  | .por x => if x.b = 0x7F then some x.lit else none
  | .pxor x => if x.b = 0x7F then some x.lit else none
  | .pnot x => if x.b = 0x7F then some x.lit else none
  | .ballot x => if x.b = 0x7F then some x.lit else none
  | .vany x => if x.b = 0x7F then some x.lit else none
  | .vall x => if x.b = 0x7F then some x.lit else none
  | .matchOp x => if x.b = 0x7F then some x.lit else none
  | .first x => if x.b = 0x7F then some x.lit else none
  | .bcast x => if x.b = 0x7F then some x.lit else none
  | .shflIdx x => if x.b = 0x7F then some x.lit else none
  | .redadd x => if x.b = 0x7F then some x.lit else none
  | .redmin x => if x.b = 0x7F then some x.lit else none
  | .redmax x => if x.b = 0x7F then some x.lit else none
  | .redumin x => if x.b = 0x7F then some x.lit else none
  | .redumax x => if x.b = 0x7F then some x.lit else none
  | .redand x => if x.b = 0x7F then some x.lit else none
  | .redor x => if x.b = 0x7F then some x.lit else none
  | .redxor x => if x.b = 0x7F then some x.lit else none
  | .redfadd x => if x.b = 0x7F then some x.lit else none
  | .fadd x => if x.b = 0x7F then some x.lit else none
  | .faddRz x => if x.b = 0x7F then some x.lit else none
  | .faddRd x => if x.b = 0x7F then some x.lit else none
  | .faddRu x => if x.b = 0x7F then some x.lit else none
  | .fsub x => if x.b = 0x7F then some x.lit else none
  | .fsubRz x => if x.b = 0x7F then some x.lit else none
  | .fsubRd x => if x.b = 0x7F then some x.lit else none
  | .fsubRu x => if x.b = 0x7F then some x.lit else none
  | .fmul x => if x.b = 0x7F then some x.lit else none
  | .fmulRz x => if x.b = 0x7F then some x.lit else none
  | .fmulRd x => if x.b = 0x7F then some x.lit else none
  | .fmulRu x => if x.b = 0x7F then some x.lit else none
  | .ffma x => if x.b = 0x7F then some x.lit else none
  | .ffmaRz x => if x.b = 0x7F then some x.lit else none
  | .ffmaRd x => if x.b = 0x7F then some x.lit else none
  | .ffmaRu x => if x.b = 0x7F then some x.lit else none
  | .fmin x => if x.b = 0x7F then some x.lit else none
  | .fmax x => if x.b = 0x7F then some x.lit else none
  | .fminnan x => if x.b = 0x7F then some x.lit else none
  | .fmaxnan x => if x.b = 0x7F then some x.lit else none
  | .fabs x => if x.b = 0x7F then some x.lit else none
  | .fneg x => if x.b = 0x7F then some x.lit else none
  | .fsat x => if x.b = 0x7F then some x.lit else none
  | .fclass x => if x.b = 0x7F then some x.lit else none
  | .fldexp x => if x.b = 0x7F then some x.lit else none
  | .frexp x => if x.b = 0x7F then some x.lit else none
  | .fdot2 x => if x.b = 0x7F then some x.lit else none
  | .bfdot2 x => if x.b = 0x7F then some x.lit else none
  | .fcmpEq x => if x.b = 0x7F then some x.lit else none
  | .fcmpNe x => if x.b = 0x7F then some x.lit else none
  | .fcmpLt x => if x.b = 0x7F then some x.lit else none
  | .fcmpLe x => if x.b = 0x7F then some x.lit else none
  | .fcmpGt x => if x.b = 0x7F then some x.lit else none
  | .fcmpGe x => if x.b = 0x7F then some x.lit else none
  | .fcmpUn x => if x.b = 0x7F then some x.lit else none
  | .fcmpOrd x => if x.b = 0x7F then some x.lit else none
  | .frcp x => if x.b = 0x7F then some x.lit else none
  | .frsq x => if x.b = 0x7F then some x.lit else none
  | .fsqrt x => if x.b = 0x7F then some x.lit else none
  | .fex2 x => if x.b = 0x7F then some x.lit else none
  | .flg2 x => if x.b = 0x7F then some x.lit else none
  | .fsin x => if x.b = 0x7F then some x.lit else none
  | .fcos x => if x.b = 0x7F then some x.lit else none
  | .frndN x => if x.b = 0x7F then some x.lit else none
  | .frndZ x => if x.b = 0x7F then some x.lit else none
  | .frndD x => if x.b = 0x7F then some x.lit else none
  | .frndU x => if x.b = 0x7F then some x.lit else none
  | .cvtF32I32 x => if x.b = 0x7F then some x.lit else none
  | .cvtF32U32 x => if x.b = 0x7F then some x.lit else none
  | .cvtI32F32 x => if x.b = 0x7F then some x.lit else none
  | .cvtI32F32Rz x => if x.b = 0x7F then some x.lit else none
  | .cvtI32F32Rd x => if x.b = 0x7F then some x.lit else none
  | .cvtI32F32Ru x => if x.b = 0x7F then some x.lit else none
  | .cvtU32F32 x => if x.b = 0x7F then some x.lit else none
  | .cvtF16x2F32 x => if x.b = 0x7F then some x.lit else none
  | .cvtBf16x2F32 x => if x.b = 0x7F then some x.lit else none
  | .cvtE4m3x2F32 x => if x.b = 0x7F then some x.lit else none
  | .cvtE5m2x2F32 x => if x.b = 0x7F then some x.lit else none
  | .cvtE2m1x2F32 x => if x.b = 0x7F then some x.lit else none
  | .hadd2 x => if x.b = 0x7F then some x.lit else none
  | .hmul2 x => if x.b = 0x7F then some x.lit else none
  | .hfma2 x => if x.b = 0x7F then some x.lit else none
  | .hmin2 x => if x.b = 0x7F then some x.lit else none
  | .hmax2 x => if x.b = 0x7F then some x.lit else none
  | .badd2 x => if x.b = 0x7F then some x.lit else none
  | .bfma2 x => if x.b = 0x7F then some x.lit else none
  | .bmul2 x => if x.b = 0x7F then some x.lit else none
  | .bmin2 x => if x.b = 0x7F then some x.lit else none
  | .bmax2 x => if x.b = 0x7F then some x.lit else none
  | .copyGs x => if x.b = 0x7F then some x.lit else none
  | .copySg x => if x.b = 0x7F then some x.lit else none
  | .copySs x => if x.b = 0x7F then some x.lit else none
  | .copyMc x => if x.b = 0x7F then some x.lit else none
  | .mma x => if x.b = 0x7F then some x.lit else none
  | .mmaT x => if x.b = 0x7F then some x.lit else none
  | .mmaz x => if x.b = 0x7F then some x.lit else none
  | .mzero x => if x.b = 0x7F then some x.lit else none
  | .mld x => if x.b = 0x7F then some x.lit else none
  | .mst x => if x.b = 0x7F then some x.lit else none
  | .mrd x => if x.b = 0x7F then some x.lit else none
  | .mwr x => if x.b = 0x7F then some x.lit else none
  | .mdrain x => if x.b = 0x7F then some x.lit else none
  | .mfill x => if x.b = 0x7F then some x.lit else none
  | .neval x => if x.b = 0x7F then some x.lit else none
  | .nevalU x => if x.b = 0x7F then some x.lit else none
  | .nevalF32 x => if x.b = 0x7F then some x.lit else none
  | .tex x => if x.b = 0x7F then some x.lit else none
  | .texL x => if x.b = 0x7F then some x.lit else none
  | .texB x => if x.b = 0x7F then some x.lit else none
  | .texD x => if x.b = 0x7F then some x.lit else none
  | .texG x => if x.b = 0x7F then some x.lit else none
  | .texn x => if x.b = 0x7F then some x.lit else none
  | .tld x => if x.b = 0x7F then some x.lit else none
  | .tqry x => if x.b = 0x7F then some x.lit else none
  | .trace x => if x.b = 0x7F then some x.lit else none
  | .traceA x => if x.b = 0x7F then some x.lit else none
  | .dload x => if x.b = 0x7F then some x.lit else none
  | .dwin x => if x.b = 0x7F then some x.lit else none
  | .dlaunch x => if x.b = 0x7F then some x.lit else none
  | .dlaunchR x => if x.b = 0x7F then some x.lit else none
  | .dcapt x => if x.b = 0x7F then some x.lit else none
  | .dcaptW x => if x.b = 0x7F then some x.lit else none
  | .dreset x => if x.b = 0x7F then some x.lit else none
  | .gsub x => if x.b = 0x7F then some x.lit else none
  | .gabort x => if x.b = 0x7F then some x.lit else none
  | .gstop x => if x.b = 0x7F then some x.lit else none
  | .gqry x => if x.b = 0x7F then some x.lit else none
  | .ghint x => if x.b = 0x7F then some x.lit else none
  | .gwait x => if x.b = 0x7F then some x.lit else none
  | .trel x => if x.b = 0x7F then some x.lit else none
  | .tlsig x => if x.b = 0x7F then some x.lit else none
  | .tlwait x => if x.b = 0x7F then some x.lit else none
  | .tlrd x => if x.b = 0x7F then some x.lit else none
  | .tlset x => if x.b = 0x7F then some x.lit else none
  | .mbrecv x => if x.b = 0x7F then some x.lit else none
  | .mbsend x => if x.b = 0x7F then some x.lit else none
  | .dbgsend x => if x.b = 0x7F then some x.lit else none
  | _ => none

/-- Where the format has room for an extension or literal word that the instruction does not have, the unused value
is zero. -/
def unusedWords : Instr → Word
  | .ldB x => if x.x then 0 else x.ext
  | .ldSb x => if x.x then 0 else x.ext
  | .ldH x => if x.x then 0 else x.ext
  | .ldSh x => if x.x then 0 else x.ext
  | .ldW x => if x.x then 0 else x.ext
  | .ldD x => if x.x then 0 else x.ext
  | .ldQ x => if x.x then 0 else x.ext
  | .ldr x => if x.x then 0 else x.ext
  | .ldrV4 x => if x.x then 0 else x.ext
  | .ldu x => if x.x then 0 else x.ext
  | .lduD x => if x.x then 0 else x.ext
  | .stB x => if x.x then 0 else x.ext
  | .stH x => if x.x then 0 else x.ext
  | .stW x => if x.x then 0 else x.ext
  | .stD x => if x.x then 0 else x.ext
  | .stQ x => if x.x then 0 else x.ext
  | .str x => if x.x then 0 else x.ext
  | .strV4 x => if x.x then 0 else x.ext
  | .stu x => if x.x then 0 else x.ext
  | .atomAdd x => if x.x then 0 else x.ext
  | .atomMin x => if x.x then 0 else x.ext
  | .atomMax x => if x.x then 0 else x.ext
  | .atomUmin x => if x.x then 0 else x.ext
  | .atomUmax x => if x.x then 0 else x.ext
  | .atomAnd x => if x.x then 0 else x.ext
  | .atomOr x => if x.x then 0 else x.ext
  | .atomXor x => if x.x then 0 else x.ext
  | .atomXchg x => if x.x then 0 else x.ext
  | .atomCas x => if x.x then 0 else x.ext
  | .atomFadd x => if x.x then 0 else x.ext
  | .atomAdd64 x => if x.x then 0 else x.ext
  | .atomXchg64 x => if x.x then 0 else x.ext
  | .atomCas64 x => if x.x then 0 else x.ext
  | .redAdd x => if x.x then 0 else x.ext
  | .redMin x => if x.x then 0 else x.ext
  | .redMax x => if x.x then 0 else x.ext
  | .redUmin x => if x.x then 0 else x.ext
  | .redUmax x => if x.x then 0 else x.ext
  | .redAnd x => if x.x then 0 else x.ext
  | .redOr x => if x.x then 0 else x.ext
  | .redXor x => if x.x then 0 else x.ext
  | .redFadd x => if x.x then 0 else x.ext
  | .waitc x => if x.x then 0 else x.ext
  | .waita x => if x.x then 0 else x.ext
  | .waitae x => if x.x then 0 else x.ext
  | .depo x => if x.x then 0 else x.ext
  | .warv x => if x.x then 0 else x.ext
  | .probe x => if x.x then 0 else x.ext
  | .resreq x => if x.x then 0 else x.ext
  | .pref x => if x.x then 0 else x.ext
  | .prefL2 x => if x.x then 0 else x.ext
  | .clwb x => if x.x then 0 else x.ext
  | .invl x => if x.x then 0 else x.ext
  | .iadd x => if x.b = 0x7F then 0 else x.lit
  | .isub x => if x.b = 0x7F then 0 else x.lit
  | .imul x => if x.b = 0x7F then 0 else x.lit
  | .imulh x => if x.b = 0x7F then 0 else x.lit
  | .imulhu x => if x.b = 0x7F then 0 else x.lit
  | .imad x => if x.b = 0x7F then 0 else x.lit
  | .imin x => if x.b = 0x7F then 0 else x.lit
  | .imax x => if x.b = 0x7F then 0 else x.lit
  | .umin x => if x.b = 0x7F then 0 else x.lit
  | .umax x => if x.b = 0x7F then 0 else x.lit
  | .iabs x => if x.b = 0x7F then 0 else x.lit
  | .iadds x => if x.b = 0x7F then 0 else x.lit
  | .isubs x => if x.b = 0x7F then 0 else x.lit
  | .sad x => if x.b = 0x7F then 0 else x.lit
  | .imin3 x => if x.b = 0x7F then 0 else x.lit
  | .imax3 x => if x.b = 0x7F then 0 else x.lit
  | .minadd x => if x.b = 0x7F then 0 else x.lit
  | .minaddU x => if x.b = 0x7F then 0 else x.lit
  | .idp4 x => if x.b = 0x7F then 0 else x.lit
  | .idp4u x => if x.b = 0x7F then 0 else x.lit
  | .iadd2 x => if x.b = 0x7F then 0 else x.lit
  | .isub2 x => if x.b = 0x7F then 0 else x.lit
  | .imin2 x => if x.b = 0x7F then 0 else x.lit
  | .imax2 x => if x.b = 0x7F then 0 else x.lit
  | .iadd64 x => if x.b = 0x7F then 0 else x.lit
  | .isub64 x => if x.b = 0x7F then 0 else x.lit
  | .imulWide x => if x.b = 0x7F then 0 else x.lit
  | .imadWide x => if x.b = 0x7F then 0 else x.lit
  | .shl64 x => if x.b = 0x7F then 0 else x.lit
  | .shr64 x => if x.b = 0x7F then 0 else x.lit
  | .iadd3 x => if x.b = 0x7F then 0 else x.lit
  | .and x => if x.b = 0x7F then 0 else x.lit
  | .or x => if x.b = 0x7F then 0 else x.lit
  | .xor x => if x.b = 0x7F then 0 else x.lit
  | .andn x => if x.b = 0x7F then 0 else x.lit
  | .lop3 x => if x.b = 0x7F then 0 else x.lit
  | .shl x => if x.b = 0x7F then 0 else x.lit
  | .shr x => if x.b = 0x7F then 0 else x.lit
  | .sar x => if x.b = 0x7F then 0 else x.lit
  | .rotl x => if x.b = 0x7F then 0 else x.lit
  | .popc x => if x.b = 0x7F then 0 else x.lit
  | .clz x => if x.b = 0x7F then 0 else x.lit
  | .brev x => if x.b = 0x7F then 0 else x.lit
  | .mov x => if x.b = 0x7F then 0 else x.lit
  | .sel x => if x.b = 0x7F then 0 else x.lit
  | .icmpEq x => if x.b = 0x7F then 0 else x.lit
  | .icmpNe x => if x.b = 0x7F then 0 else x.lit
  | .icmpLt x => if x.b = 0x7F then 0 else x.lit
  | .icmpLe x => if x.b = 0x7F then 0 else x.lit
  | .icmpGt x => if x.b = 0x7F then 0 else x.lit
  | .icmpGe x => if x.b = 0x7F then 0 else x.lit
  | .icmpUlt x => if x.b = 0x7F then 0 else x.lit
  | .icmpUle x => if x.b = 0x7F then 0 else x.lit
  | .icmpUgt x => if x.b = 0x7F then 0 else x.lit
  | .icmpUge x => if x.b = 0x7F then 0 else x.lit
  | .pand x => if x.b = 0x7F then 0 else x.lit
  | .por x => if x.b = 0x7F then 0 else x.lit
  | .pxor x => if x.b = 0x7F then 0 else x.lit
  | .pnot x => if x.b = 0x7F then 0 else x.lit
  | .ballot x => if x.b = 0x7F then 0 else x.lit
  | .vany x => if x.b = 0x7F then 0 else x.lit
  | .vall x => if x.b = 0x7F then 0 else x.lit
  | .matchOp x => if x.b = 0x7F then 0 else x.lit
  | .first x => if x.b = 0x7F then 0 else x.lit
  | .bcast x => if x.b = 0x7F then 0 else x.lit
  | .shflIdx x => if x.b = 0x7F then 0 else x.lit
  | .redadd x => if x.b = 0x7F then 0 else x.lit
  | .redmin x => if x.b = 0x7F then 0 else x.lit
  | .redmax x => if x.b = 0x7F then 0 else x.lit
  | .redumin x => if x.b = 0x7F then 0 else x.lit
  | .redumax x => if x.b = 0x7F then 0 else x.lit
  | .redand x => if x.b = 0x7F then 0 else x.lit
  | .redor x => if x.b = 0x7F then 0 else x.lit
  | .redxor x => if x.b = 0x7F then 0 else x.lit
  | .redfadd x => if x.b = 0x7F then 0 else x.lit
  | .fadd x => if x.b = 0x7F then 0 else x.lit
  | .faddRz x => if x.b = 0x7F then 0 else x.lit
  | .faddRd x => if x.b = 0x7F then 0 else x.lit
  | .faddRu x => if x.b = 0x7F then 0 else x.lit
  | .fsub x => if x.b = 0x7F then 0 else x.lit
  | .fsubRz x => if x.b = 0x7F then 0 else x.lit
  | .fsubRd x => if x.b = 0x7F then 0 else x.lit
  | .fsubRu x => if x.b = 0x7F then 0 else x.lit
  | .fmul x => if x.b = 0x7F then 0 else x.lit
  | .fmulRz x => if x.b = 0x7F then 0 else x.lit
  | .fmulRd x => if x.b = 0x7F then 0 else x.lit
  | .fmulRu x => if x.b = 0x7F then 0 else x.lit
  | .ffma x => if x.b = 0x7F then 0 else x.lit
  | .ffmaRz x => if x.b = 0x7F then 0 else x.lit
  | .ffmaRd x => if x.b = 0x7F then 0 else x.lit
  | .ffmaRu x => if x.b = 0x7F then 0 else x.lit
  | .fmin x => if x.b = 0x7F then 0 else x.lit
  | .fmax x => if x.b = 0x7F then 0 else x.lit
  | .fminnan x => if x.b = 0x7F then 0 else x.lit
  | .fmaxnan x => if x.b = 0x7F then 0 else x.lit
  | .fabs x => if x.b = 0x7F then 0 else x.lit
  | .fneg x => if x.b = 0x7F then 0 else x.lit
  | .fsat x => if x.b = 0x7F then 0 else x.lit
  | .fclass x => if x.b = 0x7F then 0 else x.lit
  | .fldexp x => if x.b = 0x7F then 0 else x.lit
  | .frexp x => if x.b = 0x7F then 0 else x.lit
  | .fdot2 x => if x.b = 0x7F then 0 else x.lit
  | .bfdot2 x => if x.b = 0x7F then 0 else x.lit
  | .fcmpEq x => if x.b = 0x7F then 0 else x.lit
  | .fcmpNe x => if x.b = 0x7F then 0 else x.lit
  | .fcmpLt x => if x.b = 0x7F then 0 else x.lit
  | .fcmpLe x => if x.b = 0x7F then 0 else x.lit
  | .fcmpGt x => if x.b = 0x7F then 0 else x.lit
  | .fcmpGe x => if x.b = 0x7F then 0 else x.lit
  | .fcmpUn x => if x.b = 0x7F then 0 else x.lit
  | .fcmpOrd x => if x.b = 0x7F then 0 else x.lit
  | .frcp x => if x.b = 0x7F then 0 else x.lit
  | .frsq x => if x.b = 0x7F then 0 else x.lit
  | .fsqrt x => if x.b = 0x7F then 0 else x.lit
  | .fex2 x => if x.b = 0x7F then 0 else x.lit
  | .flg2 x => if x.b = 0x7F then 0 else x.lit
  | .fsin x => if x.b = 0x7F then 0 else x.lit
  | .fcos x => if x.b = 0x7F then 0 else x.lit
  | .frndN x => if x.b = 0x7F then 0 else x.lit
  | .frndZ x => if x.b = 0x7F then 0 else x.lit
  | .frndD x => if x.b = 0x7F then 0 else x.lit
  | .frndU x => if x.b = 0x7F then 0 else x.lit
  | .cvtF32I32 x => if x.b = 0x7F then 0 else x.lit
  | .cvtF32U32 x => if x.b = 0x7F then 0 else x.lit
  | .cvtI32F32 x => if x.b = 0x7F then 0 else x.lit
  | .cvtI32F32Rz x => if x.b = 0x7F then 0 else x.lit
  | .cvtI32F32Rd x => if x.b = 0x7F then 0 else x.lit
  | .cvtI32F32Ru x => if x.b = 0x7F then 0 else x.lit
  | .cvtU32F32 x => if x.b = 0x7F then 0 else x.lit
  | .cvtF16x2F32 x => if x.b = 0x7F then 0 else x.lit
  | .cvtBf16x2F32 x => if x.b = 0x7F then 0 else x.lit
  | .cvtE4m3x2F32 x => if x.b = 0x7F then 0 else x.lit
  | .cvtE5m2x2F32 x => if x.b = 0x7F then 0 else x.lit
  | .cvtE2m1x2F32 x => if x.b = 0x7F then 0 else x.lit
  | .hadd2 x => if x.b = 0x7F then 0 else x.lit
  | .hmul2 x => if x.b = 0x7F then 0 else x.lit
  | .hfma2 x => if x.b = 0x7F then 0 else x.lit
  | .hmin2 x => if x.b = 0x7F then 0 else x.lit
  | .hmax2 x => if x.b = 0x7F then 0 else x.lit
  | .badd2 x => if x.b = 0x7F then 0 else x.lit
  | .bfma2 x => if x.b = 0x7F then 0 else x.lit
  | .bmul2 x => if x.b = 0x7F then 0 else x.lit
  | .bmin2 x => if x.b = 0x7F then 0 else x.lit
  | .bmax2 x => if x.b = 0x7F then 0 else x.lit
  | .copyGs x => if x.b = 0x7F then 0 else x.lit
  | .copySg x => if x.b = 0x7F then 0 else x.lit
  | .copySs x => if x.b = 0x7F then 0 else x.lit
  | .copyMc x => if x.b = 0x7F then 0 else x.lit
  | .mma x => if x.b = 0x7F then 0 else x.lit
  | .mmaT x => if x.b = 0x7F then 0 else x.lit
  | .mmaz x => if x.b = 0x7F then 0 else x.lit
  | .mzero x => x.ext ||| (if x.b = 0x7F then 0 else x.lit)
  | .mld x => if x.b = 0x7F then 0 else x.lit
  | .mst x => if x.b = 0x7F then 0 else x.lit
  | .mrd x => x.ext ||| (if x.b = 0x7F then 0 else x.lit)
  | .mwr x => x.ext ||| (if x.b = 0x7F then 0 else x.lit)
  | .mdrain x => x.ext ||| (if x.b = 0x7F then 0 else x.lit)
  | .mfill x => x.ext ||| (if x.b = 0x7F then 0 else x.lit)
  | .neval x => if x.b = 0x7F then 0 else x.lit
  | .nevalU x => if x.b = 0x7F then 0 else x.lit
  | .nevalF32 x => if x.b = 0x7F then 0 else x.lit
  | .tex x => if x.b = 0x7F then 0 else x.lit
  | .texL x => if x.b = 0x7F then 0 else x.lit
  | .texB x => if x.b = 0x7F then 0 else x.lit
  | .texD x => if x.b = 0x7F then 0 else x.lit
  | .texG x => if x.b = 0x7F then 0 else x.lit
  | .texn x => if x.b = 0x7F then 0 else x.lit
  | .tld x => if x.b = 0x7F then 0 else x.lit
  | .tqry x => if x.b = 0x7F then 0 else x.lit
  | .trace x => if x.b = 0x7F then 0 else x.lit
  | .traceA x => if x.b = 0x7F then 0 else x.lit
  | .dload x => if x.b = 0x7F then 0 else x.lit
  | .dwin x => x.ext ||| (if x.b = 0x7F then 0 else x.lit)
  | .dlaunch x => if x.b = 0x7F then 0 else x.lit
  | .dlaunchR x => x.ext ||| (if x.b = 0x7F then 0 else x.lit)
  | .dcapt x => if x.b = 0x7F then 0 else x.lit
  | .dcaptW x => if x.b = 0x7F then 0 else x.lit
  | .dreset x => x.ext ||| (if x.b = 0x7F then 0 else x.lit)
  | .gsub x => x.ext ||| (if x.b = 0x7F then 0 else x.lit)
  | .gabort x => x.ext ||| (if x.b = 0x7F then 0 else x.lit)
  | .gstop x => x.ext ||| (if x.b = 0x7F then 0 else x.lit)
  | .gqry x => x.ext ||| (if x.b = 0x7F then 0 else x.lit)
  | .ghint x => x.ext ||| (if x.b = 0x7F then 0 else x.lit)
  | .gwait x => x.ext ||| (if x.b = 0x7F then 0 else x.lit)
  | .trel x => x.ext ||| (if x.b = 0x7F then 0 else x.lit)
  | .tlsig x => x.ext ||| (if x.b = 0x7F then 0 else x.lit)
  | .tlwait x => x.ext ||| (if x.b = 0x7F then 0 else x.lit)
  | .tlrd x => x.ext ||| (if x.b = 0x7F then 0 else x.lit)
  | .tlset x => x.ext ||| (if x.b = 0x7F then 0 else x.lit)
  | .mbrecv x => x.ext ||| (if x.b = 0x7F then 0 else x.lit)
  | .mbsend x => x.ext ||| (if x.b = 0x7F then 0 else x.lit)
  | .dbgsend x => x.ext ||| (if x.b = 0x7F then 0 else x.lit)
  | _ => 0

/-- A of DEPO and WARV with an extension word, which then use no A (R316, R317). The conditions that other entries put on
fields come after the operands are checked, in their meanings (R221, R322). -/
def entryLegal : Instr → Bool
  | .depo x => !x.x || x.a == 0x78
  | .warv x => !x.x || x.a == 0x78
  | _ => true

/-- R221 check 2: every field that must hold a fixed value holds it. -/
def fixedOk (i : Instr) (w : Word) : Bool :=
  ((w &&& (fixedBits i).1) == (fixedBits i).2.1) &&
  (((extWord i).getD 0 &&& (fixedBits i).2.2) == 0) && entryLegal i


/-- Opcode map of class 0 (R219, R220). -/
def buildVec (o : Nat) (w lit : Word) : Option Instr :=
  match o with
  | 0x00 => some (.iadd (F3.of w lit))
  | 0x01 => some (.isub (F3.of w lit))
  | 0x02 => some (.imul (F3.of w lit))
  | 0x03 => some (.imulh (F3.of w lit))
  | 0x04 => some (.imulhu (F3.of w lit))
  | 0x05 => some (.imad (F3.of w lit))
  | 0x06 => some (.imin (F3.of w lit))
  | 0x07 => some (.imax (F3.of w lit))
  | 0x08 => some (.umin (F3.of w lit))
  | 0x09 => some (.umax (F3.of w lit))
  | 0x0A => some (.iabs (F3.of w lit))
  | 0x0B => some (.iadds (F3.of w lit))
  | 0x0C => some (.isubs (F3.of w lit))
  | 0x0D => some (.sad (F3.of w lit))
  | 0x0E => some (.imin3 (F3.of w lit))
  | 0x0F => some (.imax3 (F3.of w lit))
  | 0x10 => some (.minadd (F3.of w lit))
  | 0x11 => some (.minaddU (F3.of w lit))
  | 0x12 => some (.idp4 (F3.of w lit))
  | 0x13 => some (.idp4u (F3.of w lit))
  | 0x14 => some (.iadd2 (F3.of w lit))
  | 0x15 => some (.isub2 (F3.of w lit))
  | 0x16 => some (.imin2 (F3.of w lit))
  | 0x17 => some (.imax2 (F3.of w lit))
  | 0x18 => some (.iadd64 (F3.of w lit))
  | 0x19 => some (.isub64 (F3.of w lit))
  | 0x1A => some (.imulWide (F3.of w lit))
  | 0x1B => some (.imadWide (F3.of w lit))
  | 0x1C => some (.shl64 (F3.of w lit))
  | 0x1D => some (.shr64 (F3.of w lit))
  | 0x1E => some (.lea (FI.of w))
  | 0x1F => some (.iadd3 (F3.of w lit))
  | 0x20 => some (.and (F3.of w lit))
  | 0x21 => some (.or (F3.of w lit))
  | 0x22 => some (.xor (F3.of w lit))
  | 0x23 => some (.andn (F3.of w lit))
  | 0x24 => some (.lop3 (F3.of w lit))
  | 0x25 => some (.shl (F3.of w lit))
  | 0x26 => some (.shr (F3.of w lit))
  | 0x27 => some (.sar (F3.of w lit))
  | 0x28 => some (.rotl (F3.of w lit))
  | 0x29 => some (.bfe (FI.of w))
  | 0x2A => some (.bfeu (FI.of w))
  | 0x2B => some (.bfi (FI.of w))
  | 0x2C => some (.popc (F3.of w lit))
  | 0x2D => some (.clz (F3.of w lit))
  | 0x2E => some (.brev (F3.of w lit))
  | 0x2F => some (.prmt (FI.of w))
  | 0x30 => some (.mov (F3.of w lit))
  | 0x31 => some (.sel (FP.of w lit))
  | 0x32 => some (.plane (FI.of w))
  | 0x33 => some (.unplane (FI.of w))
  | 0x38 => some (.icmpEq (F3.of w lit))
  | 0x39 => some (.icmpNe (F3.of w lit))
  | 0x3A => some (.icmpLt (F3.of w lit))
  | 0x3B => some (.icmpLe (F3.of w lit))
  | 0x3C => some (.icmpGt (F3.of w lit))
  | 0x3D => some (.icmpGe (F3.of w lit))
  | 0x3E => some (.icmpUlt (F3.of w lit))
  | 0x3F => some (.icmpUle (F3.of w lit))
  | 0x40 => some (.icmpUgt (F3.of w lit))
  | 0x41 => some (.icmpUge (F3.of w lit))
  | 0x44 => some (.pand (F3.of w lit))
  | 0x45 => some (.por (F3.of w lit))
  | 0x46 => some (.pxor (F3.of w lit))
  | 0x47 => some (.pnot (F3.of w lit))
  | 0x48 => some (.ballot (F3.of w lit))
  | 0x49 => some (.vany (F3.of w lit))
  | 0x4A => some (.vall (F3.of w lit))
  | 0x4B => some (.matchOp (F3.of w lit))
  | 0x4C => some (.first (F3.of w lit))
  | 0x4D => some (.bcast (F3.of w lit))
  | 0x4E => some (.shflIdx (F3.of w lit))
  | 0x4F => some (.shflUp (FI.of w))
  | 0x50 => some (.shflDn (FI.of w))
  | 0x51 => some (.shflXor (FI.of w))
  | 0x52 => some (.shflRot (FI.of w))
  | 0x53 => some (.redadd (F3.of w lit))
  | 0x54 => some (.redmin (F3.of w lit))
  | 0x55 => some (.redmax (F3.of w lit))
  | 0x56 => some (.redumin (F3.of w lit))
  | 0x57 => some (.redumax (F3.of w lit))
  | 0x58 => some (.redand (F3.of w lit))
  | 0x59 => some (.redor (F3.of w lit))
  | 0x5A => some (.redxor (F3.of w lit))
  | 0x5B => some (.redfadd (F3.of w lit))
  | 0x60 => some (.fadd (F3.of w lit))
  | 0x61 => some (.faddRz (F3.of w lit))
  | 0x62 => some (.faddRd (F3.of w lit))
  | 0x63 => some (.faddRu (F3.of w lit))
  | 0x64 => some (.fsub (F3.of w lit))
  | 0x65 => some (.fsubRz (F3.of w lit))
  | 0x66 => some (.fsubRd (F3.of w lit))
  | 0x67 => some (.fsubRu (F3.of w lit))
  | 0x68 => some (.fmul (F3.of w lit))
  | 0x69 => some (.fmulRz (F3.of w lit))
  | 0x6A => some (.fmulRd (F3.of w lit))
  | 0x6B => some (.fmulRu (F3.of w lit))
  | 0x6C => some (.ffma (F3.of w lit))
  | 0x6D => some (.ffmaRz (F3.of w lit))
  | 0x6E => some (.ffmaRd (F3.of w lit))
  | 0x6F => some (.ffmaRu (F3.of w lit))
  | 0x70 => some (.fmin (F3.of w lit))
  | 0x71 => some (.fmax (F3.of w lit))
  | 0x72 => some (.fminnan (F3.of w lit))
  | 0x73 => some (.fmaxnan (F3.of w lit))
  | 0x74 => some (.fabs (F3.of w lit))
  | 0x75 => some (.fneg (F3.of w lit))
  | 0x76 => some (.fsat (F3.of w lit))
  | 0x77 => some (.fclass (F3.of w lit))
  | 0x78 => some (.fldexp (F3.of w lit))
  | 0x79 => some (.frexp (F3.of w lit))
  | 0x7A => some (.fdot2 (F3.of w lit))
  | 0x7B => some (.bfdot2 (F3.of w lit))
  | 0x80 => some (.fcmpEq (F3.of w lit))
  | 0x81 => some (.fcmpNe (F3.of w lit))
  | 0x82 => some (.fcmpLt (F3.of w lit))
  | 0x83 => some (.fcmpLe (F3.of w lit))
  | 0x84 => some (.fcmpGt (F3.of w lit))
  | 0x85 => some (.fcmpGe (F3.of w lit))
  | 0x86 => some (.fcmpUn (F3.of w lit))
  | 0x87 => some (.fcmpOrd (F3.of w lit))
  | 0x88 => some (.frcp (F3.of w lit))
  | 0x89 => some (.frsq (F3.of w lit))
  | 0x8A => some (.fsqrt (F3.of w lit))
  | 0x8B => some (.fex2 (F3.of w lit))
  | 0x8C => some (.flg2 (F3.of w lit))
  | 0x8D => some (.fsin (F3.of w lit))
  | 0x8E => some (.fcos (F3.of w lit))
  | 0x8F => some (.frndN (F3.of w lit))
  | 0x90 => some (.frndZ (F3.of w lit))
  | 0x91 => some (.frndD (F3.of w lit))
  | 0x92 => some (.frndU (F3.of w lit))
  | 0xA0 => some (.cvtF32I32 (F3.of w lit))
  | 0xA1 => some (.cvtF32U32 (F3.of w lit))
  | 0xA2 => some (.cvtI32F32 (F3.of w lit))
  | 0xA3 => some (.cvtI32F32Rz (F3.of w lit))
  | 0xA4 => some (.cvtI32F32Rd (F3.of w lit))
  | 0xA5 => some (.cvtI32F32Ru (F3.of w lit))
  | 0xA6 => some (.cvtU32F32 (F3.of w lit))
  | 0xA7 => some (.cvtF16x2F32 (F3.of w lit))
  | 0xA8 => some (.cvtF32F16 (FI.of w))
  | 0xA9 => some (.cvtBf16x2F32 (F3.of w lit))
  | 0xAA => some (.cvtF32Bf16 (FI.of w))
  | 0xAB => some (.cvtE4m3x2F32 (F3.of w lit))
  | 0xAC => some (.cvtE5m2x2F32 (F3.of w lit))
  | 0xAD => some (.cvtF32E4m3 (FI.of w))
  | 0xAE => some (.cvtF32E5m2 (FI.of w))
  | 0xAF => some (.cvtE2m1x2F32 (F3.of w lit))
  | 0xB0 => some (.cvtF32E2m1 (FI.of w))
  | 0xB8 => some (.hadd2 (F3.of w lit))
  | 0xB9 => some (.hmul2 (F3.of w lit))
  | 0xBA => some (.hfma2 (F3.of w lit))
  | 0xBB => some (.hmin2 (F3.of w lit))
  | 0xBC => some (.hmax2 (F3.of w lit))
  | 0xBD => some (.badd2 (F3.of w lit))
  | 0xBE => some (.bfma2 (F3.of w lit))
  | 0xBF => some (.bmul2 (F3.of w lit))
  | 0xC0 => some (.bmin2 (F3.of w lit))
  | 0xC1 => some (.bmax2 (F3.of w lit))
  | _ => none

/-- Opcode map of class 1 (R219, R220). -/
def buildMem (o : Nat) (w ext : Word) : Option Instr :=
  match o with
  | 0x00 => some (.ldB (FM.of w ext))
  | 0x01 => some (.ldSb (FM.of w ext))
  | 0x02 => some (.ldH (FM.of w ext))
  | 0x03 => some (.ldSh (FM.of w ext))
  | 0x04 => some (.ldW (FM.of w ext))
  | 0x05 => some (.ldD (FM.of w ext))
  | 0x06 => some (.ldQ (FM.of w ext))
  | 0x07 => some (.ldr (FM.of w ext))
  | 0x08 => some (.ldrV4 (FM.of w ext))
  | 0x09 => some (.ldu (FM.of w ext))
  | 0x0A => some (.lduD (FM.of w ext))
  | 0x10 => some (.stB (FM.of w ext))
  | 0x11 => some (.stH (FM.of w ext))
  | 0x12 => some (.stW (FM.of w ext))
  | 0x13 => some (.stD (FM.of w ext))
  | 0x14 => some (.stQ (FM.of w ext))
  | 0x15 => some (.str (FM.of w ext))
  | 0x16 => some (.strV4 (FM.of w ext))
  | 0x17 => some (.stu (FM.of w ext))
  | 0x20 => some (.atomAdd (FM.of w ext))
  | 0x21 => some (.atomMin (FM.of w ext))
  | 0x22 => some (.atomMax (FM.of w ext))
  | 0x23 => some (.atomUmin (FM.of w ext))
  | 0x24 => some (.atomUmax (FM.of w ext))
  | 0x25 => some (.atomAnd (FM.of w ext))
  | 0x26 => some (.atomOr (FM.of w ext))
  | 0x27 => some (.atomXor (FM.of w ext))
  | 0x28 => some (.atomXchg (FM.of w ext))
  | 0x29 => some (.atomCas (FM.of w ext))
  | 0x2A => some (.atomFadd (FM.of w ext))
  | 0x2B => some (.atomAdd64 (FM.of w ext))
  | 0x2C => some (.atomXchg64 (FM.of w ext))
  | 0x2D => some (.atomCas64 (FM.of w ext))
  | 0x30 => some (.redAdd (FM.of w ext))
  | 0x31 => some (.redMin (FM.of w ext))
  | 0x32 => some (.redMax (FM.of w ext))
  | 0x33 => some (.redUmin (FM.of w ext))
  | 0x34 => some (.redUmax (FM.of w ext))
  | 0x35 => some (.redAnd (FM.of w ext))
  | 0x36 => some (.redOr (FM.of w ext))
  | 0x37 => some (.redXor (FM.of w ext))
  | 0x38 => some (.redFadd (FM.of w ext))
  | 0x40 => some (.waitc (FM.of w ext))
  | 0x41 => some (.waita (FM.of w ext))
  | 0x42 => some (.waitae (FM.of w ext))
  | 0x43 => some (.depo (FM.of w ext))
  | 0x44 => some (.warv (FM.of w ext))
  | 0x45 => some (.probe (FM.of w ext))
  | 0x46 => some (.resreq (FM.of w ext))
  | 0x47 => some (.pref (FM.of w ext))
  | 0x48 => some (.prefL2 (FM.of w ext))
  | 0x49 => some (.clwb (FM.of w ext))
  | 0x4A => some (.invl (FM.of w ext))
  | _ => none

/-- Opcode map of class 2 (R219, R220). -/
def buildCtl (o : Nat) (w : Word) : Option Instr :=
  match o with
  | 0x00 => some (.nop)
  | 0x01 => some (.bra (FBL.of w))
  | 0x02 => some (.brc (FB.of w))
  | 0x03 => some (.brcAny (FB.of w))
  | 0x04 => some (.brcAll (FB.of w))
  | 0x05 => some (.brcU (FB.of w))
  | 0x06 => some (.bri (fldA w))
  | 0x07 => some (.join)
  | 0x08 => some (.call (FBL.of w))
  | 0x09 => some (.calli (fldA w))
  | 0x0A => some (.ret)
  | 0x0B => some (.exit)
  | 0x0C => some (.reord (w.extractLsb' 15 4) (fldD w))
  | 0x0D => some (.spawn (w.extractLsb' 22 10) (fldA w) (fldD w))
  | 0x0E => some (.spawnW (w.extractLsb' 22 10) (fldA w) (fldD w))
  | 0x0F => some (.spawnAt (w.extractLsb' 22 10) (fldA w) (fldD w))
  | 0x10 => some (.trap (w.extractLsb' 8 24))
  | 0x11 => some (.bkpt (w.extractLsb' 8 24))
  | 0x12 => some (.eret)
  | 0x13 => some (.yield)
  | 0x14 => some (.wsleep (fldA w))
  | 0x15 => some (.halt)
  | 0x16 => some (.icinv (w.extractLsb' 8 3))
  | 0x17 => some (.csrr (w.extractLsb' 20 12) (fldD w))
  | 0x18 => some (.csrw (w.extractLsb' 20 12) (fldD w))
  | 0x19 => some (.csrs (w.extractLsb' 20 12) (fldD w))
  | 0x1A => some (.csrc (w.extractLsb' 20 12) (fldD w))
  | _ => none

/-- Opcode map of class 3 (R219, R220). -/
noncomputable def buildEng (o : Nat) (w ext lit : Word) : Option Instr :=
  match o with
  | 0x00 => some (.copyGs (FE.of w ext lit))
  | 0x01 => some (.copySg (FE.of w ext lit))
  | 0x02 => some (.copySs (FE.of w ext lit))
  | 0x03 => some (.copyMc (FE.of w ext lit))
  | 0x10 => some (.mma (FE.of w ext lit))
  | 0x11 => some (.mmaT (FE.of w ext lit))
  | 0x12 => some (.mmaz (FE.of w ext lit))
  | 0x13 => some (.mzero (FE.of w ext lit))
  | 0x14 => some (.mld (FE.of w ext lit))
  | 0x15 => some (.mst (FE.of w ext lit))
  | 0x16 => some (.mrd (FE.of w ext lit))
  | 0x17 => some (.mwr (FE.of w ext lit))
  | 0x18 => some (.mdrain (FE.of w ext lit))
  | 0x19 => some (.mfill (FE.of w ext lit))
  | 0x20 => some (.neval (FE.of w ext lit))
  | 0x21 => some (.nevalU (FE.of w ext lit))
  | 0x22 => some (.nevalF32 (FE.of w ext lit))
  | 0x28 => some (.tex (FE.of w ext lit))
  | 0x29 => some (.texL (FE.of w ext lit))
  | 0x2A => some (.texB (FE.of w ext lit))
  | 0x2B => some (.texD (FE.of w ext lit))
  | 0x2C => some (.texG (FE.of w ext lit))
  | 0x2D => some (.texn (FE.of w ext lit))
  | 0x2E => some (.tld (FE.of w ext lit))
  | 0x2F => some (.tqry (FE.of w ext lit))
  | 0x30 => some (.trace (FE.of w ext lit))
  | 0x31 => some (.traceA (FE.of w ext lit))
  | 0x38 => some (.dload (FE.of w ext lit))
  | 0x39 => some (.dwin (FE.of w ext lit))
  | 0x3A => some (.dlaunch (FE.of w ext lit))
  | 0x3B => some (.dlaunchR (FE.of w ext lit))
  | 0x3C => some (.dcapt (FE.of w ext lit))
  | 0x3D => some (.dcaptW (FE.of w ext lit))
  | 0x3E => some (.dreset (FE.of w ext lit))
  | _ => none

/-- Opcode map of class 4 (R219, R220). -/
noncomputable def buildGrf (o : Nat) (w ext lit : Word) : Option Instr :=
  match o with
  | 0x00 => some (.gsub (FE.of w ext lit))
  | 0x01 => some (.gabort (FE.of w ext lit))
  | 0x02 => some (.gstop (FE.of w ext lit))
  | 0x03 => some (.gqry (FE.of w ext lit))
  | 0x04 => some (.ghint (FE.of w ext lit))
  | 0x05 => some (.gwait (FE.of w ext lit))
  | 0x06 => some (.trel (FE.of w ext lit))
  | 0x07 => some (.tlsig (FE.of w ext lit))
  | 0x08 => some (.tlwait (FE.of w ext lit))
  | 0x09 => some (.tlrd (FE.of w ext lit))
  | 0x0A => some (.tlset (FE.of w ext lit))
  | 0x0B => some (.mbrecv (FE.of w ext lit))
  | 0x0C => some (.mbsend (FE.of w ext lit))
  | 0x0D => some (.dbgsend (FE.of w ext lit))
  | _ => none

/-- Opcodes of format FI, and opcodes not assigned, take one word whatever bits 28 to 22 hold (R208). -/
def vecHasLit (o : Nat) : Bool := (buildVec o 0 0).isSome && !([30, 41, 42, 43, 47, 50, 51, 79, 80, 81, 82, 168, 170, 173, 174, 176] : List Nat).contains o

/-- Extension words of an ENG opcode (R220). -/
def engExt (o : Nat) : Nat := if ([0, 1, 2, 3, 16, 17, 18, 20, 21, 32, 33, 34, 40, 41, 42, 43, 44, 45, 46, 47, 48, 49, 56, 58, 60, 61] : List Nat).contains o then 1 else 0

/-- Words of an instruction (R208), from its class and first word. -/
def sizeOf (cls : Nat) (w : Word) : Nat :=
  let o := (fldOp w).toNat
  let lit := if fldB w = 0x7F then 1 else 0
  match cls with
  | 0 => if vecHasLit o then 1 + lit else 1
  | 1 => if (buildMem o 0 0).isSome && bitAt w 31 then 2 else 1
  | 3 => if ([0, 1, 2, 3, 16, 17, 18, 19, 20, 21, 22, 23, 24, 25, 32, 33, 34, 40, 41, 42, 43, 44, 45, 46, 47, 48, 49, 56, 57, 58, 59, 60, 61, 62] : List Nat).contains o then 1 + engExt o + lit else 1
  | 4 => if o < 14 then 1 + lit else 1
  | _ => 1

/-- The instruction that a class, its first word, and the two words after it name, before the fixed fields are
checked. -/
noncomputable def buildInstr (cls : Nat) (w w1 w2 : Word) : Option Instr :=
  let o := (fldOp w).toNat
  match cls with
  | 0 => buildVec o w w1
  | 1 => buildMem o w w1
  | 2 => buildCtl o w
  | 3 => if engExt o = 1 then buildEng o w w1 w2 else buildEng o w 0 w1
  | 4 => buildGrf o w 0 w1
  | _ => none

/-- The decoder: the instruction at the head of a list of words of one class, and the words after it. -/
noncomputable def decodeWords (cls : Nat) (ws : List Word) : Except Reject (Instr × List Word) :=
  match ws with
  | [] => .error .short
  | w :: rest =>
    if ws.length < sizeOf cls w then .error .short
    else
      match buildInstr cls w (rest.headD 0) ((rest.drop 1).headD 0) with
      | none => .error .unassigned
      | some i => if fixedOk i w then .ok (i, ws.drop (sizeOf cls w)) else .error .fixedField

/-- A little-endian word of four bytes (R4). -/
def wordOfBytes (a b c d : Byte) : Word := (d ++ c ++ b ++ a : BitVec 32)

/-- The whole words of a list of bytes. -/
def wordsOfBytes : List Byte → List Word
  | a :: b :: c :: d :: rest => wordOfBytes a b c d :: wordsOfBytes rest
  | _ => []

/-- The bytes of a word, lowest address first. -/
def bytesOfWord (w : Word) : List Byte :=
  [w.extractLsb' 0 8, w.extractLsb' 8 8, w.extractLsb' 16 8, w.extractLsb' 24 8]

/-- The decoder on bytes. -/
noncomputable def decodeBytes (cls : Nat) (bs : List Byte) : Except Reject (Instr × List Word) := decodeWords cls (wordsOfBytes bs)

/-- The encoder: the words of an instruction (R208). An event has no words. -/
def encode (i : Instr) : List Word :=
  match classOf i with
  | none => []
  | some _ => headWord i :: (extWord i).toList ++ (litWord i).toList

/-- How many bits of a word are ones. -/
def ones (w : Word) : Nat := ((List.range 32).filter (fun k => w.getLsbD k)).length

/-- How much of a first word a reading fixes: a one-word instruction before a longer one, then ones, then fixed bits. -/
def rank (w : Word) (x : Nat × Instr) : Nat :=
  (if sizeOf x.1 w = 1 then 4096 else 0) + 64 * ones (fixedBits x.2).2.1 + ones (fixedBits x.2).1

/-- Of two candidate readings of a word, the one that fixes more; the earlier class on a tie. -/
def better (w : Word) (x y : Option (Nat × Instr)) : Option (Nat × Instr) :=
  match x, y with
  | some a, some b => if rank w a < rank w b then some b else some a
  | some a, none => some a
  | none, b => b

/-- The reading of a first word alone, extension and literal words zero, in one class. -/
noncomputable def readIn (w : Word) (cls : Nat) : Option (Nat × Instr) :=
  match decodeWords cls [w, 0, 0] with
  | .ok (i, _) => some (cls, i)
  | .error _ => none

/-- The class and instruction of a table word: an instruction word carries no class (R206), so of the classes that
read it the one that fixes most of it is taken (entry 3). -/
noncomputable def tableReading (w : Word) : Option (Nat × Instr) :=
  better w (better w (better w (better w (readIn w 0) (readIn w 1)) (readIn w 2)) (readIn w 3)) (readIn w 4)

/-- The instruction read from a table word, its bits numbered as the table numbers them. The words lie in memory
little-endian, the first at the lowest address. -/
noncomputable def decodeTableWord (_nbits w : Nat) : Option Instr := (tableReading (BitVec.ofNat 32 w)).map (·.2)

end Sys2Proof
end

