-- ==== Sys2Proof/Machine/Fetch.lean ====
section
/-! DEFINITION. Fetching code (04_memories.md R96, 10_encoding.md R206 to R212): one word, the header tests of control
transfers, and the fetch and check of a clause. -/

namespace Sys2Proof.Machine

/-- The bits of a byte that a fetch reads: dirty copies on the core's path, lowest first, then the SYSTEM view. The
instruction cache lies beside the data views and takes no clean copy from them (R96). -/
def fetchBits (s : State) (loc : Nat) : List Nat → Byte → Byte → Byte
  | [], need, acc => acc ||| (memByte s.mem loc &&& need)
  | v :: t, need, acc =>
    let c := cellAt s v loc
    fetchBits s loc t (need &&& ~~~(need &&& c.dirty)) (acc ||| (c.val &&& (need &&& c.dirty)))

/-- The word a location holds for a fetch. -/
def codeWord (s : State) (core loc : Nat) : Word :=
  BitVec.ofNat 32 (natOfBytes ((List.range 4).map (fun i => fetchBits s (loc + i) (pathFrom core 0) 0xFF 0)))

/-- The poison that a fetch of a word consumes (R97, entry 28): of a dirty copy on the path that supplies some of it, or of the
store where none supplies all of it. -/
def codeErr (s : State) (core loc : Nat) : Option SErr :=
  let left (l : Nat) (views : List Nat) : Byte := views.foldl (fun m u => m &&& ~~~(cellAt s u l).dirty) 0xFF
  let views := if singleCopy loc then [] else pathFrom core 0
  s.dev.serr.find? (fun e => !e.single && (List.range 4).any (fun i => e.loc / 8 = (loc + i) / 8 &&
    (if e.view = storeView then left (loc + i) views != 0
     else views.contains e.view && left (loc + i) (views.takeWhile (· != e.view)) &&& (cellAt s e.view (loc + i)).dirty != 0)))

/-- The key of a word of code in an instruction cache. -/
def codeKey (part va : Nat) : Nat := part * 2 ^ 55 + va / 4

/-- A word of code; when the choice says so, the one the instruction cache has kept. None when it cannot be fetched
(R209 check 1). Before an ICINV covers the core the old value is offered only for a word its instruction cache has kept:
fewer outcomes than R96 allows (entry 47). -/
def fetchWord (s : State) (part core va : Nat) (old : Bool) : Option Word :=
  match translate s part core 3 va with
  | .ok loc =>
    let now := codeWord s core loc
    some (if old then (tabGet? (getCore s core).icache (codeKey part va)).getD now else now)
  | _ => none

/-- Poison in n words of code from an address on, or in the page tables that lead to them: the structure and the address. A word
that the instruction cache supplies is sound. -/
def codePoison (s : State) (part core base n : Nat) : Option (Nat × Nat) :=
  if s.dev.serr.isEmpty then none
  else firstSome (fun i =>
    let va := base + 4 * i
    if s.choice.oldCode.getLsbD i && (tabGet? (getCore s core).icache (codeKey part va)).isSome then none
    else
      match walkPoison s part core va with
      | some e => some (e.strct, va)
      | none =>
        match translate s part core 3 va with
        | .ok loc => (codeErr s core loc).map (fun e => (e.strct, va))
        | _ => none) (List.range n)

/-- R209 check 2 on a header word. -/
def headerOk (h : Word) : Bool :=
  h.extractLsb' 28 4 == 0b1010 && h.extractLsb' 24 4 == 0 && !h.getLsbD 7 && decide (h.extractLsb' 4 3 < 5) &&
    h.extractLsb' 0 4 != 0

/-- Header fields (R207). -/
def headClass (h : Word) : Nat := (h.extractLsb' 4 3).toNat
def headCount (h : Word) : Nat := (h.extractLsb' 0 4).toNat
def headCpy (h : Word) : Nat := (h.extractLsb' 8 4).toNat
def headMtx (h : Word) : Nat := (h.extractLsb' 12 4).toNat
def headGth (h : Word) : Nat := (h.extractLsb' 16 4).toNat
def headDsh (h : Word) : Nat := (h.extractLsb' 20 4).toNat

/-- The test of a transfer's target or join point (R211). -/
def targetOk (s : State) (part core : Nat) (a : Nat) (slot : Nat) : Bool :=
  a % 4 = 0 && a < 2 ^ 57 &&
    (match fetchWord s part core a (s.choice.oldCode.getLsbD slot) with
     | some h => headerOk h
     | none => true)

/-- An instruction that must stand last in its clause (R209 check 4). -/
def lastOnly (cls : Nat) (w : Word) : Bool :=
  let o := (fldOp w).toNat
  cls = 2 && ((1 ≤ o && o ≤ 6) || (8 ≤ o && o ≤ 11) || o = 18 || o = 21)

/-- The first words of a clause's instructions, by index, and the index at which check 3 fails. -/
def clauseStarts (cls : Nat) : Nat → Nat → List Word → List (Nat × Word) × Option Nat
  | 0, _, _ => ([], none)
  | _ + 1, _, [] => ([], none)
  | f + 1, i, w :: t =>
    let n := sizeOf cls w
    if t.length + 1 < n then ([], some i)
    else
      let r := clauseStarts cls f (i + n) (t.drop (n - 1))
      ((i, w) :: r.1, r.2)

/-- Checks 2, 3 and 4 of R209: the index of the word at which a clause fails. -/
def clauseBad (h : Word) (ws : List Word) : Option Nat :=
  if !headerOk h then some 0
  else
    let (st, bad) := clauseStarts (headClass h) 16 1 ws
    match bad with
    | some i => some i
    | none =>
      match st.dropLast.find? (fun e => lastOnly (headClass h) e.2) with
      | some e => some e.1
      | none => none

/-- The words of a clause, or the first address that cannot be fetched, tested before the header (R209 check 1). -/
def fetchClause (s : State) (part core base : Nat) : Except Nat (Word × List Word) :=
  match fetchWord s part core base (s.choice.oldCode.getLsbD 0) with
  | none => .error base
  | some h =>
    match foldE (fun (l : List Word) i =>
      match fetchWord s part core (base + 4 * i) (s.choice.oldCode.getLsbD i) with
      | some w => .ok (l ++ [w])
      | none => .error (base + 4 * i)) [] ((List.range (headCount h)).map (· + 1)) with
    | .ok ws => .ok (h, ws)
    | .error a => .error a

/-- The instruction cache and the TLBs take what a fetch read. -/
def fillCode (s : State) (part core base : Nat) (ws : List Word) : State :=
  let c := getCore s core
  let ic := (ws.zipIdx).foldl (fun t e => tabPut t (codeKey part (base + 4 * e.2)) e.1) c.icache
  tlbFill (tlbFill (setCore s core { c with icache := ic }) part core base) part core (base + 4 * (ws.length - 1))

/-- Single-bit errors in code that is read are corrected and counted (R97). -/
def fixCode (s : State) (part core base n : Nat) : State :=
  if s.dev.serr.isEmpty then s
  else fixBytes s [] core 1 ((List.range (4 * n)).filterMap (fun i =>
    match translate s part core 3 (base + i) with | .ok l => some l | _ => none))

/-- A counter is at or below a threshold; 15 imposes nothing (R210). -/
def underThr (n thr : Nat) : Bool := thr = 15 || decide (n ≤ thr)

/-- The four thresholds hold for a wave. -/
def waitsMet (v : Wave) (cpy mtx gth dsh : Nat) : Bool :=
  underThr v.cpy cpy && underThr v.mtx mtx && underThr v.gth gth && underThr v.dsh dsh

/-- A wait on GTH that is over orders what follows it after the completions before it (R152, R367). -/
def noteWait (gth : Nat) (v : Wave) : Wave := { v with hfOpen := v.hfOpen && gth = 15 }

/-- A path enters the body of its clause. -/
def enterBody (x : Path) (base : Nat) : Path := { x with pc := base + 4, wait := .ready, resume := none }

/-- A path at a header: no clause fetched, or held at the header of the one it has. -/
def atHeader (x : Path) : Bool :=
  match x.code with
  | none => true
  | some cl => x.pc = cl.base

/-- The clause, once fetched and checked, in its path (R209, R210, R212). -/
def placeClause (c : Ctx) (base : Nat) (h : Word) (ws : List Word) : Except (Trap × Nat) Wave :=
  let bad (i epc : Nat) : Except (Trap × Nat) Wave := .error (illegalClause (h.toNat + i * 2 ^ 32) c.mask, epc)
  match clauseBad h ws with
  | some i => bad i base
  | none =>
    let cl : Clause := ⟨base, h, ws⟩
    match c.path.resume with
    | some _ =>
      let i := (c.path.pc - base) / 4
      if (clauseStarts (headClass h) 16 1 ws).1.any (fun e => e.1 = i) && c.path.pc % 4 = 0 then
        .ok (setPath c.wave c.pb { c.path with code := some cl, resume := none })
      else bad i c.path.pc
    | none =>
      if waitsMet c.wave (headCpy h) (headMtx h) (headGth h) (headDsh h) then
        .ok (noteWait (headGth h) (setPath c.wave c.pb (enterBody { c.path with code := some cl } base)))
      else
        .ok (setPath c.wave c.pb
          { c.path with code := some cl, wait := .counters true (headCpy h) (headMtx h) (headGth h) (headDsh h) })

/-- CLAUSE_FETCH: fetch and check the clause of the path named by cur; a path held at its header tests the waits it
holds. The ECC of poisoned code words is found after check 1 of R209, which translates the words, and before checks 2 to 4,
which read them: R209 names no place for it (entry 28, DESIGN CHOICE). -/
def execClauseFetch (s : State) : Answer :=
  match ctxAt s s.cur s.curB with
  | none => .fault .noIssuer
  | some c =>
    match c.path.wait with
    | .counters true a b d e =>
      if waitsMet c.wave a b d e then
        .next (setWave s c.w (noteWait d (setPath c.wave c.pb (enterBody c.path c.path.pc))))
      else .next s
    | .ready =>
      if atHeader c.path then
        let base := (c.path.resume.map (·.1)).getD c.path.pc
        match fetchClause s c.g.part c.core base with
        | .error a => .next (takeTrap s c.w c.pb (pageFault a 3 c.mask) c.path.pc)
        | .ok (h, ws) =>
          match codePoison s c.g.part c.core base (ws.length + 1), placeClause c base h ws with
          | some (st, a), _ => .next (takeTrap s c.w c.pb (eccTrap st a c.mask) c.path.pc)
          | none, .ok v => .next (fixCode (fillCode (setWave s c.w v) c.g.part c.core base (h :: ws)) c.g.part c.core base (ws.length + 1))
          | none, .error (t, epc) => .next (takeTrap s c.w c.pb t epc)
      else .next s
    | _ => .next s

/-- The address at which a path of the top pair, or the whole wave, goes on. -/
def nextPc (v : Wave) (pb : Bool) : Nat :=
  match v.stack with
  | [] => v.base.pc
  | p :: _ => if pb then p.b.pc else p.a.pc

def pendTrap (p : Pend) : Trap := { code := p.code, cls := p.cls, tval := p.tval, fmask := p.fmask, ur := false }

/-- PENDING_TRAP (R287): the first of completion faults, WATCH, STEP and the save trap is taken; STEP is dropped when
another is. A wave that a freeze has been asked for takes none (R381); the save trap waits for the outstanding counters
(R45, R153), and no thread raises it as a fault: its TFMASK is 0 (entry 50, DESIGN CHOICE). -/
def execPendingTrap (s : State) : Answer :=
  match getWave s s.cur with
  | none => .next s
  | some v =>
    if wTrap v || v.halted || v.frozen || v.freezing || !atBoundary v || liveMask v = 0 then .next s
    else
      match v.faults, v.watch, v.step, v.save with
      | p :: t, _, _, _ =>
        .next (enterTrap (setWave s s.cur { v with faults := t, step := none }) s.cur false (pendTrap p) (nextPc v false) false)
      | [], some p, _, _ =>
        .next (enterTrap (setWave s s.cur { v with watch := none, step := none }) s.cur p.pathB (pendTrap p) (nextPc v p.pathB) false)
      | [], none, some p, _ =>
        .next (enterTrap (setWave s s.cur { v with step := none }) s.cur p.pathB (pendTrap p) (nextPc v p.pathB) false)
      | [], none, none, true =>
        if countersZero v then
          .next (enterTrap (setWave s s.cur { v with save := false }) s.cur false (trapOf 0x15 6 0 0) (nextPc v false) false)
        else .next s
      | [], none, none, false => .next s

end Sys2Proof.Machine
end

