-- ==== Sys2Proof/Machine/MemBase.lean ====
section
/-! DEFINITION. What every memory instruction shares: address forms, the ordered checks of R75, miss-status entries,
watchpoints, reading bytes and writing registers (04_memories.md R74 to R81, R90 to R97, 05_queues.md R119,
14_isa_memory.md R302 to R304). -/

namespace Sys2Proof.Machine

/-- A per-thread check of R75: the earliest check that any thread fails; the lowest %tid gives TVAL. fails answers the
TVAL of a failing thread. -/
def checkThreads (c : Ctx) (fails : Nat → Option Nat) (mk : Nat → Mask → Trap) : Except Trap Unit :=
  match (byTid c.wave c.mask).filterMap (fun q => (fails q).map (fun t => (q, t))) with
  | [] => .ok ()
  | (q, t) :: rest => .error (mk t (maskOf (q :: rest.map (·.1))))

/-- Several checks in order. -/
def allChecks (l : List (Except Trap Unit)) : Except Trap Unit := firstError l

/-- A condition of check 1. -/
def legal (c : Ctx) (ok : Bool) (r : Nat) : Except Trap Unit :=
  if ok then .ok () else .error (illegalOperand r c.mask)

/-- The address operand of a space (R74, R302). -/
def addrOk (c : Ctx) (space : Nat) (a : Reg) : Bool :=
  if space = 0 then (isVSpec a || isSSpec a) && pairOk c.g a false else valueOk c.g a false

/-- The address operand as a source. -/
def addrSrc (space : Nat) (a : Reg) (l : Bool) : Src := ⟨a, if space = 0 then .pair else .value, false, l⟩

/-- The address or offset that a thread forms (R74). tid is the thread whose private area PRIVATE names. -/
def formAddr (c : Ctx) (space : Nat) (a : Reg) (off : Int) (q tid : Nat) : Nat :=
  if space = 0 then ((((rdPair c q a 0).toNat : Int) + off) % (2 ^ 64 : Nat)).toNat
  else
    let o := ((((rdSpec c q a 0).toNat : Int) + off) % (2 ^ 32 : Nat)).toNat
    if space = 1 then
      bits c.wave.csr.privb.toNat 8 49 * 256 + tid * bits c.wave.csr.privb.toNat 57 7 * 256 + o
    else o

/-- The device-scratch extent a wave may address; none for the pacer (R81). -/
def dsExtent (s : State) (g : Wg) : Option (Nat × Nat) :=
  match rootGraph g.kind with
  | none => none
  | some k => (getGraph s g.part k).map (fun gr => (k, gr.image.dsext))

/-- Whether an access in SCRATCH, CLUSTER or DSCRATCH lies outside (R79 to R81). -/
def outsideWin (s : State) (c : Ctx) (space o n : Nat) : Bool :=
  match space with
  | 2 => decide (c.g.ent.scratch * 4096 < o + n)
  | 3 => decide (Config.scratchBytes < o % 2 ^ 30 + n)
  | 4 => match dsExtent s c.g with | none => true | some (_, x) => decide (x < o + n)
  | _ => false

/-- The location of an offset inside its window. -/
def winLoc (c : Ctx) (space o : Nat) : Nat :=
  match space with
  | 2 => locScr c.core (c.g.scr * 4096 + o)
  | 3 => locScr (clusterOf c.core * 4 + o / 2 ^ 30) (o % 2 ^ 30)
  | _ => locDs c.g.part ((rootGraph c.g.kind).getD 0) o

/-- n whole bytes from a location on. -/
def wholeBytes (loc n : Nat) : List (Nat × Byte) := (List.range n).map (fun i => (loc + i, 0xFF))

/-- TVAL of the ECC that the walks of some addresses meet (R97; entry 28): structure, and the address. -/
def walkEcc (s : State) (c : Ctx) (vas : List Nat) : Option Nat :=
  if s.dev.serr.isEmpty then none
  else firstSome (fun va => (walkPoison s c.g.part c.core va).map (fun e => e.strct * 2 ^ 60 + va % 2 ^ 57)) vas

/-- The trap of a walk that meets poison. -/
def walkTrap (t : Nat) (m : Mask) : Trap := trapOf 0x17 7 t m

/-- Checks 3, 4 and 6 of R75 on an access of n bytes at an address of a space, and what it reaches; a walk that meets poison is
found before its outcome. The offset form of a thread is address q. -/
def planSpace (s : State) (c : Ctx) (space n kind : Nat) (align strict : Bool) (address : Nat → Nat) :
    Except Trap (List Plan) :=
  let out (q : Nat) : Bool := outsideWin s c space (address q) n
  let tr (q : Nat) : Tr := translate s c.g.part c.core kind (address q)
  let checks : List (Except Trap Unit) := [
    checkThreads c (fun q => if align && address q % n != 0 then some (address q) else none) alignTrap,
    checkThreads c (fun q => if strict && wStrict c.wave && !wTrap c.wave && out q then some (address q) else none)
      scratchBounds,
    checkThreads c (fun q => if space < 2 then walkEcc s c [address q] else none) walkTrap,
    checkThreads c (fun q => if space < 2 && tr q == .fault then some (address q) else none)
      (fun t m => pageFault t kind m)]
  match allChecks checks with
  | .error t => .error t
  | .ok _ =>
    .ok ((byTid c.wave c.mask).map (fun q =>
      let a := address q
      let acc : Acc :=
        if space < 2 then
          match tr q with
          | .ok loc => .mem (wholeBytes loc n)
          | _ => .sparse
        else if out q then .outside
        else .mem (wholeBytes (winLoc c space a) n)
      { q := q, acc := acc, space := space, addr := a, spans := [(a, n)], oob := false }))

/-! Miss-status entries (R119). -/

/-- What a miss-status entry shows in place of its line: it is granted to a wave that has still to replay; it is in use. -/
def heldLine : Nat := 2 ^ 64
def usedLine : Nat := 2 ^ 64 + 1

/-- An access to a byte leaves the core: in a scratchpad when it is another core's (entry 52), in memory when L1 does not
serve it. -/
def leavesCore (core : Nat) (miss : Nat → Bool) (loc : Nat) : Bool :=
  if isScrLoc loc then scrCore loc != core else miss loc

/-- The 128-byte lines that need an entry: those of bytes that leave the core. -/
def accLines (core : Nat) (miss : Nat → Bool) (p : Plan) : List Nat :=
  match p.acc with
  | .mem bs => (bs.filterMap (fun b => if leavesCore core miss b.1 then some (b.1 / 128) else none)).eraseDups
  | _ => []

/-- Whether a byte's load misses in L1: neither the SQ nor the core's WG view supplies it whole. -/
def loadMiss (s : State) (v : Wave) (core loc : Nat) : Bool :=
  let need := (sqBits loc v.sq.reverse 0xFF 0).1
  need &&& ~~~(cellAt s (viewAt core 0) loc).has != 0

/-- Free entries go to the lines in the order in which the plans, ascending %tid, touch them. -/
def grantLines (lines : List (List Nat)) (free : Nat) : List Nat :=
  ((lines.flatten).eraseDups).take free

/-- The plans performed now, the plans rejected, and the lines that took entries. A thread that gets entries for only some
of its lines is rejected whole and keeps them (entry 52). A thread whose line got its entry is performed though an earlier
thread is rejected (R313's example): atomics on one word share its line, so each still meets the one before (R77). -/
def splitPlans (core : Nat) (miss : Nat → Bool) (free : Nat) (ps : List Plan) : List Plan × List Plan × List Nat :=
  let got := grantLines (ps.map (accLines core miss)) free
  let ok (p : Plan) : Bool := (accLines core miss p).all got.contains
  (ps.filter ok, ps.filter (fun p => !ok p), got)

/-- The path as its memory instruction acts on it; none while the instruction waits for miss-status entries, since its
rejected threads are replayed without it (R119). -/
def memCtx (c : Ctx) : Option Ctx :=
  match c.path.wait with
  | .mshr _ _ _ _ => none
  | _ => some c

/-- Lines that miss in L1: no line of a scratchpad, which L1 does not keep. -/
def l1Lines (lines : List Nat) : List Nat := lines.filter (fun l => !isScrLoc (l * 128))

/-- An instruction takes its miss-status entries; L1MISS counts the lines that a load misses, MSREJECT a rejection (R165). -/
def takeLines (s : State) (c : Ctx) (loads : Bool) (lines got : List Nat) (rejected : Bool) : State :=
  let k := getCore s c.core
  let s1 := setCore s c.core { k with mshr := k.mshr ++ got.map (fun l => (c.w, l)) }
  let s2 := if loads then perfAdd s1 c.core 6 (l1Lines lines).length else s1
  if rejected then perfAdd s2 c.core 7 1 else s2

/-- A wave joins its core's wait list at its first rejection; a listed wave keeps its place (R119). -/
def listWave (w need : Nat) : List MWait → List MWait
  | [] => [⟨w, need⟩]
  | m :: t => if m.wave = w then { m with need := m.need + need } :: t else m :: listWave w need t

/-- Entries of a core that are granted and wait for a replay, and those that a wave still needs. -/
def promised (k : Core) (w : Nat) : Nat :=
  (k.mshr.filter (fun e => e.2 = heldLine)).length + (((k.mwait.find? (fun m => m.wave = w)).map (·.need)).getD 0)

/-- The wave of a path waits for the lines that its rejected plans still need. A core has 64 entries and the head needs at most
64 (R42): where the lines are more, as those of accesses to a PLANES record may be, the wave replays with as many as it can be
granted (entry 52, DESIGN CHOICE). -/
def joinWait (s : State) (c : Ctx) (miss : Nat → Bool) (got : List Nat) (rej : List Plan) : State :=
  let lines := (((rej.map (accLines c.core miss)).flatten).eraseDups.filter (fun l => !got.contains l)).length
  let k := getCore s c.core
  setCore s c.core { k with mwait := listWave c.w (Nat.min lines (64 - promised k c.w)) k.mwait }

/-! Watchpoints (R67). -/

/-- Whether a watchpoint covers an access kind: 1 stores, 2 loads, 3 both; atomics and reductions count as both. -/
def watchKind (ctl : DWord) (kind : Nat) : Bool :=
  let k := (ctl.extractLsb' 0 2).toNat
  match kind with
  | 0 => k = 2 || k = 3
  | 1 => k = 1 || k = 3
  | _ => k != 0

/-- Whether a watchpoint matches one access. -/
def watchHit (addr ctl : DWord) (kind : Nat) (p : Plan) : Bool :=
  let sz := (ctl.extractLsb' 5 3).toNat
  let sp := (ctl.extractLsb' 2 3).toNat
  watchKind ctl kind && sp = p.space &&
    (if sp = 5 then addr.toNat = p.addr
     else
       let lo := addr.toNat / 2 ^ sz * 2 ^ sz
       p.spans.any (fun r => decide (r.1 < lo + 2 ^ sz ∧ lo < r.1 + r.2)))

/-- WATCH becomes pending for the accesses of an instruction; WATCH0 wins. positions are those of the plan. -/
def watchPlans (c : Ctx) (kind : Nat) (ps : List Plan) (all : Bool) (v : Wave) : Wave :=
  if !wWatch c.wave || wTrap c.wave || v.watch.isSome then v
  else
    let hits (a ctl : DWord) : List Nat := (ps.filter (watchHit a ctl kind)).map (·.q)
    let h0 := hits c.wave.csr.watch0a c.wave.csr.watch0c
    let h1 := hits c.wave.csr.watch1a c.wave.csr.watch1c
    let mk (n : Nat) (h : List Nat) : Wave :=
      { v with watch := some { code := 0x13, cls := 4, tval := BitVec.ofNat 64 n,
                               fmask := if all then c.mask else maskOf h, pathB := c.pb } }
    if !h0.isEmpty then mk 0 h0 else if !h1.isEmpty then mk 1 h1 else v

/-! Reading bytes and the flags of an access. -/

/-- A byte as the wave's load takes it; a HOST byte after surprise removal is all ones (R95). -/
def readByte (s : State) (v : Wave) (core loc : Nat) : Byte :=
  if isHostLoc loc && !s.dev.linkUp then
    let (need, acc) := sqBits loc v.sq.reverse 0xFF 0
    acc ||| need
  else loadByte s v.sq core loc

/-- The masked bytes of an access. -/
def readBytes (s : State) (v : Wave) (core : Nat) (bs : List (Nat × Byte)) : List Byte :=
  bs.map (fun b => readByte s v core b.1)

/-- A byte of an access whose newest SQ entry is an atomic still to be performed (R172, R173). -/
def readsAtom (v : Wave) (p : Plan) : Bool :=
  match p.acc with
  | .mem bs => bs.any (fun b => atomAhead v.sq b.1)
  | _ => false

/-- Reads a HOST page. -/
def readsHost (p : Plan) : Bool := match p.acc with | .mem bs => bs.any (fun b => isHostLoc b.1) | _ => false

/-- R381: a graph's access to a HOST page while the link is up. -/
def markHost (s : State) (g : Wg) (locs : List Nat) : State :=
  match rootGraph g.kind with
  | some k => if s.dev.linkUp && locs.any isHostLoc then updGraph s g.part k (fun x => { x with host := true }) else s
  | none => s

/-- The locations of a plan. -/
def planLocs (p : Plan) : List Nat := match p.acc with | .mem bs => bs.map (·.1) | _ => []

/-- The views and TLBs that an access fills, and R381's mark on a graph that touches a HOST page. One set of levels, the
choice's, is filled by the reads of all threads of a step, where R170 lets each value be filled or not (entry 46, DESIGN
CHOICE). -/
def fillPlan (s : State) (c : Ctx) (loads : Bool) (p : Plan) : State :=
  let s1 := if p.space < 2 then tlbFill s c.g.part c.core p.addr else s
  let s2 :=
    if loads then
      match p.acc with
      | .mem bs => fillRead (fixBytes s1 c.wave.sq c.core 0 (bs.map (·.1))) c.wave.sq c.core (bs.map (·.1))
      | _ => s1
    else s1
  markHost s2 c.g (planLocs p)

/-- Flags of WSTAT and RESMASK that the accesses set (R63, R68, R92). all marks every active thread (R306). -/
def accFlags (c : Ctx) (ps : List Plan) (all : Bool) (v : Wave) : Wave :=
  let sp := (ps.filter (fun p => p.acc == .sparse)).map (·.q)
  let v1 := setStatIf v (ps.any (fun p => p.acc == .outside || p.oob)) 1
  if sp.isEmpty then v1 else setRes (setStat v1 2) (if all then c.mask else maskOf sp)

/-- PCIE_LOST for the threads that read a HOST page after surprise removal (R95): pending, because the load returns all
ones as well (entry 12). -/
def lostFault (s : State) (c : Ctx) (ps : List Plan) (all : Bool) (v : Wave) : Wave :=
  if s.dev.linkUp then v
  else
    match ps.filter readsHost with
    | [] => v
    | p :: t =>
      let m := if all then c.mask else maskOf ((p :: t).map (·.q))
      let e := pcieLost (p.addr % 2 ^ 57) m
      { v with faults := v.faults ++ [{ code := e.code, cls := e.cls, tval := e.tval, fmask := e.fmask, pathB := false }] }

/-- ECC for the threads that consume poisoned data (R97): structure, then address, offset or specifier. -/
def poisonCheck (s : State) (c : Ctx) (ps : List Plan) : Except Trap Unit :=
  let hit (p : Plan) : Option SErr := match p.acc with | .mem bs => poisonIn s c.wave.sq c.core 0 bs | _ => none
  match ps.filter (fun p => (hit p).isSome) with
  | [] => .ok ()
  | p :: t => .error (eccTrap (((hit p).map (·.strct)).getD 0) p.addr (maskOf ((p :: t).map (·.q))))

/-- Acquire at a scope (R168, R171): THREAD, WAVE and WG drop nothing. -/
def acquireScope (s : State) (core scope : Nat) : State := acquire s core (scopeLevel scope)

/-- Signed byte offset of the extension word. -/
def extOff (x : FM) : Int := if x.x then x.ext.toInt else 0

/-- Words of an FM instruction (R208). -/
def fmWords (x : FM) : Nat := if x.x then 2 else 1

/-- Check 1 on ORD and SCOPE (R168, R169): the allowed ORD codes. -/
def ordOk (c : Ctx) (x : FM) (allowed : List Nat) : Except Trap Unit :=
  if !allowed.contains x.ord.toNat then .error (illegalOperand x.ord.toNat c.mask)
  else if x.scope = 7 then .error (scopeReserved c.mask)
  else .ok ()

def isAcq (x : FM) : Bool := x.ord.getLsbD 0
def isRel (x : FM) : Bool := x.ord.getLsbD 1

/-- SPACE legality (R74, R221 check 3). -/
def spaceOk (c : Ctx) (x : FM) (allowed : List Nat) : Except Trap Unit :=
  if allowed.contains x.space.toNat then .ok () else .error (illegalOperand x.space.toNat c.mask)

/-- Check 1 of R75 with the sources read: the wave with WSTAT.UR as the reads set it. Registers marked last are released
by the caller once the access is performed. -/
def memCheck1 (c : Ctx) (pre : List (Except Trap Unit)) (srcs : List Src) : Except Trap Wave :=
  match allChecks (pre ++ [parityCheck c srcs]) with
  | .error t => .error t
  | .ok _ => unwrittenCheck c srcs

/-- Mark the release of A: legal on v registers only (R51). -/
def lastOk (c : Ctx) (x : FM) : Except Trap Unit := legal c (!x.l || isVSpec x.a) x.a.toNat

end Sys2Proof.Machine
end

