-- ==== Sys2Proof/Machine/Records.lean ====
section
/-! DEFINITION. Buffer records: fields, checks, element layout, conversion (06_tables.md R124 to R132), and the RING
records of a graph (04_memories.md R85 to R88). -/

namespace Sys2Proof.Machine

/-- A buffer record as read (R124). -/
structure Rec where
  idx : Nat
  base : Nat
  height : Nat
  width : Nat
  res : Nat
  c : Nat
  satf : Bool
  rnd : Rnd
  oob : Nat
  ilv : Nat
  kind : Nat
  enc : Nat
  pitch : Nat
  iscale : Word
  scale : Word
  lth : Nat
  ltw : Nat
  /-- A reserved field is nonzero. -/
  mbz : Bool
  deriving DecidableEq, Repr

/-- The rounding of a store. -/
def rndOf (n : Nat) : Rnd := match n with | 0 => .rne | 1 => .rtz | 2 => .rdn | _ => .rup

/-- The five doublewords of a record. -/
def parseRec (idx : Nat) (w : List DWord) : Rec :=
  let q (i : Nat) : Nat := ((w[i]?).getD 0).toNat
  { idx := idx, base := bits (q 0) 0 57, height := bits (q 1) 32 32, width := bits (q 1) 0 32, res := bits (q 2) 56 8,
    c := bits (q 2) 52 2 + 1, satf := bitN (q 2) 51, rnd := rndOf (bits (q 2) 49 2), oob := bits (q 2) 47 2,
    ilv := bits (q 2) 44 3, kind := bits (q 2) 40 4, enc := bits (q 2) 32 8, pitch := bits (q 2) 0 32,
    iscale := BitVec.ofNat 32 (bits (q 3) 32 32), scale := BitVec.ofNat 32 (bits (q 3) 0 32),
    lth := bits (q 4) 8 8, ltw := bits (q 4) 0 8,
    mbz := bits (q 0) 57 7 != 0 || bits (q 2) 54 2 != 0 || bits (q 4) 16 48 != 0 }

/-- R125, but for the RING checks of R131 and the kinds that an instruction requires. -/
def recBad (r : Rec) : Bool :=
  r.mbz || 4 < r.kind || 2 < r.ilv || r.oob = 3 || 0x0E < r.enc ||
    (r.ilv = 2 && r.enc != 0x0E) || (r.enc = 0x0E && r.ilv != 2) ||
    (r.ilv = 2 && (!(r.kind = 0 || r.kind = 2) || r.width * r.c % 8 != 0)) ||
    (r.ilv = 1 && (r.kind = 0 || r.kind = 3)) || (r.enc = 0x05 && r.ilv = 1 && r.c % 2 = 1)

/-- R131 against the resource of a graph image. -/
def ringBad (im : Image) (r : Rec) : Bool :=
  match im.ress[r.res]? with
  | none => true
  | some e => r.enc != e.enc || r.ltw != e.ltw || r.lth != e.lth || r.width != e.width || r.height != e.height

/-- A COUNT field acts at most as its maximum (R66). -/
def countOf (csr : DWord) (len max : Nat) : Nat := Nat.min (bits csr.toNat 0 len) max

/-- Address of a record (R124). -/
def recAddr (v : Wave) (i : Nat) : Nat := bits v.csr.brtab.toNat 9 48 * 512 + 40 * i

/-- The first byte of a table that fails translation. -/
def tableFault (s : State) (part core va n : Nat) : Nat :=
  ((List.range n).find? (fun i => translate s part core 0 (va + i) == .fault)).map (va + ·) |>.getD va

/-- The words of a table that an instruction reads at issue. An address that fails translation is its PAGE_FAULT (R122);
a word that surprise removal makes all ones is its PCIE_LOST (R95, R382; entry 12), a poisoned one its ECC (R97, entry 28). -/
def issueTable (s : State) (c : Ctx) (va n : Nat) : Except Trap (List DWord) :=
  match tableDwords s c.g.part c.core va n with
  | none => .error (pageFault (tableFault s c.g.part c.core va (8 * n)) 0 c.mask)
  | some w =>
    if tableLost s c.g.part c.core va (8 * n) then .error (pcieLost (va % 2 ^ 57) c.mask)
    else match tablePoison s c.g.part c.core va (8 * n) with | some (st, a) => .error (eccTrap st a c.mask) | none => .ok w

/-- A record read at issue for a wave: index, fields, RING checks (R123, R125). -/
def readRec (s : State) (c : Ctx) (i : Nat) : Except Trap Rec :=
  if countOf c.wave.csr.brtab 9 256 ≤ i then .error (recordBounds (i % 256) c.mask)
  else
    match issueTable s c (recAddr c.wave i) 5 with
    | .error t => .error t
    | .ok w =>
      let r := parseRec i w
      let ring :=
        r.kind = 2 && (match rootGraph c.g.kind with
          | none => false
          | some k => match getGraph s c.g.part k with | some g => ringBad g.image r | none => false)
      if recBad r || ring then .error (recordBounds (i % 256) c.mask) else .ok r

/-- Element size of an encoding in nibbles (R126). -/
def encNibbles (enc : Nat) : Nat :=
  match enc with
  | 0x00 => 8
  | 0x01 => 4
  | 0x02 => 4
  | 0x05 => 1
  | 0x08 => 4
  | 0x09 => 4
  | 0x0A => 8
  | 0x0D => 4
  | _ => 2

/-- Morton index of R86. -/
def morton (x y : Nat) : Nat :=
  x % 2 + 2 * (y % 2) + 4 * (x / 2 % 2) + 8 * (y / 2 % 2) + 16 * (x / 4 % 2) + 32 * (y / 4 % 2)

/-- Channel i (element index times channels, plus channel) from a row's first byte. -/
def elemAt (enc row i : Nat) : Elem :=
  match encNibbles enc with
  | 1 => .nib (row + i / 2) (i % 2 = 1)
  | n => .bytes (row + i * (n / 2)) (n / 2)

/-- Channel i of planes of a number of bytes each. -/
def planeAt (base planeBytes i : Nat) : Elem :=
  .planes ((List.range 8).map (fun p => (base + p * planeBytes + i / 8, i % 8)))

/-- A channel of an element of a BUFFER, IMAGE or LATENT record: byte offsets from BASE (R126). y is 0 for BUFFER. -/
def recElem (r : Rec) (x y ch : Nat) : Elem :=
  if r.kind = 0 then
    if r.ilv = 2 then planeAt 0 (r.width * r.c / 8) (x * r.c + ch) else elemAt r.enc 0 (x * r.c + ch)
  else if r.ilv = 1 then elemAt r.enc (y / 8 * r.pitch) ((64 * (x / 8) + morton x y) * r.c + ch)
  else elemAt r.enc (y * r.pitch) (x * r.c + ch)

/-- A channel of an element of a RING tile: byte offsets in the tile (R86). -/
def ringElem (r : Rec) (x y ch : Nat) : Elem :=
  let tw := 2 ^ r.ltw
  let th := 2 ^ r.lth
  let lx := x % tw
  let ly := y % th
  if r.ilv = 2 then planeAt 0 (tw * th * r.c / 8) ((ly * tw + lx) * r.c + ch)
  else if r.ilv = 1 then elemAt r.enc 0 ((64 * (ly / 8 * (tw / 8) + lx / 8) + morton lx ly) * r.c + ch)
  else elemAt r.enc 0 ((ly * tw + lx) * r.c + ch)

/-- A mask of one bit of a byte. -/
def bitMask (k : Nat) : Byte := (1#8) <<< k

/-- Byte offsets and bits of a channel. -/
def elemBytes : Elem → List (Nat × Byte)
  | .bytes o n => wholeBytes o n
  | .nib o hi => [(o, if hi then 0xF0 else 0x0F)]
  | .planes l => l.map (fun e => (e.1, bitMask e.2))

/-- The raw bits of a channel from the bytes at its offsets. -/
def elemRaw (e : Elem) (at_ : Nat → Byte) : Nat :=
  match e with
  | .bytes o n => natOfBytes ((List.range n).map (fun i => at_ (o + i)))
  | .nib o hi => if hi then (at_ o).toNat / 16 else (at_ o).toNat % 16
  | .planes l => l.foldl (fun acc b => 2 * acc + (if (at_ b.1).getLsbD b.2 then 1 else 0)) 0

/-- The bytes that store raw bits: offset, bits, value. -/
def elemPut (e : Elem) (raw : Nat) : List (Nat × Byte × Byte) :=
  match e with
  | .bytes o n => ((bytesOf n raw).zipIdx).map (fun b => (o + b.2, 0xFF, b.1))
  | .nib o hi => [(o, if hi then 0xF0 else 0x0F, BitVec.ofNat 8 (if hi then raw * 16 else raw))]
  | .planes l => (l.zipIdx).map (fun b => (b.1.1, bitMask b.1.2, if raw.testBit (7 - b.2) then bitMask b.1.2 else 0))

/-- Bytes of several channels with equal offsets joined, so that an SQ entry names each location once. -/
def joinBytes (l : List (Nat × Byte × Byte)) : List (Nat × Byte × Byte) :=
  l.foldl (fun acc b =>
    match acc.find? (fun a => a.1 = b.1) with
    | some _ => acc.map (fun a => if a.1 = b.1 then (a.1, a.2.1 ||| b.2.1, mergeBits a.2.2 b.2.2 b.2.1) else a)
    | none => acc ++ [b]) []

def joinMasks (l : List (Nat × Byte)) : List (Nat × Byte) :=
  (joinBytes (l.map (fun b => (b.1, b.2, 0)))).map (fun b => (b.1, b.2.1))

/-- The exact value of raw bits under an encoding, with a divisor (255, 127, 65535) for the normalised ones (R126). -/
def decodeEnc (enc raw : Nat) : Num × Nat :=
  match enc with
  | 0x00 => (decodeF fmtF32 raw, 1)
  | 0x01 => (decodeF fmtF16 raw, 1)
  | 0x02 => (decodeF fmtBf16 raw, 1)
  | 0x03 => (decodeF fmtE4m3 raw, 1)
  | 0x04 => (decodeF fmtE5m2 raw, 1)
  | 0x05 => (decodeF fmtE2m1 raw, 1)
  | 0x06 => (.ofInt (sextN 8 raw), 1)
  | 0x07 => (.ofInt raw, 1)
  | 0x08 => (.ofInt (sextN 16 raw), 1)
  | 0x09 => (.ofInt raw, 1)
  | 0x0A => (.ofInt (sextN 32 raw), 1)
  | 0x0B => (.ofInt raw, 255)
  | 0x0C => (.ofInt (clampI (-127) 127 (sextN 8 raw)), 127)
  | 0x0D => (.ofInt raw, 65535)
  | _ => (.ofInt (sextN 8 raw), 1)

/-- A value over a whole divisor. -/
def overNat (x : Num) (d : Nat) : Num :=
  match x with
  | .fin neg m e => if d = 1 || m = 0 then x else divMag neg m e d 0
  | _ => x

/-- Load conversion (R128). -/
def loadConv (r : Rec) (raw : Nat) : Word :=
  if r.enc = 0x0A then BitVec.ofNat 32 raw
  else
    let (x, d) := decodeEnc r.enc raw
    rne32 (overNat (x.mul (f32 r.scale)) d)

/-- A value clamped to lo..1 and multiplied by n, rounded to an integer; NaN stores 0 (R129). -/
def normInt (mode : Rnd) (lo : Num) (n : Nat) (y : Num) : Int :=
  match y with
  | .nan => 0
  | _ =>
    let z := if y.lt lo then lo else if Num.one.lt y then .one else y
    toIntSat mode (-(n : Int)) n (z.mul (.ofInt n))

/-- An integer's low bits. -/
def rawInt (n : Nat) (x : Int) : Nat := (x % (2 ^ n : Nat)).toNat

/-- Store conversion (R129). -/
def storeConv (r : Rec) (v : Word) : Nat :=
  let y := (f32 v).mul (f32 r.iscale)
  match r.enc with
  | 0x0A => v.toNat
  | 0x00 => encodeF fmtF32 r.rnd r.satf y
  | 0x01 => encodeF fmtF16 r.rnd r.satf y
  | 0x02 => encodeF fmtBf16 r.rnd r.satf y
  | 0x03 => encodeF fmtE4m3 r.rnd true y
  | 0x04 => encodeF fmtE5m2 r.rnd r.satf y
  | 0x05 => encodeF fmtE2m1 r.rnd true y
  | 0x06 => rawInt 8 (toIntSat r.rnd (-128) 127 y)
  | 0x07 => rawInt 8 (toIntSat r.rnd 0 255 y)
  | 0x08 => rawInt 16 (toIntSat r.rnd (-32768) 32767 y)
  | 0x09 => rawInt 16 (toIntSat r.rnd 0 65535 y)
  | 0x0B => rawInt 8 (normInt r.rnd .zero 255 y)
  | 0x0C => rawInt 8 (normInt r.rnd (.fin true 1 0) 127 y)
  | 0x0D => rawInt 16 (normInt r.rnd .zero 65535 y)
  | _ => rawInt 8 (toIntSat r.rnd (-128) 127 y)

/-! Locating an element (R127, R87). -/

/-- Coordinates after the element offset of the extension: x and y, or the index and 0 for BUFFER. -/
def elemXY (r : Rec) (operand ext : Word) : Int × Int :=
  if r.kind = 0 then ((((operand.toNat + bits ext.toNat 8 24) % 2 ^ 32 : Nat) : Int), 0)
  else
    ((bits operand.toNat 0 16 : Int) + sextN 12 (bits ext.toNat 8 12),
     (bits operand.toNat 16 16 : Int) + sextN 12 (bits ext.toNat 20 12))

/-- Whether coordinates lie outside a record. -/
def recOutside (r : Rec) (x y : Int) : Bool :=
  if r.kind = 0 then !decide (0 ≤ x ∧ x < (r.width : Int))
  else !decide (0 ≤ x ∧ x < (r.width : Int) ∧ 0 ≤ y ∧ y < (r.height : Int))

/-- Whether a record has an element to clamp to. -/
def recEmpty (r : Rec) : Bool := r.width = 0 || (r.kind != 0 && r.height = 0)

/-- What an element operand names. -/
inductive Where where
  /-- An element at coordinates; oob when it was clamped. -/
  | elem (x y : Nat) (oob : Bool)
  | outside
  /-- RECORD_BOUNDS at check 4. -/
  | fault
  deriving DecidableEq, Repr

/-- The element of a load or a store after the record's OOB mode (R127). -/
def whereElem (r : Rec) (store : Bool) (x y : Int) : Where :=
  if !recOutside r x y then .elem x.toNat y.toNat false
  else if r.oob = 2 then .fault
  else if r.oob = 1 && !store && !recEmpty r then
    .elem (clampI 0 ((r.width : Int) - 1) x).toNat
      (if r.kind = 0 then 0 else (clampI 0 ((r.height : Int) - 1) y).toNat) true
  else .outside

/-- A tile of a resource of a graph (R156). -/
def tileAt (g : Graph) (res tx ty : Nat) : Option TileSt :=
  match g.image.ress[res]?, g.ress[res]? with
  | some e, some r => r.tiles[ty * ((e.width + 2 ^ e.ltw - 1) / 2 ^ e.ltw) + tx]?
  | _, _ => none

/-- A pass of a graph writes a resource (R141). -/
def passWrites (g : Graph) (p res : Nat) : Bool := ((g.image.passes[p]?).map (fun e => e.writes.contains res)).getD false

/-- A pass reads a tile of a resource from a task's tile (R87). -/
def passReads (g : Graph) (p res : Nat) (tilex tiley tx ty : Nat) : Bool :=
  g.image.stens.any (fun e => e.pass = p && e.res = res &&
    decide ((tilex : Int) + e.dx = (tx : Int)) && decide ((tiley : Int) + e.dy = (ty : Int)))

/-- The task of a wave's root. -/
def rootTaskOf (g : Graph) (k : WgKind) : Option Task :=
  match rootTask k with
  | some (_, p, t) => match g.passes[p]? with | some ps => tabGet? ps.tasks t | none => none
  | none => none

/-- Why a RING access is not allowed (R87). -/
inductive RingRule where
  | ok
  | undecl
  | closed
  deriving DecidableEq, Repr

def ringRule (s : State) (g : Wg) (r : Rec) (store : Bool) (tx ty : Nat) : RingRule :=
  match rootTask g.kind with
  | none => .undecl
  | some (k, p, _) =>
    match getGraph s g.part k with
    | none => .undecl
    | some gr =>
      let own := tx = g.tilex && ty = g.tiley
      if store then
        if passWrites gr p r.res && own then
          (match rootTaskOf gr g.kind with
           | some t => if t.closing || t.closed then .closed else .ok
           | none => .ok)
        else .undecl
      else if passReads gr p r.res g.tilex g.tiley tx ty || (passWrites gr p r.res && own) then .ok
      else .undecl

/-- Where a tile's bytes lie: a ring slot's location, an overflow tile's virtual address, or nowhere yet. -/
inductive TileMem where
  | slot (loc : Nat)
  | ov (va : Nat)
  | empty
  | freed
  deriving DecidableEq, Repr

def tileMem (s : State) (g : Wg) (r : Rec) (tx ty : Nat) : TileMem :=
  match rootGraph g.kind with
  | none => .empty
  | some k =>
    match getGraph s g.part k with
    | none => .empty
    | some gr =>
      match tileAt gr r.res tx ty, gr.image.ress[r.res]? with
      | some t, some e =>
        match t.st, t.store with
        | .freed, _ => .freed
        | _, some (false, n) => .slot (locRing g.part k r.res (n * e.tileBytes))
        | _, some (true, n) => .ov (gr.image.ovbase + e.ovOff + n * e.tileBytes)
        | _, none => .empty
      | _, _ => .empty

/-- The bytes of channels, moved to the locations of a translated range; a page that is sparse makes the whole access
sparse. -/
def translateBytes (s : State) (c : Ctx) (kind base : Nat) (bs : List (Nat × Byte)) : Acc :=
  let l := bs.map (fun b => (translate s c.g.part c.core kind (base + b.1), b.2))
  if l.any (fun e => e.1 == .sparse) then .sparse
  else .mem (l.filterMap (fun e => match e.1 with | .ok loc => some (loc, e.2) | _ => none))

/-- The same for an engine, which reads zero bytes of a sparse page and writes nothing there, byte by byte (R92). -/
def engineBytes (s : State) (c : Ctx) (kind base : Nat) (bs : List (Nat × Byte)) : List (Nat × Byte) :=
  bs.filterMap (fun b => match translate s c.g.part c.core kind (base + b.1) with
    | .ok loc => some (loc, b.2)
    | .sparse => some (locNone, b.2)
    | .fault => none)

/-- The first address of a range that fails translation. -/
def faultIn (s : State) (c : Ctx) (kind base : Nat) (bs : List (Nat × Byte)) : Option Nat :=
  (bs.find? (fun b => translate s c.g.part c.core kind (base + b.1) == .fault)).map (fun b => base + b.1)

/-- An element's channels: offsets, with the base they count from (virtual, or a ring location). -/
structure Located where
  elems : List Elem
  /-- Virtual base, when the access is translated. -/
  va : Option Nat
  /-- Ring base. -/
  loc : Nat
  tile : Option TileMem
  deriving DecidableEq, Repr

/-- The channels of an element, nch of them. -/
def locate (s : State) (g : Wg) (r : Rec) (nch x y : Nat) : Located :=
  if r.kind = 2 then
    let el := (List.range nch).map (ringElem r x y)
    let t := tileMem s g r (x / 2 ^ r.ltw) (y / 2 ^ r.lth)
    match t with
    | .slot l => ⟨el, none, l, some t⟩
    | .ov va => ⟨el, some va, 0, some t⟩
    | _ => ⟨el, none, 0, some t⟩
  else ⟨(List.range nch).map (recElem r x y), some r.base, 0, none⟩

/-- Bytes of all channels. -/
def Located.bytes (l : Located) : List (Nat × Byte) := joinMasks ((l.elems.map elemBytes).flatten)

/-- What a located element reaches. -/
def locatedAcc (s : State) (c : Ctx) (kind : Nat) (l : Located) : Acc :=
  match l.tile, l.va with
  | some .empty, _ => .empty
  | some .freed, _ => .freed
  | _, some va => translateBytes s c kind va l.bytes
  | _, none => .mem (l.bytes.map (fun b => (l.loc + b.1, b.2)))

/-- What a located element reaches for an engine. -/
def engineAcc (s : State) (c : Ctx) (kind : Nat) (l : Located) : Acc :=
  match l.tile, l.va with
  | some .empty, _ => .empty
  | some .freed, _ => .freed
  | _, some va => .mem (engineBytes s c kind va l.bytes)
  | _, none => .mem (l.bytes.map (fun b => (l.loc + b.1, b.2)))

/-- Some byte lies on a sparse page. -/
def anySparse (bs : List (Nat × Byte)) : Bool := bs.any (fun b => b.1 = locNone)

/-- Checks 4, 5 and 6 of R75 on a record access by every thread, and what each thread reaches, with its elements. RING_UNDECL
and TILE_CLOSED are one check: TFMASK holds every thread that fails either, and the lowest %tid among them gives the cause
and TVAL (entry 51). -/
def planRec (s : State) (c : Ctx) (r : Rec) (nch kind : Nat) (operand : Nat → Word) (ext : Word) :
    Except Trap (List (Plan × Option Located)) :=
  let store := kind = 1
  let wh (q : Nat) : Where := let (x, y) := elemXY r (operand q) ext; whereElem r store x y
  let tile (q : Nat) : Option (Nat × Nat) :=
    match wh q with | .elem x y _ => if r.kind = 2 then some (x / 2 ^ r.ltw, y / 2 ^ r.lth) else none | _ => none
  let loc (q : Nat) : Option Located :=
    match wh q with | .elem x y _ => some (locate s c.g r nch x y) | _ => none
  let ring : Except Trap Unit :=
    checkThreads c (fun q =>
      match tile q with
      | some (tx, ty) =>
        let tv := r.res % 256 + tx % 256 * 256 + ty % 256 * 65536
        (match ringRule s c.g r store tx ty with
         | .ok => none
         | .undecl => some tv
         | .closed => some (tv + 2 ^ 24))
      | none => none)
      (fun t m => if t < 2 ^ 24 then ringUndecl (t % 256) (t / 256 % 256) (t / 65536) m
        else tileClosed (t % 256) (t / 256 % 256) (t / 65536 % 256) m)
  let checks : List (Except Trap Unit) := [
    checkThreads c (fun q => if wh q == .fault then some r.idx else none) recordBounds,
    ring,
    checkThreads c (fun q =>
      match loc q with
      | some l => match l.va with
        | some va => if l.tile == some .empty then none else walkEcc s c (l.bytes.map (fun b => va + b.1))
        | none => none
      | none => none) walkTrap,
    checkThreads c (fun q =>
      match loc q with
      | some l => match l.va with | some va => if l.tile == some .empty then none else faultIn s c kind va l.bytes | none => none
      | none => none) (fun t m => pageFault t kind m)]
  match allChecks checks with
  | .error t => .error t
  | .ok _ =>
    .ok ((byTid c.wave c.mask).map (fun q =>
      match wh q, loc q with
      | .elem x y oob, some l =>
        let first := ((l.bytes.map (·.1)).foldl Nat.min (((l.bytes.map (·.1)).headD 0)))

        ({ q := q, acc := locatedAcc s c kind l, space := if r.kind = 2 then 5 else 0,
           addr := if r.kind = 2 then r.res % 256 + x / 2 ^ r.ltw * 256 + y / 2 ^ r.lth * 65536 else r.base + first,
           spans := l.bytes.map (fun b => (r.base + b.1, 1)), oob := oob }, some l)
      | _, _ => ({ q := q, acc := .outside, space := 7, addr := 0, spans := [], oob := true }, none)))

/-- The raw bits of a channel from the bytes an access read. bs lists the access's offsets in the order of its locations. -/
def rawFrom (e : Elem) (offs : List (Nat × Byte)) (vals : List Byte) : Nat :=
  elemRaw e (fun o => ((offs.zip vals).find? (fun x => x.1.1 = o)).map (·.2) |>.getD 0)

end Sys2Proof.Machine
end

