-- ==== Sys2Proof/Machine/WordTests.lean ====
section
/-! DEFINITION. The tests of WAITA and WAITAE (14_isa_memory.md R315, 08_ordering.md R178): each a load with acquire, which
needs a miss-status entry like any other (05_queues.md R119). -/

namespace Sys2Proof.Machine

/-- A test of a wait: position, address, location or none, comparison value. -/
abbrev WordTest := Nat × Nat × Option Nat × Word

/-- The location that a wait's thread tests: none where the test reads zero. -/
def testLoc (p : Plan) : Option Nat :=
  match p.acc with
  | .mem bs => some ((bs.map (·.1)).headD 0)
  | _ => none

/-- The value of a test (R315). -/
def testVal (s : State) (c : Ctx) (loc : Option Nat) : Word :=
  match loc with
  | some l => BitVec.ofNat 32 (natOfBytes (readBytes s c.wave c.core (wholeBytes l 4)))
  | none => 0

/-- A test's condition. -/
def testMet (eq : Bool) (x t : Word) : Bool := if eq then x == t else uLe t x

/-- Words of the instruction at a path's PC, from its fetched clause. -/
def wordsAt (x : Path) : Nat :=
  match x.code with
  | some cl => sizeOf (headClass cl.head) ((cl.words[(x.pc - cl.base) / 4 - 1]?).getD 0)
  | none => 1

/-- A thread of a wait tests a word of a sparse page or outside its window: flags at every test (R315). The test's
location is gone, so the flag is the one its space gives. -/
def retestFlags (space : Nat) (qs : List Nat) (v : Wave) : Wave :=
  if qs.isEmpty then v else if space < 2 then setRes (setStat v 2) (maskOf qs) else setStat v 1

/-- The SPACE field of the instruction word at a path's PC. -/
def spaceAt (x : Path) : Nat :=
  match x.code with
  | some cl => bits ((cl.words[(x.pc - cl.base) / 4 - 1]?).getD 0).toNat 22 3
  | none => 0

/-- Registers that a wait's end releases for the path's threads. -/
def dropRegs (c : Ctx) (l : List Nat) (v : Wave) : Wave :=
  (positions c.mask).foldl (fun v q => l.foldl (fun v r => dropVReg v q r) v) v

/-- A PCIE_LOST is pending. -/
def lostPending (v : Wave) : Bool := v.faults.any (fun p => p.code = 0x16)

/-- The access that a test makes: its word, in one load. -/
def testPlan (t : WordTest) : Plan :=
  { q := t.1, acc := match t.2.2.1 with | some l => .mem (wholeBytes l 4) | none => .sparse, space := 0, addr := t.2.1,
    spans := [], oob := false }

/-- A test reads a word of a HOST page. -/
def testHost (t : WordTest) : Bool := match t.2.2.1 with | some l => isHostLoc l | none => false

/-- What a thread's read of its word does: it corrects single-bit errors (R97), fills views (R170), and marks a graph that
reaches the host (R381). -/
def readTest (s : State) (c : Ctx) (l : Nat) : State :=
  let bs := (List.range 4).map (l + ·)
  markHost (fillRead (fixBytes s c.wave.sq c.core 0 bs) c.wave.sq c.core bs) c.g bs

/-- The tests of some threads in ascending %tid, each a load with acquire at the wait's scope (R178), and those whose
condition does not hold yet. -/
def makeTests (eq : Bool) (scope : Nat) (c : Ctx) (s : State) (tests : List WordTest) : State × List WordTest :=
  tests.foldl (fun acc t =>
    (acquireScope (match t.2.2.1 with | some l => readTest acc.1 c l | none => acc.1) c.core scope,
      if testMet eq (testVal acc.1 c t.2.2.1) t.2.2.2 then acc.2 else acc.2 ++ [t])) (s, [])

/-- Tests of a path's wait are made: due are those made now, rej the positions that wait for miss-status entries. The flags of
R315 and the PCIE_LOST of a HOST word after surprise removal, which outside trap mode is taken before the path goes on (R95);
then the path resumes when no test is left, its last reads released, or waits on. put places the path. -/
def runTests (s : State) (c : Ctx) (eq : Bool) (scope : Nat) (last : List Nat) (tests due : List WordTest) (rej : List Nat)
    (put : Path → Wave → Wave) : State :=
  let host := due.filter testHost
  let lost := !host.isEmpty && !s.dev.linkUp
  let flag (v : Wave) : Wave := retestFlags (spaceAt c.path) ((due.filter (fun t => t.2.2.1.isNone)).map (·.1)) v
  let fault (v : Wave) : Wave :=
    if lost && !lostPending v then
      let e := pcieLost (((host.head?.map (·.2.1)).getD 0) % 2 ^ 57) (maskOf (host.map (·.1)))
      { v with faults := v.faults ++ [{ code := e.code, cls := e.cls, tval := e.tval, fmask := e.fmask, pathB := false }] }
    else v
  let (s1, fail) := makeTests eq scope c (updWave s c.w (fun v => fault (flag v))) due
  let left := if lost && !wTrap c.wave then tests else tests.filter (fun t => rej.contains t.1 || fail.contains t)
  updWave s1 c.w (fun v =>
    if left.isEmpty then dropRegs c last (stepPend (stepArmed c.wave) c.pb (put (stepPath c.path (wordsAt c.path)) v))
    else put { c.path with wait := .waita eq scope last left rej } v)

end Sys2Proof.Machine
end

