-- ==== Sys2Proof/Machine/Loads.lean ====
section
/-! DEFINITION. Loads: LD.*, LDU, LDR (14_isa_memory.md R305 to R307). -/

namespace Sys2Proof.Machine

/-- The value of n bytes that an access reads; what the spec does not state is free. -/
def accNat (s : State) (v : Wave) (core : Nat) (a : Acc) : Nat :=
  match a with
  | .mem bs => natOfBytes (readBytes s v core bs)
  | .freed => (Config.freeWord s.fresh).toNat
  | _ => 0

/-- A v register destination of n registers: aligned, within the count (R302). -/
def loadDst (c : Ctx) (t : Reg) (n : Nat) : Bool := vRange c.g t n && t.toNat % n = 0

/-- Write n consecutive v registers of a position from 32-bit pieces of a value. -/
def putRegs (v : Wave) (q r n x : Nat) : Wave :=
  (List.range n).foldl (fun v i => setVReg v q (r + i) (BitVec.ofNat 32 (x / 2 ^ (32 * i)))) v

/-- The form FULL for n registers (R304). -/
def fullForm (v : Wave) (r n : Nat) : Wave := (List.range n).foldl (fun v i => setForm v (r + i) none) v

/-- The access of a plan, with no record and no data. -/
def accessOf (p : Plan) : Access := { plan := p, elems := [], offs := [], data := [], b := 0, c := 0 }

/-- The access of a record's element. -/
def recAccess (e : Plan × Option Located) : Access :=
  match e.2 with
  | some l => { accessOf e.1 with elems := l.elems, offs := l.bytes }
  | none => accessOf e.1

/-- Sign extension of n bits to 32, as a natural number. -/
def sextNat (n x : Nat) : Nat := (sext32 n x).toNat

/-- Consecutive v registers of a position, each of its own value. -/
def putWords (v : Wave) (q r n : Nat) (f : Nat → Word) : Wave :=
  (List.range n).foldl (fun v i => setVReg v q (r + i) (f i)) v

/-- Channel i of a thread's element as a record load of nch channels gives it (R128, R130); zero beyond them. -/
def recChannel (s : State) (c : Ctx) (r : Rec) (nch : Nat) (a : Access) (i : Nat) : Word :=
  match a.plan.acc with
  | .mem bs =>
    match a.elems[i]? with
    | some e => loadConv r (rawFrom e a.offs (readBytes s c.wave c.core bs))
    | none => 0
  | .freed => if i < nch then Config.freeWord (s.fresh + a.plan.q * 4 + i) else 0
  | _ => 0

/-! What a memory instruction does (R119): its accesses, made at its issue or, where rejected, at its replay. -/

/-- Made once for the wave. -/
def MemAct.isOnce : MemAct → Bool
  | .once _ => true
  | .store o => o
  | _ => false

def MemAct.isLoad : MemAct → Bool
  | .load _ _ => true
  | .loadRec _ _ _ => true
  | .once _ => true
  | _ => false

def MemAct.isAtom : MemAct → Bool
  | .atom _ _ _ => true
  | _ => false

/-- The access kind of R75. -/
def MemAct.kind : MemAct → Nat
  | .store _ => 1
  | .atom _ _ _ => 2
  | _ => 0

/-- The v registers that it writes in each thread. -/
def MemAct.regs : MemAct → Nat
  | .load n _ => n
  | .loadRec n _ _ => n
  | .atom _ wide ret => if ret then (if wide then 2 else 1) else 0
  | _ => 0

/-- The registers that accesses write at once; an atomic outside its window or on a sparse page returns zero. -/
def accWave (s : State) (c : Ctx) (act : MemAct) (x : FM) (as : List Access) (v : Wave) : Wave :=
  match act with
  | .load n sx =>
    as.foldl (fun v a => putRegs v a.plan.q x.t.toNat n
      ((if sx = 0 then id else sextNat sx) (accNat s c.wave c.core a.plan.acc))) v
  | .loadRec n nch recd =>
    as.foldl (fun v a => putWords v a.plan.q x.t.toNat n (recChannel s c (parseRec 0 recd) nch a)) v
  | .once wide =>
    match as with
    | [] => v
    | a :: _ => writeDst c v x.t wide none (fun _ => BitVec.ofNat 64 (accNat s c.wave c.core a.plan.acc))
  | .store _ => v
  | .atom _ wide ret =>
    as.foldl (fun v a => match a.plan.acc with
      | .mem _ => v
      | _ => if ret then putRegs v a.plan.q x.t.toNat (if wide then 2 else 1) 0 else v) v

/-- The SQ entries of one access. -/
def accQueue (c : Ctx) (act : MemAct) (x : FM) (grp : Nat) (a : Access) (s : State) : State :=
  match a.plan.acc with
  | .mem bs =>
    match act with
    | .store _ => a.data.foldl (fun s b => appendSq s c.w grp .store b x.scope.toNat (isRel x) false a.plan.addr) s
    | .atom op wide ret =>
      appendSq s c.w grp (.atom op wide a.b a.c (if ret then some (x.t.toNat, tidAt c.wave a.plan.q) else none))
        (bs.map (fun b => (b.1, b.2, 0))) x.scope.toNat (isRel x) (isAcq x) a.plan.addr
    | _ => s
  | _ => s

/-- Make accesses: v is the wave as the instruction has left it so far. Loads read, stores and atomics enter the SQ, one
entry or more per thread in ascending %tid. -/
def makeAccesses (s : State) (c : Ctx) (act : MemAct) (x : FM) (grp : Nat) (as : List Access) (v : Wave) : State :=
  let ps := as.map (·.plan)
  let v1 := accWave s c act x as v
  let v2 := if act.isLoad then lostFault s c ps act.isOnce v1 else v1
  let s1 := ps.foldl (fun s p => fillPlan s c act.isLoad p) (setWave s c.w v2)
  let s2 := as.foldl (fun s a => accQueue c act x grp a s) s1
  if act.isLoad then { s2 with fresh := s2.fresh + 256 } else s2

/-- The end of a memory instruction, all of whose accesses are made: an acquiring load acquires, an atomic with ACQ or AR
waits until its entries have been performed (R313). put places the path. -/
def endAccess (s : State) (c : Ctx) (act : MemAct) (x : FM) (grp : Nat) (put : Path → Wave → Wave) : State :=
  if act.isAtom && isAcq x && ((getWave s c.w).map (fun v => v.sq.any (fun e => e.grp = grp))).getD false then
    updWave s c.w (put { c.path with wait := .atom grp s.seq })
  else
    updWave (if act.isLoad && isAcq x then acquireScope s c.core x.scope.toNat else s) c.w
      (fun v => stepPend (stepArmed c.wave) c.pb (put (stepPath c.path (fmWords x)) v))

/-- The issue of a memory instruction whose checks have passed (R119): flags, WATCH and last reads for every thread; the
accesses that get miss-status entries are made, and the others wait for theirs. -/
def beginAccess (s : State) (c : Ctx) (act : MemAct) (x : FM) (as : List Access) (srcs : List Src) (v0 : Wave) : State :=
  let ps := as.map (·.plan)
  let miss : Nat → Bool := if act.isLoad then loadMiss s c.wave c.core else fun _ => true
  let (_, rej, got) := splitPlans c.core miss (64 - (getCore s c.core).mshr.length) ps
  let now := as.filter (fun a => !(rej.map (·.q)).contains a.plan.q)
  let v1 := watchPlans c act.kind ps act.isOnce (accFlags c ps act.isOnce (fullForm (releaseSrcs c srcs v0) x.t.toNat act.regs))
  let s1 := makeAccesses (takeLines s c act.isLoad ((ps.map (accLines c.core miss)).flatten).eraseDups got (!rej.isEmpty))
    c act x s.seq now v1
  if rej.isEmpty then endAccess s1 c act x s.seq (fun p v => setPath v c.pb p)
  else hold { joinWait s1 c miss got rej with seq := (joinWait s1 c miss got rej).seq + 1 } c
    (.mshr act x s.seq (as.filter (fun a => (rej.map (·.q)).contains a.plan.q)))

/-! Replays. -/

/-- The paths of a wave with the depth of their entry, deepest last. -/
def deepPaths (v : Wave) : List (Nat × Bool × Path) :=
  match v.stack with
  | [] => [(0, false, v.base)]
  | l => (l.zipIdx).flatMap (fun e => [(l.length - e.2, false, e.1.a), (l.length - e.2, true, e.1.b)])

/-- Poison that a replay of some accesses consumes is a fault at completion (R97; entry 28). -/
def replayEcc (s : State) (c : Ctx) (ps : List Plan) (t : State) : State :=
  match poisonCheck s c ps with
  | .ok _ => t
  | .error e => pendFault t c.w e

/-- The replay of a path's rejected threads, and its end: of a memory instruction, or of a wait's tests. -/
def replayPath (s : State) (w depth : Nat) (pb : Bool) : State :=
  match getWave s w with
  | none => s
  | some v =>
    match getWg s v.wg, (deepPaths v).find? (fun e => e.1 = depth && e.2.1 = pb) with
    | some g, some (_, _, p) =>
      let c : Ctx := { w := w, wave := v, g := g, pb := pb, path := p, mask := activeMask v p }
      let put (p : Path) (v : Wave) : Wave := updPathAt v depth pb (fun _ => p)
      match p.wait with
      | .mshr act x grp todo =>
        endAccess (replayEcc s c (if act.isLoad then todo.map (·.plan) else []) (makeAccesses s c act x grp todo v)) c act x grp put
      | .waita eq scope last tests rej =>
        let due := tests.filter (fun t => rej.contains t.1)
        if due.isEmpty then s
        else replayEcc s c (due.map testPlan) (runTests s c eq scope last tests due [] put)
      | _ => s
    | _, _ => s

/-- The accesses that a wave has still to replay. -/
def replays (v : Wave) : List Plan :=
  (deepPaths v).flatMap (fun e => match e.2.2.wait with
    | .mshr _ _ _ todo => todo.map (·.plan)
    | .waita _ _ _ tests rej => (tests.filter (fun t => rej.contains t.1)).map testPlan
    | _ => [])

/-- The head of the wait list replays once it holds entries for all its rejected lines, unless it is frozen or must wait for
an atomic's value, and leaves the list. -/
def replayHead (s : State) (core : Nat) : State :=
  let k := getCore s core
  match k.mwait with
  | [] => s
  | m :: t =>
    match getWave s m.wave with
    | none => setCore s core { k with mwait := t }
    | some v =>
      if m.need != 0 || v.frozen || (replays v).any (readsAtom v) then s
      else
        let use (e : Nat × Nat) : Nat × Nat := if e.1 = m.wave && e.2 = heldLine then (e.1, usedLine) else e
        (deepPaths v).foldl (fun s e => replayPath s m.wave e.1 e.2.1)
          (setCore s core { k with mwait := t, mshr := k.mshr.map use })

/-- Grant a freed entry to the first wave of a wait list that needs one. -/
def grantFirst : List MWait → Option (Nat × List MWait)
  | [] => none
  | m :: t =>
    if m.need = 0 then (grantFirst t).map (fun r => (r.1, m :: r.2)) else some (m.wave, { m with need := m.need - 1 } :: t)

/-- MSHR_RELEASE (R119): entry i of a core is freed and granted to the head of the wait list; an entry granted and not yet
used stays. The head then replays when it can. -/
def execMshrRelease (core i : Nat) (s : State) : Answer :=
  let k := getCore s core
  let s1 :=
    match k.mshr[i]? with
    | none => s
    | some e =>
      if e.2 = heldLine && k.mwait.any (fun m => m.wave = e.1) then s
      else
        match grantFirst k.mwait with
        | none => setCore s core { k with mshr := k.mshr.eraseIdx i }
        | some (w, l) => setCore s core { k with mshr := k.mshr.set i (w, heldLine), mwait := l }
  .next (replayHead s1 core)

/-- A load whose bytes an atomic still to be performed will write waits for it (R172). -/
def waitAtom (s : State) (c0 : Ctx) : State := hold s c0 .stall

/-- The checks of a per-lane load of n bytes into regs registers, in R75's order: the wave as its reads leave it, and what
each thread reaches. -/
def loadCheck (s : State) (c : Ctx) (x : FM) (n regs : Nat) : Except Trap (Wave × List Plan) :=
  match memCheck1 c [legal c (loadDst c x.t regs) x.t.toNat, legal c (addrOk c x.space.toNat x.a) x.a.toNat, lastOk c x,
      spaceOk c x [0, 1, 2, 3, 4], ordOk c x [0, 1]] [addrSrc x.space.toNat x.a x.l] with
  | .error t => .error t
  | .ok v0 =>
    match planSpace s c x.space.toNat n 0 true true
        (fun q => formAddr c x.space.toNat x.a (extOff x) q (tidAt c.wave q)) with
    | .error t => .error t
    | .ok ps =>
      match poisonCheck s c ps with
      | .error t => .error t
      | .ok _ => .ok (v0, ps)

/-- A per-lane load of n bytes into regs registers, sign-extended from sx bits unless sx is 0 (R305). -/
def loadLane (s : State) (x : FM) (n regs sx : Nat) : Answer :=
  issue s fun c0 =>
    match memCtx c0 with
    | none => .ok s
    | some c =>
      match loadCheck s c x n regs with
      | .error t => .error t
      | .ok (v0, ps) =>
        if ps.any (readsAtom c.wave) then .ok (waitAtom s c0)
        else .ok (beginAccess s c (.load regs sx) x (ps.map accessOf) [addrSrc x.space.toNat x.a x.l] v0)

/-- LD.B. -/
def execLdB (x : FM) (s : State) : Answer := loadLane s x 1 1 0
/-- LD.SB. -/
def execLdSb (x : FM) (s : State) : Answer := loadLane s x 1 1 8
/-- LD.H. -/
def execLdH (x : FM) (s : State) : Answer := loadLane s x 2 1 0
/-- LD.SH. -/
def execLdSh (x : FM) (s : State) : Answer := loadLane s x 2 1 16
/-- LD.W. -/
def execLdW (x : FM) (s : State) : Answer := loadLane s x 4 1 0
/-- LD.D. -/
def execLdD (x : FM) (s : State) : Answer := loadLane s x 8 2 0
/-- LD.Q. -/
def execLdQ (x : FM) (s : State) : Answer := loadLane s x 16 4 0

/-- A fault of an access made once for the wave is every active thread's (R306). -/
def forAll (c : Ctx) {α : Type} (e : Except Trap α) : Except Trap α :=
  match e with
  | .error t => .error { t with fmask := c.mask }
  | .ok a => .ok a

/-- The path with only its thread of lowest %tid. -/
def lowCtx (c : Ctx) : Ctx := { c with mask := posBit (lowestTid c.wave c.mask) }

/-- The checks of a load made once for the wave (R306): T is an s register, or a pair. -/
def loadOnceCheck (s : State) (c : Ctx) (x : FM) (n : Nat) (wide : Bool) : Except Trap (Wave × List Plan) :=
  match memCheck1 c [legal c (isSSpec x.t && dstOk c.g x.t wide) x.t.toNat,
      legal c (addrOk c x.space.toNat x.a && heldOnce x.a) x.a.toNat, lastOk c x, spaceOk c x [0, 1, 2, 3, 4],
      ordOk c x [0, 1]] [addrSrc x.space.toNat x.a false] with
  | .error t => .error t
  | .ok v0 =>
    match forAll c (planSpace s (lowCtx c) x.space.toNat n 0 true true
        (fun q => formAddr c x.space.toNat x.a (extOff x) q (tidAt c.wave q))) with
    | .error t => .error t
    | .ok ps =>
      match forAll c (poisonCheck s (lowCtx c) ps) with
      | .error t => .error t
      | .ok _ => .ok (v0, ps)

/-- A load made once for the wave (R306). -/
def loadOnce (s : State) (x : FM) (n : Nat) (wide : Bool) : Answer :=
  issue s fun c0 =>
    match memCtx c0 with
    | none => .ok s
    | some c =>
      match loadOnceCheck s c x n wide with
      | .error t => .error t
      | .ok (v0, ps) =>
        if ps.any (readsAtom c.wave) then .ok (waitAtom s c0)
        else .ok (beginAccess s c (.once wide) x (ps.map accessOf) [] v0)

/-- LDU. -/
def execLdu (x : FM) (s : State) : Answer := loadOnce s x 4 false
/-- LDU.D. -/
def execLduD (x : FM) (s : State) : Answer := loadOnce s x 8 true

/-- The checks of a record load (R75, R127): the record, and each thread's element with its plan. -/
def recCheck (s : State) (c : Ctx) (x : FM) (regs : Nat) :
    Except Trap (Wave × Rec × List (Plan × Option Located)) :=
  match memCheck1 c [legal c (loadDst c x.t regs) x.t.toNat, legal c (addrOk c 5 x.a) x.a.toNat, lastOk c x,
      spaceOk c x [5], ordOk c x [0, 1]] [addrSrc 5 x.a x.l] with
  | .error t => .error t
  | .ok v0 =>
    match readRec s c (bits x.ext.toNat 0 8) with
    | .error t => .error t
    | .ok r =>
      if r.kind = 3 then .error (recordBounds r.idx c.mask)
      else
        match planRec s c r (if regs = 1 then 1 else r.c) 0 (fun q => rdSpec c q x.a 0) x.ext with
        | .error t => .error t
        | .ok pl =>
          match poisonCheck s c (pl.map (·.1)) with
          | .error t => .error t
          | .ok _ => .ok (v0, r, pl)

/-- The words of a record, read at issue. -/
def recWords (s : State) (c : Ctx) (i : Nat) : List DWord := (tableDwords s c.g.part c.core (recAddr c.wave i) 5).getD []

/-- A record load into regs registers, zero beyond the record's channels (R307, R130). -/
def loadRec (s : State) (x : FM) (regs : Nat) : Answer :=
  issue s fun c0 =>
    match memCtx c0 with
    | none => .ok s
    | some c =>
      match recCheck s c x regs with
      | .error t => .error t
      | .ok (v0, r, pl) =>
        if pl.any (fun e => readsAtom c.wave e.1) then .ok (waitAtom s c0)
        else
          .ok (beginAccess (markTable s c.g c.core (recAddr c.wave r.idx) 40) c
            (.loadRec regs (if regs = 1 then 1 else r.c) (recWords s c r.idx)) x (pl.map recAccess) [addrSrc 5 x.a x.l] v0)

/-- LDR. -/
def execLdr (x : FM) (s : State) : Answer := loadRec s x 1
/-- LDR.V4. -/
def execLdrV4 (x : FM) (s : State) : Answer := loadRec s x 4

end Sys2Proof.Machine
end

