-- ==== Sys2Proof/Machine/Stores.lean ====
section
/-! DEFINITION. Stores: ST.*, STU, STR; and the entry of atomics and reductions into the store queue
(14_isa_memory.md R308 to R313). -/

namespace Sys2Proof.Machine

/-- The SQ entries of one thread's store: its bytes in pieces. -/
abbrev Pieces := List (List (Nat × Byte × Byte))

/-- The data operand of a store of n bytes (R303). -/
def storeSrc (t : Reg) (n : Nat) : Src := ⟨t, if n = 8 then .pair else if n = 16 then .quad else .value, false, false⟩

/-- Its legality: ST.D takes a v or s pair or the constant 0. -/
def storeOk (c : Ctx) (t : Reg) (n : Nat) : Bool :=
  match n with
  | 8 => pairOk c.g t false && (isVSpec t || isSSpec t || t == 0x78)
  | 16 => quadOk c.g t
  | _ => valueOk c.g t false

/-- The i-th register of a data operand. -/
def dataReg (c : Ctx) (q : Nat) (t : Reg) (i : Nat) : Word :=
  match specOf t with
  | .v n => (vReg c.wave q (n + i)).getD 0
  | .s n => sReg c.wave (n + i)
  | _ => if i = 0 then rdSpec c q t 0 else 0

/-- The n data bytes of a thread. -/
def dataBytes (c : Ctx) (q : Nat) (t : Reg) (n : Nat) : List Byte :=
  if n ≤ 4 then bytesOf n (dataReg c q t 0).toNat
  else ((List.range (n / 4)).map (fun i => bytesOf 4 (dataReg c q t i).toNat)).flatten

/-- Whole bytes with values, in pieces of at most 8 (R170). -/
def pieces (bs : List (Nat × Byte)) (vals : List Byte) : Pieces :=
  let z := (bs.zip vals).map (fun e => (e.1.1, e.1.2, e.2))
  if z.length ≤ 8 then [z] else [z.take 8, z.drop 8]

/-- The checks of a per-lane store of n bytes, in R75's order. -/
def storeCheck (s : State) (c : Ctx) (x : FM) (n : Nat) : Except Trap (Wave × List Plan) :=
  match memCheck1 c [legal c (storeOk c x.t n) x.t.toNat, legal c (addrOk c x.space.toNat x.a) x.a.toNat, lastOk c x,
      spaceOk c x [0, 1, 2, 3, 4], ordOk c x [0, 2]] [addrSrc x.space.toNat x.a x.l, storeSrc x.t n] with
  | .error t => .error t
  | .ok v0 =>
    match planSpace s c x.space.toNat n 1 true true
        (fun q => formAddr c x.space.toNat x.a (extOff x) q (tidAt c.wave q)) with
    | .error t => .error t
    | .ok ps => .ok (v0, ps)

/-- What a store of n bytes writes for a thread, in SQ pieces. -/
def storeData (c : Ctx) (x : FM) (n q : Nat) (a : Acc) : Pieces :=
  match a with
  | .mem bs => pieces bs (dataBytes c q x.t n)
  | _ => []

/-- The accesses of a store of n bytes. -/
def storeAccesses (c : Ctx) (x : FM) (n : Nat) (ps : List Plan) : List Access :=
  ps.map (fun p => { accessOf p with data := storeData c x n p.q p.acc })

/-- A per-lane store of n bytes (R308). -/
def storeLane (s : State) (x : FM) (n : Nat) : Answer :=
  issue s fun c0 =>
    match memCtx c0 with
    | none => .ok s
    | some c =>
      match storeCheck s c x n with
      | .error t => .error t
      | .ok (v0, ps) =>
        .ok (beginAccess s c (.store false) x (storeAccesses c x n ps) [addrSrc x.space.toNat x.a x.l, storeSrc x.t n] v0)

/-- ST.B. -/
def execStB (x : FM) (s : State) : Answer := storeLane s x 1
/-- ST.H. -/
def execStH (x : FM) (s : State) : Answer := storeLane s x 2
/-- ST.W. -/
def execStW (x : FM) (s : State) : Answer := storeLane s x 4
/-- ST.D. -/
def execStD (x : FM) (s : State) : Answer := storeLane s x 8
/-- ST.Q: two 8-byte entries. -/
def execStQ (x : FM) (s : State) : Answer := storeLane s x 16

/-- The checks of STU (R309). -/
def stuCheck (s : State) (c : Ctx) (x : FM) : Except Trap (Wave × List Plan) :=
  match memCheck1 c [legal c (storeOk c x.t 4 && heldOnce x.t) x.t.toNat,
      legal c (addrOk c x.space.toNat x.a && heldOnce x.a) x.a.toNat, lastOk c x, spaceOk c x [0, 1, 2, 3, 4],
      ordOk c x [0, 2]] [addrSrc x.space.toNat x.a false, storeSrc x.t 4] with
  | .error t => .error t
  | .ok v0 =>
    match forAll c (planSpace s (lowCtx c) x.space.toNat 4 1 true true
        (fun q => formAddr c x.space.toNat x.a (extOff x) q (tidAt c.wave q))) with
    | .error t => .error t
    | .ok ps => .ok (v0, ps)

/-- STU (R309): one word, once for the wave. -/
def execStu (x : FM) (s : State) : Answer :=
  issue s fun c0 =>
    match memCtx c0 with
    | none => .ok s
    | some c =>
      match stuCheck s c x with
      | .error t => .error t
      | .ok (v0, ps) =>
        .ok (beginAccess s c (.store true) x (storeAccesses c x 4 ps) [addrSrc x.space.toNat x.a false, storeSrc x.t 4] v0)

/-- The bytes that a record store of nch channels writes at an element's locations (R129, R130). -/
def recData (c : Ctx) (x : FM) (r : Rec) (l : Located) (q : Nat) (a : Acc) : List (Nat × Byte × Byte) :=
  match a with
  | .mem bs =>
    let puts := joinBytes (((l.elems.zipIdx).map (fun e => elemPut e.1 (storeConv r (dataReg c q x.t e.2)))).flatten)
    (bs.zip puts).map (fun e => (e.1.1, e.2.2.1, e.2.2.2))
  | _ => []

/-- Sources of a record store that reads n registers from T on (R130). -/
def recStoreSrcs (x : FM) (n : Nat) : List Src :=
  [addrSrc 5 x.a x.l, ⟨x.t, if n = 1 then .value else .range n, false, false⟩]

/-- The checks of a record store (R75, R127). With V4 the record's channels say which registers of T's quad are read, so
that a bad record has no data operand, and RECORD_BOUNDS stands. -/
def recStoreCheck (s : State) (c : Ctx) (x : FM) (v4 : Bool) : Except Trap (Wave × Rec × List (Plan × Option Located)) :=
  let rec_ := readRec s c (bits x.ext.toNat 0 8)
  let n := if v4 then (match rec_ with | .ok r => r.c | .error _ => 0) else 1
  match memCheck1 c [legal c (if v4 then loadDst c x.t 4 else valueOk c.g x.t false) x.t.toNat,
      legal c (addrOk c 5 x.a) x.a.toNat, lastOk c x, spaceOk c x [5], ordOk c x [0, 2]] (recStoreSrcs x n) with
  | .error t => .error t
  | .ok v0 =>
    match rec_ with
    | .error t => .error t
    | .ok r =>
      if r.kind = 3 then .error (recordBounds r.idx c.mask)
      else
        match planRec s c r (if v4 then r.c else 1) 1 (fun q => rdSpec c q x.a 0) x.ext with
        | .error t => .error t
        | .ok pl => .ok (v0, r, pl)

/-- What a record store writes for a thread. -/
def recStoreData (c : Ctx) (x : FM) (r : Rec) (e : Plan × Option Located) : Pieces :=
  match e.2 with
  | some l => [recData c x r l e.1.q e.1.acc]
  | none => []

/-- A record store (R310): one channel, or with V4 all of the record's channels from a v quad. -/
def storeRec (s : State) (x : FM) (v4 : Bool) : Answer :=
  issue s fun c0 =>
    match memCtx c0 with
    | none => .ok s
    | some c =>
      match recStoreCheck s c x v4 with
      | .error t => .error t
      | .ok (v0, r, pl) =>
        .ok (beginAccess (markTable s c.g c.core (recAddr c.wave r.idx) 40) c (.store false) x
          (pl.map (fun e => { recAccess e with data := recStoreData c x r e }))
          (recStoreSrcs x (if v4 then r.c else 1)) v0)

/-- STR. -/
def execStr (x : FM) (s : State) : Answer := storeRec s x false
/-- STR.V4. -/
def execStrV4 (x : FM) (s : State) : Answer := storeRec s x true

/-! Atomics and reductions (R311, R313): issue. -/

/-- Fields of the extension of an atomic (R311). -/
def atB (x : FM) : Reg := x.ext.extractLsb' 0 7
def atC (x : FM) : Reg := x.ext.extractLsb' 7 7
def atOff (x : FM) : Int := sextN 18 (bits x.ext.toNat 14 18)

/-- An operand of an atomic as a doubleword. -/
def atVal (c : Ctx) (q : Nat) (r : Reg) (wide : Bool) : DWord := if wide then rdPair c q r 0 else lowOnly (rdSpec c q r 0)

/-- Sources of an atomic: a CAS reads C as well. -/
def atSrcs (x : FM) (wide cas : Bool) : List Src :=
  let k : SrcKind := if wide then .pair else .value
  [addrSrc x.space.toNat x.a x.l, ⟨atB x, k, false, false⟩] ++ (if cas then [⟨atC x, k, false, false⟩] else [])

/-- A B or C operand of an atomic is legal (R311). -/
def atArgOk (c : Ctx) (wide : Bool) (r : Reg) : Bool := if wide then pairOk c.g r false else valueOk c.g r false

/-- The checks of an atomic or reduction, in R75's order. -/
def atomCheck (s : State) (c : Ctx) (x : FM) (wide ret cas : Bool) : Except Trap (Wave × List Plan) :=
  match memCheck1 c [legal c (!ret || loadDst c x.t (if wide then 2 else 1)) x.t.toNat,
      legal c (addrOk c x.space.toNat x.a) x.a.toNat, lastOk c x, legal c (atArgOk c wide (atB x)) (atB x).toNat,
      legal c (!cas || atArgOk c wide (atC x)) (atC x).toNat, spaceOk c x [0, 1, 2, 3, 4],
      ordOk c x (if ret then [0, 1, 2, 3] else [0, 2])] (atSrcs x wide cas) with
  | .error t => .error t
  | .ok v0 =>
    match planSpace s c x.space.toNat (if wide then 8 else 4) 2 true true
        (fun q => formAddr c x.space.toNat x.a (atOff x) q (tidAt c.wave q)) with
    | .error t => .error t
    | .ok ps => .ok (v0, ps)

/-- An atomic or reduction enters the SQ, one entry per thread. op is the table's opcode (R312). -/
def atomic (s : State) (x : FM) (op : Nat) (wide ret cas : Bool) : Answer :=
  issue s fun c0 =>
    match memCtx c0 with
    | none => .ok s
    | some c =>
      match atomCheck s c x wide ret cas with
      | .error t => .error t
      | .ok (v0, ps) =>
        .ok (beginAccess s c (.atom op wide ret) x
          (ps.map (fun p => { accessOf p with b := atVal c p.q (atB x) wide, c := atVal c p.q (atC x) wide }))
          (atSrcs x wide cas) v0)

/-- ATOM.ADD (R312). -/
def execAtomAdd (x : FM) (s : State) : Answer := atomic s x 0x20 false true false
/-- ATOM.MIN (R312). -/
def execAtomMin (x : FM) (s : State) : Answer := atomic s x 0x21 false true false
/-- ATOM.MAX (R312). -/
def execAtomMax (x : FM) (s : State) : Answer := atomic s x 0x22 false true false
/-- ATOM.UMIN (R312). -/
def execAtomUmin (x : FM) (s : State) : Answer := atomic s x 0x23 false true false
/-- ATOM.UMAX (R312). -/
def execAtomUmax (x : FM) (s : State) : Answer := atomic s x 0x24 false true false
/-- ATOM.AND (R312). -/
def execAtomAnd (x : FM) (s : State) : Answer := atomic s x 0x25 false true false
/-- ATOM.OR (R312). -/
def execAtomOr (x : FM) (s : State) : Answer := atomic s x 0x26 false true false
/-- ATOM.XOR (R312). -/
def execAtomXor (x : FM) (s : State) : Answer := atomic s x 0x27 false true false
/-- ATOM.XCHG (R312). -/
def execAtomXchg (x : FM) (s : State) : Answer := atomic s x 0x28 false true false
/-- ATOM.CAS (R312). -/
def execAtomCas (x : FM) (s : State) : Answer := atomic s x 0x29 false true true
/-- ATOM.FADD (R312). -/
def execAtomFadd (x : FM) (s : State) : Answer := atomic s x 0x2A false true false
/-- ATOM.ADD64 (R312). -/
def execAtomAdd64 (x : FM) (s : State) : Answer := atomic s x 0x2B true true false
/-- ATOM.XCHG64 (R312). -/
def execAtomXchg64 (x : FM) (s : State) : Answer := atomic s x 0x2C true true false
/-- ATOM.CAS64 (R312). -/
def execAtomCas64 (x : FM) (s : State) : Answer := atomic s x 0x2D true true true
/-- RED.ADD (R312). -/
def execRedAdd (x : FM) (s : State) : Answer := atomic s x 0x30 false false false
/-- RED.MIN (R312). -/
def execRedMin (x : FM) (s : State) : Answer := atomic s x 0x31 false false false
/-- RED.MAX (R312). -/
def execRedMax (x : FM) (s : State) : Answer := atomic s x 0x32 false false false
/-- RED.UMIN (R312). -/
def execRedUmin (x : FM) (s : State) : Answer := atomic s x 0x33 false false false
/-- RED.UMAX (R312). -/
def execRedUmax (x : FM) (s : State) : Answer := atomic s x 0x34 false false false
/-- RED.AND (R312). -/
def execRedAnd (x : FM) (s : State) : Answer := atomic s x 0x35 false false false
/-- RED.OR (R312). -/
def execRedOr (x : FM) (s : State) : Answer := atomic s x 0x36 false false false
/-- RED.XOR (R312). -/
def execRedXor (x : FM) (s : State) : Answer := atomic s x 0x37 false false false
/-- RED.FADD (R312). -/
def execRedFadd (x : FM) (s : State) : Answer := atomic s x 0x38 false false false

end Sys2Proof.Machine
end

