-- ==== Sys2Proof/Machine/Drain.lean ====
section
/-! DEFINITION. The moves of the ordering machine (08_ordering.md R170 to R173): draining an SQ entry, performing an
atomic, propagating and dropping copies, delivering deposits; and the release that an event makes (R180). -/

namespace Sys2Proof.Machine

/-! Store queues. -/

/-- The SQ numbered w, its core and its workgroup: of the wave at slot w, else of an ended wave (from 24576 on). -/
def sqOf (s : State) (w : Nat) : Option (Nat × Nat × List SqEntry) :=
  match getWave s w with
  | some v => some (coreOf w, v.wg, v.sq)
  | none => (tabGet? s.orph w).map (fun o => (o.core, o.wg, o.sq))

/-- Store an SQ; an ended wave's empty SQ is gone. -/
def putSq (s : State) (w : Nat) (sq : List SqEntry) : State :=
  if (getWave s w).isSome then updWave s w (fun v => { v with sq := sq })
  else if sq.isEmpty then { s with orph := tabDel s.orph w }
  else { s with orph := tabMod s.orph w (fun o => { o with sq := sq }) }

/-- Two entries share a bit of a byte. -/
def overlaps (a b : SqEntry) : Bool :=
  a.bytes.any (fun x => b.bytes.any (fun y => x.1 = y.1 && x.2.1 &&& y.2.1 != 0))

def isDepoEntry (e : SqEntry) : Bool := match e.kind with | .depo _ => true | _ => false

/-- Move 2's conditions on entry i of an SQ: no older entry for any of its bytes, its release condition, and for an atomic
that the instruction's earlier threads have been performed (R170, R171, R173). A DEPO has no bytes that a release could wait
for; only a younger DEPO waits for it, since deposits are delivered in program order (R316, entry 54). -/
def drainOk (sq : List SqEntry) (i : Nat) : Bool :=
  match sq[i]? with
  | none => false
  | some e =>
    let older := sq.take i
    older.all (fun o => !overlaps o e && !(isAtomEntry e && isAtomEntry o && o.grp = e.grp) && !(isDepoEntry e && isDepoEntry o)) &&
      (!e.rel || (older.all isDepoEntry && e.toks.isEmpty))

/-- Bytes that entry number seq of SQ w, its i-th, left dirty in the core's view of a level have still to reach the levels of the
newer releases: those of the SQ's entries from i on, and of the wave's engine operations (R171, R174). -/
def addToks (s : State) (w i seq core level : Nat) (locs : List Nat) : State :=
  let new := (locs.filter (fun l => !singleCopy l)).map (fun l => (viewAt core level, l))
  let s1 := match sqOf s w with
    | some (_, _, q) => putSq s w (q.take i ++ (q.drop i).map (fun (x : SqEntry) =>
        if x.rel && level < scopeLevel x.scope then { x with toks := (x.toks ++ new).eraseDups } else x))
    | none => s
  { s1 with ops := s1.ops.map (fun (o : EngOp) =>
      if o.wave = w && decide (seq < o.seq) && level < opLevel o then { o with toks := (o.toks ++ new).eraseDups } else o) }

/-- new of R312 from old, b and c; none when a CAS fails. -/
def atomNew (op : Nat) (old b c : DWord) : Option DWord :=
  let o := loWord old
  let x := loWord b
  let k := if 0x30 ≤ op then (if op = 0x38 then 0x2A else op - 0x10) else op
  match k with
  | 0x20 => some (lowOnly (o + x))
  | 0x21 => some (lowOnly (sMin o x))
  | 0x22 => some (lowOnly (sMax o x))
  | 0x23 => some (lowOnly (uMin o x))
  | 0x24 => some (lowOnly (uMax o x))
  | 0x25 => some (lowOnly (o &&& x))
  | 0x26 => some (lowOnly (o ||| x))
  | 0x27 => some (lowOnly (o ^^^ x))
  | 0x28 => some (lowOnly x)
  | 0x29 => if o == x then some (lowOnly (loWord c)) else none
  | 0x2A => some (lowOnly (fAdd .rne o x))
  | 0x2B => some (old + b)
  | 0x2C => some b
  | _ => if old == b then some c else none

/-- The slot of a workgroup's wave that holds a %tid, and its position. -/
def tidPlace (s : State) (wg tid : Nat) : Option (Nat × Nat) :=
  firstSome (fun w =>
    match getWave s w with
    | none => none
    | some v => ((List.range v.threads.length).find? (fun q => match threadAt v q with
        | some t => t.live && t.tid = tid | none => false)).map (fun q => (w, q)))
    (((getWg s wg).map (·.slots)).getD [])

/-- Write n registers of the thread that waits for an atomic, unless it has ended. -/
def atomReturn (s : State) (wg : Nat) (dst : Option (Nat × Nat)) (n : Nat) (x : DWord) : State :=
  match dst with
  | none => s
  | some (r, tid) =>
    match tidPlace s wg tid with
    | some (w, q) => updWave s w (fun v => putRegs v q r n x.toNat)
    | none => s

/-- A write at a level of a core's path reaches the copy or the store that an error stands in: the views of the path up to
that level, and the store when the level is SYSTEM's or the bytes have one copy. -/
def writeReaches (core level : Nat) (e : SErr) : Bool :=
  if e.view = storeView then level = 4 || singleCopy e.loc else ((pathFrom core 0).take (level + 1)).contains e.view

/-- Poison goes from the blocks that a write at a level of a core's path covers whole, in the copies that it reaches
(R97). -/
def healBytes (s : State) (core level : Nat) (locs : List Nat) : State :=
  if s.dev.serr.isEmpty then s
  else
    let whole (e : SErr) : Bool := (List.range 8).all (fun i => locs.contains (e.loc / 8 * 8 + i))
    { s with dev := { s.dev with serr := s.dev.serr.filter (fun e => !(whole e && writeReaches core level e)) } }

/-- A CAS that fails writes nothing into H(S); the copies below it take the value that it returns, so that the wave reads
no older one after it (R172). -/
def lowCopies (s : State) (core level loc : Nat) (bs : List Byte) : State :=
  if singleCopy loc then s
  else
    (bs.zipIdx).foldl (fun s e =>
      ((List.range 4).filter (· < level)).foldl (fun s l =>
        let k := cellAt s (viewAt core l) (loc + e.2)
        putCell s (viewAt core l) (loc + e.2) { k with val := e.1, has := 0xFF }) s) s

/-- Perform an atomic or reduction at H(S) (R173). The copies pushed up take their poison along, so that poison in any byte of
the word that it reads is met there (R97). -/
def performAtom (s : State) (w core wg : Nat) (e : SqEntry) (op : Nat) (wide : Bool) (b c : DWord)
    (dst : Option (Nat × Nat)) : State :=
  let n := if wide then 8 else 4
  let regs := if wide then 2 else 1
  let locs := e.bytes.map (·.1)
  let loc := locs.headD 0
  let me : Mask := match dst with
    | some (_, tid) => match tidPlace s wg tid with | some (_, q) => posBit q | none => 0
    | none => 0
  if isHostLoc loc && !s.dev.linkUp then
    pendFault (atomReturn s wg dst regs 0xFFFFFFFFFFFFFFFF) w (pcieLost (e.va % 2 ^ 57) me)
  else
    let lv := if isHostLoc loc then 4 else scopeLevel e.scope
    let s0 := locs.foldl (fun s l => pushByte s core lv l) s
    let s1 := fixBytes s0 [] core lv locs
    let old : DWord := BitVec.ofNat 64 (natOfBytes (bytesAt s1 core lv loc n))
    let s2 :=
      match atomNew op old b c with
      | some x => highBytes s1 core lv loc (bytesOf n x.toNat)
      | none => lowCopies s1 core lv loc (bytesOf n old.toNat)
    let s3 := atomReturn s2 wg dst regs old
    let s4 := match poisonIn s0 [] core lv (wholeBytes loc n) with
      | some p => pendFault s3 w (eccTrap p.strct e.va me)
      | none => s3
    if e.acq then acquireScope s4 core e.scope else s4

/-- The words of memory of a plain store reach the lowest view (R170 move 2); a HOST store after surprise removal is
dropped (R95). -/
def performStore (s : State) (core : Nat) (e : SqEntry) : State :=
  let s1 := e.bytes.foldl (fun s b =>
    if isHostLoc b.1 && !s.dev.linkUp then s else lowWrite s core b.1 b.2.1 b.2.2) s
  healBytes s1 core 0 ((e.bytes.filter (fun b => b.2.1 = 0xFF)).map (·.1))

/-- A path has completed an instruction of n words, outside an issue. -/
def advanceWave (v : Wave) (pb : Bool) (n : Nat) : Wave :=
  match pathOf v pb with
  | some x => stepPend (stepArmed v) pb (setPath v pb (stepPath x n))
  | none => v

/-- A path's ACQ or AR atomics have all been performed: it goes on (R173, R313). -/
def endAtomPath (sq : List SqEntry) (x : Path) : Path :=
  match x.wait with
  | .atom lo hi => if sq.any (fun e => isAtomEntry e && e.grp = lo && e.seq < hi) then x else stepPath x 2
  | _ => x

/-- The paths that wait for atomics, after one was performed. -/
def endAtomWait (v : Wave) : Wave :=
  let v1 := mapPaths (endAtomPath v.sq) v
  let moved (pb : Bool) : Bool := (pathOf v1 pb).map (·.pc) != (pathOf v pb).map (·.pc)
  stepPend (stepArmed v && (moved false || moved true)) (moved true) v1

/-! Deposits (R154, R316). -/

/-- A deposit reaches a wave: held while it is parked (mode 0) or its ACNT is full, else counted. from is the
depositor. -/
def depositTo (src : Nat) (mode1 : Bool) (v : Wave) : Wave :=
  if isParked v && !mode1 then { v with parkedDeps := v.parkedDeps ++ [src] }
  else if 65535 ≤ v.acnt || !v.heldDeps.isEmpty then { v with heldDeps := v.heldDeps ++ [src] }
  else { v with acnt := v.acnt + 1 }

/-- The slot of wave n of a workgroup, while it has not ended. -/
def waveNumbered (s : State) (wg n : Nat) : Option Nat :=
  (((getWg s wg).map (·.slots)).getD []).find? (fun w => ((getWave s w).map (fun v => decide (v.num = n))).getD false)

/-- A deposit for an evicted wave of a workgroup is added to its saved ACNT (R47), held where that is full. -/
def depositEvicted (s : State) (src wg n : Nat) : State :=
  { s with parts := s.parts.map (fun p => (p.1, { p.2 with evicted := p.2.evicted.map (fun e =>
      if e.id = wg then
        { e with waves := e.waves.map (fun x => if x.2.num = n then (x.1, depositTo src true x.2) else x) }
      else e) })) }

/-- Deliver a deposit (R316's table). -/
def deliver (s : State) (src core wg target : Nat) : State :=
  if target / 2 ^ 15 % 2 = 1 then
    let w := (clusterOf core * 4 + target % 4) * Config.slotsPerCore + bits target 2 7
    updWave s w (depositTo src true)
  else
    match waveNumbered s wg (target % 16) with
    | some w => updWave s w (depositTo src false)
    | none => depositEvicted s src wg (target % 16)

/-- A wave holds a deposit of a depositor: at a full ACNT, or while it is parked. -/
def holdsOf (w : Nat) (v : Wave) : Bool := v.heldDeps.contains w || v.parkedDeps.contains w

/-- A deposit of the SQ numbered w is held, by a full ACNT (R154) or by a parked wave (R35): a wave never has more than one
deposit held, whichever holds it (entry 26, DEDUCED). -/
def hasHeld (s : State) (w : Nat) : Bool :=
  s.waves.any (fun e => holdsOf w e.2) || s.parts.any (fun p => p.2.evicted.any (fun e => e.waves.any (fun x => holdsOf w x.2)))

/-- The oldest deposit held by a wave's full ACNT is delivered when there is room (R154). -/
def dueHeld (v : Wave) : Wave :=
  match v.heldDeps with
  | _ :: t => if v.acnt < 65535 then { v with acnt := v.acnt + 1, heldDeps := t } else v
  | [] => v

/-- Every held deposit for which there is room is delivered. -/
def dueHelds (v : Wave) : Wave := v.heldDeps.foldl (fun v _ => dueHeld v) v

/-- Perform entry i of SQ w and take it out. -/
def performEntry (s : State) (w i : Nat) : State :=
  match sqOf s w with
  | none => s
  | some (core, wg, sq) =>
    match sq[i]? with
    | none => s
    | some e =>
      let s1 := putSq s w (sq.eraseIdx i)
      match e.kind with
      | .store => addToks (performStore s1 core e) w i e.seq core 0 (e.bytes.map (·.1))
      | .atom op wide b c dst =>
        let s2 := performAtom s1 w core wg e op wide b c dst
        let lv := scopeLevel e.scope
        let s3 := if lv = 4 || isHostLoc ((e.bytes.map (·.1)).headD 0) then s2
          else addToks s2 w i e.seq core lv ((e.bytes.map (·.1)).filter (fun l => (cellAt s2 (viewAt core lv) l).dirty != 0))
        updWave s3 w endAtomWait
      | .depo t => deliver s1 w core wg t

/-- SQ_DRAIN: entry i of SQ w leaves, when move 2's conditions hold. -/
def execSqDrain (w i : Nat) (s : State) : Answer :=
  match sqOf s w with
  | some (_, _, sq) =>
    .next (if drainOk sq i && !((sq[i]?.map isDepoEntry).getD true) then performEntry s w i else s)
  | none => .next s

/-- DEPO_DELIVER: the deposit that is entry i of SQ w is delivered, when its release condition holds and no earlier deposit
of the same wave is held (R154, R316: program order). -/
def execDepoDeliver (w i : Nat) (s : State) : Answer :=
  match sqOf s w with
  | some (_, _, sq) =>
    .next (if drainOk sq i && (sq[i]?.map isDepoEntry).getD false && !hasHeld s w then performEntry s w i else s)
  | none => .next s

/-- HELD_DEPOSIT_DELIVER: the oldest deposit held by a wave's full ACNT is delivered once there is room (R154). -/
def execHeldDepositDeliver (w : Nat) (s : State) : Answer := .next (updWave s w dueHeld)

/-- PROPAGATE (R170 move 3). -/
def execPropagate (view blk : Nat) (s : State) : Answer := .next (propBlock s view blk)

/-- DROP (R170 move 5). -/
def execDrop (view blk : Nat) (s : State) : Answer := .next (dropBlock s view blk)

/-! A release made in one step: the moves that fulfil R171's conditions, then the event (R180). -/

/-- The first entry of an SQ that a condition names and that can leave once its own release condition is met: a DEPO behind a
held deposit of its wave stays (R154). -/
def firstOut (may : SqEntry → Bool) (held : Bool) (sq : List SqEntry) : Option (SqEntry × Nat) :=
  (sq.zipIdx).find? (fun e => may e.1 && !(held && isDepoEntry e.1))

/-- Entry i of SQ w leaves; a release first has the copies propagated that it waits for (R171). -/
def drainEntry (s : State) (w i : Nat) : State :=
  let toks (s : State) : List (Nat × Nat) :=
    match sqOf s w with | some (_, _, sq) => ((sq[i]?).map (·.toks)).getD [] | none => []
  performEntry (carryToks toks s) w i

/-- Drain the entries of SQ w that a condition names, oldest first; a release first meets its own condition. fuel is the SQ's
length. -/
def drainThose (may : SqEntry → Bool) : Nat → State → Nat → State
  | 0, s, _ => s
  | n + 1, s, w =>
    match sqOf s w with
    | none => s
    | some (_, _, sq) =>
      match firstOut may (hasHeld s w) sq with
      | none => s
      | some (_, i) => drainThose may n (drainEntry s w i) w

/-- Drain everything in SQ w. -/
def drainAll (n : Nat) (s : State) (w : Nat) : State := drainThose (fun _ => true) n s w

/-- Drain the entries of SQ w that a condition names, oldest first, and those that they wait for (drainOk). fuel is the SQ's
length. -/
def drainSome (named : SqEntry → Bool) : Nat → State → Nat → State
  | 0, s, _ => s
  | n + 1, s, w =>
    match sqOf s w with
    | none => s
    | some (_, _, sq) =>
      let needed (i : Nat) : Bool :=
        match sq[i]? with
        | none => false
        | some o => !isDepoEntry o && (named o || (sq.drop (i + 1)).any (fun e => named e &&
            (e.rel || overlaps o e || (isAtomEntry o && isAtomEntry e && o.grp = e.grp))))
      match (List.range sq.length).find? needed with
      | none => s
      | some i => drainSome named n (drainEntry s w i) w

/-- A release of SQ w at a level. -/
def releaseNow (s : State) (w level : Nat) : State :=
  match sqOf s w with
  | none => s
  | some (core, _, sq) => propPath (drainAll sq.length s w) core level

end Sys2Proof.Machine
end

