-- ==== Sys2Proof/Machine/Engine.lean ====
section
/-! DEFINITION. What every engine instruction shares: outstanding counters, queues, the checks and the issue of R322 and
R323, the release and the writes of R174 and R175, the start and the end of an operation (05_queues.md R117, R118,
07_counters.md R151). -/

namespace Sys2Proof.Machine

/-- The outstanding counters (R150). -/
inductive Cnt where
  | cpy
  | mtx
  | gth
  | dsh
  deriving DecidableEq, Repr

def cntOf (v : Wave) : Cnt → Nat
  | .cpy => v.cpy
  | .mtx => v.mtx
  | .gth => v.gth
  | .dsh => v.dsh

/-- Change a counter. -/
def cntMap (f : Nat → Nat) (v : Wave) : Cnt → Wave
  | .cpy => { v with cpy := f v.cpy }
  | .mtx => { v with mtx := f v.mtx }
  | .gth => { v with gth := f v.gth }
  | .dsh => { v with dsh := f v.dsh }

/-- The counter of an opcode of class ENG (R13). -/
def cntOfOp (op : Nat) : Cnt :=
  if op < 0x10 then .cpy else if op < 0x20 then .mtx else if op < 0x38 then .gth else .dsh

/-- Engines (R117). -/
inductive Eng where
  | copy
  | matrix
  | baton
  | sampler
  | trace
  | dash
  deriving DecidableEq, Repr

/-- The engine of an opcode. TEXN's sampling is done when its rows enter Baton (entry 15). -/
def engOfOp (op : Nat) : Eng :=
  if op < 0x10 then .copy else if op < 0x20 then .matrix else if op < 0x28 || op = 0x2D then .baton
  else if op < 0x30 then .sampler else if op < 0x38 then .trace else .dash

/-- Depth of a queue (R117); Baton's limit is its handle slots. -/
def engDepth : Eng → Nat
  | .copy => 32
  | .matrix => 16
  | .baton => 65536
  | .sampler => 64
  | .trace => 1024
  | .dash => 1

/-- A queue serves a core, or for trace and Dash a cluster. -/
def sameQueue (e : Eng) (core core' : Nat) : Bool :=
  match e with
  | .trace => clusterOf core = clusterOf core'
  | .dash => clusterOf core = clusterOf core'
  | _ => core = core'

/-- Operations waiting in a queue, oldest first. -/
def inQueue (s : State) (e : Eng) (core : Nat) : List EngOp :=
  s.ops.filter (fun o => !o.started && engOfOp o.op = e && sameQueue e core o.core)

/-- R118: the queue is full, or the counter would pass 255. -/
def engStall (s : State) (c : Ctx) (op : Nat) : Bool :=
  255 ≤ cntOf c.wave (cntOfOp op) || engDepth (engOfOp op) ≤ (inQueue s (engOfOp op) c.core).length

/-- Words of an engine instruction with n extension words (R208, R220). -/
def feWords (n : Nat) (x : FE) : Nat := 1 + n + (if x.b = 0x7F then 1 else 0)

/-- The instruction word. -/
def feWord (op : Nat) (x : FE) : Word := FE.word (BitVec.ofNat 8 op) x

/-- What an engine instruction hands over at issue: operand values, registers by position, table words. -/
structure EngIn where
  a : DWord := 0
  b : DWord := 0
  d : DWord := 0
  vals : List (Nat × List Word) := []
  recd : List DWord := []
  deriving DecidableEq, Repr

/-- The operation that an engine instruction issues. -/
def newOp (s : State) (c : Ctx) (op : Nat) (x : FE) (i : EngIn) (started : Bool) : EngOp :=
  let o : EngOp := {
    id := s.nextId, wave := c.w, core := c.core, op := op, x := x, mask := c.mask, started := started, seq := s.seq,
    a := i.a, b := i.b, d := i.d, vals := i.vals, recd := i.recd, toks := [] }
  { o with toks := dirtyToks s c.core (opLevel o) }

/-- An operation enters its queue, with the copies that are dirty below its scope (R174): the counter rises by one (R151). -/
def addOp (s : State) (c : Ctx) (op : Nat) (x : FE) (i : EngIn) (started : Bool) : State :=
  let o := newOp s c op x i started
  updWave { s with nextId := s.nextId + 1, ops := s.ops ++ [o] } c.w (fun v => cntMap (· + 1) v (cntOfOp op))

/-- The tables that an engine instruction reads at issue: buffer records, sampler records with their level 0 (R123). -/
def engTables (s : State) (c : Ctx) (op : Nat) (x : FE) : State :=
  let smp := bits c.wave.csr.smtab.toNat 9 48 * 512 + 32 * bits x.ext.toNat 0 8
  let recAt (s : State) (i : Nat) : State := markTable s c.g c.core (bits c.wave.csr.brtab.toNat 9 48 * 512 + 40 * i) 40
  if op = 0 || op = 1 || op = 3 || op = 0x30 || op = 0x31 then recAt s (bits x.ext.toNat 0 8)
  else if 0x28 ≤ op && op < 0x30 then
    match tableDwords s c.g.part c.core smp 1 with
    | some [d] =>
      (List.range (bits d.toNat 12 4 + 1)).foldl (fun s l => recAt s (bits d.toNat 32 8 + l)) (markTable s c.g c.core smp 32)
    | _ => s
  else s

/-- The issue of an engine instruction whose checks give its operands and the wave as its reads leave it: it stalls, or
the operation enters its queue. ext is its number of extension words; held a reason to stall of its own. -/
def engIssueIf (s : State) (op ext : Nat) (x : FE) (held : Ctx → Bool) (f : Ctx → Except Trap (Wave × EngIn)) : Answer :=
  issue s fun c =>
    match f c with
    | .error t => .error t
    | .ok (v, i) =>
      if engStall s c op || held c then .ok (hold s c .stall)
      else .ok (finish (addOp (setWave (engTables s c op x) c.w v) c op x i false) c (feWords ext x))

def engIssue (s : State) (op ext : Nat) (x : FE) (f : Ctx → Except Trap (Wave × EngIn)) : Answer :=
  engIssueIf s op ext x (fun _ => false) f

/-! Checks of R322. -/

/-- Check 1. -/
def engBits (c : Ctx) (op : Nat) (x : FE) (ok : Bool) : Except Trap Unit :=
  if ok then .ok () else .error (illegalOp (feWord op x) c.mask)

/-- An operand held once for the wave (R24); the literal stands in B only. -/
def onceArg (c : Ctx) (r : Reg) (lit : Bool) : Except Trap Unit :=
  legal c (valueOk c.g r lit && heldOnce r) r.toNat

/-- A range of v registers within the declared count. -/
def rangeArg (c : Ctx) (r : Reg) (n : Nat) : Except Trap Unit := legal c (vRange c.g r n) r.toNat

/-- Check 2's reads: parity, then unwritten copies (R50, R97). -/
def engRead (c : Ctx) (srcs : List Src) : Except Trap Wave :=
  match parityCheck c srcs with
  | .error t => .error t
  | .ok _ => unwrittenCheck c srcs

/-- A range of n v registers as a source: one operand, named by its first register (R50). -/
def rangeSrcs (r : Reg) (n : Nat) : List Src := [⟨r, .range n, false, false⟩]

/-- n registers of a position from a v register on. -/
def rangeVals (c : Ctx) (q : Nat) (r : Reg) (n : Nat) : List Word :=
  (List.range n).map (fun i => (vReg c.wave q (r.toNat + i)).getD 0)

/-- Check 5: an extent in the workgroup's window, or with cl in the scratchpad of a core of the cluster (R79, R80). -/
def extentOk (g : Wg) (cl : Bool) (a n : Nat) : Bool :=
  if cl then decide (a % 2 ^ 30 + n ≤ Config.scratchBytes) else decide (a + n ≤ g.ent.scratch * 4096)

/-- The location of an extent's first byte. -/
def extentLoc (core : Nat) (g : Wg) (cl : Bool) (a : Nat) : Nat :=
  if cl then locScr (clusterOf core * 4 + a / 2 ^ 30) (a % 2 ^ 30) else locScr core (g.scr * 4096 + a)

def extentCheck (c : Ctx) (cl : Bool) (a n : Nat) : Except Trap Unit :=
  if extentOk c.g cl a n then .ok () else .error (scratchBounds a c.mask)

/-- Check 4. -/
def alignCheck (c : Ctx) (a m : Nat) : Except Trap Unit := if a % m = 0 then .ok () else .error (alignTrap (a % 2 ^ 57) c.mask)

/-! Operations under way. -/

def getOp (s : State) (id : Nat) : Option EngOp := s.ops.find? (fun o => o.id = id)

def dropOp (s : State) (id : Nat) : State := { s with ops := s.ops.filter (fun o => o.id != id) }

/-- The wave and workgroup of an operation. -/
def opCtx (s : State) (o : EngOp) : Option (Wave × Wg) :=
  match getWave s o.wave with
  | none => none
  | some v => (getWg s v.wg).map (fun g => (v, g))

/-- Entries of an SQ older than an operation drain, each release first meeting its own condition. -/
def drainOlder (seq n : Nat) (s : State) (w : Nat) : State := drainThose (fun e => decide (e.seq < seq)) n s w

/-- Whether an operation reads memory: not MZERO, MST, MRD, MWR, MDRAIN, TQRY, DWIN, DLAUNCH.R, DCAPT, DCAPT.W, DRESET. -/
def opReads (o : EngOp) : Bool :=
  !([0x13, 0x15, 0x16, 0x17, 0x18, 0x2F, 0x39, 0x3B, 0x3C, 0x3D, 0x3E] : List Nat).contains o.op

/-- The copies below its scope that an operation's release has still to carry up. -/
def opToks (s : State) (o : EngOp) : List (Nat × Nat) :=
  (((getOp s o.id).map (·.toks)).getD []).filter (fun t => decide (levelOf t.1 < opLevel o))

/-- The release that an operation's reads of memory meet (R174): the older entries of its wave drain, and the copies that were
dirty at its issue, or that those entries left, reach H(S). -/
def engRelease (s : State) (o : EngOp) : State :=
  match sqOf s o.wave with
  | none => s
  | some (_, _, sq) =>
    if opReads o then carryToks (opToks · o) (drainOlder o.seq sq.length s o.wave) else s

/-- Older stores of its wave to the pieces of memory that an operation writes and does not read leave the SQ first: one wave's writes of a
location keep their order (R172; entry 41). -/
def engOverwrite (s : State) (o : EngOp) (writes : List (Nat × Nat)) : State :=
  match sqOf s o.wave with
  | none => s
  | some (_, _, sq) => drainSome (fun e => decide (e.seq < o.seq) && e.bytes.any (fun b => inSpans writes b.1)) sq.length s o.wave

/-- A byte of memory as an operation reads it at a level; HOST bytes after surprise removal are all ones (R95). -/
def engByte (s : State) (core level loc : Nat) : Byte :=
  if isHostLoc loc && !s.dev.linkUp then 0xFF else byteAt s core level loc

/-! What an operation's reads see of the younger stores and atomics of its wave (R176). -/

/-- The entries of its wave that are younger than an operation and still queued. -/
def youngEntries (s : State) (o : EngOp) : List SqEntry :=
  match sqOf s o.wave with
  | some (_, _, sq) => sq.filter (fun e => decide (o.seq ≤ e.seq))
  | none => []

/-- The entries that element i sees, oldest first: entry k where bit 64 * i + k of the choice says so, and no older entry for
any of its bytes stays unseen, since that one leaves the SQ before it (R170). seen and missed are those decided so far. -/
def seenEntries (young i : Nat) (l : List SqEntry) : List SqEntry :=
  ((l.zipIdx).foldl (fun (acc : List SqEntry × List SqEntry) e =>
    if young.testBit (i % 2 ^ 20 * 64 + e.2 % 64) && !acc.2.any (fun x => overlaps x e.1) then (acc.1 ++ [e.1], acc.2)
    else (acc.1, acc.2 ++ [e.1])) ([], [])).1

/-- Bytes after an entry is performed on them: the bits that a store writes, or what an atomic makes of its word. -/
def afterEntry (at_ : Nat → Byte) (e : SqEntry) (loc : Nat) : Byte :=
  match e.bytes.find? (fun b => b.1 = loc), e.kind with
  | some (_, m, v), .store => mergeBits (at_ loc) v m
  | some _, .atom op wide b c _ =>
    let n := if wide then 8 else 4
    let first := (e.bytes.map (·.1)).headD 0
    match atomNew op (BitVec.ofNat 64 (natOfBytes ((List.range n).map (fun k => at_ (first + k))))) b c with
    | some x => ((bytesOf n x.toNat)[loc - first]?).getD 0
    | none => at_ loc
  | _, _ => at_ loc

/-- A byte of element i over what stands in memory: the younger entries that the choice has the element see are performed on
it in program order. An element is read whole. -/
def youngOver (s : State) (l : List SqEntry) (i : Nat) (at_ : Nat → Byte) (loc : Nat) : Byte :=
  if s.choice.young = 0 || l.isEmpty then at_ loc else (seenEntries s.choice.young i l).foldl afterEntry at_ loc

/-- A byte of element i of an operation's source at a level. -/
def opByte (s : State) (o : EngOp) (i level loc : Nat) : Byte := youngOver s (youngEntries s o) i (engByte s o.core level) loc

/-- A byte of element i of an operation's source in a scratchpad. -/
def scrByte (s : State) (o : EngOp) (i loc : Nat) : Byte := youngOver s (youngEntries s o) i (memByte s.mem) loc

/-- The ECC of an operation whose walk for an address meets poison (R97, entry 28). -/
def walkLost (s : State) (o : EngOp) (part va : Nat) : Option Trap :=
  (walkPoison s part o.core va).map (fun e => eccTrap e.strct va o.mask)

/-- Write bits of a byte at H(S); HOST bytes after surprise removal are dropped. -/
def engWrite (s : State) (core level loc : Nat) (m v : Byte) : State :=
  if isHostLoc loc && !s.dev.linkUp then s else highWrite s core level loc m v


/-- A context in which an operation's accesses are planned: the wave's core and workgroup, the threads active at issue. -/
def engCtx (o : EngOp) (v : Wave) (g : Wg) : Ctx := { w := o.wave, wave := v, g := g, pb := false, path := v.base, mask := o.mask }

/-- A completion fault becomes pending; one that arises in the drain at a freeze waits for the restoring ERET (R45). -/
def pendEng (s : State) (w : Nat) (t : Trap) (handler : Bool) : State :=
  let p : Pend := { code := t.code, cls := t.cls, tval := t.tval, fmask := t.fmask, pathB := false, handler := handler }
  updWave s w (fun v =>
    if v.frozen then { v with drainFaults := v.drainFaults ++ [p] } else { v with faults := v.faults ++ [p] })

/-- An operation is complete: it leaves, its counter falls by one, and a wave with nothing left ends (R20, R151). -/
def endOp (s : State) (o : EngOp) : State :=
  endIfDone (updWave (dropOp s o.id) o.wave (fun v => cntMap (· - 1) v (cntOfOp o.op))) o.wave

/-- ENGINE_START: the engine takes the next operation from its queue; a Dash array runs one at a time (R117, R355). -/
def execEngineStart (id : Nat) (s : State) : Answer :=
  match getOp s id with
  | none => .next s
  | some o =>
    let e := engOfOp o.op
    let head := ((inQueue s e o.core).head?.map (·.id)) == some id
    let busy := e == .dash && s.ops.any (fun x => x.started && engOfOp x.op = e && sameQueue e o.core x.core)
    if head && !busy then
      .next { s with ops := s.ops.map (fun x => if x.id = id then { x with started := true } else x) }
    else .next s

/-- The operation of an id that has started in an engine. -/
def runningOp (s : State) (e : Eng) (id : Nat) : Option EngOp :=
  match getOp s id with
  | some o => if o.started && engOfOp o.op = e then some o else none
  | none => none

/-- Registers of a range that a completion takes out of a compact form, and that some thread holds written (R53). -/
def compactRegs (v : Wave) (d n : Nat) : Nat :=
  ((List.range n).filter (fun i => (formOf v (d + i)).isSome &&
    (List.range v.threads.length).any (fun q => (vReg v q (d + i)).isSome))).length

/-- The expansions that an operation's results take (R53, R323) are counted on its core (R165). -/
def noteExpand (s : State) (w d n : Nat) : State :=
  match getWave s w with
  | some v => perfAdd s (coreOf w) 5 (compactRegs v d n)
  | none => s

/-- Write registers of the positions active at issue that hold an unexited thread (R323). -/
def engRegs (v : Wave) (d n : Nat) (res : List (Nat × List Word)) : Wave :=
  fullForm (res.foldl (fun v e =>
    if (liveMask v).getLsbD e.1 then
      ((e.2.take n).zipIdx).foldl (fun v x => setVReg v e.1 (d + x.2) x.1) v
    else v) v) d n

/-- Write a predicate of positions. -/
def engPreds (v : Wave) (p : Nat) (res : List (Nat × Bool)) : Wave :=
  res.foldl (fun v e => if (liveMask v).getLsbD e.1 then setPred v e.1 p e.2 else v) v

end Sys2Proof.Machine
end

