-- ==== Sys2Proof/Machine/Matrix.lean ====
section
/-! DEFINITION. The matrix engine: MMA, MMA.T, MMAZ and the tile instructions (09_arithmetic.md R187, R188, R196 to R198,
15_isa_engines.md R329 to R334, R324). -/

namespace Sys2Proof.Machine

/-! Accumulator tiles (R59). -/

/-- A tile's words are numbered row * 32 + column. -/
def tileWord (g : Wg) (t i : Nat) : Word := tabGet 0 g.tiles (t * 1024 + i)

/-- Write all of a tile. -/
def setTile (g : Wg) (t : Nat) (f : Nat → Word) : Wg :=
  let new := (List.range 1024).filterMap (fun i => if f i = 0 then none else some (t * 1024 + i, f i))
  { g with tiles := g.tiles.filter (fun e => decide (e.1 < t * 1024)) ++ new ++ g.tiles.filter (fun e => decide ((t + 1) * 1024 ≤ e.1)),
           tbad := g.tbad.filter (fun k => k / 1024 != t) }

/-- Write one word of a tile. -/
def setTileWord (g : Wg) (t i : Nat) (x : Word) : Wg :=
  { g with tiles := tabSet 0 g.tiles (t * 1024 + i) x, tbad := g.tbad.filter (· != t * 1024 + i) }

/-- A word of a tile whose parity fails (R97). -/
def tileBad (g : Wg) (t : Nat) (words : List Nat) : Bool := words.any (fun i => g.tbad.contains (t * 1024 + i))

/-! The format block (R330). -/

structure Fb where
  sob : Nat
  soa : Nat
  bsc : Bool
  asc : Bool
  bdep : Nat
  adep : Nat
  half : Bool
  acc : Nat
  bf : Nat
  af : Nat
  deriving DecidableEq, Repr

def parseFb (d : DWord) : Fb :=
  let n := d.toNat
  { sob := bits n 40 16, soa := bits n 24 16, bsc := bitN n 21, asc := bitN n 20, bdep := bits n 16 4, adep := bits n 12 4,
    half := bitN n 10, acc := bits n 8 2, bf := bits n 4 4, af := bits n 0 4 }

/-- Integer formats. -/
def intFmt (f : Nat) : Bool := decide (6 ≤ f ∧ f ≤ 9)

/-- R330's conditions. -/
def fbOk (d : DWord) : Bool :=
  let n := d.toNat
  let b := parseFb d
  bits n 56 8 = 0 && bits n 22 2 = 0 && !bitN n 11 && decide (b.af ≤ 9) && decide (b.bf ≤ 9) && b.acc != 3 &&
    (b.acc = 0 || (intFmt b.af && intFmt b.bf)) && ((b.af = 0) == (b.bf = 0)) &&
    (b.af != 0 || (b.acc = 0 && !b.asc && !b.bsc)) && (b.af != 9 || decide (2 ≤ b.adep ∧ b.adep ≤ 8)) &&
    (b.bf != 9 || decide (2 ≤ b.bdep ∧ b.bdep ≤ 8))

/-- Element size in nibbles. -/
def fmtNibbles (f : Nat) : Nat := match f with | 0 => 8 | 1 => 4 | 2 => 4 | 5 => 1 | 8 => 1 | _ => 2

/-- The raw bits of element k of a row of n elements that starts at a byte. -/
def mmaRaw (f n : Nat) (at_ : Nat → Byte) (row k : Nat) : Nat :=
  if f = 9 then
    (List.range 8).foldl (fun acc p => 2 * acc + (if (at_ (row + p * (n / 8) + k / 8)).getLsbD (k % 8) then 1 else 0)) 0
  else elemRaw (match fmtNibbles f with | 1 => .nib (row + k / 2) (k % 2 = 1) | m => .bytes (row + k * (m / 2)) (m / 2)) at_

/-- A bit-plane element read at a depth (R188). -/
def planeVal (raw depth : Nat) (half : Bool) : Int :=
  let x := sextN 8 raw
  let y := x / (2 ^ (8 - depth) : Nat) * (2 ^ (8 - depth) : Nat)
  if half && depth < 8 then y + (2 ^ (7 - depth) : Nat) else y

/-- An integer element. -/
def mmaInt (f depth : Nat) (half : Bool) (raw : Nat) : Int :=
  match f with
  | 6 => sextN 8 raw
  | 7 => raw
  | 8 => sextN 4 raw
  | _ => planeVal raw depth half

/-- An element's exact value (R196). -/
def mmaNum (f depth : Nat) (half : Bool) (raw : Nat) : Num :=
  match f with
  | 0 => decodeF fmtF32 raw
  | 1 => decodeF fmtBf16 raw
  | 2 => decodeF fmtF16 raw
  | 3 => decodeF fmtE4m3 raw
  | 4 => decodeF fmtE5m2 raw
  | 5 => decodeF fmtE2m1 raw
  | _ => .ofInt (mmaInt f depth half raw)

/-- An E8 block scale (R187). -/
def e8 (b : Byte) : Num := if b = 0xFF then .nan else .fin false 1 ((b.toNat : Int) - 127)

/-- T := RoundF32(T + RoundF32(S)) (R196). -/
def accum (t : Word) (s : Num) : Word := rne32 ((f32 t).add false (f32 (rne32 s)))

/-- The slices of an FP32 element (R198). -/
def slices (x : Num) : Num × Num × Num :=
  match x with
  | .fin .. =>
    let hi := decodeF fmtBf16 (encodeF fmtBf16 .rtz false x)
    let d1 := x.add false hi.neg
    let mid := decodeF fmtBf16 (encodeF fmtBf16 .rtz false d1)
    (hi, mid, decodeF fmtBf16 (encodeF fmtBf16 .rne false (d1.add false mid.neg)))
  | _ => (x, .zero, .zero)

/-- A product of one of the first five passes: an infinite or NaN factor gives +0. -/
def finMul (x y : Num) : Num :=
  match x, y with
  | .fin .., .fin .. => x.mul y
  | _, _ => .zero

/-- The six passes: slices of A and B (R198). -/
def passes : List ((Num × Num × Num → Num) × (Num × Num × Num → Num) × Bool) :=
  [((·.1), (·.2.2), true), ((·.2.2), (·.1), true), ((·.2.1), (·.2.1), true), ((·.1), (·.2.1), true), ((·.2.1), (·.1), true),
   ((·.1), (·.1), false)]

/-- One word of the tile after an MMA of G groups: a and b give the raw elements of the word's row and column, sa and sb
their scales by group. -/
def mmaWord (f : Fb) (groups : Nat) (a b : Nat → Nat) (sa sb : Nat → Num) (t : Word) : Word :=
  let ks (g : Nat) : List Nat := (List.range 32).map (fun k => 32 * g + k)
  if f.acc != 0 then
    (List.range groups).foldl (fun t g =>
      let sum : Int := ((ks g).map (fun k => mmaInt f.af f.adep f.half (a k) * mmaInt f.bf f.bdep f.half (b k))).foldl (· + ·) 0
      if f.acc = 1 then t + BitVec.ofInt 32 sum else sat32 (t.toInt + sum)) t
  else if f.af = 0 then
    passes.foldl (fun t p =>
      (List.range groups).foldl (fun t g =>
        accum t (sumNum ((ks g).map (fun k =>
          (if p.2.2 then finMul else Num.mul) (p.1 (slices (decodeF fmtF32 (a k)))) (p.2.1 (slices (decodeF fmtF32 (b k)))))))) t) t
  else
    (List.range groups).foldl (fun t g =>
      accum t (((sumNum ((ks g).map (fun k =>
        (mmaNum f.af f.adep f.half (a k)).mul (mmaNum f.bf f.bdep f.half (b k))))).mul (sa g)).mul (sb g))) t

/-- Numbers of the elements that a product reads, for R176: k of row i of A and of column j of B, and their scale bytes. -/
def elemOfA (kk i k : Nat) : Nat := i * kk + k
def elemOfB (kk j k : Nat) : Nat := 2 ^ 18 + j * kk + k
def scaleOfA (groups i g : Nat) : Nat := 2 ^ 19 + i * groups + g
def scaleOfB (groups j g : Nat) : Nat := 2 ^ 19 + 2 ^ 13 + j * groups + g

/-- All of a tile after an MMA. trans is MMA.T's layout of B; at_ reads a scratchpad byte of an element; a0 and b0 are
locations. -/
def mmaTile (f : Fb) (groups : Nat) (trans zero : Bool) (at_ : Nat → Nat → Byte) (a0 b0 : Nat) (tile : Nat → Word) (w : Nat) : Word :=
  let kk := 32 * groups
  let i := w / 32
  let j := w % 32
  let a (k : Nat) : Nat := mmaRaw f.af kk (at_ (elemOfA kk i k)) (a0 + i * (kk * fmtNibbles f.af / 2)) k
  let b (k : Nat) : Nat :=
    if trans then mmaRaw f.bf 32 (at_ (elemOfB kk j k)) (b0 + k * (32 * fmtNibbles f.bf / 2)) j
    else mmaRaw f.bf kk (at_ (elemOfB kk j k)) (b0 + j * (kk * fmtNibbles f.bf / 2)) k
  let sa (g : Nat) : Num := if f.asc then e8 (at_ (scaleOfA groups i g) (a0 + 16 * f.soa + i * groups + g)) else .one
  let sb (g : Nat) : Num := if f.bsc then e8 (at_ (scaleOfB groups j g) (b0 + 16 * f.sob + j * groups + g)) else .one
  mmaWord f groups a b sa sb (if zero then 0 else tile w)

/-- Bytes of an operand from its base (R331). -/
def mmaExtent (fmt groups : Nat) (scaled : Bool) (so : Nat) : Nat :=
  Nat.max (32 * 32 * groups * fmtNibbles fmt / 2) (if scaled then 16 * so + 32 * groups else 0)

/-! Issue. -/

def feTile (x : FE) : Nat := x.f.toNat

/-- R59. -/
def tileOk (c : Ctx) (x : FE) : Except Trap Unit := legal c (decide (feTile x < c.g.ent.tiles)) (feTile x)

/-- Check 1 with R324: from a pre-emption freeze to the ERET of the restore handler only MDRAIN and MFILL issue. -/
def mxeBits (c : Ctx) (op : Nat) (x : FE) (ok : Bool) : Except Trap Unit :=
  engBits c op x (ok && !(c.wave.span && op != 0x18 && op != 0x19))

def mmaGroups (x : FE) : Nat := bits x.ext.toNat 0 8 + 1
def mmaAcl (x : FE) : Bool := x.ext.getLsbD 8
def mmaBcl (x : FE) : Bool := x.ext.getLsbD 9

/-- The checks of MMA, MMA.T and MMAZ (R331). -/
def mmaCheck (op : Nat) (x : FE) (c : Ctx) : Except Trap (Wave × EngIn) :=
  let a := (rdSpec c 0 x.a 0).toNat
  let b := (rdSpec c 0 x.b x.lit).toNat
  let d := rdPair c 0 x.d 0
  let f := parseFb d
  match allChecks [legal c (isSSpec x.d && x.d.toNat % 2 = 0) x.d.toNat, onceArg c x.a false, onceArg c x.b true,
      mxeBits c op x (bits x.ext.toNat 10 22 = 0), tileOk c x] with
  | .error t => .error t
  | .ok _ =>
    match engRead c [⟨x.d, .pair, false, false⟩, ⟨x.a, .value, false, false⟩, ⟨x.b, .value, true, false⟩] with
    | .error t => .error t
    | .ok v =>
      match allChecks [legal c (fbOk d) x.d.toNat, alignCheck c a 16, alignCheck c b 16,
          extentCheck c (mmaAcl x) a (mmaExtent f.af (mmaGroups x) (f.acc = 0 && f.asc) f.soa),
          extentCheck c (mmaBcl x) b (mmaExtent f.bf (mmaGroups x) (f.acc = 0 && f.bsc) f.sob)] with
      | .error t => .error t
      | .ok _ => .ok (v, { a := BitVec.ofNat 64 a, b := BitVec.ofNat 64 b, d := d })

/-- The issue of MMA, MMA.T and MMAZ (R331). -/
def mmaIssue (s : State) (op : Nat) (x : FE) : Answer :=
  engIssue s op 1 x (mmaCheck op x)

/-- MMA. -/
def execMma (x : FE) (s : State) : Answer := mmaIssue s 0x10 x
/-- MMA.T. -/
def execMmaT (x : FE) (s : State) : Answer := mmaIssue s 0x11 x
/-- MMAZ. -/
def execMmaz (x : FE) (s : State) : Answer := mmaIssue s 0x12 x

/-- The checks of MZERO. -/
def mzeroCheck (x : FE) (c : Ctx) : Except Trap (Wave × EngIn) :=
  match allChecks [mxeBits c 0x13 x true, tileOk c x] with
  | .error t => .error t
  | .ok _ => .ok (c.wave, {})

/-- MZERO (R333). -/
def execMzero (x : FE) (s : State) : Answer :=
  engIssue s 0x13 0 x (mzeroCheck x)

/-- An operation's tile is one that a wave names. -/
def sameTile (s : State) (wg tile : Nat) (o : EngOp) : Bool :=
  engOfOp o.op == .matrix && feTile o.x = tile && ((getWave s o.wave).map (·.wg)) == some wg

/-- R60: an earlier MMA, MMA.T or MMAZ to the tile has not retired. -/
def tileBusy (s : State) (x : FE) (c : Ctx) : Bool :=
  s.ops.any (fun o => sameTile s c.wave.wg (feTile x) o && decide (0x10 ≤ o.op ∧ o.op ≤ 0x12))

/-- The checks of MLD and MST. -/
def tileMoveCheck (op : Nat) (x : FE) (c : Ctx) : Except Trap (Wave × EngIn) :=
  let a := (rdSpec c 0 x.a 0).toNat
  match allChecks [onceArg c x.a false, mxeBits c op x (bits x.ext.toNat 1 31 = 0), tileOk c x,
      parityCheck c [⟨x.a, .value, false, false⟩], alignCheck c a 16, extentCheck c (x.ext.getLsbD 0) a 4096] with
  | .error t => .error t
  | .ok _ => .ok (c.wave, { a := BitVec.ofNat 64 a })

/-- MLD and MST (R333). -/
def tileMove (s : State) (op : Nat) (x : FE) : Answer :=
  engIssueIf s op 1 x (tileBusy s x) (tileMoveCheck op x)

/-- MLD. -/
def execMld (x : FE) (s : State) : Answer := tileMove s 0x14 x
/-- MST. -/
def execMst (x : FE) (s : State) : Answer := tileMove s 0x15 x

/-- The checks of MRD. -/
def mrdCheck (x : FE) (c : Ctx) : Except Trap (Wave × EngIn) :=
  match allChecks [rangeArg c x.d 1, legal c (valueOk c.g x.a false) x.a.toNat, mxeBits c 0x16 x true, tileOk c x] with
  | .error t => .error t
  | .ok _ =>
    match forAll c (engRead c [⟨x.a, .value, false, false⟩]) with
    | .error t => .error t
    | .ok v => .ok (v, { vals := (byTid c.wave c.mask).map (fun q => (q, [rdSpec c q x.a 0])) })

/-- MRD (R333). -/
def execMrd (x : FE) (s : State) : Answer :=
  engIssueIf s 0x16 0 x (tileBusy s x) (mrdCheck x)

/-- The checks of MWR. -/
def mwrCheck (x : FE) (c : Ctx) : Except Trap (Wave × EngIn) :=
  match allChecks [legal c (valueOk c.g x.a false) x.a.toNat, legal c (valueOk c.g x.b true) x.b.toNat, mxeBits c 0x17 x true,
      tileOk c x] with
  | .error t => .error t
  | .ok _ =>
    match forAll c (engRead c [⟨x.a, .value, false, false⟩, ⟨x.b, .value, true, false⟩]) with
    | .error t => .error t
    | .ok v =>
      .ok (v, { vals := (byTid c.wave c.mask).map (fun q => (q, [rdSpec c q x.a 0, rdSpec c q x.b x.lit])) })

/-- MWR (R333). -/
def execMwr (x : FE) (s : State) : Answer :=
  engIssueIf s 0x17 0 x (tileBusy s x) (mwrCheck x)

/-- The space and the address of MDRAIN and MFILL (R334). -/
def drainSpace (c : Ctx) (x : FE) : Nat := (rdSpec c 0 x.b x.lit).toNat
def drainAddr (c : Ctx) (x : FE) : DWord :=
  if drainSpace c x = 0 then rdPair c 0 x.a 0 else (rdSpec c 0 x.a 0).setWidth 64

/-- The checks of MDRAIN and MFILL. -/
def tileSaveCheck (s : State) (op : Nat) (x : FE) (c : Ctx) : Except Trap (Wave × EngIn) :=
  let sp := drainSpace c x
  let a := (drainAddr c x).toNat
  match allChecks [mxeBits c op x true,
      legal c (if heldOnce x.b && sp = 0 then isSSpec x.a && x.a.toNat % 2 = 0 else valueOk c.g x.a false && heldOnce x.a) x.a.toNat,
      onceArg c x.b true, legal c (sp = 0 || sp = 2 || sp = 3 || sp = 4) x.b.toNat, tileOk c x,
      parityCheck c [⟨x.a, if sp = 0 then .pair else .value, false, false⟩, ⟨x.b, .value, true, false⟩],
      alignCheck c a (if sp = 0 || sp = 4 then 128 else 16),
      if sp = 2 then extentCheck c false a 4096 else if sp = 3 then extentCheck c true a 4096
      else if sp = 4 then (if outsideWin s c 4 a 4096 then .error (scratchBounds a c.mask) else .ok ()) else .ok ()] with
  | .error t => .error t
  | .ok _ => .ok (c.wave, { a := BitVec.ofNat 64 a, b := BitVec.ofNat 64 sp })

/-- MDRAIN and MFILL (R334). -/
def tileSave (s : State) (op : Nat) (x : FE) : Answer :=
  engIssue s op 0 x (tileSaveCheck s op x)

/-- MDRAIN. -/
def execMdrain (x : FE) (s : State) : Answer := tileSave s 0x18 x
/-- MFILL. -/
def execMfill (x : FE) (s : State) : Answer := tileSave s 0x19 x

/-! Completion. -/

/-- A matrix operation under way: the state, the workgroup as changed, the first completion fault. -/
structure MxeRun where
  s : State
  g : Wg
  fault : Option Trap

/-- Poison in n scratchpad bytes (R97). -/
def scrPoison (s : State) (o : EngOp) (loc addr n : Nat) : Option Trap :=
  if s.dev.serr.isEmpty then none
  else firstSome (fun i => (poisonAt s [] o.core 0 (loc + i)).map (fun p => eccTrap p.strct (addr + i) o.mask)) (List.range n)

/-- ECC of a tile word: TVAL's offset is not stated, so it is free. -/
def tilePoison (s : State) (g : Wg) (o : EngOp) (words : List Nat) : Option Trap :=
  if tileBad g (feTile o.x) words then some (eccTrap 4 (Config.freeWord s.fresh).toNat o.mask) else none

/-- The first of two faults. -/
def orFault (a b : Option Trap) : Option Trap := match a with | some t => some t | none => b

/-- Where the word i of a saved tile lies (R334). -/
def drainWord (s : State) (o : EngOp) (g : Wg) (kind i : Nat) : Tr :=
  let a := o.a.toNat + 4 * i
  match o.b.toNat with
  | 0 => translate s g.part o.core kind a
  | 2 => .ok (extentLoc o.core g false a)
  | 3 => .ok (extentLoc o.core g true a)
  | _ => .ok (locDs g.part ((rootGraph g.kind).getD 0) a)

/-- The ECC of the walk for word i of a tile that is saved to virtual addresses. -/
def drainEcc (s : State) (o : EngOp) (g : Wg) (i : Nat) : Option Trap :=
  if o.b.toNat = 0 then walkLost s o g.part (o.a.toNat + 4 * i) else none

/-- Where the words that an MDRAIN stores lie. -/
def drainLocs (s : State) (o : EngOp) (g : Wg) : List Nat :=
  if s.dev.serr.isEmpty then []
  else (List.range 1024).flatMap (fun i =>
    match drainEcc s o g i, drainWord s o g 1 i with
    | none, .ok loc => (List.range 4).map (loc + ·)
    | _, _ => [])

/-- MDRAIN: each word that translates is written into H(WG); the first that does not is the completion fault (entry 16). -/
def mdrain (r : MxeRun) (o : EngOp) : MxeRun :=
  (List.range 1024).foldl (fun r i =>
    match drainEcc r.s o r.g i, drainWord r.s o r.g 1 i with
    | some t, _ => { r with fault := orFault r.fault (some t) }
    | none, .fault => { r with fault := orFault r.fault (some (pageFault (o.a.toNat + 4 * i) 1 o.mask)) }
    | none, .sparse => { r with s := updWave r.s o.wave (fun v => setStat v 2) }
    | none, .ok loc =>
      { r with s := ((bytesOf 4 (tileWord r.g (feTile o.x) i).toNat).zipIdx).foldl
                 (fun s b => engWrite s o.core 0 (loc + b.2) 0xFF b.1) (markHost r.s r.g [loc]) }) r

/-- MFILL: likewise; a sparse page reads zero (R92). -/
def mfill (r : MxeRun) (o : EngOp) : MxeRun :=
  (List.range 1024).foldl (fun r i =>
    match drainEcc r.s o r.g i, drainWord r.s o r.g 0 i with
    | some t, _ => { r with fault := orFault r.fault (some t) }
    | none, .fault => { r with fault := orFault r.fault (some (pageFault (o.a.toNat + 4 * i) 0 o.mask)) }
    | none, .sparse => { r with s := updWave r.s o.wave (fun v => setStat v 2), g := setTileWord r.g (feTile o.x) i 0 }
    | none, .ok loc =>
      let lost := if isHostLoc loc && !r.s.dev.linkUp then some (pcieLost (o.a.toNat + 4 * i) o.mask) else none
      let ecc := (poisonAt r.s [] o.core 0 loc).map (fun p => eccTrap p.strct (o.a.toNat + 4 * i) o.mask)
      let x := BitVec.ofNat 32 (natOfBytes ((List.range 4).map (fun k => opByte r.s o i 0 (loc + k))))
      { s := markHost (fixRange r.s o.core 0 loc 4) r.g [loc], g := setTileWord r.g (feTile o.x) i x, fault := orFault r.fault (orFault lost ecc) }) r

/-- The effect of a matrix operation on its tile, its memory and its registers. -/
def mxeRun (s : State) (g : Wg) (o : EngOp) : MxeRun :=
  let t := feTile o.x
  let r : MxeRun := { s := s, g := g, fault := none }
  match o.op with
  | 0x13 => { r with g := setTile g t (fun _ => 0) }
  | 0x14 =>
    let l := extentLoc o.core g (o.x.ext.getLsbD 0) o.a.toNat
    { s := fixRange s o.core 0 l 4096, g := setTile g t (fun i => BitVec.ofNat 32 (natOfBytes ((List.range 4).map (fun k => scrByte s o i (l + 4 * i + k))))),
      fault := scrPoison s o l o.a.toNat 4096 }
  | 0x15 =>
    let l := extentLoc o.core g (o.x.ext.getLsbD 0) o.a.toNat
    { r with
      s := healBytes ((List.range 1024).foldl (fun s i =>
        ((bytesOf 4 (tileWord g t i).toNat).zipIdx).foldl (fun s b => memBits s (l + 4 * i + b.2) 0xFF b.1) s) s)
        o.core 0 ((List.range 4096).map (l + ·)),
      fault := tilePoison s g o (List.range 1024) }
  | 0x16 =>
    let idx (e : Nat × List Word) : Nat := (e.2.headD 0).toNat % 1024
    { r with
      s := updWave (noteExpand s o.wave o.x.d.toNat 1) o.wave (fun v =>
        engRegs v o.x.d.toNat 1 (o.vals.map (fun e => (e.1, [tileWord g t (idx e)])))),
      fault := (tilePoison s g o (o.vals.map idx)).map (fun f =>
        { f with fmask := maskOf ((o.vals.filter (fun e => tileBad g t [idx e])).map (·.1)) }) }
  | 0x17 =>
    { r with g := o.vals.foldl (fun g e => setTileWord g t ((e.2.headD 0).toNat % 1024) ((e.2[1]?).getD 0)) g }
  | 0x18 =>
    let m := mdrain { r with fault := tilePoison s g o (List.range 1024) } o
    { m with s := healBytes m.s o.core 0 (drainLocs s o g) }
  | 0x19 => mfill r o
  | op =>
    let f := parseFb o.d
    let n := mmaGroups o.x
    let la := extentLoc o.core g (mmaAcl o.x) o.a.toNat
    let lb := extentLoc o.core g (mmaBcl o.x) o.b.toNat
    let na := mmaExtent f.af n (f.acc = 0 && f.asc) f.soa
    let nb := mmaExtent f.bf n (f.acc = 0 && f.bsc) f.sob
    { s := fixRange (fixRange s o.core 0 la na) o.core 0 lb nb, g := setTile g t (mmaTile f n (op = 0x11) (op = 0x12) (scrByte s o) la lb (tileWord g t)),
      fault := orFault (if op = 0x12 then none else tilePoison s g o (List.range 1024))
        (orFault (scrPoison s o la o.a.toNat na) (scrPoison s o lb o.b.toNat nb)) }

/-- What a matrix operation that reads no memory writes there: the pieces that an MST or an MDRAIN stores. -/
def mxeWrites (s : State) (o : EngOp) : List (Nat × Nat) :=
  match opCtx s o with
  | none => []
  | some (_, g) =>
    let k := Nat.min 4096 (2 ^ 17 - o.a.toNat % 2 ^ 17)
    match o.op with
    | 0x15 => [(extentLoc o.core g (o.x.ext.getLsbD 0) o.a.toNat, 4096)]
    | 0x18 => [(0, k), (k, 4096 - k)].filterMap (fun e => match drainWord s o g 1 (e.1 / 4) with | .ok l => some (l, e.2) | _ => none)
    | _ => []

/-- Whether a wave runs its save or restore handler. -/
def inSaveHandler (v : Wave) : Bool := wTrap v && ((v.saved.map (fun x => decide (x.code = 0x15))).getD false)

/-- MXE_COMPLETE: a matrix operation completes; on one tile they complete in the order accepted (R329). -/
def execMxeComplete (id : Nat) (s : State) : Answer :=
  match runningOp s .matrix id with
  | none => .next s
  | some o =>
    match opCtx s o with
    | none => .next (dropOp s id)
    | some (v, _) =>
      if s.ops.any (fun p => p.id < id && sameTile s v.wg (feTile o.x) p) then .next s
      else
        let s1 := engRelease (engOverwrite s o (mxeWrites s o)) o
        match getWg s1 v.wg with
        | none => .next s1
        | some g =>
          let r := mxeRun s1 g o
          let s2 := { updWg r.s v.wg (fun g => { g with tiles := r.g.tiles, tbad := r.g.tbad }) with fresh := s.fresh + 1 }
          let handler := (o.op = 0x18 || o.op = 0x19) && inSaveHandler v
          .next (endOp (match r.fault with | some t => pendEng s2 o.wave t handler | none => s2) o)

end Sys2Proof.Machine
end

