-- ==== Sys2Proof/Machine/Baton.lean ====
section
/-! DEFINITION. Baton: weight handles, the network of a row, gathering rows into tiles, NEVAL, NEVAL.U, NEVAL.F32
(06_tables.md R136 to R138, 09_arithmetic.md R199, 15_isa_engines.md R335 to R339). -/

namespace Sys2Proof.Machine

/-! Weight handles (R136). -/

/-- A layer's descriptor. -/
structure Layer where
  half : Bool
  act : Nat
  depth : Nat
  fmt : Nat
  nout : Nat
  mbz : Bool
  deriving DecidableEq, Repr

def parseLayer (d : DWord) : Layer :=
  let n := d.toNat
  { half := bitN n 14, act := bits n 12 2, depth := bits n 8 4, fmt := bits n 6 2, nout := bits n 0 6 + 1, mbz := bits n 15 49 != 0 }

/-- A handle's entry. -/
structure Handle where
  nin : Nat
  layers : List Layer
  valid : Bool
  wbase : Nat
  mbz : Bool
  deriving DecidableEq, Repr

def parseHandle (w : List DWord) : Handle :=
  let q (i : Nat) : DWord := (w[i]?).getD 0
  let n0 := (q 0).toNat
  { nin := bits n0 8 6 + 1, layers := (List.range (bits n0 1 2 + 1)).map (fun l => parseLayer (q (l + 2))), valid := bitN n0 0,
    wbase := bits (q 1).toNat 0 57,
    mbz := bits n0 14 50 != 0 || bits n0 3 5 != 0 || bits (q 1).toNat 57 7 != 0 || q 6 != 0 || q 7 != 0 }

/-- R138 on an entry that was read. -/
def handleBad (h : Handle) : Bool :=
  !h.valid || h.mbz || h.wbase % 128 != 0 ||
    h.layers.any (fun l => l.mbz || l.fmt = 3 || l.act = 3 || (l.fmt = 2 && !decide (2 ≤ l.depth ∧ l.depth ≤ 8)))

/-- WHTAB fields (R66). -/
def whBase (t : DWord) : Nat := bits t.toNat 12 45 * 4096
def whCount (t : DWord) : Nat := countOf t 12 65536

/-! The weight block (R137). -/

def rowBytes (l : Layer) (nin : Nat) : Nat := match l.fmt with | 0 => 2 * nin | 1 => nin | _ => 8 * ((nin + 7) / 8)

def rowStride (l : Layer) (nin : Nat) : Nat := roundUp (rowBytes l nin + (nin + 31) / 32) 16

/-- Layers with their inputs and the offsets of their blocks. -/
def layout : List Layer → Nat → Nat → List (Layer × Nat × Nat)
  | [], _, _ => []
  | l :: t, nin, off => (l, nin, off) :: layout t l.nout (off + roundUp (l.nout * rowStride l nin + 4 * l.nout) 128)

/-- Offsets of the bytes that a layer's rows and biases take. -/
def layerBytes (l : Layer × Nat × Nat) : List Nat :=
  let st := rowStride l.1 l.2.1
  (List.range l.1.nout).flatMap (fun o =>
    (List.range (rowBytes l.1 l.2.1 + (l.2.1 + 31) / 32)).map (fun i => l.2.2 + o * st + i)) ++
  (List.range (4 * l.1.nout)).map (fun i => l.2.2 + l.1.nout * st + i)

/-- A weight's exact value, its group's scale left aside. bytes gives the bytes of an element (R176): a weight is element 8 * row
+ i of its block, a scale or a bias eight times its offset. -/
def weightNum (l : Layer) (nin : Nat) (bytes : Nat → Nat → Byte) (row i : Nat) : Num :=
  let at_ := bytes (8 * row + i)
  match l.fmt with
  | 0 => decodeF fmtBf16 (natOfBytes [at_ (row + 2 * i), at_ (row + 2 * i + 1)])
  | 1 => decodeF fmtE4m3 (at_ (row + i)).toNat
  | _ =>
    let pb := (nin + 7) / 8
    .ofInt (planeVal ((List.range 8).foldl (fun acc p =>
      2 * acc + (if (at_ (row + p * pb + i / 8)).getLsbD (i % 8) then 1 else 0)) 0) l.depth l.half)

/-- Activations (R199). -/
def activate (act : Nat) (u : Word) : Word :=
  let x := f32 u
  if x.isNan then 0x7FC00000
  else match act with
    | 1 => if Num.zero.lt x then u else 0
    | 2 => if Num.one.lt x then 0x3F800000 else if Num.zero.lt x then u else 0
    | _ => u

/-- One output of a layer. -/
def neuron (l : Layer × Nat × Nat) (bytes : Nat → Nat → Byte) (h : Nat → Num) (o : Nat) : Word :=
  let nin := l.2.1
  let st := rowStride l.1 nin
  let row := l.2.2 + o * st
  let z := (List.range ((nin + 31) / 32)).foldl (fun t g =>
    let ks := ((List.range 32).map (fun k => 32 * g + k)).filter (fun k => decide (k < nin))
    accum t ((sumNum (ks.map (fun k => (weightNum l.1 nin bytes row k).mul (h k)))).mul (e8 (bytes (8 * (row + rowBytes l.1 nin + g)) (row + rowBytes l.1 nin + g))))) 0
  let b := l.2.2 + l.1.nout * st + 4 * o
  let bias := BitVec.ofNat 32 (natOfBytes ((List.range 4).map (fun i => bytes (8 * b) (b + i))))
  activate l.1.act (fAdd .rne z bias)

/-- The layers of a row: the last layer's outputs, unrounded (R199). -/
def network : List (Layer × Nat × Nat) → (Nat → Nat → Byte) → (Nat → Num) → List Word
  | [], _, _ => []
  | [l], bytes, h => (List.range l.1.nout).map (neuron l bytes h)
  | l :: t, bytes, h =>
    let y := (List.range l.1.nout).map (neuron l bytes h)
    network t bytes (fun i => match y[i]? with | some u => decodeF fmtF16 (narrow fmtF16 u) | none => .zero)

/-! Dispatching a tile. -/

/-- What fetching a tile's weights gives. -/
structure Fetched where
  bytes : List (Nat × Byte)
  fault : Option Trap
  /-- The rows have no results (R339). -/
  dead : Bool
  /-- The locations of the bytes, with their offsets. -/
  at_ : List (Nat × Nat) := []
  deriving DecidableEq, Repr

/-- The locations of the bytes. -/
def Fetched.locs (f : Fetched) : List Nat := f.at_.map (·.2)

/-- The byte at an offset as element i of the read takes it (R176). young holds the younger entries of the waves whose
operations make it. -/
def Fetched.byte (s : State) (young : List SqEntry) (f : Fetched) (i o : Nat) : Byte :=
  let b := ((f.bytes.find? (fun e => e.1 = o)).map (·.2)).getD 0
  if s.choice.young = 0 || young.isEmpty then b
  else
    match f.at_.find? (fun e => e.1 = o) with
    | some e => youngOver s young i (fun l => (devBytes s l 1).headD 0) e.2
    | none => b

/-- The bytes at offsets from WBASE through the DEVICE view, and the fault that they meet. A HOST byte after surprise
removal reads all ones (R95). -/
def fetchWeights (s : State) (part core base : Nat) (offs : List Nat) : Fetched :=
  let tr := offs.map (fun o => (o, translate s part core 0 (base + o)))
  let walked := firstSome (fun o => (walkPoison s part core (base + o)).map (fun e => eccTrap e.strct (base + o) 0)) offs
  match walked, tr.find? (fun e => e.2 == .fault) with
  | some t, _ => { bytes := [], fault := some t, dead := true }
  | none, some e => { bytes := [], fault := some (pageFault (base + e.1) 0 0), dead := true }
  | none, none =>
    match tr.find? (fun e => match e.2 with | .ok l => (poisonAt s [] core 3 l).isSome | _ => false) with
    | some e =>
      let st := match e.2 with | .ok l => ((poisonAt s [] core 3 l).map (·.strct)).getD 0 | _ => 0
      { bytes := [], fault := some (eccTrap st (base + e.1) 0), dead := true }
    | none =>
      let lost := tr.find? (fun e => match e.2 with | .ok l => isHostLoc l && !s.dev.linkUp | _ => false)
      { bytes := tr.map (fun e => (e.1, match e.2 with
          | .ok l => (devBytes s l 1).headD 0
          | _ => 0)),
        fault := lost.map (fun e => pcieLost (base + e.1) 0), dead := false,
        at_ := tr.filterMap (fun e => match e.2 with | .ok l => some (e.1, l) | _ => none) }

/-- A tile's rows evaluated: results and the fault of its fetch. -/
structure TileRun where
  outs : List (Bool × List Word)
  fault : Option Trap
  invalid : Bool
  touched : List Nat
  /-- Locations of the bytes read. -/
  locs : List Nat := []
  deriving DecidableEq, Repr

/-- The number of doubleword k of a handle's entry among the elements that a tile reads. -/
def handleElem (k : Nat) : Nat := 2 ^ 19 + k

/-- The evaluation of a tile: its entry and weights are read now (R138, R336). An entry that the loss of the host makes all ones
is PCIE_LOST, not an invalid handle (R95, R322, R382). -/
def runTile (s : State) (young : List SqEntry) (part core : Nat) (t : BTile) : TileRun :=
  let none' (f : Option Trap) (inv : Bool) (l locs : List Nat) : TileRun :=
    { outs := t.rows.map (fun _ => (false, [])), fault := f, invalid := inv, touched := l, locs := locs }
  if whCount t.whtab ≤ t.handle then none' none true [] []
  else
    let a := whBase t.whtab + 64 * t.handle
    let ent := fetchWeights s part core a (List.range 64)
    if ent.dead then none' ent.fault false [a] []
    else
      let d (i : Nat) : DWord :=
        BitVec.ofNat 64 (natOfBytes ((List.range 8).map (fun k => ent.byte s young (handleElem i) (8 * i + k))))
      let h := parseHandle ((List.range 8).map d)
      if handleBad h then none' ent.fault ent.fault.isNone [a] ent.locs
      else
        let ls := layout h.layers h.nin 0
        let offs := ls.flatMap layerBytes
        let w := fetchWeights s part core h.wbase offs
        let pages := a :: (offs.map (fun o => (h.wbase + o) / 2 ^ 17 * 2 ^ 17)).eraseDups
        if w.dead then none' w.fault false pages ent.locs
        else
          { outs := t.rows.map (fun r =>
              (true, network ls (w.byte s young) (fun i => match r.ins[i]? with | some x => decodeF fmtF16 x.toNat | none => .zero))),
            fault := orFault ent.fault w.fault, invalid := false, touched := pages, locs := ent.locs ++ w.locs }

/-- The partition of a Baton tile: that of its first row's wave. -/
def tilePart (s : State) (t : BTile) : Nat :=
  match t.rows with
  | r :: _ =>
    match getOp s r.op with
    | some o => match opCtx s o with | some (_, g) => g.part | none => 0
    | none => 0
  | [] => 0

/-- The younger entries of the waves whose operations have rows in a tile (R176). Their older ones have drained. -/
def youngRows (s : State) (t : BTile) : List SqEntry :=
  (((t.rows.filterMap (fun r => (getOp s r.op).map (·.wave))).eraseDups).flatMap (fun w =>
    match (t.rows.filterMap (fun r => getOp s r.op)).find? (fun o => o.wave = w) with
    | some o => youngEntries s o
    | none => []))

/-- The release at WG that the reads of a tile's operations meet before Baton fetches for it (R174; entry 41). -/
def releaseRows (s : State) (t : BTile) : State :=
  ((t.rows.map (·.op)).eraseDups).foldl (fun s i => match getOp s i with | some o => engRelease s o | none => s) s

/-- DISPATCH of a filling tile: events BATONTILE and BATONPAD (R165, R337). The cause of rows without results is kept as
a pending fault of class 2, HANDLE_INVALID, or the fetch's own. -/
def dispatchTile (s0 : State) (id : Nat) : State :=
  match s0.btiles.find? (fun t => t.id = id && !t.dispatched) with
  | none => s0
  | some t =>
    let s := releaseRows s0 t
    let part := tilePart s t
    let r := runTile s (youngRows s t) part t.core t
    let f : Option Trap := if r.invalid then some (handleInvalid t.handle 0) else r.fault
    let p : Option Pend := f.map (fun f => { code := f.code, cls := f.cls, tval := f.tval, fmask := f.fmask, pathB := false })
    let t1 : BTile := { t with dispatched := true, outs := r.outs, fault := p }
    let s1 := fixBytes { s with btiles := s.btiles.map (fun x => if x.id = id then t1 else x) } [] t.core 3 r.locs
    let gs := ((t.rows.filterMap (fun r => (getOp s r.op).map (·.wave))).eraseDups).filterMap (fun w =>
      (getWave s w).bind (fun v => getWg s v.wg))
    let s2 := r.touched.foldl (fun s a => gs.foldl (fun s g => markTable s g t.core a 1) s) s1
    perfAdd (perfAdd s2 t.core 8 1) t.core 9 (32 - t.rows.length)

/-- Every filling tile of a core is dispatched (R337, at a freeze). -/
def dispatchAll (s : State) (core : Nat) : State :=
  ((s.btiles.filter (fun t => t.core = core && !t.dispatched)).map (·.id)).foldl dispatchTile s

/-! Gathering (R337). -/

/-- The gathering keys that hold a core's slots. -/
def heldKeys (s : State) (core : Nat) : List (DWord × Nat) :=
  ((s.btiles.filter (fun t => t.core = core)).map (fun t => (t.whtab, t.handle))).eraseDups

/-- A key has, or can have, one of the 8 slots. -/
def keyRoom (s : State) (core : Nat) (whtab : DWord) (h : Nat) : Bool :=
  (heldKeys s core).contains (whtab, h) || decide ((heldKeys s core).length < 8)

/-- A row enters the filling tile of its key, or opens one; the 32nd dispatches it. -/
def enterRow (core : Nat) (whtab : DWord) (h : Nat) (s : State) (r : Row) : State :=
  match s.btiles.find? (fun t => t.core = core && t.whtab = whtab && t.handle = h && !t.dispatched) with
  | some t =>
    let s1 := { s with btiles := s.btiles.map (fun x => if x.id = t.id then { x with rows := x.rows ++ [r] } else x) }
    if 32 ≤ t.rows.length + 1 then dispatchTile s1 t.id else s1
  | none =>
    let t : BTile := {
      id := s.nextId, core := core, whtab := whtab, handle := h, rows := [r], openedAt := s.dev.cycle, dispatched := false,
      outs := [], fault := none }
    { s with nextId := s.nextId + 1, btiles := s.btiles ++ [t] }

/-- Groups enter in order while their keys have slots. -/
def enterGroups (core : Nat) (whtab : DWord) : List (Nat × List Row) → State → State × List (Nat × List Row)
  | [], s => (s, [])
  | (h, rows) :: t, s =>
    if keyRoom s core whtab h then enterGroups core whtab t (rows.foldl (enterRow core whtab h) s) else (s, (h, rows) :: t)

/-- A path that waited for the groups of an operation goes on, n words further. -/
def endBatonPath (id n : Nat) (x : Path) : Path := match x.wait with | .baton i => if i = id then stepPath x n else x | _ => x

/-- The wave after that. -/
def endBatonWait (id n : Nat) (v : Wave) : Wave :=
  let v1 := mapPaths (endBatonPath id n) v
  let moved (pb : Bool) : Bool := (pathOf v1 pb).map (·.pc) != (pathOf v pb).map (·.pc)
  stepPend (stepArmed v && (moved false || moved true)) (moved true) v1

/-- The waiting groups of an operation enter as far as they can, under the WHTAB that it read at its issue (R337); when none
waits its path goes on. -/
def batonProgress (s : State) (o : EngOp) : State :=
  match s.bres.find? (fun b => b.op = o.id), getWave s o.wave with
  | some b, some _ =>
    let (s1, left) := enterGroups o.core b.whtab b.waiting s
    let s2 := { s1 with bres := s1.bres.map (fun x => if x.op = o.id then { x with waiting := left } else x) }
    if left.isEmpty then updWave s2 o.wave (endBatonWait o.id (feWords 1 o.x)) else s2
  | _, _ => s

/-- The issue of a Baton instruction with its groups: it stalls, or its operation begins and its groups enter. -/
def batonIssue (s : State) (c : Ctx) (op : Nat) (x : FE) (v : Wave) (i : EngIn) (groups : List (Nat × List (Nat × List (BitVec 16)))) :
    State :=
  let first := (groups.head?.map (·.1)).getD 0
  if engStall s c op || !keyRoom s c.core c.wave.csr.whtab first then hold s c .stall
  else
    let id := s.nextId
    let s1 := addOp (setWave (engTables s c op x) c.w v) c op x i true
    let rows := groups.map (fun g => (g.1, g.2.map (fun e => ({ op := id, pos := e.1, ins := e.2 } : Row))))
    let b : BRes := { op := id, whtab := c.wave.csr.whtab, outs := [], left := (positions c.mask).length, waiting := rows, fault := [], invalid := [] }
    let s2 := hold { s1 with bres := s1.bres ++ [b] } c (.baton id)
    match s2.ops.getLast? with
    | some o => batonProgress s2 o
    | none => s2

/-- Threads by handle, in ascending order of each handle's lowest %tid. -/
def handleGroups (qs : List Nat) (h : Nat → Nat) (ins : Nat → List (BitVec 16)) : List (Nat × List (Nat × List (BitVec 16))) :=
  ((qs.map h).eraseDups).map (fun k => (k, (qs.filter (fun q => h q = k)).map (fun q => (q, ins q))))

/-! The NEVAL family (R335). -/

def nvN (x : FE) : Nat := bits x.ext.toNat 0 4 + 1
def nvM (x : FE) : Nat := bits x.ext.toNat 4 4 + 1
def nvPred (x : FE) : Nat := bits x.ext.toNat 8 3

/-- n FP16 values of a position, two per register. -/
def halvesOf (c : Ctx) (q : Nat) (r : Reg) (n : Nat) : List (BitVec 16) :=
  (List.range n).map (fun i => (((vReg c.wave q (r.toNat + i / 2)).getD 0) >>> (16 * (i % 2))).setWidth 16)

/-- The path's Baton operation, while groups of it wait: they try again. -/
def batonRetry (s : State) (id : Nat) : State := match getOp s id with | some o => batonProgress s o | none => s

/-- The checks of the NEVAL family. -/
def nevalCheck (op : Nat) (x : FE) (once wide : Bool) (c : Ctx) : Except Trap Wave :=
  let ni := (nvN x + 1) / 2
  match allChecks [rangeArg c x.d (if wide then nvM x else (nvM x + 1) / 2),
      legal c (valueOk c.g x.a false && (!once || heldOnce x.a)) x.a.toNat, rangeArg c x.b ni,
      engBits c op x (bits x.ext.toNat 11 21 = 0 && x.f = 0)] with
  | .error t => .error t
  | .ok _ => engRead c (⟨x.a, .value, false, false⟩ :: rangeSrcs x.b ni)

/-- The issue of the NEVAL family. -/
def neval (s : State) (op : Nat) (x : FE) (once wide : Bool) : Answer :=
  issue s fun c =>
    match c.path.wait with
    | .baton id => .ok (batonRetry s id)
    | _ =>
      match nevalCheck op x once wide c with
      | .error t => .error t
      | .ok v =>
        .ok (batonIssue s c op x v {} (handleGroups (byTid c.wave c.mask) (fun q => (rdSpec c q x.a 0).toNat % 65536)
          (fun q => halvesOf c q x.b (nvN x))))

/-- NEVAL. -/
def execNeval (x : FE) (s : State) : Answer := neval s 0x20 x false false
/-- NEVAL.U. -/
def execNevalU (x : FE) (s : State) : Answer := neval s 0x21 x true false
/-- NEVAL.F32. -/
def execNevalF32 (x : FE) (s : State) : Answer := neval s 0x22 x false true

/-! Completion (R338, R339). -/

/-- Outputs requested by an operation; TEXN asks for 4. -/
def opOuts (o : EngOp) : Nat := if o.op = 0x2D then 4 else nvM o.x

/-- Output o of a row as FP16: 0x7E00 of an invalid row, +0 beyond the last layer. -/
def outHalf (r : Bool × List Word) (o : Nat) : Nat :=
  if !r.1 then 0x7E00 else match r.2[o]? with | some u => narrow fmtF16 u | none => 0

/-- The registers of a row's results. -/
def rowRegs (o : EngOp) (r : Bool × List Word) : List Word :=
  if o.op = 0x22 then
    (List.range (opOuts o)).map (fun i => if !r.1 then 0x7FC00000 else (r.2[i]?).getD 0)
  else
    (List.range ((opOuts o + 1) / 2)).map (fun i =>
      BitVec.ofNat 32 (outHalf r (2 * i) + (if 2 * i + 1 < opOuts o then outHalf r (2 * i + 1) * 65536 else 0)))

/-- HANDLE_INVALID of an operation: its invalid threads, and the handle of the lowest of them (R339). -/
def invalidTrap (v : Wave) (b : BRes) : Option Trap :=
  match byTid v (maskOf (b.invalid.map (·.1))) with
  | [] => none
  | q :: _ => some (handleInvalid (((b.invalid.find? (fun e => e.1 = q)).map (·.2)).getD 0) (maskOf (b.invalid.map (·.1))))

/-- An operation whose rows are all done writes its results and ends. -/
def finishBaton (s : State) (o : EngOp) (b : BRes) : State :=
  let pred := nvPred o.x
  let n := match (b.outs.head?).map (fun e => rowRegs o e.2) with | some l => l.length | none => 0
  let s0 := noteExpand { s with bres := s.bres.filter (fun x => x.op != o.id) } o.wave o.x.d.toNat n
  let s1 := updWave s0 o.wave (fun v =>
    let v1 := engRegs v o.x.d.toNat n (b.outs.map (fun e => (e.1, rowRegs o e.2)))
    let bad := b.outs.any (fun e => !e.2.1)
    setStatIf { engPreds v1 pred (b.outs.map (fun e => (e.1, e.2.1))) with hfOpen := v.hfOpen || (bad && !v.csr.wstat.getLsbD 4) } bad 4)
  let s2 := b.fault.foldl (fun s p =>
    pendEng s o.wave { code := p.code, cls := p.cls, tval := p.tval, fmask := p.fmask, ur := false } false) s1
  let s3 := match getWave s2 o.wave with
    | some v => match (if wStrict v then invalidTrap v b else none) with | some t => pendEng s2 o.wave t false | none => s2
    | none => s2
  endOp s3 o

/-- An operation completes when no row of it is left and no earlier one of its wave is under way. -/
def tryFinish (s : State) (id : Nat) : State :=
  match getOp s id, s.bres.find? (fun b => b.op = id) with
  | some o, some b =>
    if b.left = 0 && b.waiting.isEmpty &&
        !s.ops.any (fun p => decide (p.id < id) && p.wave = o.wave && engOfOp p.op == .baton) then finishBaton s o b
    else s
  | _, _ => s

/-- A row's result goes to its operation. -/
def giveRow (t : BTile) (bs : List BRes) (e : Row × Bool × List Word) : List BRes :=
  bs.map (fun b =>
    if b.op = e.1.op then
      { b with outs := b.outs ++ [(e.1.pos, e.2)], left := b.left - 1,
               invalid := if e.2.1 || (t.fault.map (·.code)) != some 0x0C then b.invalid else b.invalid ++ [(e.1.pos, t.handle)] }
    else b)

/-- A fetch fault goes to every operation with rows in the tile, for its threads there. -/
def giveFault (t : BTile) (bs : List BRes) : List BRes :=
  match t.fault with
  | none => bs
  | some p =>
    if p.code = 0x0C then bs
    else bs.map (fun b =>
      match (t.rows.filter (fun r => r.op = b.op)).map (·.pos) with
      | [] => b
      | l => { b with fault := b.fault ++ [{ p with fmask := maskOf l }] })

/-- BATON_TILE_DONE: the tile's rows have their results; groups that waited for its key's slot enter; operations whose
last tile it was complete, in order. -/
def execBatonTileDone (id : Nat) (s : State) : Answer :=
  match s.btiles.find? (fun t => t.id = id && t.dispatched) with
  | none => .next s
  | some t =>
    let b1 := giveFault t ((t.rows.zip t.outs).foldl (giveRow t) s.bres)
    let s1 := { s with btiles := s.btiles.filter (fun x => x.id != id), bres := b1 }
    let s2 := ((s1.bres.filter (fun b => !b.waiting.isEmpty)).map (·.op)).foldl (fun s i =>
      match getOp s i with | some o => if o.core = t.core then batonProgress s o else s | none => s) s1
    .next (((s2.bres).map (·.op)).foldl tryFinish s2)

/-- BATON_TIMEOUT: the filling tile of a core that is numbered key is dispatched 64 cycles after its first row. -/
def execBatonTimeout (core key : Nat) (s : State) : Answer :=
  match s.btiles.find? (fun t => t.id = key && t.core = core && !t.dispatched) with
  | none => .next s
  | some t => if t.openedAt + 64 ≤ s.dev.cycle then .next (dispatchTile s key) else .next s

end Sys2Proof.Machine
end

