-- ==== Sys2Proof/Machine/Dash.lean ====
section
/-! DEFINITION. The Dash array: DLOAD, DWIN, DLAUNCH, DLAUNCH.R, DCAPT, DCAPT.W, DRESET, and its replay (09_arithmetic.md R204,
R205, 16_isa_dash_graph.md R349 to R356). -/

namespace Sys2Proof.Machine

/-- NEVER and OPEN (R204). -/
def never : Nat := 1023

/-- A delay of the array. -/
def dashCell (d : Dash) (i j : Nat) : Nat := tabGet never d.cells (i * 128 + j)

/-- s_ij over the connected rows of a column: row and value (R204). -/
def dashRows (d : Dash) (ins : Nat → Nat) (j : Nat) : List (Nat × Nat) :=
  (List.range 128).filterMap (fun i =>
    let c := dashCell d i j
    if c = never then none
    else some (i, if ins i = never || 1022 < ins i + c then never else ins i + c))

/-- The row and value that a column gives: the least, or the greatest, ties to the lowest row; NEVER has no winner. -/
def dashOut (max : Bool) (rows : List (Nat × Nat)) : Nat × Nat :=
  if max && rows.any (fun r => r.2 = never) then (never, 255)
  else
    let best := rows.foldl (fun (b : Option (Nat × Nat)) r =>
      match b with
      | none => some r
      | some x => if (if max then x.2 < r.2 else r.2 < x.2) then some r else b) none
    match best with
    | none => (never, 255)
    | some (i, v) => if v = never then (never, 255) else (v, i)

/-- A launch (R352). -/
def dashLaunch (d : Dash) (max : Bool) (ins : Nat → Nat) : Dash :=
  let res := (List.range 128).map (fun j => (j, dashOut max (dashRows d ins j)))
  { d with
    out := res.filterMap (fun r => if r.2.1 = never then none else some (r.1, r.2.1)),
    win := res.filterMap (fun r => if r.2.2 = 255 then none else some (r.1, r.2.2)),
    maxMode := max, lwin := d.w, max := max }

/-- Load rows of delays; val gives the halfword at a byte offset from A (R350). -/
def dashLoadRows (d : Dash) (row0 n : Nat) (val : Nat → Nat) : Dash :=
  { d with cells := (List.range n).foldl (fun t r =>
      (List.range 128).foldl (fun t j => tabSet never t ((row0 + r) * 128 + j) (val (256 * r + 2 * j) % 1024)) t) d.cells }

/-- An entry of the replay list loads a row. -/
def entRow (r : Nat) (e : DashEnt) : Bool := decide (e.row0 ≤ r ∧ r < e.row0 + e.n)

/-- The entries that are the latest for at least one row, in order (R350). -/
def latestEnts : List DashEnt → List DashEnt
  | [] => []
  | e :: t =>
    if (List.range e.n).any (fun i => !t.any (entRow (e.row0 + i))) then e :: latestEnts t else latestEnts t

/-- The replay list after a DLOAD: every remaining entry is the latest for at least one row, so an earlier entry that later
ones load between them is dropped as well (entry 56, DEDUCED). -/
def replayAdd (l : List DashEnt) (e : DashEnt) : List DashEnt := latestEnts (l ++ [e])

/-- DRESET: the launch mode and the launch window take their reset values with the latches (R349, R354). -/
def dashReset (d : Dash) : Dash :=
  { d with cells := [], out := [], win := [], replay := [], loaded := false, max := false, maxMode := false, lwin := never }

/-! Issue. -/

/-- DASH_OWN, after check 1 of R322 (R349); R221 has checked the specifiers before. -/
def dashHeld (s : State) (c : Ctx) : Except Trap Unit :=
  if dashOwned (getDash s (clusterOf c.core)) c.wave.wg then .ok () else .error (dashOwn c.mask)

def dlRow0 (x : FE) : Nat := bits x.ext.toNat 0 7
def dlN (x : FE) : Nat := bits x.ext.toNat 8 7 + 1
def dlCl (x : FE) : Bool := x.ext.getLsbD 15

/-- The checks of a D* that names n bytes of a scratchpad. -/
def dashMemCheck (s : State) (op : Nat) (x : FE) (mbz cl : Bool) (n : Nat) (more : Ctx → Except Trap Unit) (c : Ctx) : Except Trap (Wave × EngIn) :=
  let a := (rdSpec c 0 x.a 0).toNat
  match allChecks [onceArg c x.a false, engBits c op x mbz, dashHeld s c, more c] with
  | .error t => .error t
  | .ok _ =>
    match engRead c [⟨x.a, .value, false, false⟩] with
    | .error t => .error t
    | .ok v =>
      match allChecks [alignCheck c a 16, extentCheck c cl a n] with
      | .error t => .error t
      | .ok _ => .ok (v, { a := BitVec.ofNat 64 a })

/-- A D* that names n bytes of a scratchpad. -/
def dashMem (s : State) (op : Nat) (x : FE) (mbz : Bool) (cl : Bool) (n : Nat) (more : Ctx → Except Trap Unit) : Answer :=
  engIssue s op 1 x (dashMemCheck s op x mbz cl n more)

/-- DLOAD (R350). -/
def execDload (x : FE) (s : State) : Answer :=
  dashMem s 0x38 x (bits x.ext.toNat 16 16 = 0 && !x.ext.getLsbD 7 && x.f = 0) (dlCl x) (256 * dlN x)
    (fun c => legal c (decide (dlRow0 x + dlN x ≤ 128)) (dlRow0 x + dlN x))

/-- The checks of DWIN. -/
def dwinCheck (s : State) (x : FE) (c : Ctx) : Except Trap (Wave × EngIn) :=
  let a := (rdSpec c 0 x.a 0).toNat
  match allChecks [onceArg c x.a false, engBits c 0x39 x (x.f = 0), dashHeld s c, legal c (decide (1 ≤ a ∧ a ≤ 1023)) a] with
  | .error t => .error t
  | .ok _ =>
    match engRead c [⟨x.a, .value, false, false⟩] with
    | .error t => .error t
    | .ok v => .ok (v, { a := BitVec.ofNat 64 a })

/-- DWIN (R351). -/
def execDwin (x : FE) (s : State) : Answer :=
  engIssue s 0x39 0 x (dwinCheck s x)

/-- The mode bit of a launch. -/
def dashMode (x : FE) : Bool := x.f.getLsbD 0

/-- DLAUNCH (R352). -/
def execDlaunch (x : FE) (s : State) : Answer :=
  dashMem s 0x3A x (bits x.ext.toNat 1 31 = 0 && x.f.extractLsb' 1 2 == 0) (x.ext.getLsbD 0) 256 (fun _ => .ok ())

/-- The checks of DLAUNCH.R. Any value operand may stand in A, though the syntax writes v (entry 69, DESIGN CHOICE). -/
def dlaunchRCheck (s : State) (x : FE) (c : Ctx) : Except Trap (Wave × EngIn) :=
  match allChecks [legal c (valueOk c.g x.a false) x.a.toNat, engBits c 0x3B x (x.f.extractLsb' 1 2 == 0), dashHeld s c] with
  | .error t => .error t
  | .ok _ =>
    match engRead c [⟨x.a, .value, false, false⟩] with
    | .error t => .error t
    | .ok v => .ok (v, { vals := (byTid c.wave c.mask).map (fun q => (tidAt c.wave q, [rdSpec c q x.a 0])) })

/-- DLAUNCH.R (R352): inputs by %tid. -/
def execDlaunchR (x : FE) (s : State) : Answer :=
  engIssue s 0x3B 0 x (dlaunchRCheck s x)

/-- DCAPT (R353). -/
def execDcapt (x : FE) (s : State) : Answer :=
  dashMem s 0x3C x (bits x.ext.toNat 1 31 = 0 && x.f = 0) (x.ext.getLsbD 0) 256 (fun _ => .ok ())

/-- DCAPT.W (R353). -/
def execDcaptW (x : FE) (s : State) : Answer :=
  dashMem s 0x3D x (bits x.ext.toNat 1 31 = 0 && x.f = 0) (x.ext.getLsbD 0) 256 (fun _ => .ok ())

/-- The checks of DRESET. -/
def dresetCheck (s : State) (x : FE) (c : Ctx) : Except Trap (Wave × EngIn) :=
  match allChecks [engBits c 0x3E x (x.f = 0), dashHeld s c] with
  | .error t => .error t
  | .ok _ => .ok (c.wave, {})

/-- DRESET (R354). -/
def execDreset (x : FE) (s : State) : Answer :=
  engIssue s 0x3E 0 x (dresetCheck s x)

/-! Running an operation. -/

/-- A halfword of a scratchpad. -/
def scrHalf (s : State) (loc : Nat) : Nat := natOfBytes [memByte s.mem loc, memByte s.mem (loc + 1)]

/-- The same as an operation's read takes it: each halfword is an element of its own (R355). -/
def opHalf (s : State) (o : EngOp) (loc : Nat) : Nat := natOfBytes [scrByte s o (loc / 2) loc, scrByte s o (loc / 2) (loc + 1)]

/-- The halfword that a capture stores for column j (R353). -/
def captHalf (d : Dash) (winner : Bool) (j : Nat) : Nat :=
  let v := tabGet never d.out j
  let kept := decide (v < d.lwin ∧ v < never)
  if winner then (if kept then tabGet 255 d.win j else 0xFFFF) else (if kept then v else never)

/-- The array, the state and the completion fault after an operation. -/
def dashRun (s : State) (g : Wg) (o : EngOp) (d : Dash) : Dash × State × Option Trap :=
  let a := o.a.toNat
  match o.op with
  | 0x38 =>
    let l := extentLoc o.core g (dlCl o.x) a
    let d1 := dashLoadRows d (dlRow0 o.x) (dlN o.x) (fun k => opHalf s o (l + k))
    ({ d1 with replay := replayAdd d.replay ⟨a, dlCl o.x, dlRow0 o.x, dlN o.x⟩, loaded := true },
      fixRange s o.core 0 l (256 * dlN o.x), scrPoison s o l a (256 * dlN o.x))
  | 0x39 => ({ d with w := a }, s, none)
  | 0x3A =>
    let l := extentLoc o.core g (o.x.ext.getLsbD 0) a
    (dashLaunch d (dashMode o.x) (fun i => opHalf s o (l + 2 * i) % 1024), fixRange s o.core 0 l 256, scrPoison s o l a 256)
  | 0x3B =>
    (dashLaunch d (dashMode o.x) (fun i =>
      match o.vals.find? (fun e => e.1 = i) with | some e => Nat.min (e.2.headD 0).toNat never | none => never), s, none)
  | 0x3E => (dashReset d, s, none)
  | op =>
    let l := extentLoc o.core g (o.x.ext.getLsbD 0) a
    let s1 := (List.range 128).foldl (fun s j => memBytes s (l + 2 * j) (bytesOf 2 (captHalf d (op = 0x3D) j))) s
    (d, healBytes s1 o.core 0 ((List.range 256).map (l + ·)), none)

/-- What a capture stores. -/
def dashWrites (s : State) (o : EngOp) : List (Nat × Nat) :=
  match opCtx s o with
  | some (_, g) => if o.op = 0x3C || o.op = 0x3D then [(extentLoc o.core g (o.x.ext.getLsbD 0) o.a.toNat, 256)] else []
  | none => []

/-- DASH_COMPLETE (R355). Launches are counted by event DLAUNCHES (R165). -/
def execDashComplete (id : Nat) (s : State) : Answer :=
  match runningOp s .dash id with
  | none => .next s
  | some o =>
    let s0 := engRelease (engOverwrite s o (dashWrites s o)) o
    match opCtx s0 o with
    | none => .next (dropOp s id)
    | some (_, g) =>
      let cl := clusterOf o.core
      let (d, s1, f) := dashRun s0 g o (getDash s0 cl)
      let s2 := perfAdd (setDash s1 cl d) o.core 0x000B (if o.op = 0x3A || o.op = 0x3B then 1 else 0)
      .next (endOp (match f with | some t => pendEng s2 o.wave t false | none => s2) o)

/-! Resume (R356). -/

/-- Single-bit errors in the bytes that the listed DLOADs of a resume read are corrected and counted (R97, R387). -/
def fixReplay (s : State) (core : Nat) (g : Wg) (old : Dash) : State :=
  old.replay.foldl (fun s e => fixRange s core 0 (extentLoc core g e.cl e.a) (256 * e.n)) s

/-- The array that the resuming ERET makes from what was saved: every listed DLOAD again, from the bytes as they stand. -/
def dashReplay (s : State) (core : Nat) (g : Wg) (wg : Nat) (old : Dash) : Dash :=
  let d := old.replay.foldl (fun d e =>
    let l := extentLoc core g e.cl e.a
    dashLoadRows d e.row0 e.n (fun k => scrHalf s (l + k))) { Dash.init with holder := some wg }
  { d with w := old.w, out := old.out, win := old.win, maxMode := old.maxMode, lwin := old.lwin, replay := old.replay,
           loaded := old.loaded, max := old.max }

end Sys2Proof.Machine
end

