-- ==== Sys2Proof/Machine/Place.lean ====
section
/-! DEFINITION. Kernel-table entries, and placing a workgroup on a core (06_tables.md R133 to R135, 02_execution.md R19 to
R22, R39, 05_queues.md R111, R116). -/

namespace Sys2Proof.Machine

/-- A kernel-table entry from its eight doublewords (R133). -/
def parseKEnt (q : List DWord) : KEnt :=
  let d (i : Nat) : DWord := (q[i]?).getD 0
  let n (i : Nat) : Nat := (d i).toNat
  { entry := bits (n 0) 0 57, psz := bits (n 1) 32 7, strict := bitN (n 1) 28, dash := bitN (n 1) 27,
    waves := bits (n 1) 22 5, tiles := bits (n 1) 18 4, scratch := bits (n 1) 12 6, vregs8 := bits (n 1) 8 4,
    widthCode := bits (n 1) 0 2, brtab := d 2, whtab := d 3, smtab := d 4, tvec := d 5, privBase := bits (n 6) 8 49 * 256 }

/-- R134. -/
def kentBad (q : List DWord) : Bool :=
  let n (i : Nat) : Nat := ((q[i]?).getD 0).toNat
  let e := parseKEnt q
  bits (n 0) 57 7 != 0 || bits (n 1) 39 25 != 0 || bits (n 1) 29 3 != 0 || bits (n 1) 2 6 != 0 || bits (n 6) 57 7 != 0 ||
    bits (n 6) 0 8 != 0 || n 7 != 0 || e.entry % 4 != 0 || e.widthCode = 3 || e.vregs8 = 0 || 8 < e.vregs8 ||
    48 < e.scratch || 8 < e.tiles || e.waves = 0 || 16 < e.waves || bits (n 2) 57 7 != 0 || bits (n 3) 57 7 != 0 ||
    bits (n 4) 57 7 != 0 || bits (n 5) 57 7 != 0 || bits (n 5) 0 7 != 0

/-- KTAB fields (R66). -/
def ktabBase (k : DWord) : Nat := bits k.toNat 11 46 * 2048
def ktabCount (k : DWord) : Nat := countOf k 11 1024

/-- What reading entry i of the kernel table gives. -/
inductive KRead where
  | ok (e : KEnt)
  | bad
  /-- An address of the entry fails translation. -/
  | page (a : Nat)
  /-- The loss of the link answers the read with all ones (R95, R382; entry 12). -/
  | lost (a : Nat)
  /-- The read meets poison: structure and address (R97, entry 28). -/
  | ecc (st a : Nat)
  deriving DecidableEq, Repr

/-- Entry i as the GSUB or SPAWN of a core reads it (R122, R134). -/
def readKEnt (s : State) (part core : Nat) (k : DWord) (i : Nat) : KRead :=
  if ktabCount k ≤ i then .bad
  else
    let a := ktabBase k + 64 * i
    match tableDwords s part core a 8 with
    | none => .page (tableFault s part core a 64)
    | some q =>
      if tableLost s part core a 64 then .lost a
      else
        match tablePoison s part core a 64 with
        | some (st, x) => .ecc st x
        | none => if kentBad q then .bad else .ok (parseKEnt q)

/-! What a core has free (R39). -/

/-- Width of a kernel's waves. -/
def kWidth (e : KEnt) : Nat := 16 * 2 ^ e.widthCode

/-- Lane words of a wave in its slice. -/
def laneWords (e : KEnt) : Nat := 8 * e.vregs8 * 2 ^ e.widthCode

/-- Lane words in use in a slice of a core. -/
def lanesUsed (s : State) (core slice : Nat) : Nat :=
  ((List.range 12).map (fun i =>
    match getWave s (core * Config.slotsPerCore + slice * 12 + i) with
    | some v => ((getWg s v.wg).map (fun g => laneWords g.ent)).getD 0
    | none => 0)).sum

/-- Free slot numbers of a slice, ascending. -/
def freeSlots (s : State) (core slice : Nat) : List Nat :=
  ((List.range 12).map (fun i => slice * 12 + i)).filter (fun k => (getWave s (core * Config.slotsPerCore + k)).isNone)

/-- The core on which a partition's pacer is pinned (R19). -/
def pacerCore (p : Part) : Nat := 4 * ((setBits p.clmask).headD 64)

/-- Slices of a core that a workgroup may take: free lane words and free slots, by slice. The pacer takes slice 0 only,
and on its core nothing else takes slice 0. -/
def slicesFor (s : State) (part core : Nat) (pacer : Bool) : List (Nat × List Nat) :=
  let mine := core = pacerCore (getPart s part)
  (List.range 8).map (fun k =>
    (1024 - lanesUsed s core k,
     if (if pacer then k != 0 else mine && k = 0) then [] else freeSlots s core k))

/-- The slice with the most free lane words among those with a free slot and room; ties go to the lowest. -/
def bestSlice (need : Nat) : List (Nat × List Nat) → Nat → Option (Nat × Nat) → Option Nat
  | [], _, best => best.map (·.1)
  | (free, slots) :: t, i, best =>
    let better := match best with | none => true | some (_, f) => decide (f < free)
    bestSlice need t (i + 1) (if !slots.isEmpty && need ≤ free && better then some (i, free) else best)

/-- Slots for n waves in ascending wave number, or none. -/
def assignWaves (need : Nat) : Nat → List (Nat × List Nat) → Option (List Nat)
  | 0, _ => some []
  | n + 1, free =>
    match bestSlice need free 0 none with
    | none => none
    | some i =>
      let slot := (((free[i]?).map (·.2)).getD []).headD 0
      (assignWaves need n (listMod free i (fun x => (x.1 - need, x.2.tail)))).map (slot :: ·)

/-- Workgroups on a core. -/
def wgsOn (s : State) (core : Nat) : List (Nat × Wg) := s.wgs.filter (fun e => e.2.core = core)

/-- The lowest run of n free granules of a core (R111). -/
def freeRun (s : State) (core n : Nat) : Option Nat :=
  let used := (wgsOn s core).map (fun e => (e.2.scr, e.2.ent.scratch))
  (List.range (49 - n)).find? (fun a => n = 0 || used.all (fun u => u.2 = 0 || decide (a + n ≤ u.1) || decide (u.1 + u.2 ≤ a)))

/-- Where a workgroup fits on a core: its slots and its first granule (R39). -/
def fits (s : State) (part core : Nat) (e : KEnt) (pacer : Bool) : Option (List Nat × Nat) :=
  let tiles := ((wgsOn s core).map (fun g => g.2.ent.tiles)).sum
  if 8 < tiles + e.tiles || (e.dash && (getDash s (clusterOf core)).holder.isSome) then none
  else
    match assignWaves (laneWords e) e.waves (slicesFor s part core pacer), freeRun s core e.scratch with
    | some slots, some scr => some (slots.map (core * Config.slotsPerCore + ·), scr)
    | _, _ => none

/-! Making a workgroup. -/

/-- The lowest private frame that no live or evicted workgroup of the entry holds (R135). -/
def freeFrame (s : State) (part kbase kidx : Nat) : Nat :=
  let held := (s.wgs.filter (fun e => e.2.part = part && e.2.kbase = kbase && e.2.kidx = kidx)).map (·.2.frame) ++
    ((getPart s part).evicted.filter (fun e => e.wg.kbase = kbase && e.wg.kidx = kidx)).map (·.wg.frame)
  ((List.range (held.length + 1)).find? (fun f => !held.contains f)).getD 0

/-- PRIVB of a workgroup (R135). -/
def privb (e : KEnt) (frame : Nat) : DWord :=
  BitVec.ofNat 64 (e.psz * 2 ^ 57 + (e.privBase + frame * (kWidth e * e.waves) * e.psz * 256) % 2 ^ 57)

/-- The CSRs of a wave at placement (R62, R64, R135). -/
def initCsrs (e : KEnt) (frame : Nat) : Csrs :=
  { wstat := 0, wctl := if e.strict then 5 else 4, tcause := 0, tepc := 0, tval := 0, tmaska := 0, tmaskb := 0,
    tfmask := 0, tstk := 0, tscr0 := 0, tscr1 := 0, tscr2 := 0, tscr3 := 0, brtab := e.brtab, whtab := e.whtab,
    smtab := e.smtab, tvec := e.tvec, privb := privb e frame, resmask := 0, watch0a := 0, watch0c := 0, watch1a := 0,
    watch1c := 0 }

/-- A thread at its creation: every v register unwritten, p1 to p7 false (R48). -/
def newThread (tid : Nat) : Thread := { tid := tid, live := true, v := [], p := 0, bad := [] }

/-- The path of a whole wave at an address. -/
def wholePath (width pc : Nat) : Path :=
  { mask := maskOf (List.range width), pc := pc, code := none, wait := .ready, resume := none }

/-- Wave n of a workgroup at placement in a cycle (R21, R25, R48, R135). -/
def newWave (wg n age : Nat) (e : KEnt) (frame : Nat) : Wave :=
  { wg := wg, num := n, threads := (List.range (kWidth e)).map (fun q => newThread (n * kWidth e + q)), s := [],
    sbad := [], forms := [], base := wholePath (kWidth e) e.entry, stack := [], csr := initCsrs e frame, acnt := 0,
    cpy := 0, mtx := 0, gth := 0, dsh := 0, sq := [], saved := none, faults := [], watch := none, step := none,
    save := false, halted := false, frozen := false, freezing := false, parkedAt := 0, age := age, yieldAt := 0, freeAt := 0, hfOpen := false,
    heldDeps := [], parkedDeps := [], spawns := [], abandoned := [], drainFaults := [], span := false,
    dashSave := none }

/-- Zero the granules that a workgroup takes (R73). -/
def zeroScratch (s : State) (core scr n : Nat) : State :=
  zeroRange s (locScr core (scr * 4096)) (locScr core ((scr + n) * 4096))

/-- The grant of a cluster's Dash array, every item at its reset value (R349). -/
def grantDash (s : State) (core wg : Nat) : State := setDash s (clusterOf core) { Dash.init with holder := some wg }

/-- A core on which a task's workgroup or a descendant runs, for the release of R180. -/
def noteCore (s : State) (part core : Nat) (kind : WgKind) : State :=
  match rootTask kind with
  | none => s
  | some (g, p, k) =>
    updTask s part g p k (fun t => { t with cores := if t.cores.contains core then t.cores else core :: t.cores })

/-- PLACING A WORKGROUP at slots and a first granule: its waves start at ENTRY after an acquire at DEVICE (R135, R180). -/
def placeWg (s : State) (part core : Nat) (kind : WgKind) (e : KEnt) (kbase kidx depth tilex tiley home : Nat)
    (arg0 arg1 : Word) (slots : List Nat) (scr : Nat) : State :=
  let id := s.nextId
  let frame := freeFrame s part kbase kidx
  let g : Wg := {
    part := part, core := core, kind := kind, ent := e, kbase := kbase, kidx := kidx, frame := frame, depth := depth,
    tilex := tilex, tiley := tiley, arg0 := arg0, arg1 := arg1, scr := scr, tiles := [], tbad := [], slots := slots, age := id,
    home := home }
  let s1 := zeroScratch { s with nextId := id + 1, wgs := tabPut s.wgs id g } core scr e.scratch
  let s2 := (slots.zipIdx).foldl (fun s x => setWave s x.1 (newWave id x.2 s.dev.cycle e frame)) s1
  acquire (noteCore (if e.dash then grantDash s2 core id else s2) part core kind) core 3

/-! Spawn queues (R37, R38, R116). -/

/-- A partition places new workgroups. -/
def places (p : Part) : Bool := (p.state == .running || p.state == .noPacer) && p.ending == .none

/-- A graph has not begun its teardown. -/
def graphRuns (s : State) (part g : Nat) : Bool :=
  match getGraph s part g with
  | some gr => gr.phase == .live || gr.phase == .stopping
  | none => false

def isPacerWg (k : WgKind) : Bool := match k with | .pacer => true | _ => false

/-- The partition's pacer is evicted: it is placed before anything else (R47). -/
def pacerEvicted (p : Part) : Bool := p.evicted.any (fun e => isPacerWg e.wg.kind)

/-- Cores on which the head child of a core's queue is tried: that core, then the others of its cluster. -/
def childCores (core : Nat) : List Nat :=
  core :: ((List.range 4).map (fun i => clusterOf core * 4 + i)).filter (· != core)

/-- The core and the places that the head child of a queue can take. While the partition's pacer is evicted it takes none
(R47). -/
def childFit (s : State) (core : Nat) : Option (Child × Nat × List Nat × Nat) :=
  match (getCore s core).spawnq with
  | [] => none
  | ch :: _ =>
    if places (getPart s ch.part) && !pacerEvicted (getPart s ch.part) && graphRuns s ch.part ch.g then
      firstSome (fun c => (fits s ch.part c ch.ent false).map (fun f => (ch, c, f))) (childCores core)
    else none

/-- CHILD_PLACE: the head child of a core's queue is placed where it fits. -/
def execChildPlace (core : Nat) (s : State) : Answer :=
  match childFit s core with
  | none => .next s
  | some (ch, c, slots, scr) =>
    let k := getCore s core
    .next (placeWg (setCore s core { k with spawnq := k.spawnq.tail }) ch.part c (.child ch.g ch.p ch.k) ch.ent ch.kbase
      ch.kidx ch.depth ch.tilex ch.tiley core ch.arg0 ch.arg1 slots scr)

end Sys2Proof.Machine
end

