-- ==== Sys2Proof/Machine/Control.lean ====
section
/-! DEFINITION. Class CTL: branches, divergence, calls, EXIT, REORD's park, traps by instruction, sleep, halt, ICINV
(13_isa_control.md R277 to R299). SPAWN stands in Spawn.lean, ERET in Preempt.lean, the CSR instructions in Csr.lean. -/

namespace Sys2Proof.Machine

/-- NOP (R277). -/
def execNop (s : State) : Answer := issue s fun c => .ok (finish s c 1)

/-- A code address from an offset in words (R215), modulo 2^64. -/
def offsetPc (c : Ctx) (off : Int) : Nat := (((c.path.pc : Int) + 4 * off) % (2 ^ 64 : Nat)).toNat

/-- The path moves as a whole to a target that passes the test of R211. -/
def transfer (s : State) (c : Ctx) (a tval : Nat) (f : Wave → Wave) : Except Trap State :=
  if targetOk s c.g.part c.core a 0 then .ok (setWave s c.w (jump c a (f c.wave)))
  else .error (misalignedTarget tval c.mask)

/-- BRA (R278). -/
def execBra (x : FBL) (s : State) : Answer :=
  issue s fun c =>
    let a := offsetPc c (sextN 24 x.tgt.toNat)
    transfer s c a (a % 2 ^ 57) id

/-- c(t) of R279 at a position. -/
def brcTrue (c : Ctx) (x : FB) (q : Nat) : Bool := predReg c.wave q x.p.toNat != x.n

/-- Positions of the path with c(t) true. -/
def brcMask (c : Ctx) (x : FB) : Mask := maskOf ((positions c.mask).filter (brcTrue c x))

/-- Target of FB. -/
def brcTarget (c : Ctx) (x : FB) : Nat := offsetPc c (sextN 10 x.tgt.toNat)

/-- A whole-path branch: the target is tested whether or not it is taken (R279). -/
def branchIf (s : State) (x : FB) (taken : Ctx → Bool) : Answer :=
  issue s fun c =>
    let a := brcTarget c x
    if !targetOk s c.g.part c.core a 0 then .error (misalignedTarget (a % 2 ^ 57) c.mask)
    else .ok (setWave s c.w (if taken c then jump c a c.wave else advance c 1 c.wave))

/-- BRC.ANY. -/
def execBrcAny (x : FB) (s : State) : Answer := branchIf s x (fun c => brcMask c x != 0)
/-- BRC.ALL. -/
def execBrcAll (x : FB) (s : State) : Answer := branchIf s x (fun c => brcMask c x == c.mask)
/-- BRC.U. -/
def execBrcU (x : FB) (s : State) : Answer := branchIf s x (fun c => brcTrue c x ((positions c.mask).headD 0))

/-- The pair that BRC pushes (R26). -/
def pushPair (c : Ctx) (join a : Nat) (m : Mask) : Pair :=
  { join := join
    a := { mask := m, pc := a, code := none, wait := .ready, resume := none }
    b := { mask := c.mask &&& ~~~m, pc := c.path.pc + 4, code := none, wait := .ready, resume := none }
    arrA := false, arrB := false, fromB := c.pb }

/-- BRC (R26, R279): the path branches, falls through, or splits. JOIN = 0 names the BRC's own word, never a header. -/
def execBrc (x : FB) (s : State) : Answer :=
  issue s fun c =>
    let a := brcTarget c x
    let j := c.path.pc + 4 * x.join.toNat
    let m := brcMask c x
    if !targetOk s c.g.part c.core a 0 then .error (misalignedTarget (a % 2 ^ 57) c.mask)
    else if x.join = 0 || !targetOk s c.g.part c.core j 1 then .error (misalignedTarget (j % 2 ^ 57) c.mask)
    else if m == c.mask then .ok (setWave s c.w (jump c a c.wave))
    else if m == 0 then .ok (setWave s c.w (advance c 1 c.wave))
    else if 16 ≤ c.wave.stack.length then .error (dstackOvf c.mask)
    else
      .ok (setWave s c.w (stepPend (stepArmed c.wave) false { c.wave with stack := pushPair c j a m :: c.wave.stack }))

/-- The s pair that a transfer names, or ILLEGAL_OPERAND (R281). -/
def sPairOf (c : Ctx) (r : Reg) : Except Trap Nat :=
  match specOf r with
  | .s n => if n % 2 = 0 then .ok n else .error (illegalOperand r.toNat c.mask)
  | _ => .error (illegalOperand r.toNat c.mask)

/-- A transfer to the value of an s pair; a failure of the test reports the whole value. A parity failure of the pair is
found when it is read (R97). -/
def transferPair (s : State) (c : Ctx) (r : Reg) (f : Wave → Wave) : Except Trap State :=
  match sPairOf c r with
  | .error t => .error t
  | .ok n =>
    match parityCheck c [⟨r, .pair, false, false⟩] with
    | .error t => .error t
    | .ok _ => transfer s c (sPair c.wave n).toNat (sPair c.wave n).toNat f

/-- The return address in s30:s31 (R281). -/
def linkReg (c : Ctx) (v : Wave) : Wave := setSPair v 30 (BitVec.ofNat 64 (c.path.pc + 4))

/-- BRI (R281). -/
def execBri (a : Reg) (s : State) : Answer := issue s fun c => transferPair s c a id
/-- CALL (R281). -/
def execCall (x : FBL) (s : State) : Answer :=
  issue s fun c =>
    let a := offsetPc c (sextN 24 x.tgt.toNat)
    transfer s c a (a % 2 ^ 57) (linkReg c)
/-- CALLI (R281): the target is read before the return address is written. -/
def execCalli (a : Reg) (s : State) : Answer := issue s fun c => transferPair s c a (linkReg c)
/-- RET (R281). -/
def execRet (s : State) : Answer := issue s fun c => transferPair s c 0x5E id

/-- Mark a path of the top pair as arrived (R28, R29). -/
def setArrived (v : Wave) (pb : Bool) : Wave :=
  match v.stack with
  | [] => v
  | p :: t => { v with stack := (if pb then { p with arrB := true } else { p with arrA := true }) :: t }

/-- Pop the pairs whose two paths have both arrived; an empty union has arrived one level down (R28, R29). fuel is the
depth. -/
def popArrived : Nat → Wave → Wave
  | 0, v => v
  | n + 1, v =>
    match v.stack with
    | [] => v
    | p :: t =>
      if p.arrA && p.arrB then
        let pick := if activeMask v p.a != 0 then p.a else p.b
        let x := { pick with mask := (p.a.mask ||| p.b.mask) &&& liveMask v }
        match t with
        | [] => { v with stack := [], base := x }
        | q :: r =>
          let q' := if p.fromB then { q with b := x, arrB := q.arrB || x.mask == 0 }
                    else { q with a := x, arrA := q.arrA || x.mask == 0 }
          popArrived n { v with stack := q' :: r }
      else v

/-- The path on which STEP stands after a pop, if one was made. -/
def pathAfterPop (c : Ctx) (v : Wave) : Bool :=
  if v.stack.length = c.wave.stack.length then c.pb
  else if v.stack.isEmpty then false
  else ((c.wave.stack[c.wave.stack.length - v.stack.length - 1]?).map (·.fromB)).getD false

/-- Whether a JOIN acts: first instruction of the clause at the top pair's join point (R28). -/
def joinActs (c : Ctx) : Bool :=
  match c.wave.stack, c.path.code with
  | p :: _, some cl => cl.base = p.join && c.path.pc = cl.base + 4
  | _, _ => false

/-- JOIN (R28, R282). -/
def execJoin (s : State) : Answer :=
  issue s fun c =>
    if joinActs c then
      let v := popArrived 17 (setArrived (setPath c.wave c.pb (stepPath c.path 1)) c.pb)
      .ok (setWave s c.w (stepPend (stepArmed c.wave) (pathAfterPop c v) v))
    else .ok (finish s c 1)

/-- The active threads end; their v registers become unwritten (R29, R283). -/
def exitThreads (v : Wave) (m : Mask) : Wave :=
  { v with threads := v.threads.mapIdx (fun q t => if m.getLsbD q then { t with live := false, v := [], bad := [] } else t) }

/-- EXIT (R29, R283); in trap mode ILLEGAL_OP. -/
def execExit (s : State) : Answer :=
  issue s fun c =>
    if wTrap c.wave then .error (illegalOp 0x0000000B c.mask)
    else
      let v := popArrived 17 (setArrived (exitThreads (setPath c.wave c.pb (stepPath c.path 1)) c.mask) c.pb)
      .ok (endIfDone (reordCheck (setWave s c.w
        (if liveMask v = 0 then v else stepPend (stepArmed c.wave) (pathAfterPop c v) v)) v.wg) c.w)

/-- REORD (R33, R284): the wave parks. Its key is read when the collection is repacked. -/
def execReord (k : BitVec 4) (key : Reg) (s : State) : Answer :=
  issue s fun c =>
    match srcsOk c false [⟨key, .value, false, false⟩] with
    | .error t => .error t
    | .ok _ =>
      if wTrap c.wave || !c.wave.stack.isEmpty then .error (illegalOp (wordReord 0x0C k key) c.mask)
      else match readSrcs c false [⟨key, .value, false, false⟩] with
      | .error t => .error t
      | .ok v =>
        .ok (reordCheck (setWave s c.w { setPath v c.pb { c.path with wait := .reord (k.toNat + 1) key.toNat 0 } with
          parkedAt := s.dev.cycle }) c.wave.wg)

/-- TRAP (R289). -/
def execTrap (code : BitVec 24) (s : State) : Answer := issue s fun c => .error (trapOf 0x14 5 code.toNat c.mask)

/-- BKPT (R290). -/
def execBkpt (code : BitVec 24) (s : State) : Answer :=
  issue s fun c =>
    if wBken c.wave && !wTrap c.wave then .error (trapOf 0x11 4 code.toNat c.mask) else .ok (finish s c 1)

/-- The issuing path goes on, and its wave gives up its turn in the next cycle (R297). -/
def yieldTurn (s : State) (c : Ctx) : State := updWave (finish s c 1) c.w (fun v => { v with yieldAt := s.dev.cycle + 1 })

/-- YIELD (R297). -/
def execYield (s : State) : Answer := issue s fun c => .ok (yieldTurn s c)

/-- The operands of WSLEEP (R298). -/
def sleepOk (r : Reg) : Bool :=
  match specOf r with
  | .s _ => true
  | .sp n => decide (2 < n)
  | .k n => decide (n ≤ 2)
  | _ => false

/-- WSLEEP (R298); of 0 it acts as YIELD. -/
def execWsleep (a : Reg) (s : State) : Answer :=
  issue s fun c =>
    match needSpec c (sleepOk a) a, parityCheck c [⟨a, .value, false, false⟩] with
    | .error t, _ => .error t
    | _, .error t => .error t
    | .ok _, .ok _ =>
      let n := (rdSpec c 0 a 0).toNat
      if n = 0 then .ok (yieldTurn s c) else .ok (hold s c (.sleep (s.dev.cycle + n)))

/-- HALT's own record outside trap mode (R291). -/
def haltRecord (c : Ctx) : Wave :=
  if wTrap c.wave then c.wave
  else { c.wave with csr := { c.wave.csr with
    tcause := 0, tval := 0, tepc := BitVec.ofNat 64 (c.path.pc % 2 ^ 57 / 4 * 4), tfmask := c.mask } }

/-- HALT (R291, R295). -/
def execHalt (s : State) : Answer := issue s fun c => .ok (haltWave (setWave s c.w (haltRecord c)) c.w)

/-- ICINV (R299): the path waits until the caches in its scope hold nothing fetched before. -/
def execIcinv (scope : BitVec 3) (s : State) : Answer :=
  issue s fun c =>
    if scope = 7 then .error (scopeReserved c.mask) else .ok (hold s c (.icinv scope.toNat))

/-- Whether a core is covered by a scope from another core of its partition (R299). -/
def scopeCovers (scope core k : Nat) : Bool :=
  if scope ≤ 2 then k = core
  else if scope = 3 then clusterOf k = clusterOf core
  else if scope = 4 then dieOf k = dieOf core
  else true

/-- Cores of a partition. -/
def coreInPart (p : Part) (k : Nat) : Bool := p.clmask.getLsbD (clusterOf k)

/-- The instruction caches in scope lose every line. -/
def dropCode (s : State) (part core scope : Nat) : State :=
  let p := getPart s part
  (List.range 256).foldl (fun s k =>
    if (k = core || (coreInPart p k && scopeCovers scope core k)) && !(getCore s k).icache.isEmpty then
      setCore s k { getCore s k with icache := [] } else s) s

/-- The oldest invalidation that a freeze has left running on a core reaches its end (R44). -/
def endIcinv (s : State) (core : Nat) : State :=
  let k := getCore s core
  match k.icinv with
  | [] => s
  | (part, scope) :: t => dropCode (setCore s core { k with icinv := t }) part core scope

/-- ICINV_COMPLETE: the invalidation is done and the path goes on; where the path waits for none, one that a freeze has left
running on its core is done. -/
def execIcinvComplete (w : Nat) (pb : Bool) (s : State) : Answer :=
  match ctxAt s w pb with
  | none => .next (endIcinv s (coreOf w))
  | some c =>
    match c.path.wait with
    | .icinv k => .next (finish (dropCode s c.g.part c.core k) c 1)
    | _ => .next (endIcinv s (coreOf w))

/-- WSLEEP_EXPIRY (R298). -/
def execWsleepExpiry (w : Nat) (pb : Bool) (s : State) : Answer :=
  match ctxAt s w pb with
  | none => .next s
  | some c =>
    match c.path.wait with
    | .sleep t => if t ≤ s.dev.cycle then .next (finish s c 1) else .next s
    | _ => .next s

end Sys2Proof.Machine
end

