-- ==== Sys2Proof/Machine/Spawn.lean ====
section
/-! DEFINITION. SPAWN, SPAWN.W and SPAWN.AT (02_execution.md R36 to R38, 05_queues.md R116, 13_isa_control.md R285). -/

namespace Sys2Proof.Machine

/-- Home slice of an address (R83). -/
def homeSlice (a : Nat) : Nat := bits a 7 6 ^^^ bits a 13 6

/-- The GDDR7 byte that SPAWN.AT's address names; permissions are not consulted (R83). -/
def atTarget (s : State) (part core va : Nat) : Option Nat :=
  let e := pageEntry s part core va
  if 2 ^ 57 ≤ va || e.getLsbD 63 || !e.getLsbD 0 || e.getLsbD 5 || (e.extractLsb' 52 4).toNat != part % 16 ||
      !inShares (getPart s part) (leafPa e va) then none
  else some (leafPa e va)

/-- The queue that a child of SPAWN.AT enters (R38, R116); without a home slice, the parent's core (entry 14). -/
def atCore (s : State) (part core va : Nat) : Nat :=
  match atTarget s part core va with
  | none => core
  | some a =>
    let h := homeSlice a
    (if (getPart s part).clmask.getLsbD h then h else clusterOf core) * 4 + h % 4

/-- Children in blocks by destination core, ascending; within a block, ascending %tid. -/
def spawnBlocks (l : List (Nat × Child)) : List (Nat × List Child) :=
  (sortBy id ((l.map (·.1)).eraseDups)).map (fun d => (d, (l.filter (fun e => e.1 = d)).map (·.2)))

/-- Blocks enter in order, each whole, while their queues have room for 64 children (R98, R116). -/
def enterBlocks : List (Nat × List Child) → State → State × List (Nat × List Child)
  | [], s => (s, [])
  | (d, ch) :: t, s =>
    let k := getCore s d
    if k.spawnq.length + ch.length ≤ 64 then enterBlocks t (setCore s d { k with spawnq := k.spawnq ++ ch })
    else (s, (d, ch) :: t)

/-- Whether a spawn is the one of the path's instruction. -/
def isSpawnOf (c : Ctx) (e : SpawnSt) : Bool :=
  e.depth = c.wave.stack.length && e.pathB = c.pb && e.pc = c.path.pc

/-- Only the oldest spawn of a pair enters blocks (R37). -/
def spawnTurn (v : Wave) (c : Ctx) : Bool :=
  ((v.spawns.find? (fun e => e.depth = c.wave.stack.length)).map (isSpawnOf c)).getD false

/-- The blocks of a path's spawn enter as far as there is room; the path completes, or waits. -/
def spawnEnter (s : State) (c : Ctx) : State :=
  match getWave s c.w with
  | none => s
  | some v =>
    match v.spawns.find? (isSpawnOf c) with
    | none => s
    | some e =>
      if !spawnTurn v c then hold s c .spawn
      else
        let (s1, left) := enterBlocks e.left s
        let others := v.spawns.filter (fun x => !isSpawnOf c x)
        if left.isEmpty then finish (updWave s1 c.w (fun v => { v with spawns := others })) c 1
        else hold (updWave s1 c.w (fun v => { v with spawns := { e with left := left } :: others })) c .spawn

/-- The blocks of a spawn whose wave now runs on another core (R38, R44): the children not yet entered go to the queues that
their parent's new place gives them. -/
def retarget (s : State) (part core : Nat) (e : SpawnSt) : SpawnSt :=
  let va (ch : Child) : Nat := ch.arg1.toNat % 2 ^ 25 * 2 ^ 32 + ch.arg0.toNat
  let l := (e.left.map (·.2)).flatten
  { e with left := spawnBlocks (l.map (fun ch => (if e.byAddr then atCore s part core (va ch) else core, ch))) }

/-- An argument of a spawn (R285). -/
def spawnArg (c : Ctx) (r : Reg) : Except Trap Unit := needSpec c (valueOk c.g r false) r

/-- The spawn family. low: one child, from the lowest active %tid. at_: queues by address. -/
def spawn (s : State) (op : BitVec 8) (k : BitVec 10) (a1 a0 : Reg) (low at_ : Bool) : Answer :=
  issue s fun c =>
    match firstError [spawnArg c a0, spawnArg c a1] with
    | .error t => .error t
    | .ok _ =>
      match rootTask c.g.kind with
      | none => .error (illegalOp (wordSpawn op k a1 a0) c.mask)
      | some (g, p, t) =>
        if wTrap c.wave then .error (illegalOp (wordSpawn op k a1 a0) c.mask)
        else if c.wave.spawns.any (isSpawnOf c) then .ok (spawnEnter s c)
        else
          let ktab := (getPart s c.g.part).ktab
          match readKEnt s c.g.part c.core ktab k.toNat with
          | .page a => .error (pageFault a 0 c.mask)
          | .lost a => .error (pcieLost (a % 2 ^ 57) c.mask)
          | .ecc st a => .error (eccTrap st a c.mask)
          | .bad => .error (illegalOperand k.toNat c.mask)
          | .ok e =>
            let srcs : List Src := [⟨a0, .value, false, false⟩, ⟨a1, .value, false, false⟩]
            if e.waves != 1 then .error (illegalOperand k.toNat c.mask)
            else if 4 ≤ c.g.depth then .error (spawnDepth c.mask)
            else
              match readSrcs (if low then lowCtx c else c) false srcs with
              | .error t => .error t
              | .ok v =>
                let qs := byTid c.wave c.mask
                let child (q : Nat) : Child := {
                  part := c.g.part, g := g, p := p, k := t, ent := e, kbase := ktabBase ktab, kidx := k.toNat,
                  depth := c.g.depth + 1, tilex := c.g.tilex, tiley := c.g.tiley, arg0 := rdSpec c q a0 0,
                  arg1 := rdSpec c q a1 0 }
                let va (q : Nat) : Nat := (rdSpec c q a1 0).toNat % 2 ^ 25 * 2 ^ 32 + (rdSpec c q a0 0).toNat
                let dest (q : Nat) : Nat := if at_ then atCore s c.g.part c.core (va q) else c.core
                let bl := spawnBlocks ((if low then qs.take 1 else qs).map (fun q => (dest q, child q)))
                let s0 := markTable s c.g c.core (ktabBase ktab + 64 * k.toNat) 64
                let s1 := if at_ then qs.foldl (fun s q => tlbFill s c.g.part c.core (va q)) s0 else s0
                let new : SpawnSt := { depth := c.wave.stack.length, pathB := c.pb, pc := c.path.pc, left := bl, byAddr := at_ }
                let old := v.spawns.filter (fun e => !(e.depth = c.wave.stack.length && e.pathB = c.pb))
                let s2 := setWave s1 c.w { v with spawns := old ++ [new] }
                .ok (spawnEnter (releaseNow s2 c.w 3) c)

/-- SPAWN. -/
def execSpawn (k : BitVec 10) (a1 a0 : Reg) (s : State) : Answer := spawn s 0x0D k a1 a0 false false
/-- SPAWN.W. -/
def execSpawnW (k : BitVec 10) (a1 a0 : Reg) (s : State) : Answer := spawn s 0x0E k a1 a0 true false
/-- SPAWN.AT. -/
def execSpawnAt (k : BitVec 10) (a1 a0 : Reg) (s : State) : Answer := spawn s 0x0F k a1 a0 false true

/-- SPAWN_ENQUEUE: a waiting spawn's next blocks enter when there is room. -/
def execSpawnEnqueue (w : Nat) (pb : Bool) (s : State) : Answer :=
  match ctxAt s w pb with
  | none => .next s
  | some c => if c.path.wait = .spawn then .next (spawnEnter s c) else .next s

end Sys2Proof.Machine
end

