-- ==== Sys2Proof/Machine/Copy.lean ====
section
/-! DEFINITION. The copy engine: COPY.GS, COPY.SG, COPY.SS, COPY.MC (15_isa_engines.md R325 to R328). -/

namespace Sys2Proof.Machine

/-! Fields. -/

def cpRec (x : FE) : Nat := bits x.ext.toNat 0 8
def cpW (x : FE) : Nat := bits x.ext.toNat 8 8 + 1
def cpH (x : FE) : Nat := bits x.ext.toNat 16 8 + 1
def cpScope (x : FE) : Nat := bits x.ext.toNat 24 3
def cpWord (x : FE) : Bool := x.ext.getLsbD 27
def cpFmt (x : FE) : Nat := bits x.ext.toNat 28 2
def cpCl (x : FE) : Bool := x.ext.getLsbD 30
def ssDst (x : FE) : Nat := bits x.ext.toNat 0 18
def ssCore (x : FE) : Nat := bits x.ext.toNat 18 2
def ssSrcCl (x : FE) : Bool := x.ext.getLsbD 20
def ssDstCl (x : FE) : Bool := x.ext.getLsbD 21

/-- The scratch element size in nibbles. -/
def cpNibbles (x : FE) (r : Rec) : Nat := match cpFmt x with | 0 => 8 | 3 => encNibbles r.enc | _ => 4

/-- Bytes of the scratch side. -/
def cpExtent (x : FE) (r : Rec) : Nat := (cpW x * cpH x * r.c * cpNibbles x r + 1) / 2

/-- The completion quad: address and word (R325). -/
def cpAddr (c : Ctx) (x : FE) : DWord := rdPair c 0 x.d 0
def cpVal (c : Ctx) (x : FE) : Word := sReg c.wave (x.d.toNat - 0x40 + 2)

/-- The specifier of the completion quad: an s register whose index is a multiple of 4. -/
def cpDst (c : Ctx) (x : FE) : Except Trap Unit := legal c (!cpWord x || (isSSpec x.d && x.d.toNat % 4 = 0)) x.d.toNat

/-- Without a completion word D is 0x78. -/
def cpNoDst (x : FE) : Bool := cpWord x || x.d == 0x78

/-- The sources that a copy reads at issue. -/
def cpSrcs (x : FE) : List Src :=
  [⟨x.a, .value, false, false⟩, ⟨x.b, .value, true, false⟩] ++ (if cpWord x then [⟨x.d, .quad, false, false⟩] else [])

/-- SCOPE 7 (R168). -/
def cpScopeOk (c : Ctx) (x : FE) : Except Trap Unit := if cpScope x = 7 then .error (scopeReserved c.mask) else .ok ()

/-- Conditions on the record a copy reads (R325), check 3. -/
def cpRecOk (c : Ctx) (x : FE) (r : Rec) : Except Trap Unit :=
  if r.kind = 3 || (r.kind = 0 && cpH x != 1) || (r.enc = 0x0A && (cpFmt x = 1 || cpFmt x = 2)) ||
      (cpFmt x = 3 && r.enc = 0x05 && cpW x * r.c % 2 = 1) then .error (recordBounds r.idx c.mask)
  else .ok ()

/-- Element coordinates of step i of the loop (R326). -/
def cpXY (x : FE) (r : Rec) (b : Nat) (i : Nat) : Int × Int :=
  if r.kind = 0 then ((((b + i) % 2 ^ 32 : Nat) : Int), 0)
  else (((b % 2 ^ 16 + i % cpW x : Nat) : Int), ((b / 2 ^ 16 + i / cpW x : Nat) : Int))

/-- Steps of the loop. -/
def cpSteps (x : FE) : List Nat := List.range (cpW x * cpH x)

/-- Check 6 on a RING record: the first element whose tile the rules refuse (R87). Elements outside the image are no element of
a tile and are passed over, in COPY.SG too (entry 68, DESIGN CHOICE). -/
def cpRing (s : State) (c : Ctx) (x : FE) (r : Rec) (b : Nat) (store : Bool) : Except Trap Unit :=
  if r.kind != 2 then .ok ()
  else
    firstError ((cpSteps x).map (fun i =>
      match whereElem r store (cpXY x r b i).1 (cpXY x r b i).2 with
      | .elem ex ey _ =>
        let tx := ex / 2 ^ r.ltw
        let ty := ey / 2 ^ r.lth
        (match ringRule s c.g r store tx ty with
         | .ok => .ok ()
         | .undecl => .error (ringUndecl r.res tx ty c.mask)
         | .closed => .error (tileClosed r.res tx ty c.mask))
      | _ => .ok ()))

/-- Cores named by COPY.MC's mask, as CLUSTER addresses of the offset. -/
def mcAddrs (a : Nat) : List Nat :=
  ((List.range 4).filter (fun k => bitN a (28 + k))).map (fun k => k * 2 ^ 30 + a % 2 ^ 18)

/-- The checks of a copy between a record and scratchpads, in the order of R221 and then R322. -/
def copyCheck (s : State) (op : Nat) (x : FE) (store mc : Bool) (c : Ctx) : Except Trap (Wave × EngIn) :=
  let a := (rdSpec c 0 x.a 0).toNat
  let b := (rdSpec c 0 x.b x.lit).toNat
  match allChecks [cpDst c x, onceArg c x.a false, onceArg c x.b true, cpScopeOk c x,
      engBits c op x (!x.ext.getLsbD 31 && x.f = 0 && !(mc && cpCl x) && cpNoDst x), legal c (!mc || (a / 2 ^ 28 != 0 && bits a 18 10 = 0)) x.a.toNat] with
  | .error t => .error t
  | .ok _ =>
    match engRead c (cpSrcs x), readRec s c (cpRec x) with
    | .error t, _ => .error t
    | _, .error t => .error t
    | .ok v, .ok r =>
      let n := cpExtent x r
      let off := if mc then a % 2 ^ 18 else a
      match allChecks ([cpRecOk c x r, alignCheck c off 16,
          if cpWord x then alignCheck c (cpAddr c x).toNat 4 else .ok ()] ++
          (if mc then (mcAddrs a).map (fun p => if extentOk c.g true p n then .ok () else .error (scratchBounds off c.mask))
           else [extentCheck c (cpCl x) a n]) ++ [cpRing s c x r b store]) with
      | .error t => .error t
      | .ok _ =>
        .ok (v, { a := BitVec.ofNat 64 a, b := BitVec.ofNat 64 b, d := if cpWord x then cpAddr c x else 0,
                  vals := [(0, [cpVal c x])],
                  recd := (tableDwords s c.g.part c.core (recAddr c.wave (cpRec x)) 5).getD [] })

/-- The issue of a copy between a record and scratchpads. -/
def copyRec (s : State) (op : Nat) (x : FE) (store mc : Bool) : Answer :=
  engIssue s op 1 x (copyCheck s op x store mc)

/-- COPY.GS. -/
def execCopyGs (x : FE) (s : State) : Answer := copyRec s 0x00 x false false
/-- COPY.SG. -/
def execCopySg (x : FE) (s : State) : Answer := copyRec s 0x01 x true false
/-- COPY.MC. -/
def execCopyMc (x : FE) (s : State) : Answer := copyRec s 0x03 x false true

/-- The checks of COPY.SS. A count of 0 lies outside the range of R327 and is an illegal operand too (entry 67, DESIGN
CHOICE). -/
def copySsCheck (x : FE) (c : Ctx) : Except Trap (Wave × EngIn) :=
  let a := (rdSpec c 0 x.a 0).toNat
  let n := (rdSpec c 0 x.b x.lit).toNat
  let dst := if ssDstCl x then ssCore x * 2 ^ 30 + ssDst x else ssDst x
  match allChecks [cpDst c x, onceArg c x.a false, onceArg c x.b true, cpScopeOk c x,
      engBits c 0x02 x (bits x.ext.toNat 28 4 = 0 && bits x.ext.toNat 22 2 = 0 && x.f = 0 && (ssDstCl x || ssCore x = 0) &&
        cpNoDst x),
      legal c (decide (1 ≤ n ∧ n ≤ Config.scratchBytes)) x.b.toNat] with
  | .error t => .error t
  | .ok _ =>
    match engRead c (cpSrcs x) with
    | .error t => .error t
    | .ok v =>
      match allChecks [alignCheck c n 16, alignCheck c a 16, alignCheck c (ssDst x) 16,
          if cpWord x then alignCheck c (cpAddr c x).toNat 4 else .ok (), extentCheck c (ssSrcCl x) a n,
          extentCheck c (ssDstCl x) dst n] with
      | .error t => .error t
      | .ok _ =>
        .ok (v, { a := BitVec.ofNat 64 a, b := BitVec.ofNat 64 n, d := if cpWord x then cpAddr c x else 0,
                  vals := [(0, [cpVal c x])] })

/-- COPY.SS (R327). -/
def execCopySs (x : FE) (s : State) : Answer :=
  engIssue s 0x02 1 x (copySsCheck x)

/-! Completion. -/

/-- A copy under way: the state and the first completion fault. -/
abbrev CopyRun := State × Option Trap

def copyFault (run : CopyRun) (t : Trap) : CopyRun := (run.1, some (run.2.getD t))

/-- The scratch side of channel j of the loop: an element in nibbles from the extent's start. -/
def cpScr (x : FE) (r : Rec) (j : Nat) : Elem :=
  match cpNibbles x r with
  | 1 => .nib (j / 2) (j % 2 = 1)
  | n => .bytes (j * (n / 2)) (n / 2)

/-- The SFMT code of a loaded channel. -/
def toSfmt (x : FE) (r : Rec) (raw : Nat) : Nat :=
  match cpFmt x with
  | 0 => (loadConv r raw).toNat
  | 1 => narrow fmtF16 (loadConv r raw)
  | 2 => narrow fmtBf16 (loadConv r raw)
  | _ => raw

/-- The record's code of a channel in SFMT. -/
def ofSfmt (x : FE) (r : Rec) (raw : Nat) : Nat :=
  match cpFmt x with
  | 0 => storeConv r (BitVec.ofNat 32 raw)
  | 1 => storeConv r (widen fmtF16 raw)
  | 2 => storeConv r (widen fmtBf16 raw)
  | _ => raw

/-- Write an element's bits into scratchpads that start at locations. -/
def putScr (s : State) (locs : List Nat) (e : Elem) (raw : Nat) : State :=
  locs.foldl (fun s l => (elemPut e raw).foldl (fun s b => memBits s (l + b.1) b.2.1 b.2.2) s) s

/-- Set flags of the issuing wave. -/
def opStat (s : State) (o : EngOp) (bit : Nat) : State := updWave s o.wave (fun v => setStat v bit)

/-- Why an element of memory cannot be moved: PCIE_LOST, ECC. -/
def elemLost (s : State) (o : EngOp) (level va : Nat) (bs : List (Nat × Byte)) : Option Trap :=
  if !s.dev.linkUp && bs.any (fun b => isHostLoc b.1) then some (pcieLost (va % 2 ^ 57) o.mask)
  else (poisonIn s [] o.core level bs).map (fun p => eccTrap p.strct va o.mask)

/-- The fault that the pages of an element give: poison in their walk, an address that fails translation. -/
def elemPages (s : State) (o : EngOp) (c : Ctx) (kind : Nat) (l : Located) : Option Trap :=
  match l.va with
  | none => none
  | some va =>
    match firstSome (fun (b : Nat × Byte) => walkLost s o c.g.part (va + b.1)) l.bytes with
    | some t => some t
    | none => (faultIn s c kind va l.bytes).map (fun a => pageFault a kind o.mask)

/-- One element of COPY.GS, COPY.MC or COPY.SG: step i of the loop. What it reads of memory is first pushed up to H(S) (R174). -/
def copyElem (o : EngOp) (g : Wg) (r : Rec) (store : Bool) (level : Nat) (scr : List Nat) (run : CopyRun) (i : Nat) :
    CopyRun :=
  let x := o.x
  let s := run.1
  let chans := (List.range r.c).map (fun ch => cpScr x r (i * r.c + ch))
  let (ex, ey) := cpXY x r o.b.toNat i
  match whereElem r store ex ey with
  | .fault => copyFault run (recordBounds r.idx o.mask)
  | .outside =>
    let s1 := opStat s o 1
    (if store then s1 else chans.foldl (fun s e => putScr s scr e 0) s1, run.2)
  | .elem px py oob =>
    match getWave s o.wave with
    | none => run
    | some v =>
      let c := engCtx o v g
      let l := locate s g r r.c px py
      let kind := if store then 1 else 0
      let first := (l.bytes.map (·.1)).headD 0
      match elemPages s o c kind l with
      | some t => copyFault run t
      | none =>
        let s1 := if oob then opStat s o 1 else s
        match engineAcc s1 c kind l with
        | .mem bs =>
          let s1 := if store then s1 else pushBlocks s1 o.core level (bs.map (·.1))
          let poison := if store then none else elemLost s1 o level ((l.va.getD 0) + first) bs
          let scrBs := (chans.flatMap elemBytes).map (fun b => (scr.headD 0 + b.1, b.2))
          let bad : Option Trap :=
            match poison with
            | some t => some t
            | none =>
              if store then
                (poisonIn s1 [] o.core level scrBs).map (fun p => eccTrap p.strct (o.a.toNat + ((chans.flatMap elemBytes).map (·.1)).headD 0) o.mask)
              else none
          match bad with
          | some t => copyFault (s1, run.2) t
          | none =>
            let s1 := fixBytes (if anySparse bs then opStat s1 o 2 else s1) [] o.core level
              (if store then scrBs.map (·.1) else bs.map (·.1))
            let s2 := markHost (if 0 < l.bytes.length ∧ l.va.isSome then tlbFill s1 g.part o.core ((l.va.getD 0) + first) else s1)
              g (bs.map (·.1))
            if store then
              let puts := joinBytes (((l.elems.zip chans).map (fun e =>
                elemPut e.1 (ofSfmt x r (elemRaw e.2 (fun k => scrByte s2 o i (scr.headD 0 + k)))))).flatten)
              let s3 := (bs.zip puts).foldl (fun s e => engWrite s o.core level e.1.1 e.2.2.1 e.2.2.2) s2
              (healBytes s3 o.core level (if puts.all (fun e => e.2.1 = 0xFF) then bs.map (·.1) else []), run.2)
            else
              let vals := bs.map (fun b => opByte s2 o i level b.1)
              ((l.elems.zip chans).foldl (fun s e => putScr s scr e.2 (toSfmt x r (rawFrom e.1 l.bytes vals))) s2, run.2)
        | .freed =>
          let s2 := { s1 with fresh := s1.fresh + 4 }
          (if store then s2
           else (chans.zipIdx).foldl (fun s e => putScr s scr e.1 (Config.freeWord (s1.fresh + e.2)).toNat) s2, run.2)
        | _ => (if store then s1 else chans.foldl (fun s e => putScr s scr e 0) s1, run.2)

/-- The completion word, after every payload byte (R177). -/
def copyWord (o : EngOp) (g : Wg) (level : Nat) (run : CopyRun) : CopyRun :=
  if !cpWord o.x || run.2.isSome then run
  else
    let s := run.1
    let va := o.d.toNat
    let word := ((o.vals.head?.map (·.2)).getD []).headD 0
    match walkLost s o g.part va, translate s g.part o.core 1 va with
    | some t, _ => copyFault run t
    | none, .fault => copyFault run (pageFault va 1 o.mask)
    | none, .sparse => (opStat s o 2, none)
    | none, .ok loc =>
      let s1 := markHost (tlbFill s g.part o.core va) g [loc]
      (((bytesOf 4 word.toNat).zipIdx).foldl (fun s b => engWrite s o.core level (loc + b.2) 0xFF b.1) s1, none)

/-- COPY.SS: every source byte is read before any is written; poisoned blocks stay behind. -/
def copySs (s : State) (o : EngOp) (g : Wg) : CopyRun :=
  let n := o.b.toNat
  let src := extentLoc o.core g (ssSrcCl o.x) o.a.toNat
  let dst := extentLoc o.core g (ssDstCl o.x) (if ssDstCl o.x then ssCore o.x * 2 ^ 30 + ssDst o.x else ssDst o.x)
  let bad := (List.range n).filter (fun i => (poisonAt s [] o.core 0 (src + i)).isSome)
  let vals := (List.range n).map (fun i => scrByte s o i (src + i))
  let s1 := (vals.zipIdx).foldl (fun s b => if bad.contains b.2 then s else memBits s (dst + b.2) 0xFF b.1)
    (fixBytes s [] o.core 0 ((List.range n).map (src + ·)))
  let s2 := healBytes s1 o.core 0 (((List.range n).filter (fun i => !bad.contains i)).map (dst + ·))
  (s2, match bad with
    | [] => none
    | i :: _ => some (eccTrap (((poisonAt s [] o.core 0 (src + i)).map (·.strct)).getD 2) (o.a.toNat + i) o.mask))

/-- Where the elements that a copy has moved into scratchpads lie. -/
def copiedLocs (s : State) (o : EngOp) (g : Wg) (r : Rec) (level : Nat) (scr : List Nat) : List Nat :=
  if s.dev.serr.isEmpty then []
  else ((cpSteps o.x).foldl (fun (x : State × List Nat) i =>
    let y := copyElem o g r false level scr (x.1, none) i
    let bs := (List.range r.c).flatMap (fun ch => (elemBytes (cpScr o.x r (i * r.c + ch))).map (·.1))
    (y.1, if y.2.isNone then x.2 ++ scr.flatMap (fun l => bs.map (l + ·)) else x.2)) (s, [])).2

/-- The payload of a copy. Poison goes from the scratch blocks that it writes whole (entry 28). -/
def copyRun (s : State) (o : EngOp) (g : Wg) (level : Nat) : CopyRun :=
  if o.op = 2 then copySs s o g
  else
    let r := parseRec (cpRec o.x) o.recd
    let scr := if o.op = 3 then (mcAddrs o.a.toNat).map (extentLoc o.core g true) else [extentLoc o.core g (cpCl o.x) o.a.toNat]
    let run := (cpSteps o.x).foldl (copyElem o g r (o.op = 1) level scr) (s, none)
    (if o.op = 1 then run.1 else healBytes run.1 o.core 0 (copiedLocs s o g r level scr), run.2)

/-- COPY_COMPLETE: the release of R174, the copy, its completion word, its counter (R326). -/
def execCopyComplete (id : Nat) (s : State) : Answer :=
  match runningOp s .copy id with
  | none => .next s
  | some o =>
    match opCtx s o with
    | none => .next (dropOp s id)
    | some (_, g) =>
      let run := copyWord o g (opLevel o) (copyRun (engRelease s o) o g (opLevel o))
      .next (endOp (match run.2 with | some t => pendEng run.1 o.wave t false | none => run.1) o)

end Sys2Proof.Machine
end

