-- ==== Sys2Proof/Machine/Transc.lean ====
section
/-! DEFINITION. The transcendentals, correctly rounded (09_arithmetic.md R192). A result that is not exact is computed to
at least 280 bits with a sticky bit below them; that this decides every binary32 rounding is DEDUCED (entry 11). -/

namespace Sys2Proof.Machine

/-- Fraction bits of the fixed-point values below. -/
def fixP : Nat := 320

/-- The integer part of 2^320 ln 2. -/
def fixLn2 : Nat := 0xb17217f7d1cf79abc9e3b39803f2f6af40f343267298b62d8a0d175b8baafa2be7b876206debac98

/-- The integer part of 2^320 π/2. -/
def fixHalfPi : Nat := 0x1921fb54442d18469898cc51701b839a252049c1114cf98e804177d4c76273644a29410f31c6809bb

/-- The integer part of 2^512 · 2/π. -/
def fixTwoOverPi : Nat :=
  0xa2f9836e4e441529fc2757d1f534ddc0db6295993c439041fe5163abdebbc561b7246e3a424dd2e006492eea09d1921cfe1deb1cb129a73ee88235f52ebb4484

/-- Σ y^k / k! from a term on. -/
def expLoop (y : Nat) : Nat → Nat → Nat → Nat → Nat
  | 0, _, _, acc => acc
  | n + 1, k, term, acc => let t := (term * y) >>> fixP / k; expLoop y n (k + 1) t (acc + t)

/-- e^y for 0 ≤ y < 1, in fixed point. -/
def expFix (y : Nat) : Nat := expLoop y 68 1 (2 ^ fixP) (2 ^ fixP)

/-- Σ z^(2k+1) / (2k+1). -/
def atanhLoop (z2 : Nat) : Nat → Nat → Nat → Nat → Nat
  | 0, _, _, acc => acc
  | n + 1, k, term, acc => atanhLoop z2 n (k + 2) ((term * z2) >>> fixP) (acc + term / k)

/-- ln t for 1 ≤ t < 2, in fixed point. -/
def lnFix (t : Nat) : Nat :=
  let z := ((t - 2 ^ fixP) <<< fixP) / (t + 2 ^ fixP)
  2 * atanhLoop ((z * z) >>> fixP) 104 1 z 0

/-- The alternating series of sine (k = 1) and cosine (k = 0): terms added and terms taken away. -/
def trigLoop (r2 : Nat) : Nat → Nat → Nat → Nat → Nat → Nat
  | 0, _, _, p, n => p - n
  | f + 1, k, term, p, n => trigLoop r2 f (k + 2) ((term * r2) >>> fixP / ((k + 1) * (k + 2))) (n + term) p

/-- sin r and cos r for 0 ≤ r < π/2, in fixed point; after an odd number of terms the sum of the terms added stands first. -/
def sinFix (r : Nat) : Nat := trigLoop ((r * r) >>> fixP) 43 1 r 0 0
def cosFix (r : Nat) : Nat := trigLoop ((r * r) >>> fixP) 43 0 (2 ^ fixP) 0 0

/-- The integer square root below 2^k, bit by bit. -/
def isqrtLoop : Nat → Nat → Nat → Nat
  | 0, _, r => r
  | k + 1, n, r => let c := r + 2 ^ k; if c * c ≤ n then isqrtLoop k n c else isqrtLoop k n r

/-- FSQRT. -/
def sqrtNum (x : Num) : Num :=
  match x with
  | .nan => .nan
  | .inf neg => if neg then .nan else .inf false
  | .fin neg m e =>
    if m = 0 then .fin neg 0 0
    else if neg then .nan
    else
      let s := if e % 2 = 0 then 128 else 129
      let n := m <<< s
      let r := isqrtLoop 80 n 0
      sticky false r ((e - (s : Int)) / 2) (r * r != n)

/-- FRSQ. -/
def rsqNum (x : Num) : Num :=
  match x with
  | .nan => .nan
  | .inf neg => if neg then .nan else .zero
  | .fin neg m e =>
    if m = 0 then .inf neg
    else if neg then .nan
    else
      let odd := e % 2 != 0
      let n := if odd then 2 * m else m
      let f := if odd then e - 1 else e
      let r := isqrtLoop 84 (2 ^ 160 / n) 0
      sticky false r (-(f / 2) - 80) (r * r * n != 2 ^ 160)

/-- FEX2. -/
def ex2Num (x : Num) : Num :=
  match x with
  | .nan => .nan
  | .inf neg => if neg then .zero else .inf false
  | .fin neg m e =>
    if 0 ≤ e ∨ m % 2 ^ (-e).toNat = 0 then
      let n : Int := (roundInt .rtz neg m e : Nat)
      .fin false 1 (if neg then -n else n)
    else
      let z := alignInt neg m e (-(fixP : Int))
      let n := z / (2 ^ fixP : Nat)
      let f := (z % (2 ^ fixP : Nat)).toNat
      sticky false (expFix ((f * fixLn2) >>> fixP)) (n - (fixP : Int)) true

/-- FLG2. -/
def lg2Num (x : Num) : Num :=
  match x with
  | .nan => .nan
  | .inf neg => if neg then .nan else .inf false
  | .fin neg m e =>
    if m = 0 then .inf true
    else if neg then .nan
    else
      let l := Nat.log2 m
      let n := e + (l : Int)
      if m = 2 ^ l then .ofInt n
      else
        let z := n * (2 ^ fixP : Nat) + ((((lnFix (m <<< (fixP - l))) <<< fixP) / fixLn2 : Nat) : Int)
        sticky (decide (z < 0)) z.natAbs (-(fixP : Int)) true

/-- The quadrant of a magnitude and what remains of it, reduced exactly modulo 2π. -/
def reduceTrig (m : Nat) (e : Int) : Nat × Nat :=
  let x := if 0 ≤ e then (m * fixTwoOverPi) <<< e.toNat else (m * fixTwoOverPi) >>> (-e).toNat
  (x >>> 512 % 4, (((x % 2 ^ 512) >>> 192) * fixHalfPi) >>> fixP)

/-- FSIN. -/
def sinNum (x : Num) : Num :=
  match x with
  | .nan => .nan
  | .inf _ => .nan
  | .fin neg m e =>
    if m = 0 then .fin neg 0 0
    else
      let (q, r) := reduceTrig m e
      sticky (neg != decide (2 ≤ q)) (if q % 2 = 0 then sinFix r else cosFix r) (-(fixP : Int)) true

/-- FCOS. -/
def cosNum (x : Num) : Num :=
  match x with
  | .nan => .nan
  | .inf _ => .nan
  | .fin _ m e =>
    if m = 0 then .one
    else
      let (q, r) := reduceTrig m e
      sticky (q = 1 || q = 2) (if q % 2 = 0 then cosFix r else sinFix r) (-(fixP : Int)) true

end Sys2Proof.Machine
end

