-- ==== Sys2Proof/Machine/Sampler.lean ====
section
/-! DEFINITION. The sampler: TEX, TEX.L, TEX.B, TEX.D, TEX.G, TEXN, TLD, TQRY (06_tables.md R139, 15_isa_engines.md R340 to
R344). -/

namespace Sys2Proof.Machine

/-! Sampler records (R139). -/

structure Smp where
  handle : Nat
  ridx : Nat
  lodbias : Int
  maxlod : Nat
  av : Nat
  au : Nat
  mip : Nat
  minf : Nat
  mag : Nat
  mbz : Bool
  deriving DecidableEq, Repr

def parseSmp (w : List DWord) : Smp :=
  let q (i : Nat) : Nat := ((w[i]?).getD 0).toNat
  { handle := bits (q 0) 40 16, ridx := bits (q 0) 32 8, lodbias := sextN 16 (bits (q 0) 16 16), maxlod := bits (q 0) 12 4,
    av := bits (q 0) 9 3, au := bits (q 0) 6 3, mip := bits (q 0) 4 2, minf := bits (q 0) 2 2, mag := bits (q 0) 0 2,
    mbz := bits (q 0) 56 8 != 0 || q 1 != 0 || q 2 != 0 || q 3 != 0 }

def smpBad (x : Smp) : Bool :=
  x.mbz || decide (3 < x.av) || decide (3 < x.au) || x.mip = 3 || decide (1 < x.minf) || decide (1 < x.mag)

def txSmp (x : FE) : Nat := bits x.ext.toNat 0 8
def txPred (x : FE) : Nat := bits x.ext.toNat 8 3
def txGch (x : FE) : Nat := bits x.ext.toNat 11 2

/-- Address of sampler record i (R139). -/
def smpAddr (v : Wave) (i : Nat) : Nat := bits v.csr.smtab.toNat 9 48 * 512 + 32 * i

/-- The sampler record and the words of its level records, checked at issue (R139). neural asks for LATENT. -/
def readSmp (s : State) (c : Ctx) (i : Nat) (neural : Bool) : Except Trap (Smp × List DWord) :=
  let bad : Except Trap (Smp × List DWord) := .error (recordBounds (i + 256) c.mask)
  if countOf c.wave.csr.smtab 9 256 ≤ i then bad
  else
    match issueTable s c (smpAddr c.wave i) 4 with
    | .error t => .error t
    | .ok w =>
      let m := parseSmp w
      if smpBad m then bad
      else
        match foldE (fun (l : List DWord) k =>
          match readRec s c (m.ridx + k) with
          | .error t => .error t
          | .ok r =>
            if r.kind = 4 || (r.kind = 1 && !neural) then
              .ok (l ++ (tableDwords s c.g.part c.core (recAddr c.wave (m.ridx + k)) 5).getD [])
            else .error (recordBounds ((m.ridx + k) % 256) c.mask)) w (List.range (m.maxlod + 1)) with
        | .error t => .error t
        | .ok l => .ok (m, l)

/-- The record of level l among the words read at issue. -/
def levelRec (m : Smp) (recd : List DWord) (l : Nat) : Rec := parseRec (m.ridx + l) ((recd.drop (4 + 5 * l)).take 5)

/-! Exact numbers. -/

/-- The greatest integer at or below a finite value. -/
def floorNum (x : Num) : Int :=
  match x with
  | .fin neg m e => if 0 ≤ e then alignInt neg m e 0 else (if neg then -(m : Int) else (m : Int)) / (2 ^ (-e).toNat : Nat)
  | _ => 0

def isFin (x : Num) : Bool := match x with | .fin .. => true | _ => false
def numSub (x y : Num) : Num := x.add false y.neg
def numMax (x y : Num) : Num := if x.lt y then y else x
def numMin (x y : Num) : Num := if y.lt x then y else x
def numHalf : Num := .fin false 1 (-1)
def isZero (x : Num) : Bool := match x with | .fin _ m _ => m = 0 | _ => false

/-- The square root of a nonnegative value of any size, to 64 bits and more and a sticky bit. -/
def sqrtWide (x : Num) : Num :=
  match x with
  | .fin _ m e =>
    if m = 0 then .zero
    else
      let s := if e % 2 = 0 then 128 else 129
      let n := m <<< s
      let r := isqrtLoop (Nat.log2 n / 2 + 1) n 0
      sticky false r ((e - (s : Int)) / 2) (r * r != n)
  | y => y

/-! Levels (R341). -/

/-- λ of TEX.D before bias, from the four derivatives. -/
def lodOf (r0 : Rec) (d : List Word) : Num :=
  let f (i : Nat) : Num := f32 ((d[i]?).getD 0)
  let w : Num := .ofInt r0.width
  let h : Num := .ofInt r0.height
  let sq (a b : Num) : Num :=
    let p := a.mul w
    let q := b.mul h
    (p.mul p).add false (q.mul q)
  if (List.range 4).any (fun i => (f i).isNan) then .zero
  else
    let a := sq (f 0) (f 1)
    let b := sq (f 2) (f 3)
    if a.isNan || b.isNan then .zero
    else f32 (rne32 (lg2Num (f32 (rne32 (sqrtWide (numMax a b))))))

/-- λb: level of detail with its biases; a NaN input counts as 0. -/
def lodBiased (op : Nat) (m : Smp) (r0 : Rec) (b : List Word) : Num :=
  let fb := f32 (b.headD 0)
  let l : Num := match op with
    | 0x29 => if fb.isNan then .zero else fb
    | 0x2A => if fb.isNan then .zero else fb
    | 0x2B => lodOf r0 b
    | _ => .zero
  l.add false ((Num.ofInt m.lodbias).mul (.fin false 1 (-8)))

/-- The levels sampled with their weights, and whether the filter is linear. -/
def levelsOf (op : Nat) (m : Smp) (lb : Num) : List (Nat × Num) × Bool :=
  let filter := if lb.le .zero then m.mag else m.minf
  let lc := numMin (numMax lb .zero) (.ofInt m.maxlod)
  let near := [((floorNum (lc.add false numHalf)).toNat, Num.one)]
  (if op = 0x2C then near
   else match m.mip with
    | 0 => [(0, .one)]
    | 1 => near
    | _ =>
      let l0 := (floorNum lc).toNat
      let f := numSub lc (.ofInt l0)
      if isZero f then [(l0, .one)] else [(l0, numSub .one f), (Nat.min (l0 + 1) m.maxlod, f)],
   filter = 1)

/-! Texels (R342). -/

/-- What a coordinate becomes under an address mode: a texel of the level, the border, or nothing that the spec states (a
level without texels). -/
inductive Addr where
  | at_ (i : Nat)
  | border
  | unstated
  deriving DecidableEq, Repr

def addrMode (mode : Nat) (n : Nat) (i : Int) : Addr :=
  if mode = 3 then (if 0 ≤ i ∧ i < (n : Int) then .at_ i.toNat else .border)
  else if n = 0 then .unstated
  else match mode with
    | 0 => .at_ (i % (n : Int)).toNat
    | 1 => .at_ (clampI 0 ((n : Int) - 1) i).toNat
    | _ =>
      let k := (i % (2 * n : Nat)).toNat
      .at_ (if k < n then k else 2 * n - 1 - k)

/-- A texel read: its channels, none when the spec states no value; its fault; a sparse page met; the address read and
the locations of its bytes. -/
structure Texel where
  vals : Option (List Word)
  fault : Option Trap
  nres : Bool
  va : List Nat
  locs : List Nat := []
  deriving DecidableEq, Repr

def blankTexel (n : Nat) : Texel := { vals := some (List.replicate n 0), fault := none, nres := false, va := [] }

/-- The number of a texel among an operation's elements (R176): twice its byte address, and one more in a high nibble. -/
def texelNum (base : Nat) (l : List Elem) : Nat :=
  match l with
  | .bytes o _ :: _ => 2 * (base + o)
  | .nib o hi :: _ => 2 * (base + o) + (if hi then 1 else 0)
  | .planes p :: _ => 2 * (base + (p.headD (0, 0)).1)
  | [] => 0

/-- The channels of an element of a level, read at WG scope (R174); a sparse page's bytes are zero and are converted
(R92, R128). -/
def readTexel (s : State) (o : EngOp) (v : Wave) (g : Wg) (r : Rec) (x y : Nat) : Texel :=
  let c := engCtx o v g
  let l := locate s g r r.c x y
  let first := r.base + (l.bytes.map (·.1)).headD 0
  match elemPages s o c 0 l with
  | some t => { vals := none, fault := some t, nres := false, va := [] }
  | none =>
    match engineAcc s c 0 l with
    | .mem bs =>
      let lost := !s.dev.linkUp && bs.any (fun b => isHostLoc b.1)
      let vals := bs.map (fun b => opByte s o (texelNum r.base l.elems) 0 b.1)
      let words := l.elems.map (fun e => loadConv r (rawFrom e l.bytes vals))
      let f := elemLost s o 0 first bs
      { vals := if f.isSome && !lost then none else some words, fault := f, nres := anySparse bs, va := [first],
        locs := bs.map (·.1) }
    | _ => blankTexel r.c

/-- T(i, j) of a level under the sampler's address modes. -/
def texelAt (s : State) (o : EngOp) (v : Wave) (g : Wg) (m : Smp) (r : Rec) (i j : Int) : Texel :=
  match addrMode m.au r.width i, addrMode m.av r.height j with
  | .border, _ => blankTexel r.c
  | _, .border => blankTexel r.c
  | .at_ x, .at_ y => readTexel s o v g r x y
  | _, _ => { blankTexel r.c with vals := none }

/-- Texels with their weights. -/
abbrev Footprint := List (Texel × Num)

/-- The linear footprint: corner and fractions. -/
def linearAt (u w : Num) (r : Rec) : Int × Int × Num × Num :=
  let x := numSub (u.mul (.ofInt r.width)) numHalf
  let y := numSub (w.mul (.ofInt r.height)) numHalf
  let i := floorNum x
  let j := floorNum y
  (i, j, numSub x (.ofInt i), numSub y (.ofInt j))

/-- One level's texels, those of weight 0 left out. -/
def sampleLevel (s : State) (o : EngOp) (v : Wave) (g : Wg) (m : Smp) (r : Rec) (linear : Bool) (u w : Num) (k : Num) : Footprint :=
  let t (i j : Int) : Texel := texelAt s o v g m r i j
  if linear then
    let (i, j, a, b) := linearAt u w r
    let a1 := numSub .one a
    let b1 := numSub .one b
    ([(i, j, a1.mul b1), (i + 1, j, a.mul b1), (i, j + 1, a1.mul b), (i + 1, j + 1, a.mul b)].filter
      (fun e => !isZero e.2.2)).map (fun e => (t e.1 e.2.1, k.mul e.2.2))
  else [(t (floorNum (u.mul (.ofInt r.width))) (floorNum (w.mul (.ofInt r.height))), k)]

/-- A channel of a footprint, rounded once; none when a texel has no stated value. -/
def blend (f : Footprint) (ch : Nat) : Option Word :=
  if f.any (fun e => e.1.vals.isNone) then none
  else some (rne32 (sumNum (f.map (fun e => e.2.mul (f32 ((((e.1.vals.getD [])[ch]?)).getD 0))))))

/-- What a sampler operation gives one thread: four words, none where unstated; its texels' faults and flags. -/
structure TexOut where
  words : List (Option Word)
  faults : List Trap
  nres : Bool
  oob : Bool
  va : List Nat
  locs : List Nat
  deriving DecidableEq, Repr

def texOut (ws : List (Option Word)) (ts : List Texel) : TexOut :=
  { words := ws, faults := ts.filterMap (·.fault), nres := ts.any (·.nres), oob := false, va := ts.flatMap (·.va),
    locs := ts.flatMap (·.locs) }

def zeroOut : TexOut := texOut (List.replicate 4 (some 0)) []

/-- A filtered sample with its channels placed as by LDR.V4 (R130). -/
def filtered (c : Nat) (f : Footprint) : TexOut :=
  texOut ((List.range 4).map (fun ch => if ch < c then blend f ch else some 0)) (f.map (·.1))

/-- TLD of texel (x, y) of a level (R343). -/
def texLoad (s : State) (o : EngOp) (v : Wave) (g : Wg) (m : Smp) (l : Nat) (xy : Word) : TexOut :=
  if m.maxlod < l then zeroOut
  else
    let r := levelRec m o.recd l
    match whereElem r false (bits xy.toNat 0 16) (bits xy.toNat 16 16) with
    | .elem x y oob =>
      let t := readTexel s o v g r x y
      { texOut ((List.range 4).map (fun ch => if ch < r.c then t.vals.bind (fun l => l[ch]?) else some 0)) [t] with oob := oob }
    | .outside => { zeroOut with oob := true }
    | .fault => { texOut (List.replicate 4 none) [] with faults := [recordBounds (r.idx % 256) o.mask] }

/-- TQRY of a level (R343). Above MAXLOD the spec states no channel count. -/
def texQuery (m : Smp) (recd : List DWord) (l : Nat) : TexOut :=
  let lod : Option Word := some (BitVec.ofNat 32 m.maxlod)
  if m.maxlod < l then texOut [some 0, some 0, lod, none] []
  else
    let r := levelRec m recd l
    texOut [some (BitVec.ofNat 32 r.width), some (BitVec.ofNat 32 r.height), lod, some (BitVec.ofNat 32 r.c)] []

/-- The result of one thread (R341 to R343). vals are its inputs: A's registers, then B's. Between two levels whose records
have different channel counts, the count of the first level places the channels, and one that the other level lacks counts as
zero: R342 does not say (entry 21, DESIGN CHOICE). -/
def texThread (s : State) (o : EngOp) (v : Wave) (g : Wg) (vals : List Word) : TexOut :=
  let m := parseSmp (o.recd.take 4)
  if o.op = 0x2F then texQuery m o.recd (vals.headD 0).toNat
  else if o.op = 0x2E then texLoad s o v g m ((vals[1]?).getD 0).toNat (vals.headD 0)
  else
    let u := f32 (vals.headD 0)
    let w := f32 ((vals[1]?).getD 0)
    if !isFin u || !isFin w then zeroOut
    else if o.op = 0x2D then
      let r := levelRec m o.recd 0
      filtered r.c (sampleLevel s o v g m r true u w .one)
    else
      let (ls, linear) := levelsOf o.op m (lodBiased o.op m (levelRec m o.recd 0) (vals.drop 2))
      if o.op = 0x2C then
        let r := levelRec m o.recd ((ls.head?.map (·.1)).getD 0)
        let (i, j, _, _) := linearAt u w r
        let ts := [texelAt s o v g m r i j, texelAt s o v g m r (i + 1) j, texelAt s o v g m r i (j + 1),
          texelAt s o v g m r (i + 1) (j + 1)]
        texOut (ts.map (fun t => if r.c ≤ txGch o.x then some 0 else t.vals.bind (fun l => l[txGch o.x]?))) ts
      else
        filtered (levelRec m o.recd ((ls.head?.map (·.1)).getD 0)).c
          (ls.flatMap (fun l => sampleLevel s o v g m (levelRec m o.recd l.1) linear u w l.2))

/-! Issue (R340). -/

/-- Registers of A and of B. -/
def texRegs (op : Nat) : Nat × Nat :=
  match op with
  | 0x29 => (2, 1)
  | 0x2A => (2, 1)
  | 0x2B => (2, 4)
  | 0x2E => (1, 1)
  | 0x2F => (1, 0)
  | _ => (2, 0)

/-- The checks of the family: the wave after its reads, the sampler's handle, and what the operation takes along. -/
def texCheck (s : State) (c : Ctx) (op : Nat) (x : FE) : Except Trap (Wave × Smp × EngIn) :=
  let (na, nb) := texRegs op
  match allChecks [rangeArg c x.d (if op = 0x2D then 2 else 4), rangeArg c x.a na, if nb = 0 then .ok () else rangeArg c x.b nb,
      engBits c op x (bits x.ext.toNat 13 19 = 0 && x.f = 0 && (op = 0x2C || txGch x = 0) && (op = 0x2D || txPred x = 0))] with
  | .error t => .error t
  | .ok _ =>
    match engRead c (rangeSrcs x.a na ++ rangeSrcs x.b nb), readSmp s c (txSmp x) (op = 0x2D) with
    | .error t, _ => .error t
    | _, .error t => .error t
    | .ok v, .ok (m, recd) =>
      .ok (v, m, { vals := (byTid c.wave c.mask).map (fun q => (q, rangeVals c q x.a na ++ rangeVals c q x.b nb)), recd := recd })

/-- The checks of the sampler's queue. -/
def texQueueCheck (s : State) (op : Nat) (x : FE) (c : Ctx) : Except Trap (Wave × EngIn) :=
  match texCheck s c op x with
  | .error t => .error t
  | .ok (v, _, i) => .ok (v, i)

/-- The issue of an instruction of the sampler. -/
def texIssue (s : State) (op : Nat) (x : FE) : Answer := engIssue s op 1 x (texQueueCheck s op x)

/-- TEX. -/
def execTex (x : FE) (s : State) : Answer := texIssue s 0x28 x
/-- TEX.L. -/
def execTexL (x : FE) (s : State) : Answer := texIssue s 0x29 x
/-- TEX.B. -/
def execTexB (x : FE) (s : State) : Answer := texIssue s 0x2A x
/-- TEX.D. -/
def execTexD (x : FE) (s : State) : Answer := texIssue s 0x2B x
/-- TEX.G. -/
def execTexG (x : FE) (s : State) : Answer := texIssue s 0x2C x
/-- TLD. -/
def execTld (x : FE) (s : State) : Answer := texIssue s 0x2E x
/-- TQRY. -/
def execTqry (x : FE) (s : State) : Answer := texIssue s 0x2F x

/-! Completion. -/

/-- The faults of threads, one trap per cause, with the threads that met it and the TVAL of the lowest of them. -/
def groupFaults (l : List (Nat × List Trap)) : List Trap :=
  let all := l.flatMap (fun e => e.2.map (fun t => (e.1, t)))
  ((all.map (fun e => e.2.code)).eraseDups).filterMap (fun k =>
    ((all.find? (fun e => e.2.code = k)).map (fun e =>
      { e.2 with fmask := maskOf ((all.filter (fun x => x.2.code = k)).map (·.1)) })))

/-- Flags, corrected bytes (R97), TLB fills and the mark of R381 that an operation's reads leave. -/
def texTouch (s : State) (o : EngOp) (g : Wg) (outs : List (Nat × TexOut)) : State :=
  let s1 := updWave (fixBytes s [] o.core 0 (outs.flatMap (fun e => e.2.locs))) o.wave (fun v =>
    setStatIf (setStatIf v (outs.any (fun e => e.2.oob)) 1) (outs.any (fun e => e.2.nres)) 2)
  ((outs.flatMap (fun e => e.2.va)).eraseDups).foldl (fun s a => markTable s g o.core a 1) s1

/-- A thread's words; one the spec does not state is free. -/
def texWords (s : State) (q : Nat) (ws : List (Option Word)) : List Word :=
  (ws.zipIdx).map (fun e => e.1.getD (Config.freeWord (s.fresh + 4 * q + e.2)))

/-- TEX_COMPLETE: the release of R174, the reads, the results of every thread at once (R323). -/
def execTexComplete (id : Nat) (s : State) : Answer :=
  match runningOp s .sampler id with
  | none => .next s
  | some o =>
    let s0 := engRelease s o
    match opCtx s0 o with
    | none => .next (dropOp s id)
    | some (v, g) =>
      let outs := o.vals.map (fun e => (e.1, texThread s0 o v g e.2))
      let s1 := updWave (noteExpand (texTouch s0 o g outs) o.wave o.x.d.toNat 4) o.wave (fun v =>
        engRegs v o.x.d.toNat 4 (outs.map (fun e => (e.1, texWords s0 e.1 e.2.words))))
      let s2 := (groupFaults (outs.map (fun e => (e.1, e.2.faults)))).foldl (fun s t => pendEng s o.wave t false) s1
      .next (endOp { s2 with fresh := s.fresh + 256 } o)

/-- TEXN (R344): level 0 is sampled when its rows enter Baton (entry 15); each thread's channels, as FP16, are a row of the
sampler's handle. A full sampler queue stalls it too (R118), as its counter and its key do. -/
def execTexn (x : FE) (s : State) : Answer :=
  issue s fun c =>
    match c.path.wait with
    | .baton id => .ok (batonRetry s id)
    | _ =>
      match texCheck s c 0x2D x with
      | .error t => .error t
      | .ok (v, m, i) =>
        if 64 ≤ (inQueue s .sampler c.core).length || engStall s c 0x2D || !keyRoom s c.core c.wave.csr.whtab m.handle then
          .ok (hold s c .stall)
        else
          let o := newOp s c 0x2D x i true
          let s0 := engRelease s o
          match getWave s0 c.w with
          | none => .ok s0
          | some v0 =>
            let outs := i.vals.map (fun e => (e.1, texThread s0 o v0 c.g e.2))
            let n := (levelRec m i.recd 0).c
            let ins (q : Nat) : List (BitVec 16) :=
              match outs.find? (fun e => e.1 = q) with
              | some e => ((texWords s0 q e.2.words).take n).map (fun w => BitVec.ofNat 16 (narrow fmtF16 w))
              | none => []
            let s1 := batonIssue s0 c 0x2D x { v0 with csr := v.csr } i (handleGroups (byTid c.wave c.mask) (fun _ => m.handle) ins)
            let s2 := { texTouch s1 o c.g outs with fresh := s.fresh + 256 }
            let ps : List Pend := (groupFaults (outs.map (fun e => (e.1, e.2.faults)))).map
              (fun t => { code := t.code, cls := t.cls, tval := t.tval, fmask := t.fmask, pathB := false })
            .ok { s2 with bres := s2.bres.map (fun b => if b.op = s.nextId then { b with fault := ps ++ b.fault } else b) }

end Sys2Proof.Machine
end

