-- ==== Sys2Proof/Machine/Trace.lean ====
section
/-! DEFINITION. Ray traversal: TRACE and TRACE.A (06_tables.md R132, R145, R146, 09_arithmetic.md R201 to R203,
15_isa_engines.md R345 to R348). -/

namespace Sys2Proof.Machine

/-- A ray: origin and direction by axis, and its interval. -/
structure Ray where
  o : List Word
  d : List Word
  tmin : Word
  tmax : Word
  deriving DecidableEq, Repr

def rayOf (l : List Word) : Ray :=
  { o := l.take 3, d := (l.drop 3).take 3, tmin := (l[6]?).getD 0, tmax := (l[7]?).getD 0 }

def numAt (l : List Word) (i : Nat) : Num := f32 ((l[i]?).getD 0)

/-- Degenerate inputs (R346). -/
def degenerate (r : Ray) : Bool :=
  (r.o ++ r.d ++ [r.tmin, r.tmax]).any (fun x => (f32 x).isNan) || (r.o ++ r.d).any (fun x => !isFin (f32 x)) ||
    r.d.all (fun x => isZero (f32 x)) || (f32 r.tmax).lt (f32 r.tmin)

/-! Boxes (R201). -/

/-- One axis: the bounds of the interval inside the box, or not entered. -/
def boxAxis (o d lo hi : Num) : Option (Num × Num) :=
  if isZero d then (if o.lt lo || hi.lt o then none else some (.inf true, .inf false))
  else
    let t1 := (numSub lo o).div d
    let t2 := (numSub hi o).div d
    some (numMin (f32 (toF32 .rdn t1)) (f32 (toF32 .rdn t2)), numMax (f32 (toF32 .rup t1)) (f32 (toF32 .rup t2)))

/-- tnear of a child's box when it is entered. b holds min x, y, z and max x, y, z. -/
def boxEnter (r : Ray) (tbest : Num) (b : List Word) : Option Num :=
  if (List.range 6).any (fun i => (numAt b i).isNan) || (List.range 3).any (fun i => (numAt b (i + 3)).lt (numAt b i)) then none
  else
    let ax (i : Nat) : Option (Num × Num) := boxAxis (numAt r.o i) (numAt r.d i) (numAt b i) (numAt b (i + 3))
    match ax 0, ax 1, ax 2 with
    | some x, some y, some z =>
      let near := numMax (numMax (numMax x.1 y.1) z.1) (f32 r.tmin)
      let far := numMin (numMin (numMin x.2 y.2) z.2) tbest
      if near.le far then some near else none
    | _, _, _ => none

/-! Triangles (R202). -/

def vecSub (a b : List Word) : List Word := (List.range 3).map (fun i => rne32 (numSub (numAt a i) (numAt b i)))

/-- cross, each component exact and rounded once. -/
def vecCross (m n : List Word) : List Word :=
  let p (i j : Nat) : Word := rne32 (numSub ((numAt m i).mul (numAt n j)) ((numAt m j).mul (numAt n i)))
  [p 1 2, p 2 0, p 0 1]

/-- dot, exact and rounded once. -/
def vecDot (m n : List Word) : Word := rne32 (sumNum ((List.range 3).map (fun i => (numAt m i).mul (numAt n i))))

/-- A hit: t, primitive id, u, v. -/
structure Hit where
  t : Word
  id : Word
  u : Word
  v : Word
  deriving DecidableEq, Repr

/-- A triangle of nine coordinates and an id against a ray. -/
def triHit (r : Ray) (tbest : Num) (w : List Word) : Option Hit :=
  let a := w.take 3
  let e1 := vecSub ((w.drop 3).take 3) a
  let e2 := vecSub ((w.drop 6).take 3) a
  let sv := vecSub r.o a
  let p := vecCross r.d e2
  let q := vecCross sv e1
  let det := f32 (vecDot e1 p)
  if isZero det || det.isNan then none
  else
    let flip (x : Num) : Num := if det.lt .zero then x.neg else x
    let d := flip det
    let un := flip (f32 (vecDot sv p))
    let vn := flip (f32 (vecDot r.d q))
    let tn := flip (f32 (vecDot e2 q))
    let t := rne32 (tn.div d)
    if Num.zero.le un && Num.zero.le vn && (un.add false vn).le d && (f32 r.tmin).le (f32 t) && (f32 t).le tbest then
      some { t := t, id := (w[9]?).getD 0, u := rne32 (un.div d), v := rne32 (vn.div d) }
    else none

/-! Traversal (R203). -/

/-- A ray's traversal under way. -/
structure Walkr where
  hit : Option Hit
  tbest : Num
  fault : Option Trap
  lost : Option Trap
  stop : Bool
  va : List Nat
  locs : List Nat
  deriving DecidableEq, Repr

/-- The tree of a record as a core's TRACE reads it. -/
structure Tree where
  part : Nat
  core : Nat
  r : Rec
  any : Bool
  /-- The younger entries of the wave, which each word of the tree may see (R176). -/
  young : List SqEntry
  deriving DecidableEq, Repr

/-- n words of a node or a leaf block that was read at an offset of the tree. -/
def wordsOf (s : State) (t : Tree) (b : Fetched) (base off n : Nat) : List Word :=
  (List.range n).map (fun i =>
    BitVec.ofNat 32 (natOfBytes ((List.range 4).map (fun k => b.byte s t.young ((base + off) / 4 + i) (off + 4 * i + k)))))

/-- Read n bytes of the tree. -/
def treeBytes (s : State) (t : Tree) (off n : Nat) (st : Walkr) : Fetched × Walkr :=
  let f := fetchWeights s t.part t.core (t.r.base + off) (List.range n)
  (f,
   { st with fault := if f.dead then orFault st.fault f.fault else st.fault, lost := if f.dead then st.lost else orFault st.lost f.fault,
             va := (t.r.base + off) :: st.va, locs := f.locs ++ st.locs })

def boundsFault (t : Tree) (st : Walkr) : Walkr := { st with fault := orFault st.fault (some (recordBounds (t.r.idx % 256) 0)) }

/-- A triangle's hit becomes the best: any hit when the first ends it, else the least t, then the lower id. Of two triangles with
the same t and the same id, R203 does not say whose u and v are returned: the model keeps the one met first (entry 22, DESIGN
CHOICE). -/
def takeHit (any : Bool) (st : Walkr) (h : Hit) : Walkr :=
  let better := match st.hit with
    | none => true
    | some b => (f32 h.t).lt (f32 b.t) || ((f32 h.t).eqv (f32 b.t) && decide (h.id < b.id))
  if better then { st with hit := some h, tbest := f32 h.t, stop := any } else st

/-- A leaf block (R146). -/
def traceLeaf (s : State) (t : Tree) (ray : Ray) (j : Nat) (st : Walkr) : Walkr :=
  if t.r.pitch ≤ j then boundsFault t st
  else
    let (b, st1) := treeBytes s t (128 * t.r.width + 160 * j) 160 st
    if st1.fault.isSome then st1
    else
      (List.range 4).foldl (fun st k =>
        if st.stop then st
        else
          let w := wordsOf s t b (128 * t.r.width + 160 * j) (40 * k) 10
          if w[9]? = some 0xFFFFFFFF#32 then st
          else match triHit ray st.tbest w with | some h => takeHit t.any st h | none => st) st1

/-- Entered children in ascending tnear, ties to the lower index. -/
def insChild (x : Num × Nat) : List (Num × Nat) → List (Num × Nat)
  | [] => [x]
  | y :: t => if x.1.lt y.1 then x :: y :: t else y :: insChild x t

/-- An inner node (R145): the boxes are tested when the node is visited. levels is how many depths are left below 32. -/
def traceNode (s : State) (t : Tree) (ray : Ray) : Nat → Nat → Walkr → Walkr
  | 0, _, st => boundsFault t st
  | levels + 1, n, st =>
    if t.r.width ≤ n then boundsFault t st
    else
      let (b, st1) := treeBytes s t (128 * n) 128 st
      if st1.fault.isSome then st1
      else
        let refs := wordsOf s t b (128 * n) 96 4
        let kind (c : Nat) : Nat := bits ((refs[c]?).getD 0).toNat 30 2
        let kids := (List.range 4).foldl (fun l c =>
          if kind c = 1 || kind c = 2 then
            match boxEnter ray st1.tbest (wordsOf s t b (128 * n) (24 * c) 6) with
            | some near => insChild (near, c) l
            | none => l
          else l) []
        kids.foldl (fun st k =>
          if st.stop || st.fault.isSome then st
          else
            let i := bits ((refs[k.2]?).getD 0).toNat 0 30
            if kind k.2 = 1 then traceNode s t ray levels i st else traceLeaf s t ray i st) st1

/-- One thread's traversal: the result, and whether its input is degenerate (R346). -/
def traceRay (s : State) (t : Tree) (ray : Ray) : Walkr × Bool :=
  let st : Walkr := { hit := none, tbest := f32 ray.tmax, fault := none, lost := none, stop := false, va := [], locs := [] }
  if t.r.width = 0 then (st, false)
  else if degenerate ray then (st, true)
  else (traceNode s t ray 32 0 st, false)

/-! Issue and completion. -/

/-- The words of the BVH record that an issue reads; it must be a BVH with an aligned BASE (R132, R345). -/
def traceRecord (s : State) (c : Ctx) (i : Nat) : Except Trap (List DWord) :=
  match readRec s c i with
  | .error t => .error t
  | .ok r =>
    if r.kind != 3 || r.base % 128 != 0 then .error (recordBounds (r.idx % 256) c.mask)
    else .ok ((tableDwords s c.g.part c.core (recAddr c.wave i) 5).getD [])

/-- The checks of R345. -/
def traceCheck (s : State) (op : Nat) (x : FE) (c : Ctx) : Except Trap (Wave × EngIn) :=
  match allChecks [rangeArg c x.d 4, rangeArg c x.a 8, engBits c op x (bits x.ext.toNat 11 21 = 0 && x.f = 0)] with
  | .error t => .error t
  | .ok _ =>
    match engRead c (rangeSrcs x.a 8), traceRecord s c (txSmp x) with
    | .error t, _ => .error t
    | _, .error t => .error t
    | .ok v, .ok l => .ok (v, { vals := (byTid c.wave c.mask).map (fun q => (q, rangeVals c q x.a 8)), recd := l })

/-- The issue of TRACE and TRACE.A. -/
def traceIssue (s : State) (op : Nat) (x : FE) : Answer :=
  engIssue s op 1 x (traceCheck s op x)

/-- TRACE. -/
def execTrace (x : FE) (s : State) : Answer := traceIssue s 0x30 x
/-- TRACE.A. -/
def execTraceA (x : FE) (s : State) : Answer := traceIssue s 0x31 x

/-- The four registers of a result. -/
def hitWords (h : Option Hit) : List Word :=
  match h with
  | some h => [h.t, h.id, h.u, h.v]
  | none => [0x7F800000, 0xFFFFFFFF, 0, 0]

/-- TRACE_COMPLETE: the release at WG of R174 (entry 41), every thread's traversal; a thread whose traversal faults has
nothing written (R347). Event RAYS. -/
def execTraceComplete (id : Nat) (s0 : State) : Answer :=
  match runningOp s0 .trace id with
  | none => .next s0
  | some o =>
    let s := engRelease s0 o
    match opCtx s o with
    | none => .next (dropOp s id)
    | some (_, g) =>
      let t : Tree := { part := g.part, core := o.core, r := parseRec (txSmp o.x) o.recd, any := o.op = 0x31, young := youngEntries s o }
      let outs := o.vals.map (fun e => (e.1, traceRay s t (rayOf e.2)))
      let good := outs.filter (fun e => e.2.1.fault.isNone)
      let s1 := updWave (noteExpand s o.wave o.x.d.toNat 4) o.wave (fun v =>
        let v1 := engRegs v o.x.d.toNat 4 (good.map (fun e => (e.1, hitWords e.2.1.hit)))
        setStatIf (engPreds v1 (txPred o.x) (good.map (fun e => (e.1, e.2.1.hit.isSome)))) (outs.any (·.2.2)) 3)
      let s2 := (((outs.flatMap (fun e => e.2.1.va)).eraseDups)).foldl (fun s a => markTable s g o.core a 1)
        (fixBytes s1 [] o.core 3 (outs.flatMap (fun e => e.2.1.locs)))
      let fs := groupFaults (outs.map (fun e => (e.1, e.2.1.fault.toList ++ e.2.1.lost.toList)))
      .next (endOp (fs.foldl (fun s t => pendEng s o.wave t false) (perfAdd s2 o.core 0x000A o.vals.length)) o)

end Sys2Proof.Machine
end

