-- ==== Sys2Proof/Machine/WaitsMem.lean ====
section
/-! DEFINITION. Counter and memory waits, arrivals, residency, cache hints (14_isa_memory.md R314 to R321). -/

namespace Sys2Proof.Machine

/-- The thresholds of a WAITC word (R314), from the fields an FM word gives them. -/
def waitcThr (x : FM) : Nat × Nat × Nat × Nat :=
  let w : Nat := x.t.toNat * 2 ^ 8 + x.a.toNat * 2 ^ 15 + x.space.toNat * 2 ^ 22
  (bits w 8 4, bits w 12 4, bits w 16 4, bits w 20 4)

/-- WAITC (R314). -/
def execWaitc (x : FM) (s : State) : Answer :=
  issue s fun c =>
    let (a, b, d, e) := waitcThr x
    if waitsMet c.wave a b d e then .ok (updWave (finish s c 1) c.w (noteWait d)) else .ok (hold s c (.counters false a b d e))

/-- The checks of WAITA and WAITAE, made once, at issue (R315). -/
def waitCheck (s : State) (c : Ctx) (x : FM) : Except Trap (Wave × List Plan) :=
  match memCheck1 c [legal c (valueOk c.g x.t false) x.t.toNat, legal c (addrOk c x.space.toNat x.a) x.a.toNat, lastOk c x,
      spaceOk c x [0, 1, 2, 3, 4], ordOk c x [0]] [addrSrc x.space.toNat x.a x.l, ⟨x.t, .value, false, false⟩] with
  | .error t => .error t
  | .ok v0 =>
    match planSpace s c x.space.toNat 4 0 true true
        (fun q => formAddr c x.space.toNat x.a (extOff x) q (tidAt c.wave q)) with
    | .error t => .error t
    | .ok ps => .ok (v0, ps)

/-- The tests of a wait: position, address, location or none, comparison value. Every test reads the location, or none, that
the address has at issue, where the check of R75 is made: R315 does not say that a later test translates again (entry 71,
DESIGN CHOICE). -/
def waitTests (c : Ctx) (x : FM) (ps : List Plan) : List WordTest :=
  ps.map (fun p => (p.q, p.addr, testLoc p, rdSpec c p.q x.t 0))

/-- The v registers that a last-read bit on the address operand releases, once the wait is over: a wait that a freeze stops
issues again and reads them again (R43, R51). -/
def lastRegs (x : FM) : List Nat :=
  match specOf x.a with
  | .v n => if x.l then (if x.space = 0 then [n, n + 1] else [n]) else []
  | _ => []

/-- WAITA and WAITAE: the path waits; the tests are those of the event (R315). -/
def waitWord (s : State) (x : FM) (eq : Bool) : Answer :=
  issue s fun c =>
    match c.path.wait with
    | .waita .. => .ok s
    | _ =>
      match waitCheck s c x with
      | .error t => .error t
      | .ok (v0, ps) =>
        let s1 := setWave s c.w (accFlags c ps false v0)
        .ok (hold (ps.foldl (fun s p => fillPlan s c false p) s1) c (.waita eq x.scope.toNat (lastRegs x) (waitTests c x ps) []))

/-- WAITA. -/
def execWaita (x : FM) (s : State) : Answer := waitWord s x false
/-- WAITAE. -/
def execWaitae (x : FM) (s : State) : Answer := waitWord s x true

/-- WAITA_TEST: every thread still waiting tests its word once, as a load with acquire; the path resumes when none is
left. A thread whose line misses in L1 and gets no miss-status entry is rejected, and tests when the wave's turn has come
(R119). A test that consumes poison raises ECC (R97). A HOST test after surprise removal reads all ones and raises
PCIE_LOST, which outside trap mode is taken before the path goes on (R95, R315). No test matches a watchpoint, though R315
calls it a load: R67 does not say whether it is one of class MEM's that a watchpoint covers (entry 60, DESIGN CHOICE). -/
def execWaitaTest (w : Nat) (pb : Bool) (s : State) : Answer :=
  match ctxAt s w pb with
  | none => .next s
  | some c =>
    match c.path.wait with
    | .waita eq scope last tests rej =>
      let turn := tests.filter (fun t => !rej.contains t.1)
      let ps := turn.map testPlan
      let miss := loadMiss s c.wave c.core
      let (ok, no, got) := splitPlans c.core miss (64 - (getCore s c.core).mshr.length) ps
      let due := turn.filter (fun t => !(no.map (·.q)).contains t.1)
      if ps.any (readsAtom c.wave) || turn.isEmpty then .next s
      else
        match poisonCheck s c ok with
        | .error t => .next (takeTrap s w pb t c.path.pc)
        | .ok _ =>
          let s1 := takeLines s c true ((ps.map (accLines c.core miss)).flatten).eraseDups got (!no.isEmpty)
          let s2 := if no.isEmpty then s1 else joinWait s1 c miss got no
          .next (runTests s2 c eq scope last tests due (rej ++ no.map (·.q)) (fun p v => setPath v pb p))
    | _ => .next s

/-! Arrivals. -/

/-- The operand of DEPO and WARV: A held once, or the extension's low half (R316). -/
def depoVal (c : Ctx) (x : FM) : Nat := if x.x then bits x.ext.toNat 0 16 else (rdSpec c 0 x.a 0).toNat

/-- Its legality. -/
def depoArg (c : Ctx) (x : FM) : Except Trap Unit :=
  if x.x then .ok ()
  else match legal c (valueOk c.g x.a false && heldOnce x.a) x.a.toNat with
    | .error t => .error t
    | .ok _ => parityCheck c [⟨x.a, .value, false, false⟩]

/-- A legal deposit target (R316). -/
def targetLegal (g : Wg) (n : Nat) : Bool :=
  n < 2 ^ 16 && bits n 9 6 = 0 &&
    (if n / 2 ^ 15 = 1 then decide (bits n 2 7 ≤ 95) else bits n 4 5 = 0 && decide (n % 16 < g.ent.waves))

/-- DEPO (R316): a release at CLUSTER scope enters the SQ; while a deposit of the wave is held it stalls. -/
def execDepo (x : FM) (s : State) : Answer :=
  issue s fun c =>
    match depoArg c x with
    | .error t => .error t
    | .ok _ =>
      let n := depoVal c x
      if !targetLegal c.g n then .error (illegalOperand n c.mask)
      else if hasHeld s c.w then .ok (hold s c .stall)
      else .ok (finish (appendSq s c.w s.seq (.depo n) [] 3 true false 0) c (fmWords x))

/-- The other path of a split pair is path A, waits in a WARV and could pass: it goes first (R31, R317). -/
def warvBehind (c : Ctx) : Bool :=
  c.pb && (match pathOf c.wave false with
    | some a => match a.wait with | .warv m => decide (m ≤ c.wave.acnt) | _ => false
    | none => false)

/-- A WARV passes: ACNT falls by n, and the path acquires at CLUSTER (R154, R179). -/
def passWarv (s : State) (c : Ctx) (n words : Nat) : State :=
  finish (acquireScope (setWave s c.w { c.wave with acnt := c.wave.acnt - n }) c.core 3) c words

/-- WARV (R317): it passes at once when ACNT is enough, and else holds. A count above 65,535 can stand only in A, whose
specifier TVAL gives (R286). -/
def execWarv (x : FM) (s : State) : Answer :=
  issue s fun c =>
    match depoArg c x with
    | .error t => .error t
    | .ok _ =>
      let n := depoVal c x
      if 65535 < n then .error (illegalOperand x.a.toNat c.mask)
      else if n = 0 then .ok (finish s c (fmWords x))
      else if n ≤ c.wave.acnt && !warvBehind c then .ok (passWarv s c n (fmWords x))
      else .ok (hold s c (.warv n))

/-- WARV_PASS: ACNT has reached n, and path A does not go first. -/
def execWarvPass (w : Nat) (pb : Bool) (s : State) : Answer :=
  match ctxAt s w pb with
  | none => .next s
  | some c =>
    match c.path.wait with
    | .warv n =>
      .next (if n ≤ c.wave.acnt && !warvBehind c then passWarv s c n (wordsAt c.path) else s)
    | _ => .next s

/-! Residency. -/

/-- The address that a thread of a residency instruction forms. -/
def pageAddr (c : Ctx) (x : FM) (q : Nat) : Nat := formAddr c x.space.toNat x.a (extOff x) q (tidAt c.wave q)

/-- A load would meet neither V = 0 nor PAGE_FAULT (R318). -/
def resident (s : State) (c : Ctx) (va : Nat) : Bool :=
  match translate s c.g.part c.core 0 va with
  | .ok _ => true
  | _ => false

/-- The checks of PROBE. A word whose ORD is not PLAIN is an illegal operand. An unwritten address operand takes its UNWRITTEN
without WSTAT.UR, since a PROBE sets no flag of WSTAT (R318, R8). -/
def probeCheck (c : Ctx) (x : FM) : Except Trap Wave :=
  match memCheck1 c [legal c (predOk x.t) x.t.toNat, legal c (addrOk c x.space.toNat x.a) x.a.toNat, lastOk c x,
      spaceOk c x [0, 1], ordOk c x [0]] [addrSrc x.space.toNat x.a x.l] with
  | .error t => .error { t with ur := false }
  | .ok _ => .ok c.wave

/-- The walks of the active threads fill the TLBs. -/
def fillPages (s : State) (c : Ctx) (x : FM) : State :=
  (positions c.mask).foldl (fun s q => tlbFill s c.g.part c.core (pageAddr c x q)) s

/-- PROBE (R318). -/
def execProbe (x : FM) (s : State) : Answer :=
  issue s fun c =>
    match probeCheck c x with
    | .error t => .error t
    | .ok v0 =>
      let s1 := setWave s c.w (writeP c (releaseSrcs c [addrSrc x.space.toNat x.a x.l] v0) x.t
        (fun q => resident s c (pageAddr c x q)))
      .ok (finish (fillPages s1 c x) c (fmWords x))

/-- The residency message of a page (R319). -/
def resMessage (c : Ctx) (tag : Word) (va : Nat) : List Byte :=
  let (g, p) : Nat × Nat := match rootTask c.g.kind with | some (g, p, _) => (g, p) | none => (0xFFFFFFFF, 0xFFFFFFFF)
  bytesOf 4 4 ++ bytesOf 4 g ++ bytesOf 4 p ++ bytesOf 4 tag.toNat ++ bytesOf 2 c.g.tilex ++ bytesOf 2 c.g.tiley ++
    bytesOf 4 c.core ++ bytesOf 8 (va / 2 ^ 17 * 2 ^ 17) ++ bytesOf 32 0

/-- The messages of RESREQ in ascending order of the lowest %tid that names each page whose walk ends at V = 0. -/
def resMessages (s : State) (c : Ctx) (tag : Nat → Word) (va : Nat → Nat) : List (List Byte) :=
  let absent (q : Nat) : Bool :=
    decide (va q < 2 ^ 57) &&
      (match pageEntry s c.g.part c.core (va q) with | e => !e.getLsbD 63 && !e.getLsbD 0)
  ((byTid c.wave c.mask).foldl (fun (acc : List Nat × List (List Byte)) q =>
    if absent q && !acc.1.contains (va q / 2 ^ 17) then
      (va q / 2 ^ 17 :: acc.1, acc.2 ++ [resMessage c (tag q) (va q)])
    else acc) ([], [])).2

/-- Entries that mailbox 15 still has room for (R100). -/
def mboxRoom (p : Part) (m : Nat) : Nat := 64 - (tabGet [] p.mbox m).length

/-- Append messages to a mailbox. -/
def mboxPut (s : State) (part m : Nat) (l : List (List Byte)) : State :=
  updPart s part (fun p => { p with mbox := tabSet [] p.mbox m (tabGet [] p.mbox m ++ l) })

/-- RESREQ (R319): its messages enter mailbox 15 as far as it has room, behind everything that waits for it; the rest wait
there in the order in which they arose (R101), and the path with them. -/
def resPush (s : State) (c : Ctx) (n : Nat) (l : List (List Byte)) : State :=
  let p := getPart s c.g.part
  let k := if p.events.isEmpty then mboxRoom p 15 else 0
  let s1 := mboxPut s c.g.part 15 (l.take k)
  if (l.drop k).isEmpty then finish s1 c n
  else
    hold (updPart { s1 with nextId := s.nextId + 1 } c.g.part (fun p =>
      { p with events := p.events ++ (l.drop k).map (fun m => (.resreq s.nextId, m)) })) c (.resreq s.nextId)

/-- A RESREQ's messages still wait for mailbox 15. -/
def resWaits (p : Part) (id : Nat) : Bool := p.events.any (fun e => e.1 == .resreq id)

/-- The checks of RESREQ. -/
def resCheck (c : Ctx) (x : FM) : Except Trap Wave :=
  memCheck1 c [legal c (valueOk c.g x.t false) x.t.toNat, legal c (addrOk c x.space.toNat x.a) x.a.toNat, lastOk c x,
    spaceOk c x [0, 1]] [addrSrc x.space.toNat x.a x.l, ⟨x.t, .value, false, false⟩]

/-- RESREQ (R319). -/
def execResreq (x : FM) (s : State) : Answer :=
  issue s fun c =>
    match c.path.wait with
    | .resreq id => .ok (if resWaits (getPart s c.g.part) id then s else finish s c (fmWords x))
    | _ =>
      match resCheck c x with
      | .error t => .error t
      | .ok v0 =>
        let s1 := setWave s c.w (releaseSrcs c [addrSrc x.space.toNat x.a x.l, ⟨x.t, .value, false, false⟩] v0)
        .ok (resPush (fillPages s1 c x) c (fmWords x) (resMessages s c (fun q => rdSpec c q x.t 0) (pageAddr c x)))

/-! Cache hints and line operations. -/

/-- The location of a line-space access (GLOBAL, PRIVATE, DSCRATCH), when it has one. -/
def lineLoc (s : State) (c : Ctx) (space kind a : Nat) : Option Nat :=
  if space = 4 then (if outsideWin s c 4 a 1 then none else some (winLoc c 4 a))
  else match translate s c.g.part c.core kind a with | .ok l => some l | _ => none

/-- The distinct lines named by the active threads, ascending %tid. -/
def namedLines (s : State) (c : Ctx) (x : FM) (kind : Nat) : List Nat :=
  ((byTid c.wave c.mask).filterMap (fun q =>
    (lineLoc s c x.space.toNat kind (pageAddr c x q)).map (· / 128))).eraseDups

/-- A line misses in L1: its WG view lacks some of it. -/
def lineMiss (s : State) (c : Ctx) (line : Nat) : Bool :=
  (List.range 128).any (fun i => (cellAt s (viewAt c.core 0) (line * 128 + i)).has != 0xFF)

/-- Fill a line into the levels that the choice names and the instruction may fill (R320); one entry is needed. A line that
PREF looks up in L1 and does not find there counts in L1MISS (R165); PREF.L2 does not look there (entry 61, DESIGN CHOICE). -/
def prefetchLine (levels : BitVec 4) (c : Ctx) (s : State) (line : Nat) : State :=
  if 64 ≤ (getCore s c.core).mshr.length then s
  else
    let s1 := if levels.getLsbD 0 && lineMiss s c line then perfAdd s c.core 6 1 else s
    fillRead { s1 with choice := { s1.choice with fill := s1.choice.fill &&& levels } } [] c.core
      ((List.range 128).map (line * 128 + ·))

/-- The checks of a prefetch: only that its operands are legal, since it raises no fault and sets no flag (R320). -/
def prefCheck (c : Ctx) (x : FM) : Except Trap Wave :=
  (allChecks [legal c (addrOk c x.space.toNat x.a) x.a.toNat, spaceOk c x [0, 1, 4]]).map (fun _ => c.wave)

/-- PREF and PREF.L2 (R320): no flag of an access is set. -/
def prefetch (s : State) (x : FM) (levels : BitVec 4) : Answer :=
  issue s fun c =>
    match prefCheck c x with
    | .error t => .error t
    | .ok v0 =>
      let s1 := (namedLines s c x 0).foldl (prefetchLine levels c) (setWave s c.w v0)
      .ok (finish { s1 with choice := s.choice } c (fmWords x))

/-- PREF. -/
def execPref (x : FM) (s : State) : Answer := prefetch s x 0b1111
/-- PREF.L2: CLUSTER and above. -/
def execPrefL2 (x : FM) (s : State) : Answer := prefetch s x 0b1110

/-- The blocks of a line. -/
def lineBlocks (line : Nat) : List Nat := (List.range 16).map (fun i => line * 16 + i)

/-- A line's copies below a level move up (CLWB) or, when clean, drop (INVL) on the core's path. -/
def lineOp (level : Nat) (c : Ctx) (f : State → Nat → Nat → State) (s : State) (line : Nat) : State :=
  if singleCopy (line * 128) then s
  else ((List.range 4).filter (· < level)).foldl (fun s l =>
    (lineBlocks line).foldl (fun s b => f s (viewAt c.core l) b) s) s

/-- The kind of access that a line operation's check 6 asks for: a load (entry 13). -/
def lineKind : Nat := 0

/-- The checks of CLWB and INVL: those of R75 but alignment. -/
def lineCheck (s : State) (c : Ctx) (x : FM) : Except Trap (Wave × List Plan) :=
  match memCheck1 c [legal c (addrOk c x.space.toNat x.a) x.a.toNat, lastOk c x, spaceOk c x [0, 1, 4],
      ordOk c x [0]] [addrSrc x.space.toNat x.a x.l] with
  | .error t => .error t
  | .ok v0 =>
    match planSpace s c x.space.toNat 1 lineKind false true (pageAddr c x) with
    | .error t => .error t
    | .ok ps => .ok (v0, ps)

/-- CLWB and INVL (R321); a sparse page is ignored. -/
def lineInstr (s : State) (x : FM) (f : State → Nat → Nat → State) : Answer :=
  issue s fun c =>
    match lineCheck s c x with
    | .error t => .error t
    | .ok (v0, ps) =>
      let v1 := releaseSrcs c [addrSrc x.space.toNat x.a x.l] (setStatIf v0 (ps.any (fun p => p.acc == .outside)) 1)
      let s1 := (namedLines s c x lineKind).foldl (lineOp (scopeLevel x.scope.toNat) c f) (setWave s c.w v1)
      .ok (finish s1 c (fmWords x))

/-- CLWB. -/
def execClwb (x : FM) (s : State) : Answer := lineInstr s x propBlock
/-- INVL. -/
def execInvl (x : FM) (s : State) : Answer := lineInstr s x dropBlock

end Sys2Proof.Machine
end

