-- ==== Sys2Proof/Machine/Preempt.lean ====
section
/-! DEFINITION. ERET, and pre-emption as a wave sees it: the freeze, eviction and resume (02_execution.md R43 to R47,
13_isa_control.md R293, 15_isa_engines.md R324). -/

namespace Sys2Proof.Machine

/-! The freeze. -/

/-- A graph of the partition is being torn down. -/
def tearing (s : State) (part : Nat) (k : WgKind) : Bool :=
  match rootGraph k with
  | some g => match getGraph s part g with
    | some gr => (match gr.phase with | .teardown _ => true | _ => false)
    | none => false
  | none => false

/-- A path whose instruction has an atomic still to be performed. -/
def inAtom (x : Path) : Bool := match x.wait with | .atom _ _ => true | _ => false

/-- Every path can be frozen where it stands: no atomic is half done. Threads that wait for miss-status entries keep their
place and their entries (R119), and groups that wait for Baton enter while the wave is frozen (R44, R45). -/
def canFreeze (v : Wave) : Bool := (allPaths v).all (fun x => !inAtom x)

/-- A wave frozen at a boundary (R43): it stands before what it waited in, an ICINV's invalidation goes on without it (R44),
its TRACE operations are set aside, and the filling Baton tiles of its core are dispatched (R337). Registers are not
touched. -/
def freezeWave (s : State) (w : Nat) (v : Wave) (span : Bool) : State :=
  let (s1, ab) := abandonTraces s w
  let s2 := updWave s1 w (fun x =>
    { mapPaths unwait (if isParked x then leavePark x else x) with frozen := true, span := x.span || span, abandoned := x.abandoned ++ ab })
  let s3 := match getWg s v.wg with | some g => leaveIcinv (openTrel s2 v g) w v g | none => s2
  if v.frozen then s else dispatchAll s3 (coreOf w)

/-- Every wave of the partition that has been asked to freeze is frozen. -/
def allFrozen (s : State) (part : Nat) : Bool :=
  s.waves.all (fun e => !(e.2.freezing && !e.2.frozen && !e.2.halted && liveMask e.2 != 0) || ((getWg s e.2.wg).map (·.part)) != some part)

/-- WAVE_FREEZE: a wave asked to freeze freezes at a boundary; once every wave of its partition is frozen and its own engine
work has drained, a wave being pre-empted goes on into its save handler (R46), its threads that hold entries first. -/
def execWaveFreeze (w : Nat) (s : State) : Answer :=
  match getWave s w with
  | none => .next s
  | some v =>
    match getWg s v.wg with
    | none => .next s
    | some g =>
      let tear := tearing s g.part g.kind
      if !v.freezing || v.halted || liveMask v = 0 then .next s
      else if !v.frozen then (if canFreeze v then .next (freezeWave s w v (!tear)) else .next s)
      else if !tear && (getPart s g.part).state = .preempting && countersZero v && allFrozen s g.part then
        .next (replayHead (setWave s w { v with frozen := false, freezing := false, save := true }) (coreOf w))
      else .next s

/-! Eviction. -/

/-- The number that stands for an evicted wave as a depositor: no slot, no orphan queue and not noDepositor. -/
def evictedNo (wg num : Nat) : Nat := noDepositor + 1 + wg * 16 + num

/-- Add a wave to its workgroup's entry among the evicted. -/
def addEvicted (l : List Evicted) (id : Nat) (g : Wg) (w : Nat) (v : Wave) : List Evicted :=
  if l.any (fun e => e.id = id) then
    l.map (fun e => if e.id = id then { e with waves := insBy (·.2.num) (w, v) e.waves } else e)
  else l ++ [{ id := id, wg := g, waves := [(w, v)] }]

/-- The last wave of a workgroup has been evicted: its resources return; what Dash keeps goes with every wave (R356). -/
def lastEvicted (s : State) (id : Nat) (g : Wg) : State :=
  let s1 := saveDash s id g
  { s1 with wgs := tabDel s1.wgs id }

/-- EVICTION of a wave at the ERET that ends its save handler (R46): its writes are released at DEVICE (R180), its slot
frees. -/
def evictWave (s : State) (w : Nat) : State :=
  let s1 := releaseNow s w 3
  match getWave s1 w with
  | none => s1
  | some v =>
    match getWg s1 v.wg with
    | none => s1
    | some g =>
      let slots := g.slots.filter (· != w)
      let s2 := updWg (updPart { s1 with waves := tabDel s1.waves w } g.part (fun p =>
        { p with evicted := addEvicted p.evicted v.wg g w v })) v.wg (fun g => { g with slots := slots })
      let s3 := renameDepositor s2 w (evictedNo v.wg v.num)
      evictCheck (if slots.isEmpty then lastEvicted s3 v.wg g else s3) g.part

/-! Resume. -/

/-- The waves of an evicted workgroup placed at slots: registers as at placement, and the save area as it was; a spawn's
children not yet entered go to the queues of the new place (R38); each wave enters TVEC entry 6 with TVAL 1 (R47, R71), or
halts when that entry makes it (R149). -/
def resumeWave (s : State) (id : Nat) (g : Wg) (w : Nat) (v : Wave) : State :=
  let v1 : Wave := renameDeps (evictedNo id v.num) w { v with
    wg := id, age := s.dev.cycle, yieldAt := 0, freeAt := 0, s := [], sbad := [], forms := [],
    spawns := v.spawns.map (retarget s g.part g.core),
    threads := v.threads.map (fun t => { t with v := [], p := 0, bad := [] }),
    csr := { v.csr with tval := 1, wctl := v.csr.wctl ||| 16#64 }, stack := [],
    base := { wholePath v.threads.length 0 with mask := allPositions v }, frozen := false, freezing := false, save := false,
    saved := v.saved.map (fun x => { x with restore := true }) }
  let s0 := markVector s w v g 6
  let s1 := perfAdd (renameDepositor (setWave s0 w v1) (evictedNo id v.num) w) g.core 0x000C 1
  match vectorEntry s1 w g.part v1 6 with
  | some pc => setWave s1 w { v1 with base := { v1.base with pc := pc } }
  | none => haltWave s1 w

/-- The array of a core's cluster is kept for a workgroup that is placed again. -/
def reserveDash (s : State) (core wg : Nat) : State :=
  setDash s (clusterOf core) { Dash.init with holder := some wg, reserved := true }

/-- An evicted workgroup placed again: cleared scratch, zero tiles, and a Dash array kept for it, whose grant it takes at its
resuming ERET (R356). -/
def resumeWg (s : State) (part core : Nat) (e : Evicted) (slots : List Nat) (scr : Nat) : State :=
  let age := s.nextId
  let mine := slots.take e.waves.length
  let g : Wg := { e.wg with core := core, scr := scr, tiles := [], tbad := [], slots := mine, age := age }
  let s1 := updPart { s with nextId := age + 1, wgs := tabPut s.wgs e.id g } part (fun p =>
    { p with evicted := p.evicted.filter (fun x => x.id != e.id) })
  let s2 := zeroScratch s1 core scr e.wg.ent.scratch
  let s3 := acquire (noteCore (if e.wg.ent.dash then reserveDash s2 core e.id else s2) part core e.wg.kind) core 3
  (mine.zip e.waves).foldl (fun s x => resumeWave s e.id g x.1 x.2.2) s3

/-! ERET. -/

/-- The first completion fault of MDRAIN or MFILL in the handler (R324). -/
def handlerFault (v : Wave) : Option Pend := v.faults.find? (·.handler)

/-- The wave halts with a fault's cause. -/
def haltWith (s : State) (w : Nat) (p : Pend) : State :=
  haltWave (updWave s w (fun v => { v with csr := { v.csr with
    tcause := causeWord p.pathB p.cls p.code, tval := p.tval, tfmask := p.fmask } })) w

/-- An abandoned TRACE issues again from where the wave now stands, and reads its record at that issue (R47 step 3, R123). A
record that no longer passes is a completion fault of the wave, and the operation does not begin (entry 57, DEDUCED). -/
def reissueTrace (w : Nat) (s : State) (o : EngOp) : State :=
  let o1 : EngOp := { o with id := s.nextId, wave := w, core := coreOf w, started := false, seq := s.seq, toks := [] }
  match opCtx s o1 with
  | none => s
  | some (v, g) =>
    match traceRecord s (engCtx o1 v g) (txSmp o.x) with
    | .error t => pendEng s w t false
    | .ok l =>
      updWave { markTable s g o1.core (recAddr v (txSmp o.x)) 40 with nextId := s.nextId + 1, ops := s.ops ++ [{ o1 with recd := l }] }
        w (fun v => { v with gth := v.gth + 1 })

/-- An abandoned operation stalls at its new issue as at any other (R118, R151). -/
def reissueStalls (s : State) (c : Ctx) (o : EngOp) : Bool :=
  match getWave s c.w with
  | some v => engStall s { c with wave := v } o.op
  | none => false

/-- Abandoned TRACE operations issue again, oldest first, up to one that stalls: the state, and those still to issue. -/
def reissueTraces (s : State) (c : Ctx) : List EngOp → State × List EngOp
  | [] => (s, [])
  | o :: l => if reissueStalls s c o then (s, o :: l) else reissueTraces (reissueTrace c.w s o) c l

/-- Step 2 of R47: the first ERET of the workgroup takes the grant and has the array replay; the others find it done. The replay is an
operation of that wave: its reads first meet a release at WG (R174, R355). -/
def restoreDash (s : State) (c : Ctx) : State :=
  match c.wave.dashSave with
  | none => s
  | some old =>
    let s0 := releaseNow s c.w 0
    let s1 := setDash (fixReplay s0 c.core c.g old) (clusterOf c.core) (dashReplay s0 c.core c.g c.wave.wg old)
    c.g.slots.foldl (fun s w => updWave s w (fun v => { v with dashSave := none })) s1

/-- The five steps of R47. The ERET stalls while a TRACE that it issues again does. It does not wait for an MDRAIN or MFILL of
the restore handler that is still in flight: a fault which that one meets later is an ordinary completion fault (entry 24,
DESIGN CHOICE). -/
def resumeEret (s : State) (c : Ctx) (sv : Saved) : State :=
  let r := reissueTraces (restoreDash s c) c c.wave.abandoned
  let s2 := updWave r.1 c.w (fun v => { v with abandoned := r.2 })
  if r.2.isEmpty then
    updWave s2 c.w (fun v => restoreStack { v with faults := v.drainFaults ++ v.faults, drainFaults := [], span := false } sv)
  else hold s2 c .stall

/-- ERET in trap mode (R293, R286). An eviction waits for the handler's own engine work. -/
def eretIn (s : State) (c : Ctx) : State :=
  match c.wave.saved with
  | none => s
  | some sv =>
    if haltsAtEret sv.code then haltWave s c.w
    else if sv.code = 0x15 then
      match handlerFault c.wave with
      | some p => haltWith s c.w p
      | none =>
        if sv.restore then resumeEret s c sv
        else if countersZero c.wave then evictWave s c.w
        else hold s c .stall
    else updWave s c.w (fun v => restoreStack v sv)

/-- ERET (R293). With a non-empty handler stack it reports DOUBLE for its path (R65), whose TVAL and TFMASK the spec does not state
(entry 9). -/
def execEret (s : State) : Answer :=
  issue s fun c =>
    if !wTrap c.wave then .error (illegalOp 0x00000012 c.mask)
    else if !c.wave.stack.isEmpty then
      let t : Trap := { code := 0x18, cls := 0, tval := lowOnly (Config.freeWord s.fresh), fmask := lowOnly (Config.freeWord (s.fresh + 1)), ur := false }
      .ok (doubleFault { s with fresh := s.fresh + 2 } c.w c.pb t c.path.pc)
    else .ok (eretIn s c)

end Sys2Proof.Machine
end

