-- ==== Sys2Proof/Machine/Canopy.lean ====
section
/-! DEFINITION. Canopy: the tile scoreboard, readiness, storage, the pass queue, placement, timelines (05_queues.md R103 to
R111, 07_counters.md R155 to R162, 02_execution.md R39 to R41, R47). -/

namespace Sys2Proof.Machine

/-! Tiles and tasks. -/

/-- Width of a resource's tile grid (R142). -/
def gridW (e : ResEnt) : Nat := (e.width + 2 ^ e.ltw - 1) / 2 ^ e.ltw
def gridH (e : ResEnt) : Nat := (e.height + 2 ^ e.lth - 1) / 2 ^ e.lth

/-- Index of a tile in a resource's grid, when it lies on it. -/
def tileIx (e : ResEnt) (x y : Int) : Option Nat :=
  if 0 ≤ x ∧ x < (gridW e : Int) ∧ 0 ≤ y ∧ y < (gridH e : Int) then some (y.toNat * gridW e + x.toNat) else none

/-- Tiles, as resource and index, that task k of pass p covers; those off the grid are dropped (R105), and each stands
once. -/
def covers (im : Image) (p k : Nat) : List (Nat × Nat) :=
  match im.passes[p]? with
  | none => []
  | some e =>
    (im.stens.filterMap (fun t =>
      if t.pass = p then
        match im.ress[t.res]? with
        | some r => (tileIx r (((k % e.gw : Nat) : Int) + t.dx) (((k / e.gw : Nat) : Int) + t.dy)).map (fun i => (t.res, i))
        | none => none
      else none)).eraseDups

/-- A tile of a graph. -/
def tileOf (g : Graph) (r i : Nat) : Option TileSt :=
  match g.ress[r]? with
  | some e => e.tiles[i]?
  | none => none

/-- A tile has become RETIRED. -/
def tileDone (g : Graph) (r i : Nat) : Bool :=
  match tileOf g r i with
  | some t => t.st == .retired || t.st == .freed
  | none => false

/-- The pass that writes a resource. -/
def writerOf (im : Image) (r : Nat) : Option Nat :=
  (List.range im.passes.length).find? (fun p => ((im.passes[p]?).map (fun e => e.writes.contains r)).getD false)

def taskOf (g : Graph) (p k : Nat) : Option Task :=
  match g.passes[p]? with
  | some ps => tabGet? ps.tasks k
  | none => none

/-- The producer of a tile has issued GHINT. -/
def hintedTile (g : Graph) (r i : Nat) : Bool :=
  match writerOf g.image r with
  | some p => ((taskOf g p i).map (·.hinted)).getD false
  | none => false

/-- Condition 1 of R105. -/
def coversMet (g : Graph) (p k : Nat) : Bool :=
  let early := ((g.image.passes[p]?).map (·.early)).getD false
  (covers g.image p k).all (fun c => tileDone g c.1 c.2 || (early && hintedTile g c.1 c.2))

/-- Storage of a resource in use: its tiles in WRITING or RETIRED. -/
def storesUsed (r : ResSt) : List (Bool × Nat) :=
  r.tiles.filterMap (fun t => if t.st == .writing || t.st == .retired then t.store else none)

/-- The storage that a tile of a resource would take: the lowest free slot, else the lowest free overflow tile (R106). -/
def storeFor (e : ResEnt) (r : ResSt) : Option (Bool × Nat) :=
  let used := storesUsed r
  match (List.range e.slots).find? (fun n => !used.contains (false, n)) with
  | some n => some (false, n)
  | none => ((List.range e.ovtiles).find? (fun n => !used.contains (true, n))).map (fun n => (true, n))

def resStore (g : Graph) (r : Nat) : Option (Bool × Nat) :=
  match g.image.ress[r]?, g.ress[r]? with
  | some e, some x => storeFor e x
  | _, _ => none

/-- Resources that a pass writes and that have no storage left: condition 3 of R105 fails for them. -/
def lacking (g : Graph) (p : Nat) : List Nat :=
  match g.image.passes[p]? with
  | some e => e.writes.filter (fun r => (resStore g r).isNone)
  | none => []

/-- A task has been placed. -/
def isPlaced (t : Task) : Bool := match t.st with | .held => false | _ => true

/-- A task is in flight. -/
def inFlight (t : Task) : Bool := match t.st with | .placed _ => true | _ => false

def isRetiredTask (t : Task) : Bool := match t.st with | .retired => true | _ => false

def isHeldTask (t : Task) : Bool := match t.st with | .held => true | _ => false

/-- The next task that a started pass offers: ascending k among those not placed, condition 1 holding (R40). -/
def nextTask (g : Graph) (p : Nat) : Option Nat :=
  match g.image.passes[p]?, g.passes[p]? with
  | some e, some ps =>
    if ps.started && g.phase == .live then
      (List.range (e.gw * e.gh)).find? (fun k => !(((tabGet? ps.tasks k).map isPlaced).getD false) && coversMet g p k)
    else none
  | _, _ => none

/-- A pass's next task is held for storage (R106, R115). -/
def ringStall (g : Graph) (p : Nat) : Bool := (nextTask g p).isSome && !(lacking g p).isEmpty

/-- Tasks of a pass, counted. -/
def countTasks (ps : PassSt) (f : Task → Bool) : Nat := (ps.tasks.filter (fun e => f e.2)).length

/-- All tile tasks of pass p have retired. -/
def passDone (g : Graph) (p : Nat) : Bool :=
  match g.image.passes[p]?, g.passes[p]? with
  | some e, some ps => countTasks ps isRetiredTask = e.gw * e.gh
  | _, _ => false

/-- Passes of a graph with every task retired. -/
def donePasses (g : Graph) : Nat := ((List.range g.image.passes.length).filter (passDone g)).length

/-- No task of a graph is in flight. -/
def noFlight (g : Graph) : Bool := g.passes.all (fun ps => countTasks ps inFlight = 0)

/-! The pass queue (R108). -/

/-- 50 µs and 10 µs in units of TIMEBASE. -/
def us50 : Nat := 50000 * Config.unitsPerNs
def us10 : Nat := 10000 * Config.unitsPerNs

def newTask : Task :=
  { st := .held, hinted := false, closing := false, closed := false, closeAt := 0, cores := [], ended := none }

/-- Priority of a pass. -/
def prioOf (g : Graph) (p : Nat) : Nat := ((g.image.passes[p]?).map (·.prio)).getD 0

/-- A pass leaves the queue and shows its priority. -/
def unqueue (g : Graph) (p : Nat) (ps : PassSt) : PassSt := { ps with queued := none, level := prioOf g p }

/-- The test of a pass's next task (R106, R108): it enters the queue, stays, or leaves; a task that fails condition 3 for
the first time becomes held, and each resource that lacks storage counts a stall (R158). -/
def testPass (now : Nat) (g : Graph) (p : Nat) : Graph :=
  match nextTask g p with
  | none => { g with passes := listMod g.passes p (unqueue g p) }
  | some k =>
    match lacking g p with
    | [] => { g with passes := listMod g.passes p (fun ps =>
        match ps.queued with
        | none => { ps with queued := some now, level := prioOf g p }
        | some _ => ps) }
    | lack =>
      let g1 := { g with passes := listMod g.passes p (unqueue g p) }
      if (taskOf g p k).isSome then g1
      else
        { g1 with
          passes := listMod g1.passes p (fun ps => { ps with tasks := tabPut ps.tasks k newTask })
          ress := lack.foldl (fun l r => listMod l r (fun x => { x with stalls := Nat.min 4294967295 (x.stalls + 1) })) g1.ress }

/-- Test every pass of a graph. -/
def testGraph (now : Nat) (g : Graph) : Graph := (List.range g.image.passes.length).foldl (testPass now) g

/-- Every pass of a partition's graphs is tested after an action of Canopy. -/
def refresh (s : State) (part : Nat) : State :=
  updPart s part (fun p => { p with graphs := p.graphs.map (fun e => (e.1, testGraph s.dev.time e.2)) })

/-- The effective level of a pass queued since a moment (R108). -/
def levelAt (prio since now : Nat) : Nat := Nat.min 7 (prio + (now - since) / us50)

/-- A queued pass as it is offered: level, the moment it reached that level, graph and pass. -/
structure Cand where
  level : Nat
  reached : Nat
  g : Nat
  p : Nat
  deriving DecidableEq, Repr

/-- Queued passes in the order of R108. -/
def candidates (s : State) (part : Nat) : List Cand :=
  let l := (getPart s part).graphs.flatMap (fun e =>
    (e.2.passes.zipIdx).filterMap (fun (x : PassSt × Nat) =>
      match (if (nextTask e.2 x.2).isSome && (lacking e.2 x.2).isEmpty then x.1.queued else none) with
      | some t => some (Cand.mk x.1.level (t + us50 * (x.1.level - prioOf e.2 x.2)) e.1 x.2)
      | none => none))
  sortBy (fun c => 7 - c.level) (sortBy (·.reached) l)

/-- Conditions 2 and 4 of R105. -/
def mayPlace (budget : Nat) (g : Graph) (p : Nat) : Bool :=
  match g.image.passes[p]?, g.passes[p]? with
  | some e, some ps => (e.maxInfl = 0 || decide (countTasks ps inFlight < e.maxInfl)) && (!e.defer || decide (e.cost ≤ budget))
  | _, _ => false

/-- Held by condition 4 (R110, R115). -/
def powerHeld (budget : Nat) (g : Graph) (p : Nat) : Bool :=
  match g.image.passes[p]? with
  | some e => e.defer && decide (budget < e.cost)
  | none => false

/-- Cores of a cluster mask, ascending. -/
def maskCores (m : DWord) : List Nat := (setBits m).flatMap (fun c => (List.range 4).map (fun i => 4 * c + i))

/-- Cyclically from the core after the last one (R40, R111). -/
def cyclicFrom (last : Option Nat) (l : List Nat) : List Nat :=
  match last with
  | none => l
  | some c => l.filter (fun x => decide (c < x)) ++ l.filter (fun x => decide (x ≤ c))

/-- Where a pass's next task fits: on a core without waiting children (R41) and outside other passes' claims (R109). -/
def taskFit (s : State) (part : Nat) (g : Graph) (p : Nat) (claimed : List Nat) : Option (Nat × List Nat × Nat) :=
  match g.image.passes[p]?, g.passes[p]? with
  | some e, some ps =>
    firstSome (fun c =>
      if claimed.contains c || !(getCore s c).spawnq.isEmpty then none else (fits s part c e.ent false).map (fun f => (c, f)))
      (cyclicFrom ps.lastCore (maskCores e.cmask))
  | _, _ => none

/-- A placement that R108 and R109 choose: graph, pass, core, slots, first granule. head says that no pass of level 7 has
been met that could hold a claim. -/
def choose (s : State) (part : Nat) : List Cand → Bool → List Nat → Option (Nat × Nat × Nat × List Nat × Nat)
  | [], _, _ => none
  | c :: t, head, claimed =>
    match getGraph s part c.g with
    | none => choose s part t head claimed
    | some g =>
      if !mayPlace (getPart s part).pwrbud.toNat g c.p then choose s part t head claimed
      else
        match taskFit s part g c.p claimed with
        | some (core, slots, scr) => some (c.g, c.p, core, slots, scr)
        | none =>
          let cores := ((g.image.passes[c.p]?).map (fun e => maskCores e.cmask)).getD []
          if c.level = 7 && head then choose s part t false (claimed ++ cores) else choose s part t head claimed

/-- STORAGE_GRANT (R106): the tiles that task k of a pass writes pass to WRITING. -/
def grantStorage (p k : Nat) (g : Graph) : Graph :=
  match g.image.passes[p]? with
  | none => g
  | some e =>
    e.writes.foldl (fun g r =>
      let st := resStore g r
      { g with ress := listMod g.ress r (fun x => { x with tiles := listMod x.tiles k (fun t => { t with st := .writing, store := st }) }) }) g

/-- A placement as Canopy records it: the task in flight, the pass's age restarted, the core remembered. -/
def notePlaced (now wg p k core : Nat) (g : Graph) : Graph :=
  { g with passes := listMod g.passes p (fun ps =>
    { ps with lastCore := some core, queued := some now, level := prioOf g p,
              tasks := tabPut ps.tasks k { ((tabGet? ps.tasks k).getD newTask) with st := .placed wg } }) }

/-- Place the next task of a pass. -/
def placeTaskAt (s : State) (part gi p core : Nat) (slots : List Nat) (scr : Nat) : State :=
  match getGraph s part gi with
  | none => s
  | some g =>
    match nextTask g p, g.image.passes[p]? with
    | some k, some e =>
      let s1 := updGraph s part gi (fun g => notePlaced s.dev.time s.nextId p k core (grantStorage p k g))
      refresh (placeWg s1 part core (.task gi p k) e.ent g.image.kbase e.kidx 0 (k % e.gw) (k / e.gw) core 0 0 slots scr) part
    | _, _ => s

/-- The next tile task of a partition that can be placed; none before an evicted pacer (R47). -/
def placeTask (s : State) (part : Nat) : Option State :=
  if places (getPart s part) && !pacerEvicted (getPart s part) then
    (choose s part (candidates s part) true []).map (fun (g, p, core, slots, scr) => placeTaskAt s part g p core slots scr)
  else none

/-- The pass that holds a claim, and the cores claimed: the head of level 7, when its next task fits nowhere (R109). A pass
that conditions 2 or 4 of R105 hold has none, and the pass behind it counts as the head (entry 64, DESIGN CHOICE). -/
def claimOf (s : State) (part : Nat) : List Cand → Option (Nat × Nat × List Nat)
  | [] => none
  | c :: t =>
    if c.level != 7 then none
    else
      match getGraph s part c.g with
      | none => claimOf s part t
      | some g =>
        if !mayPlace (getPart s part).pwrbud.toNat g c.p then claimOf s part t
        else if (taskFit s part g c.p []).isSome then none
        else some (c.g, c.p, ((g.image.passes[c.p]?).map (fun e => maskCores e.cmask)).getD [])

/-- Cores on which no tile task of a pass may be placed now, since another pass claims them. -/
def claimedFrom (s : State) (part g p : Nat) : List Nat :=
  match claimOf s part (candidates s part) with
  | some (g', p', l) => if g' = g ∧ p' = p then [] else l
  | none => []

/-! Evicted workgroups (R47). -/

/-- Cores on which an evicted workgroup is tried: a tile task's only outside other passes' claims (R109), and none for work
of a graph whose teardown has begun (R113). -/
def resumeCores (s : State) (part : Nat) (e : Evicted) : List Nat :=
  match e.wg.kind with
  | .pacer => [pacerCore (getPart s part)]
  | .task g p _ =>
    match getGraph s part g with
    | some gr =>
      (match gr.image.passes[p]?, gr.passes[p]? with
       | some x, some ps =>
         if graphRuns s part g then (cyclicFrom ps.lastCore (maskCores x.cmask)).filter (fun c => !(claimedFrom s part g p).contains c)
         else []
       | _, _ => [])
    | none => []
  | .child g _ _ => if graphRuns s part g then childCores e.wg.home else []

/-- The distributor remembers the core of an evicted tile task (R40). -/
def noteResumed (s : State) (part core : Nat) (k : WgKind) : State :=
  match k with
  | .task g p _ => updGraph s part g (fun x => { x with passes := listMod x.passes p (fun ps => { ps with lastCore := some core }) })
  | _ => s

/-- An evicted workgroup is placed where it fits: room for every wave of its entry is asked for under R39, also where some had
ended before the eviction (entry 63, DESIGN CHOICE). -/
def resumeOne (s : State) (part : Nat) (e : Evicted) : Option State :=
  firstSome (fun c =>
    (fits s part c e.wg.ent (isPacerWg e.wg.kind)).map (fun f => resumeWg (noteResumed s part c e.wg.kind) part c e f.1 f.2))
    (resumeCores s part e)

/-- The next evicted workgroup that is placed: the pacer first. -/
def placeEvicted (s : State) (part : Nat) : Option State :=
  let p := getPart s part
  if places p then
    match p.evicted.find? (fun e => isPacerWg e.wg.kind) with
    | some e => resumeOne s part e
    | none => firstSome (resumeOne s part) p.evicted
  else none

/-- WORKGROUP_PLACE: Canopy places one workgroup of a partition: an evicted one, else the next tile task. -/
def execWorkgroupPlace (part : Nat) (s : State) : Answer :=
  match placeEvicted s part with
  | some s' => .next s'
  | none => .next ((placeTask s part).getD s)

/-! The placement round of R107 step 4. -/

/-- The head child of the queue of the first core of a list on which it can be placed. -/
def placeChild (s : State) : List Nat → Option State
  | [] => none
  | core :: t =>
    match childFit s core with
    | none => placeChild s t
    | some (ch, c, slots, scr) =>
      let k := getCore s core
      some (placeWg (setCore s core { k with spawnq := k.spawnq.tail }) ch.part c (.child ch.g ch.p ch.k) ch.ent ch.kbase
        ch.kidx ch.depth ch.tilex ch.tiley core ch.arg0 ch.arg1 slots scr)

/-- Placements until nothing more fits: evicted workgroups, then children, then tile tasks (R41). fuel bounds the
placements by the wave slots of the device. -/
def placeAll (part : Nat) : Nat → State → State
  | 0, s => s
  | n + 1, s =>
    match placeEvicted s part with
    | some s' => placeAll part n s'
    | none =>
      match placeChild s (maskCores (getPart s part).clmask) with
      | some s' => placeAll part n s'
      | none => match placeTask s part with | some s' => placeAll part n s' | none => s

def placementRound (s : State) (part : Nat) : State := placeAll part 24576 s

/-! Timelines (R160 to R162). -/

def tlGet (p : Part) (t : Nat) : DWord := tabGet 0 p.timelines t

/-- A path that waits in TLWAIT on a timeline, with a threshold that a test accepts. -/
def tlHit (t : Nat) (ok : DWord → Bool) (x : Path) : Bool :=
  match x.wait with
  | .tlwait t' h _ => t' = t && ok h
  | _ => false

/-- Destinations of the paths that are released. -/
def tlDst (x : Path) : Nat := match x.wait with | .tlwait _ _ d => d | _ => 0

/-- Some path of a wave is released from a wait. -/
def releasedWave (hit : Path → Bool) (v : Wave) : Bool := !v.halted && !v.frozen && (allPaths v).any hit

/-- The paths of a wave that a condition names complete their waiting instruction. -/
def releasePaths (hit : Path → Bool) (v : Wave) : Wave :=
  let pb := match v.stack with | [] => false | p :: _ => !hit p.a && hit p.b
  stepPend (stepArmed v) pb (mapPaths (fun x => if hit x then stepPath x (wordsAt x) else x) v)

/-- Waves of a partition released from TLWAIT on a timeline: D is written; a release by a write acquires at DEVICE
(R114, R180). -/
def releaseTl (s : State) (part t : Nat) (ok : DWord → Bool) (val : Word) (acq : Bool) : State :=
  s.waves.foldl (fun s e =>
    if releasedWave (tlHit t ok) e.2 && ((getWg s e.2.wg).map (·.part)) == some part then
      let v := ((allPaths e.2).filter (tlHit t ok)).foldl (fun v x => setSReg v (tlDst x) val) e.2
      let s1 := setWave s e.1 (releasePaths (tlHit t ok) v)
      if acq then acquire s1 (coreOf e.1) 3 else s1
    else s) s

/-- Start a pass whose threshold a timeline has reached (R104). -/
def startPass (t : Nat) (x : DWord) (e : PassEnt) (ps : PassSt) : PassSt :=
  if !ps.started && e.stl = t && e.sthr.toNat ≤ x.toNat then { ps with started := true } else ps

/-- The passes of a live graph that a timeline's value starts. -/
def startPasses (t : Nat) (x : DWord) (g : Graph) : Graph :=
  if g.phase == .live then { g with passes := (g.image.passes.zip g.passes).map (fun e => startPass t x e.1 e.2) } else g

/-- One write of a timeline (R160): the waiters and pass starts that it satisfies are released within it. -/
def tlWrite (s : State) (part t : Nat) (x : DWord) : State :=
  let s1 := updPart s part (fun p =>
    { p with timelines := tabSet 0 p.timelines t x, graphs := p.graphs.map (fun e => (e.1, startPasses t x e.2)) })
  refresh (releaseTl s1 part t (fun h => decide (h.toNat ≤ x.toNat)) 0 true) part

/-- TLSIG's new value. -/
def maxU (a b : DWord) : DWord := if a.toNat ≤ b.toNat then b else a

/-! Events by time. -/

/-- PASS_AGEING: a queued pass takes the level that its time in the queue gives. -/
def execPassAgeing (part g p : Nat) (s : State) : Answer :=
  .next (updGraph s part g (fun x => { x with passes := listMod x.passes p (fun ps =>
    match ps.queued with
    | some t => if (getPart s part).state = .evicted then ps else { ps with level := levelAt (prioOf x p) t s.dev.time }
    | none => ps) }))

/-- BUDGET (R164). -/
def budget (a p : Nat) : Nat := if a ≤ p then 0 else Nat.min 15 (16 * (a - p) / a)

/-- PWRBUD_REFRESH: the refresh at a multiple of 10 µs, once for each multiple after the partition's creation (R3, R164). -/
def execPwrbudRefresh (part : Nat) (s : State) : Answer :=
  let p := getPart s part
  let k := s.dev.time / us10
  if p.state = .free || p.budgetAt = k then .next s
  else .next (setPart s part { p with
    budgetAt := k, pwrbud := BitVec.ofNat 4 (budget (p.allot.toNat % 1024) (Config.sensorPower part k)) })

end Sys2Proof.Machine
end

