-- ==== Sys2Proof/Machine/Csr.lean ====
section
/-! DEFINITION. The control and status registers: what each reads as and which of its fields software writes
(03_registers.md R61 to R69, 13_isa_control.md R300, R301). -/

namespace Sys2Proof.Machine

/-- DSTAT for a reading workgroup (R69). -/
def dstat (s : State) (core wg : Nat) : DWord :=
  let d := getDash s (clusterOf core)
  if dashOwned d wg then
    let busy := s.ops.any (fun o => clusterOf o.core = clusterOf core && decide (0x3A ≤ o.op ∧ o.op ≤ 0x3D))
    BitVec.ofNat 64 (1 + (if busy then 2 else 0) + (if d.max then 4 else 0) + (if d.loaded then 8 else 0))
  else 0

/-- OCNT (R68). -/
def ocnt (v : Wave) : DWord := BitVec.ofNat 64 (v.cpy + v.mtx * 2 ^ 8 + v.gth * 2 ^ 16 + v.dsh * 2 ^ 24)

/-- CORE_ID (R68, R10). -/
def coreId (w : Nat) : DWord :=
  BitVec.ofNat 64 (0x9240 * 2 ^ 48 + (w % 96) * 2 ^ 20 + (w % 96 / 12) * 2 ^ 17 + dieOf (coreOf w) * 2 ^ 16 +
    clusterOf (coreOf w) * 2 ^ 8 + coreOf w)

/-- PARTID (R69). -/
def partId (s : State) (part : Nat) : DWord :=
  BitVec.ofNat 64 ((setBits (getPart s part).clmask).length % 128 * 2 ^ 8 + part % 32)

/-- The value of a CSR; none for a number not in R62. Exited threads are clear in every mask (R65). -/
def csrGet (s : State) (w : Nat) (v : Wave) (g : Wg) (n : Nat) : Option DWord :=
  let c := v.csr
  let core := coreOf w
  match n with
  | 0x000 => some c.wstat
  | 0x001 => some c.wctl
  | 0x002 => some c.tcause
  | 0x003 => some c.tepc
  | 0x004 => some c.tval
  | 0x005 => some (c.tmaska &&& liveMask v)
  | 0x006 => some (c.tmaskb &&& liveMask v)
  | 0x007 => some (c.tfmask &&& liveMask v)
  | 0x008 => some c.tstk
  | 0x009 => some c.tscr0
  | 0x00A => some c.tscr1
  | 0x00B => some c.tscr2
  | 0x00C => some c.tscr3
  | 0x010 => some c.brtab
  | 0x011 => some c.whtab
  | 0x012 => some c.smtab
  | 0x013 => some c.tvec
  | 0x014 => some c.privb
  | 0x018 => some c.resmask
  | 0x019 => some (BitVec.ofNat 64 v.acnt)
  | 0x01A => some (ocnt v)
  | 0x01B => some (BitVec.ofNat 64 (g.scr * 4096))
  | 0x01C => some (BitVec.ofNat 64 (g.ent.scratch * 4096))
  | 0x020 => some c.watch0a
  | 0x021 => some c.watch0c
  | 0x022 => some c.watch1a
  | 0x023 => some c.watch1c
  | 0x100 => some (coreId w)
  | 0x101 => some (BitVec.ofNat 64 (clkOf s core))
  | 0x102 => some (getCore s core).perf0
  | 0x103 => some (getCore s core).perf1
  | 0x104 => some (getCore s core).perf2
  | 0x105 => some (getCore s core).perf3
  | 0x110 => some (BitVec.ofNat 64 (64 - (getCore s core).mshr.length))
  | 0x200 => some (if dashOwned (getDash s (clusterOf core)) v.wg then BitVec.ofNat 64 (getDash s (clusterOf core)).w else 0)
  | 0x201 => some (dstat s core v.wg)
  | 0x300 => some (BitVec.ofNat 64 (timeNs s))
  | 0x301 => some ((getPart s g.part).pwrbud.setWidth 64)
  | 0x302 => some (partId s g.part)
  | 0x303 => some (getPart s g.part).ktab
  | _ => none

/-- The RW bits of a CSR; TEPC and TVAL take writes only in trap mode (R61 to R69). -/
def csrRw (trap : Bool) (n : Nat) : DWord :=
  match n with
  | 0x001 => 0x0F
  | 0x003 => if trap then 0x01FFFFFFFFFFFFFC else 0
  | 0x004 => if trap then 0xFFFFFFFFFFFFFFFF else 0
  | 0x009 => 0xFFFFFFFFFFFFFFFF
  | 0x00A => 0xFFFFFFFFFFFFFFFF
  | 0x00B => 0xFFFFFFFFFFFFFFFF
  | 0x00C => 0xFFFFFFFFFFFFFFFF
  | 0x010 => 0x01FFFFFFFFFFFFFF
  | 0x011 => 0x01FFFFFFFFFFFFFF
  | 0x012 => 0x01FFFFFFFFFFFFFF
  | 0x013 => 0x01FFFFFFFFFFFF80
  | 0x014 => 0xFFFFFFFFFFFFFF00
  | 0x020 => 0x01FFFFFFFFFFFFFF
  | 0x021 => 0xFF
  | 0x022 => 0x01FFFFFFFFFFFFFF
  | 0x023 => 0xFF
  | 0x102 => 0x1FFFF
  | 0x103 => 0x1FFFF
  | 0x104 => 0x1FFFF
  | 0x105 => 0x1FFFF
  | 0x303 => 0x01FFFFFFFFFFFFFF
  | _ => 0

/-- The W1C bits of a CSR. -/
def csrW1c (n : Nat) : DWord :=
  match n with
  | 0x000 => 0x1F
  | 0x018 => 0xFFFFFFFFFFFFFFFF
  | _ => 0

/-- Store a CSR's value. -/
def csrPut (s : State) (w : Nat) (v : Wave) (g : Wg) (n : Nat) (x : DWord) : State :=
  let c := v.csr
  let core := coreOf w
  let k := getCore s core
  let wave (c : Csrs) : State := setWave s w { v with csr := c }
  match n with
  | 0x000 => wave { c with wstat := x }
  | 0x001 => wave { c with wctl := x }
  | 0x003 => wave { c with tepc := x }
  | 0x004 => wave { c with tval := x }
  | 0x009 => wave { c with tscr0 := x }
  | 0x00A => wave { c with tscr1 := x }
  | 0x00B => wave { c with tscr2 := x }
  | 0x00C => wave { c with tscr3 := x }
  | 0x010 => wave { c with brtab := x }
  | 0x011 => wave { c with whtab := x }
  | 0x012 => wave { c with smtab := x }
  | 0x013 => wave { c with tvec := x }
  | 0x014 => wave { c with privb := x }
  | 0x018 => wave { c with resmask := x }
  | 0x020 => wave { c with watch0a := x }
  | 0x021 => wave { c with watch0c := x }
  | 0x022 => wave { c with watch1a := x }
  | 0x023 => wave { c with watch1c := x }
  | 0x102 => setCore s core { k with perf0 := x &&& 0xFFFFFFFF }
  | 0x103 => setCore s core { k with perf1 := x &&& 0xFFFFFFFF }
  | 0x104 => setCore s core { k with perf2 := x &&& 0xFFFFFFFF }
  | 0x105 => setCore s core { k with perf3 := x &&& 0xFFFFFFFF }
  | 0x303 => updPart s g.part (fun p => { p with ktab := x })
  | _ => s

/-- A CSR instruction (R300): the data pair, the number, then the effect on the value and the s pair. -/
def csrOp (s : State) (num : BitVec 12) (r : Reg) (f : Ctx → Nat → DWord → State) : Answer :=
  issue s fun c =>
    match sPairOf c r with
    | .error t => .error t
    | .ok n =>
      match csrGet s c.w c.wave c.g num.toNat with
      | none => .error (illegalOperand num.toNat c.mask)
      | some x =>
        if num = 0x303 && c.g.kind != .pacer then .error (illegalOperand num.toNat c.mask)
        else .ok (finish (f c n x) c 1)

/-- A CSR write instruction: the new value from the old one and the pair. -/
def csrWrite (s : State) (num : BitVec 12) (r : Reg) (f : (rw w1c old x : DWord) → DWord) : Answer :=
  issue s fun c =>
    match sPairOf c r with
    | .error t => .error t
    | .ok n =>
      match csrGet s c.w c.wave c.g num.toNat with
      | none => .error (illegalOperand num.toNat c.mask)
      | some old =>
        if num = 0x303 && c.g.kind != .pacer then .error (illegalOperand num.toNat c.mask)
        else
          match parityCheck c [⟨r, .pair, false, false⟩] with
          | .error t => .error t
          | .ok _ =>
            .ok (finish (csrPut s c.w c.wave c.g num.toNat
              (f (csrRw (wTrap c.wave) num.toNat) (csrW1c num.toNat) old (sPair c.wave n))) c 1)

/-- What a CSRR returns of a CSR's value: WSTAT.HFAULT that a completion has set, when no GTH wait orders the read after it,
may read clear, as the choice says (R367). -/
def csrSeen (s : State) (v : Wave) (num : BitVec 12) (x : DWord) : DWord :=
  if num = 0 && v.hfOpen && s.choice.oldFlag then x &&& ~~~16#64 else x

/-- CSRR (R300). -/
def execCsrr (num : BitVec 12) (r : Reg) (s : State) : Answer :=
  csrOp s num r (fun c n x => setWave s c.w (setSPair c.wave n (csrSeen s c.wave num x)))
/-- CSRW (R300): RW fields take the bits, W1C bits set in x clear. -/
def execCsrw (num : BitVec 12) (r : Reg) (s : State) : Answer :=
  csrWrite s num r (fun rw w1c old x => (old &&& ~~~rw &&& ~~~(w1c &&& x)) ||| (x &&& rw))
/-- CSRS (R300): RW bits set in x are set. -/
def execCsrs (num : BitVec 12) (r : Reg) (s : State) : Answer :=
  csrWrite s num r (fun rw _ old x => old ||| (x &&& rw))
/-- CSRC (R300): RW and W1C bits set in x are cleared. -/
def execCsrc (num : BitVec 12) (r : Reg) (s : State) : Answer :=
  csrWrite s num r (fun rw w1c old x => old &&& ~~~(x &&& (rw ||| w1c)))

end Sys2Proof.Machine
end

