-- ==== Sys2Proof/Machine/Graph.lean ====
section
/-! DEFINITION. Frame graphs: the image and its checks, GSUB, GABORT, GSTOP, GQRY, GHINT, GWAIT, TREL, retirement and
teardown (06_tables.md R140 to R144, 05_queues.md R101 to R115, 16_isa_dash_graph.md R357 to R361). -/

namespace Sys2Proof.Machine

/-! What the GRF instructions share (R357). -/

/-- The word of a GRF instruction. -/
def grfWord (op : Nat) (x : FE) : Word := FE.word (BitVec.ofNat 8 op) x

/-- Words that a GRF instruction occupies. -/
def grfWords (x : FE) : Nat := if x.b = 0x7F then 2 else 1

/-- A destination that is an s register. -/
def sDst (c : Ctx) (r : Reg) : Except Trap Unit := needSpec c (isSSpec r) r

/-- A destination or source that is an even s pair. -/
def evenS (c : Ctx) (r : Reg) : Except Trap Unit :=
  needSpec c (match specOf r with | .s n => decide (n % 2 = 0) | _ => false) r

/-- A value operand held once for the wave. -/
def onceVal (c : Ctx) (r : Reg) (lit : Bool) : Except Trap Unit := needSpec c (valueOk c.g r lit && heldOnce r) r

/-- A pair operand held once for the wave. -/
def oncePair (c : Ctx) (r : Reg) : Except Trap Unit := needSpec c (pairOk c.g r false && heldOnce r) r

/-- Number of an s register. -/
def sNum (r : Reg) : Nat := r.toNat - 0x40

/-- A value that must be below a bound. -/
def below (c : Ctx) (n bound : Nat) : Except Trap Unit := if n < bound then .ok () else .error (illegalOperand n c.mask)

/-- Value and pair operands, with their parity (R97). -/
def grfReads (c : Ctx) (vals pairs : List Reg) : Except Trap Unit :=
  parityCheck c (vals.map (fun r => ⟨r, .value, true, false⟩) ++ pairs.map (fun r => ⟨r, .pair, false, false⟩))

/-- Issued by the pacer only (R100). -/
def pacerOnly (c : Ctx) (op : Nat) (x : FE) : Except Trap Unit :=
  if isPacerWg c.g.kind then .ok () else .error (illegalOp (grfWord op x) c.mask)

/-- Issued by a tile task or a descendant only. -/
def taskOnly (c : Ctx) (op : Nat) (x : FE) : Except Trap Unit :=
  if isPacerWg c.g.kind then .error (illegalOp (grfWord op x) c.mask) else .ok ()

/-! Reading a graph image (R140 to R144). -/

def parsePass (q : List DWord) (ent : KEnt) : PassEnt :=
  let n (i : Nat) : Nat := ((q[i]?).getD 0).toNat
  { ent := ent, kidx := bits (n 0) 0 10, cost := bits (n 0) 48 4, maxInfl := bits (n 0) 32 16, defer := bitN (n 0) 30,
    early := bitN (n 0) 29, prio := bits (n 0) 26 3, gh := bits (n 0) 18 8 + 1, gw := bits (n 0) 10 8 + 1,
    cmask := (q[1]?).getD 0, stl := bits (n 2) 0 6, sthr := (q[3]?).getD 0,
    writes := (List.range 4).filterMap (fun w => if bitN (n 4) (8 * w + 6) then some (bits (n 4) (8 * w) 6) else none) }

/-- Reserved fields of a pass entry. -/
def passMbz (q : List DWord) : Bool :=
  let n (i : Nat) : Nat := ((q[i]?).getD 0).toNat
  bits (n 0) 52 12 != 0 || bitN (n 0) 31 || bits (n 2) 6 58 != 0 || bits (n 4) 31 33 != 0 || bitN (n 4) 7 || bitN (n 4) 15 ||
    bitN (n 4) 23 || n 5 != 0 || n 6 != 0 || n 7 != 0

def parseRes (q : List DWord) : ResEnt :=
  let n (i : Nat) : Nat := ((q[i]?).getD 0).toNat
  { height := bits (n 0) 48 16, width := bits (n 0) 32 16, home := bits (n 0) 24 1, lth := bits (n 0) 20 4,
    ltw := bits (n 0) 16 4, enc := bits (n 0) 8 8, recidx := bits (n 0) 0 8, ovtiles := bits (n 1) 16 16,
    slots := bits (n 1) 0 13, tileBytes := 0, chn := 0, ilv := 0, ovOff := 0 }

def resMbz (q : List DWord) : Bool :=
  let n (i : Nat) : Nat := ((q[i]?).getD 0).toNat
  bits (n 0) 25 7 != 0 || bits (n 1) 32 32 != 0 || bits (n 1) 13 3 != 0 || n 2 != 0 || n 3 != 0

/-- A resource entry that is bad on its own. -/
def resBad (e : ResEnt) : Bool :=
  0x0E < e.enc || e.ltw < 3 || 6 < e.ltw || e.lth < 3 || 6 < e.lth || e.width = 0 || e.height = 0 || e.slots = 0 ||
    4096 < e.slots || 256 < gridW e || 256 < gridH e

def parseSten (d : DWord) : Sten :=
  { pass := bits d.toNat 0 6, res := bits d.toNat 8 6, dx := sextN 8 (bits d.toNat 16 8), dy := sextN 8 (bits d.toNat 24 8) }

def stenMbz (d : DWord) : Bool := bits d.toNat 32 32 != 0 || bits d.toNat 14 2 != 0 || bits d.toNat 6 2 != 0

def headMbz (q : List DWord) : Bool :=
  let n (i : Nat) : Nat := ((q[i]?).getD 0).toNat
  bits (n 0) 32 32 != 0 || bitN (n 0) 7 || bits (n 1) 39 25 != 0 || bits (n 2) 57 7 != 0 || bits (n 3) 6 58 != 0 ||
    n 5 != 0 || n 6 != 0 || n 7 != 0

/-- The doublewords of an image as read: header, passes, resources, stencils. -/
structure Raw where
  head : List DWord
  pass : List (List DWord)
  res : List (List DWord)
  sten : List DWord
  deriving DecidableEq, Repr

/-- Why a table of a graph cannot be read: an address that fails translation, or one whose bytes the loss of the link makes
all ones (R95, R382; entry 12). -/
inductive ImgErr where
  | page (a : Nat)
  | lost (a : Nat)
  /-- The read meets poison: structure and address (R97, entry 28). -/
  | ecc (st a : Nat)
  deriving DecidableEq, Repr

/-- The trap that GSUB takes for it (R122, R358). -/
def ImgErr.trap (m : Mask) : ImgErr → Trap
  | .page a => pageFault a 0 m
  | .lost a => pcieLost (a % 2 ^ 57) m
  | .ecc st a => eccTrap st a m

/-- n doublewords at an address, or why they cannot be read. -/
def imageDwords (s : State) (part core a n : Nat) : Except ImgErr (List DWord) :=
  match tableDwords s part core a n with
  | some l =>
    if tableLost s part core a (8 * n) then .error (.lost a)
    else match tablePoison s part core a (8 * n) with | some (st, x) => .error (.ecc st x) | none => .ok l
  | none => .error (.page (tableFault s part core a (8 * n)))

/-- n entries of m doublewords each. -/
def imageEntries (s : State) (part core a m n : Nat) : Except ImgErr (List (List DWord)) :=
  foldE (fun (l : List (List DWord)) i =>
    match imageDwords s part core (a + 8 * m * i) m with
    | .ok q => .ok (l ++ [q])
    | .error e => .error e) [] (List.range n)

/-- The header and the entries it counts (R358 step 3). -/
def readImage (s : State) (part core a : Nat) : Except ImgErr Raw :=
  match imageDwords s part core a 8 with
  | .error e => .error e
  | .ok h =>
    let q0 := ((h[0]?).getD 0).toNat
    let np := bits q0 0 7
    let nr := bits q0 8 7
    match imageEntries s part core (a + 64) 8 np, imageEntries s part core (a + 64 + 64 * np) 4 nr,
        imageDwords s part core (a + 64 + 64 * np + 32 * nr) (bits q0 15 17) with
    | .error e, _, _ => .error e
    | _, .error e, _ => .error e
    | _, _, .error e => .error e
    | .ok p, .ok r, .ok t => .ok ⟨h, p, r, t⟩

/-- The checks of R144 that need nothing but the image. -/
def rawBad (clusters : DWord) (r : Raw) : Bool :=
  let np := r.pass.length
  let nr := r.res.length
  let ps := r.pass.map (fun q => parsePass q (parseKEnt []))
  let rs := r.res.map parseRes
  let ts := (r.sten.map parseSten).eraseDups
  let wr := ps.flatMap (·.writes)
  headMbz r.head || r.pass.any passMbz || r.res.any resMbz || r.sten.any stenMbz || np = 0 || 64 < np || 64 < nr ||
    ps.any (fun p => p.cmask = 0 || (p.cmask &&& ~~~clusters) != 0) ||
    wr.any (fun x => decide (nr ≤ x)) || wr.eraseDups.length != wr.length ||
    (List.range nr).any (fun x => !wr.contains x) || rs.any resBad ||
    ps.any (fun p => p.writes.any (fun x =>
      match rs[x]? with | some e => gridW e != p.gw || gridH e != p.gh | none => true)) ||
    ts.any (fun t => decide (np ≤ t.pass) || decide (nr ≤ t.res) ||
      ((ps[t.pass]?).map (fun p => p.writes.contains t.res)).getD true ||
      decide (16 < (ts.filter (fun u => u.pass = t.pass && u.res = t.res)).length)) ||
    (rs.any (fun e => e.ovtiles != 0) && ((r.head[2]?).getD 0).toNat % 128 != 0)

/-- How the checks of an image end. -/
inductive Built where
  | ok (im : Image)
  | malformed
  /-- A table that the image names cannot be read. -/
  | bad (e : ImgErr)
  deriving DecidableEq, Repr

/-- Bytes of a tile (R85). -/
def bytesOfTile (e : ResEnt) (c : Nat) : Nat := 2 ^ (e.ltw + e.lth) * c * encNibbles e.enc / 2

/-- The kernel entries of the passes. -/
def readKernels (s : State) (part core : Nat) (ktab : DWord) : List (List DWord) → Except Built (List PassEnt)
  | [] => .ok []
  | q :: t =>
    match readKEnt s part core ktab (parsePass q (parseKEnt [])).kidx with
    | .page a => .error (.bad (.page a))
    | .lost a => .error (.bad (.lost a))
    | .ecc st a => .error (.bad (.ecc st a))
    | .bad => .error .malformed
    | .ok e =>
      match readKernels s part core ktab t with
      | .ok l => .ok (parsePass q e :: l)
      | .error b => .error b

/-- The kernel entry of a resource's writer. -/
def writerEnt (ps : List PassEnt) (r : Nat) : KEnt := ((ps.find? (fun p => p.writes.contains r)).map (·.ent)).getD (parseKEnt [])

/-- A resource with what its record adds: the record is read from the BRTAB of the writing pass's entry (R142). ov is where
its overflow block begins. -/
def readRes (s : State) (part core : Nat) (ps : List PassEnt) (all : List ResEnt) (i ov : Nat) (e : ResEnt) :
    Except Built ResEnt :=
  let tab := (writerEnt ps i).brtab
  if countOf tab 9 256 ≤ e.recidx then .error .malformed
  else
    match imageDwords s part core (bits tab.toNat 9 48 * 512 + 40 * e.recidx) 5 with
    | .error a => .error (.bad a)
    | .ok w =>
      let r := parseRec e.recidx w
      let im : Image := { ashare := 0, dsext := 0, ovbase := 0, ctl := 0, cval := 0, passes := [], ress := all, stens := [], kbase := 0 }
      if recBad r || r.kind != 2 || r.res != i || ringBad im r then .error .malformed
      else .ok { e with tileBytes := bytesOfTile e r.c, chn := r.c, ilv := r.ilv, ovOff := ov }

/-- All resources in order. -/
def readRess (s : State) (part core : Nat) (ps : List PassEnt) (all : List ResEnt) : Nat → Nat → List ResEnt → Except Built (List ResEnt)
  | _, _, [] => .ok []
  | i, ov, e :: t =>
    match readRes s part core ps all i ov e with
    | .error b => .error b
    | .ok x =>
      match readRess s part core ps all (i + 1) (ov + roundUp (x.ovtiles * x.tileBytes) 128) t with
      | .ok l => .ok (x :: l)
      | .error b => .error b

/-- The image that an accepted GSUB keeps (R140, R144). -/
def buildImage (s : State) (part core : Nat) (ktab : DWord) (r : Raw) : Built :=
  if rawBad (getPart s part).clmask r then .malformed
  else
    match readKernels s part core ktab r.pass with
    | .error b => b
    | .ok ps =>
      let rs := r.res.map parseRes
      match readRess s part core ps rs 0 0 rs with
      | .error b => b
      | .ok l =>
        let n (i : Nat) : Nat := ((r.head[i]?).getD 0).toNat
        .ok { ashare := bits (n 1) 32 7, dsext := bits (n 1) 0 32, ovbase := bits (n 2) 0 57, ctl := bits (n 3) 0 6,
              cval := (r.head[4]?).getD 0, passes := ps, ress := l, stens := (r.sten.map parseSten).eraseDups,
              kbase := ktabBase ktab }

/-- The arena need fits the partition (R144): on each die the rings and half the device scratch within ASHARE * 3 MiB, and
ASHARE below the partition's share count. -/
def needFits (shares : Nat) (im : Image) : Bool :=
  let ring (d : Nat) : Nat := (im.ress.map (fun e => if e.home = d then roundUp (e.slots * e.tileBytes) 128 else 0)).sum
  (List.range 2).all (fun d => decide (2 * ring d + im.dsext ≤ 2 * im.ashare * 3145728)) && decide (im.ashare < shares)

/-- Shares of a partition (R82). -/
def shareCount (p : Part) : Nat := (setBits p.hwsh).length

/-- A graph still holds its arena reservation. -/
def reserves (g : Graph) : Bool := match g.phase with | .completed => false | .torn => false | _ => true

/-- Shares reserved by graphs. -/
def sharesHeld (p : Part) : Nat := ((p.graphs.filter (fun e => reserves e.2)).map (fun e => e.2.image.ashare)).sum

/-- The lowest free graph slot (R103). -/
def freeGraph (p : Part) : Option Nat :=
  (List.range 4).find? (fun g => !((tabGet? p.graphs g).map (·.live)).getD false)

/-- The initial last-reader count of a tile (R155). -/
def readerCount (im : Image) (r i : Nat) : Nat :=
  ((im.passes.zipIdx).map (fun (e : PassEnt × Nat) =>
    ((List.range (e.1.gw * e.1.gh)).filter (fun k => (covers im e.2 k).contains (r, i))).length)).sum

/-- The scoreboard of a resource at GSUB. -/
def newRes (im : Image) (r : Nat) (e : ResEnt) : ResSt :=
  { tiles := (List.range (gridW e * gridH e)).map (fun i => { st := .empty, count := readerCount im r i, store := none }), stalls := 0 }

/-- The graph at GSUB; passes start whose timeline holds their threshold, 0 always (R104). -/
def newGraph (p : Part) (im : Image) : Graph :=
  { image := im
    passes := im.passes.map (fun e =>
      { started := decide (e.sthr.toNat ≤ (tlGet p e.stl).toNat), queued := none, level := e.prio, lastCore := none, tasks := [] })
    ress := (im.ress.zipIdx).map (fun (e : ResEnt × Nat) => newRes im e.2 e.1)
    phase := .live, live := true, host := false, faultMsg := [], tearAt := none }

/-- An accepted graph takes its slot: rings and device scratch are zeroed (R73, R358). -/
def acceptGraph (s : State) (part g : Nat) (im : Image) : State :=
  let s1 := zeroRange (zeroRange s (locDs part g 0) (locDs part (g + 1) 0)) (locRing part g 0 0) (locRing part (g + 1) 0 0)
  refresh (updPart s1 part (fun p => { p with graphs := tabPut p.graphs g (newGraph p im) })) part

/-- A waiting instruction of a path completes: D is written and the path goes on. -/
def completeWith (s : State) (c : Ctx) (d : Nat) (x : Word) (n : Nat) : State :=
  updWave s c.w (fun v => advance c n (setSReg v d x))

/-- The translations of an image's entries and of its passes' kernel entries, which reading them leaves in the TLBs (R94,
R122). -/
def imageFill (s : State) (part core addr : Nat) (ktab : DWord) (raw : Raw) : State :=
  let n := 64 + 64 * raw.pass.length + 32 * raw.res.length + 8 * raw.sten.length
  let kents := raw.pass.map (fun q => ktabBase ktab + 64 * (parsePass q (parseKEnt [])).kidx)
  ((List.range (n / 2 ^ 17 + 1)).map (fun i => addr + i * 2 ^ 17) ++ (addr + n - 1) :: kents).foldl (fun s a => tlbFill s part core a) s

/-- Those of the records of its resources. -/
def recordFill (s : State) (part core : Nat) (im : Image) : State :=
  (im.ress.zipIdx).foldl (fun s e =>
    let a := bits (writerEnt im.passes e.2).brtab.toNat 9 48 * 512 + 40 * e.1.recidx
    tlbFill (tlbFill s part core a) part core (a + 39)) s

/-- GSUB's accept step, one action of Canopy (R358, R44): the pacer goes on, keeps waiting, or takes a trap. -/
def gsubTry (s : State) (c : Ctx) (addr d : Nat) (ktab : DWord) : Except Trap State :=
  let part := c.g.part
  match freeGraph (getPart s part) with
  | none => .ok (hold s c (.gsub addr d ktab))
  | some g =>
    match readImage s part c.core addr with
    | .error a => .error (a.trap c.mask)
    | .ok raw =>
      match buildImage s part c.core ktab raw with
      | .bad a => .error (a.trap c.mask)
      | .malformed => .ok (completeWith (imageFill s part c.core addr ktab raw) c d 0x80000001#32 1)
      | .ok im =>
        let s1 := recordFill (imageFill s part c.core addr ktab raw) part c.core im
        let n := shareCount (getPart s part)
        if !needFits n im then .ok (completeWith s1 c d 0x80000002#32 1)
        else if n - sharesHeld (getPart s part) - 1 < im.ashare then .ok (hold s1 c (.gsub addr d ktab))
        else .ok (completeWith (acceptGraph s1 part g im) c d (BitVec.ofNat 32 g) 1)

/-- GSUB (R358). -/
def execGsub (x : FE) (s : State) : Answer :=
  issue s fun c =>
    match firstError [sDst c x.d, evenS c x.a, pacerOnly c 0x00 x, grfReads c [] [x.a]] with
    | .error t => .error t
    | .ok _ =>
      let a := (sPair c.wave (sNum x.a)).toNat
      if a % 64 != 0 then .error (alignTrap (a % 2 ^ 57) c.mask)
      else gsubTry (releaseNow s c.w 3) c a (sNum x.d) (getPart s c.g.part).ktab

/-- GSUB_ACCEPT: Canopy's accept step for a waiting GSUB. -/
def execGsubAccept (w : Nat) (pb : Bool) (s : State) : Answer :=
  match ctxAt s w pb with
  | none => .next s
  | some c =>
    match c.path.wait with
    | .gsub addr d ktab =>
      match gsubTry s c addr d ktab with
      | .ok s' => .next s'
      | .error t => .next (takeTrap s w pb t c.path.pc)
    | _ => .next s

/-! The end of a graph (R113). -/

/-- The graph's passes leave the pass queue. -/
def emptyQueue (g : Graph) : Graph :=
  { g with passes := (g.passes.zipIdx).map (fun (e : PassSt × Nat) => unqueue g e.2 e.1) }

/-- Step 1 of R113, with the event message that step 4 will queue. -/
def startTear (s : State) (part g kind : Nat) (msg : List Byte) : State :=
  updGraph s part g (fun x => emptyQueue { x with phase := .teardown kind, faultMsg := msg, tearAt := none })

/-- Waves of a graph of a partition. -/
def graphWave (s : State) (part g : Nat) (v : Wave) : Bool :=
  match getWg s v.wg with
  | some x => x.part = part && rootGraph x.kind == some g
  | none => false

/-- Step 2 begins: the graph's waves are asked to freeze, and its children leave the spawn queues. -/
def freezeGraph (s : State) (part g : Nat) : State :=
  { s with
    waves := s.waves.map (fun e => if graphWave s part g e.2 then (e.1, { e.2 with freezing := true }) else e)
    cores := s.cores.filterMap (fun e =>
      let c := { e.2 with spawnq := e.2.spawnq.filter (fun ch => !(ch.part = part && ch.g = g)) }
      if c = Core.init then none else some (e.1, c)) }

/-- Step 2 is complete: every wave of a set is frozen or has halted, its engine work done. -/
def allStill (s : State) (mine : Wave → Bool) : Bool :=
  s.waves.all (fun e => !mine e.2 || ((e.2.frozen || e.2.halted || liveMask e.2 = 0) && countersZero e.2))

/-- What a set of waves left in their store queues drains, and the waves end (step 3). Threads that still wait for miss-status
entries go with them: their accesses are never made (entry 65, DESIGN CHOICE). -/
def endWaves (s : State) (mine : State → Wave → Bool) : State :=
  ((s.waves.filter (fun e => mine s e.2)).map (·.1)).foldl (fun s w =>
    match getWave s w with
    | none => s
    | some v =>
      let s1 := drainAll v.sq.length s w
      match getWave s1 w with
      | some v1 => endWave s1 w v1
      | none => s1) s

/-- The SQs of ended waves of a set drain. -/
def drainOrphans (s : State) (mine : Orphan → Bool) : State :=
  ((s.orph.filter (fun e => mine e.2)).map (·.1)).foldl (fun s w =>
    match tabGet? s.orph w with
    | some o => drainAll o.sq.length s w
    | none => s) s

def orphanOf (part g : Nat) (o : Orphan) : Bool := o.part = part && rootGraph o.root == some g

/-- Steps 3 to 5: the waves end, the reservation returns, the event waits for mailbox 15, and every TLWAIT blocked on the
graph's CTL is released (R114). A graph without an event frees its slot at once. -/
def finishTear (s : State) (part g : Nat) (event : Bool) : State :=
  match getGraph s part g with
  | none => s
  | some gr =>
    let s1 := drainOrphans (endWaves s (fun s v => graphWave s part g v)) (orphanOf part g)
    let s2 := updPart s1 part (fun p =>
      { p with evicted := p.evicted.filter (fun e => rootGraph e.wg.kind != some g),
               events := if event then p.events ++ [(.graph g, gr.faultMsg)] else p.events })
    let s3 := updGraph s2 part g (fun x => { x with phase := .torn, live := event })
    evictCheck (releaseTl s3 part gr.image.ctl (fun _ => true) (BitVec.ofNat 32 (0x80000000 + g)) false) part

/-- An event of a graph has entered mailbox 15: its slot is free (R103). -/
def eventDone (s : State) (part : Nat) (e : EvSrc) : State :=
  match e with
  | .graph g => updGraph s part g (fun x => { x with live := false })
  | .resreq _ => s

/-- EVENT_ENQUEUE: the oldest of the messages that wait for mailbox 15 enters it when it has room (R101, R319, R363). -/
def execEventEnqueue (part : Nat) (s : State) : Answer :=
  let p := getPart s part
  match p.events with
  | [] => .next s
  | (e, m) :: t =>
    if mboxRoom p 15 = 0 then .next s
    else .next (eventDone (mboxPut (setPart s part { p with events := t }) part 15 [m]) part e)

/-- A stopped graph whose tasks have all retired ends (R359 step 3). -/
def stopCheck (s : State) (part g : Nat) : State :=
  match getGraph s part g with
  | some gr => if gr.phase = .stopping && noFlight gr then finishTear s part g false else s
  | none => s

/-- The handle operand of an instruction of the pacer: its specifier, who issues it, its parity, and u(A) below 4 (R221,
R357). -/
def handleArg (c : Ctx) (op : Nat) (x : FE) : Except Trap Unit :=
  firstError [onceVal c x.a false, pacerOnly c op x, grfReads c [x.a] [], below c (rdSpec c 0 x.a 0).toNat 4]

/-! GQRY (R115, R158 to R160, R360). -/

/-- A word of fields, each value with the place of its lowest bit. -/
def fields (l : List (Nat × Nat)) : Word := BitVec.ofNat 32 ((l.map (fun e => e.1 * 2 ^ e.2)).sum)

def bitV (b : Bool) : Nat := if b then 1 else 0

/-- The status word of a pass. -/
def passWord (budget : Nat) (g : Graph) (p : Nat) (ps : PassSt) : Word :=
  let st := if passDone g p then 2 else if g.phase = .torn then 4 else if ps.started then 1 else 0
  let queued := ps.queued.isSome && g.phase == .live
  fields [(Nat.min 131071 (countTasks ps isRetiredTask), 0), (Nat.min 127 (countTasks ps inFlight), 17),
    (if queued then ps.level else prioOf g p, 24), (bitV (queued && powerHeld budget g p), 27), (bitV (ringStall g p), 28), (st, 29)]

/-- A graph's status word. -/
def graphWord (g : Graph) : Word :=
  fields [(donePasses g, 0), (match g.phase with | .completed => 2 | .torn => 4 | _ => 1, 29)]

/-- Tiles of a resource that hold a kind of storage. -/
def storeCount (x : ResSt) (ov : Bool) : Nat := ((storesUsed x).filter (fun e => e.1 = ov)).length

/-- A task of the writing pass is held now because this resource lacks storage. -/
def stalledOn (g : Graph) (r : Nat) : Bool :=
  match writerOf g.image r with
  | some p => ringStall g p && (lacking g p).contains r
  | none => false

/-- A counter word of a resource. -/
def resWord (g : Graph) (r : Nat) (e : ResEnt) (x : ResSt) (word : Nat) : Word :=
  match word with
  | 0 => fields [(e.slots - storeCount x false, 0), (storeCount x true, 13), (bitV (stalledOn g r), 29)]
  | 1 => BitVec.ofNat 32 x.stalls
  | 2 => BitVec.ofNat 32 ((x.tiles.map (fun t => if t.st = .retired then t.count else 0)).sum)
  | _ => BitVec.ofNat 32 ((x.tiles.filter (fun t => t.st = .freed)).length)

/-- The word that sel names of graph slot g, or none where it is illegal. -/
def gqryWord (p : Part) (g sel : Nat) : Option Word :=
  let i := bits sel 0 6
  if bits sel 10 22 != 0 then none
  else
    match bits sel 8 2, tabGet? p.graphs g with
    | 2, none => some 0
    | 2, some gr => some (graphWord gr)
    | 0, some gr => (gr.passes[i]?).map (passWord p.pwrbud.toNat gr i)
    | 1, some gr =>
      match gr.image.ress[i]?, gr.ress[i]? with
      | some e, some x => some (resWord gr i e x (bits sel 6 2))
      | _, _ => none
    | _, _ => none

/-- GQRY. -/
def execGqry (x : FE) (s : State) : Answer :=
  issue s fun c =>
    match firstError [sDst c x.d, onceVal c x.a false, onceVal c x.b true, grfReads c [x.a, x.b] [],
        below c (rdSpec c 0 x.a 0).toNat 4] with
    | .error t => .error t
    | .ok _ =>
      let sel := (rdSpec c 0 x.b x.lit).toNat
      match gqryWord (getPart s c.g.part) (rdSpec c 0 x.a 0).toNat sel with
      | none => .error (illegalOperand x.b.toNat c.mask)
      | some r => .ok (completeWith s c (sNum x.d) r (grfWords x))

/-! GHINT, GWAIT, TREL (R361, R181, R182). -/

/-- A pass writes no resource. -/
def writesNothing (g : Graph) (p : Nat) : Bool := ((g.image.passes[p]?).map (fun e => e.writes.isEmpty)).getD true

/-- GHINT. -/
def execGhint (x : FE) (s : State) : Answer :=
  issue s fun c =>
    match taskOnly c 0x04 x with
    | .error t => .error t
    | .ok _ =>
      let s1 :=
        match rootTask c.g.kind with
        | some (g, p, k) =>
          match getGraph s c.g.part g with
          | some gr =>
            if writesNothing gr p || ((taskOf gr p k).map (fun t => t.closing || t.closed)).getD true then s
            else refresh (updTask s c.g.part g p k (fun t => { t with hinted := true })) c.g.part
          | none => s
        | none => s
      .ok (finish s1 c 1)

/-- Every tile that a wave's root task covers is RETIRED. -/
def waitOver (s : State) (g : Wg) : Bool :=
  match rootTask g.kind with
  | none => true
  | some (gi, p, k) =>
    match getGraph s g.part gi with
    | some gr => (covers gr.image p k).all (fun c => tileDone gr c.1 c.2)
    | none => true

/-- GWAIT. -/
def execGwait (x : FE) (s : State) : Answer :=
  issue s fun c =>
    match taskOnly c 0x05 x with
    | .error t => .error t
    | .ok _ => if waitOver s c.g then .ok (acquire (finish s c 1) c.core 3) else .ok (hold s c .gwait)

def gwaitHit (x : Path) : Bool := match x.wait with | .gwait => true | _ => false

/-- GWAIT_RELEASE (R182): waves of a graph whose covered tiles have all become RETIRED. -/
def releaseGwait (s : State) (part g : Nat) : State :=
  s.waves.foldl (fun s e =>
    match getWg s e.2.wg with
    | some x =>
      if x.part = part && rootGraph x.kind == some g && releasedWave gwaitHit e.2 && waitOver s x then
        acquire (setWave s e.1 (releasePaths gwaitHit e.2)) (coreOf e.1) 3
      else s
    | none => s) s

/-- WRITING becomes RETIRED(n), and FREED at once when n is 0 (R156). -/
def retireTile (t : TileSt) : TileSt :=
  if t.st = .writing then (if t.count = 0 then { t with st := .freed } else { t with st := .retired }) else t

/-- The tiles that task k of a pass writes become RETIRED. -/
def retireTiles (p k : Nat) (g : Graph) : Graph :=
  match g.image.passes[p]? with
  | none => g
  | some e => { g with ress := e.writes.foldl (fun l r =>
      listMod l r (fun x => { x with tiles := listMod x.tiles k retireTile })) g.ress }

/-- One counted reader of a tile has retired. -/
def readTile (t : TileSt) : TileSt :=
  if t.st = .retired then (if t.count ≤ 1 then { t with st := .freed, count := 0 } else { t with count := t.count - 1 }) else t

/-- The decrements of R107 step 2, once for each tile covered. -/
def readTiles (p k : Nat) (g : Graph) : Graph :=
  { g with ress := (covers g.image p k).foldl (fun l c =>
      listMod l c.1 (fun x => { x with tiles := listMod x.tiles c.2 readTile })) g.ress }

/-- Waves and ended waves of a root task. -/
def sqsOfTask (s : State) (part g p k : Nat) : List Nat :=
  let root (x : WgKind) : Bool := rootTask x == some (g, p, k)
  (s.waves.filter (fun e => ((getWg s e.2.wg).map (fun x => x.part = part && root x.kind)).getD false)).map (·.1) ++
    (s.orph.filter (fun e => e.2.part = part && root e.2.root)).map (·.1)

/-- Every entry that the task's waves have in their store queues reaches the DEVICE view. -/
def releaseTask (s : State) (part g p k : Nat) : State :=
  (sqsOfTask s part g p k).foldl (fun s w => releaseNow s w 3) s

/-- Locations of n bytes of GLOBAL addresses, at most a page of them, as first location and length of each part. -/
def tilePieces (s : State) (part core va n : Nat) : List (Nat × Nat) :=
  let k := Nat.min n (2 ^ 17 - va % 2 ^ 17)
  [(va, k), (va + k, n - k)].filterMap (fun e =>
    if e.2 = 0 then none else match translate s part core 1 e.1 with | .ok l => some (l, e.2) | _ => none)

/-- Where the tiles lie that task k of a pass writes. -/
def ownRanges (s : State) (part core g p k : Nat) : List (Nat × Nat) :=
  match getGraph s part g with
  | none => []
  | some gr =>
    (((gr.image.passes[p]?).map (·.writes)).getD []).flatMap (fun r =>
      match (tileOf gr r k).bind (·.store), gr.image.ress[r]? with
      | some (false, n), some e => [(locRing part g r (n * e.tileBytes), e.tileBytes)]
      | some (true, n), some e => tilePieces s part core (gr.image.ovbase + e.ovOff + n * e.tileBytes) e.tileBytes
      | _, _ => [])

def inRanges (l : List (Nat × Nat)) (loc : Nat) : Bool := l.any (fun r => decide (r.1 ≤ loc ∧ loc < r.1 + r.2))

/-- What the views of a core's path below DEVICE hold dirty of some ranges moves up to DEVICE. -/
def propRanges (l : List (Nat × Nat)) (s : State) (core : Nat) : State :=
  (List.range 3).foldl (fun s lv =>
    let v := viewAt core lv
    ((((dirtyLocs s v).filter (inRanges l)).map (· / 8)).eraseDups).foldl (fun s b => propBlock s v b) s) s

/-- Entries of SQ w that a condition names drain. -/
def drainNamed (s : State) (w : Nat) (named : SqEntry → Bool) : State :=
  match sqOf s w with
  | some (_, _, sq) => drainSome named sq.length s w
  | none => s

/-- An access still to be made stores to one of some ranges. -/
def storesTo (l : List (Nat × Nat)) (act : MemAct) (a : Access) : Bool :=
  !act.isLoad && (match a.plan.acc with | .mem bs => bs.any (fun b => inRanges l b.1) | _ => false)

/-- A wave has a store to some ranges that issued before a closing point and still waits for miss-status entries (R119). -/
def storeAhead (l : List (Nat × Nat)) (n : Nat) (v : Wave) : Bool :=
  (allPaths v).any (fun x =>
    match x.wait with
    | .mshr act _ grp todo => decide (grp < n) && todo.any (storesTo l act)
    | _ => false)

/-- Waves of a root task, the evicted ones too. -/
def wavesOfTask (s : State) (part g p k : Nat) : List Wave :=
  let root (x : WgKind) : Bool := rootTask x == some (g, p, k)
  (s.waves.filter (fun e => ((getWg s e.2.wg).map (fun x => x.part = part && root x.kind)).getD false)).map (·.2) ++
    ((getPart s part).evicted.filter (fun e => root e.wg.kind)).flatMap (fun e => e.waves.map (·.2))

/-- A store to the tiles of a closing task that issued before the closing point is still to enter a store queue: the closure
waits for it too (R181). -/
def closeAhead (s : State) (c : Ctx) (g p k : Nat) : Bool :=
  let n := (((getGraph s c.g.part g).bind (fun gr => taskOf gr p k)).map (·.closeAt)).getD 0
  (wavesOfTask s c.g.part g p k).any (storeAhead (ownRanges s c.g.part c.core g p k) n)

/-- What the closure of a task's tiles waits for: the entries to its tiles of the instructions that its waves and its
descendants' had issued at the closing point reach the DEVICE view, and the issuing wave's release is met (R181; entry 19). -/
def closeRelease (s : State) (c : Ctx) (g p k : Nat) : State :=
  match getGraph s c.g.part g with
  | none => s
  | some gr =>
    let n := ((taskOf gr p k).map (·.closeAt)).getD 0
    let l := ownRanges s c.g.part c.core g p k
    let s1 := (sqsOfTask s c.g.part g p k).foldl (fun s w =>
      drainNamed s w (fun e => decide (e.grp < n) && e.bytes.any (fun b => inRanges l b.1))) s
    let s2 := (((taskOf gr p k).map (·.cores)).getD []).foldl (propRanges l) s1
    propPath (drainNamed s2 c.w (fun e => decide (e.grp < n))) c.core 3

/-- TREL: the closing point is taken with its issue; a repeated one, or one without object, only releases. -/
def execTrel (x : FE) (s : State) : Answer :=
  issue s fun c =>
    match taskOnly c 0x06 x with
    | .error t => .error t
    | .ok _ =>
      match rootTask c.g.kind with
      | none => .ok (finish (releaseNow s c.w 3) c 1)
      | some (g, p, k) =>
        match getGraph s c.g.part g with
        | none => .ok (finish (releaseNow s c.w 3) c 1)
        | some gr =>
          if writesNothing gr p || ((taskOf gr p k).map (fun t => t.closing || t.closed)).getD true then
            .ok (finish (releaseNow s c.w 3) c 1)
          else .ok (hold (updTask s c.g.part g p k (fun t => { t with closing := true, closeAt := s.seq })) c .trel)

/-! Retirement (R107, R365). -/

/-- Something of a root task still runs, waits in a spawn queue or is evicted. -/
def taskRuns (s : State) (part g p k : Nat) : Bool :=
  let root (x : WgKind) : Bool := rootTask x == some (g, p, k)
  s.wgs.any (fun e => e.2.part = part && root e.2.kind) ||
    s.cores.any (fun e => e.2.spawnq.any (fun ch => ch.part = part && ch.g = g && ch.p = p && ch.k = k)) ||
    (getPart s part).evicted.any (fun e => root e.wg.kind)

/-- A task may retire: in flight, ended, and for an EARLY pass every covered tile RETIRED (R365). -/
def mayRetire (s : State) (part g p k : Nat) (gr : Graph) : Bool :=
  let early := ((gr.image.passes[p]?).map (·.early)).getD false
  ((taskOf gr p k).map inFlight).getD false && !taskRuns s part g p k &&
    (!early || (covers gr.image p k).all (fun c => tileDone gr c.1 c.2))

/-- A task that ended on a core at a moment still counts: its graph has not begun its teardown, or did so by a pass fault of
that core later on (R157). -/
def stillCounts (g : Graph) (core n : Nat) : Bool :=
  match g.phase, g.tearAt with
  | .live, _ => true
  | .stopping, _ => true
  | .teardown _, some (c, m, _) => decide (c = core ∧ n < m)
  | _, _ => false

/-- Graph, pass and number of each task of a partition that ended on a core before n, still counts and may retire now. -/
def owed (s : State) (part core n : Nat) : List (Nat × Nat × Nat) :=
  (getPart s part).graphs.flatMap (fun e => (e.2.passes.zipIdx).flatMap (fun x =>
    x.1.tasks.filterMap (fun t =>
      match t.2.ended with
      | some (c, m) =>
        if c = core && decide (m < n) && stillCounts e.2 c m && mayRetire s part e.1 x.2 t.1 e.2 then some (e.1, x.2, t.1) else none
      | none => none)))

/-- A task's retirement still counts, and is the next of its core: no other task of the partition that may retire ended there
earlier (R157). -/
def retireTurn (s : State) (part g p k : Nat) : Bool :=
  match getGraph s part g with
  | none => false
  | some gr =>
    match (taskOf gr p k).bind (·.ended) with
    | none => gr.phase == .live || gr.phase == .stopping
    | some (core, n) => stillCounts gr core n && (owed s part core n).isEmpty

/-- TILE_CLOSURE: the entries of stores issued before the closing point reach DEVICE, the issuing wave's release is made, and
the tiles become RETIRED (R181). It comes after the retirements that its core has sent before, and changes no counter once
teardown has begun (R157). -/
def execTileClosure (w : Nat) (pb : Bool) (s : State) : Answer :=
  match ctxAt s w pb with
  | none => .next s
  | some c =>
    match c.path.wait, rootTask c.g.kind with
    | .trel, some (g, p, k) =>
      if graphRuns s c.g.part g && !closeAhead s c g p k && (owed s c.g.part c.core s.nextId).isEmpty then
        let s1 := closeRelease s c g p k
        let s2 := updTask s1 c.g.part g p k (fun t => { t with closing := false, closed := true })
        let s3 := updGraph s2 c.g.part g (retireTiles p k)
        .next (refresh (releaseGwait (finish s3 c 1) c.g.part g) c.g.part)
      else .next s
    | _, _ => .next s

/-- The completion of a graph (R103, R162): its timeline is signalled. -/
def completeGraph (s : State) (part g : Nat) : State :=
  match getGraph s part g with
  | none => s
  | some gr =>
    if gr.phase = .live && donePasses gr = gr.image.passes.length then
      let s1 := updGraph s part g (fun x => { x with phase := .completed, live := false })
      tlWrite s1 part gr.image.ctl (maxU (tlGet (getPart s1 part) gr.image.ctl) gr.image.cval)
    else s

/-- The phase in which Canopy received a retirement that still counts: before the teardown that its core's pass fault began. -/
def phaseBefore (g : Graph) : GPhase :=
  match g.phase, g.tearAt with
  | .teardown _, some (_, _, stopping) => if stopping then .stopping else .live
  | ph, _ => ph

/-- TASK_RETIRE (R107): the release of R180, then the retirement action with its placement round, and what follows for the
graph. One that Canopy received before a pass fault of its core is performed whole, its placement round with the storage
grants and STALLS too, as before that fault; then the teardown goes on (R157). -/
def execTaskRetire (part g p k : Nat) (s : State) : Answer :=
  match getGraph s part g with
  | none => .next s
  | some gr =>
    if mayRetire s part g p k gr && retireTurn s part g p k then
      let cores := ((taskOf gr p k).map (·.cores)).getD []
      let s0 := updGraph s part g (fun x => { x with phase := phaseBefore gr })
      let s1 := cores.foldl (fun s c => propPath s c 3) (releaseTask s0 part g p k)
      let s2 := updGraph (updTask s1 part g p k (fun t => { t with st := .retired })) part g (fun x => readTiles p k (retireTiles p k x))
      let s3 := placementRound (refresh (releaseGwait s2 part g) part) part
      let s4 := stopCheck (completeGraph s3 part g) part g
      .next (if phaseBefore gr == gr.phase then s4 else updGraph s4 part g (fun x => emptyQueue { x with phase := gr.phase }))
    else .next s

/-- The retirements that Canopy receives from a core before its next event (R157). fuel bounds them. -/
def retireOwed (part core : Nat) : Nat → State → State
  | 0, s => s
  | f + 1, s =>
    match (owed s part core s.nextId).find? (fun t => retireTurn s part t.1 t.2.1 t.2.2) with
    | none => s
    | some (g, p, k) => match execTaskRetire part g p k s with | .next t => retireOwed part core f t | _ => s

/-- What Canopy has received from a wave's core before an event of that wave. -/
def beforeEvent (s : State) (c : Ctx) : State := retireOwed c.g.part c.core (owed s c.g.part c.core s.nextId).length s

/-! GABORT, GSTOP and the teardown's steps (R113, R359). -/

/-- GABORT (R359), after the retirements that its core has sent before (R157). -/
def execGabort (x : FE) (s : State) : Answer :=
  issue s fun c =>
    match handleArg c 0x01 x with
    | .error t => .error t
    | .ok _ =>
      let g := (rdSpec c 0 x.a 0).toNat
      let s0 := beforeEvent s c
      let s1 :=
        match getGraph s0 c.g.part g with
        | some gr =>
          if gr.live && (gr.phase == .live || gr.phase == .stopping) then startTear s0 c.g.part g 2 (endMessage s 2 g) else s0
        | none => s0
      .ok (finish s1 c 1)

/-- GSTOP (R359), likewise. -/
def execGstop (x : FE) (s : State) : Answer :=
  issue s fun c =>
    match handleArg c 0x02 x with
    | .error t => .error t
    | .ok _ =>
      let g := (rdSpec c 0 x.a 0).toNat
      let s0 := beforeEvent s c
      let s1 :=
        match getGraph s0 c.g.part g with
        | some gr =>
          if gr.live && gr.phase == .live then
            stopCheck (updGraph s0 c.g.part g (fun x => emptyQueue { x with phase := .stopping })) c.g.part g
          else s0
        | none => s0
      .ok (finish s1 c 1)

/-- Retirements sent by the core whose pass fault began a teardown, before that fault, are still to be performed (R157). -/
def tearOwed (s : State) (part : Nat) (g : Graph) : Bool :=
  match g.tearAt with
  | some (core, n, _) => !(owed s part core n).isEmpty
  | none => false

/-- GRAPH_TEARDOWN: one step of a graph's teardown: its waves are asked to freeze; once they stand still, and no retirement of
R157 is owed, they end. -/
def execGraphTeardown (part g : Nat) (s : State) : Answer :=
  match getGraph s part g with
  | none => .next s
  | some gr =>
    match gr.phase with
    | .teardown _ =>
      let s1 := freezeGraph s part g
      if allStill s1 (graphWave s1 part g) && !tearOwed s1 part gr then .next (finishTear s1 part g (!gr.faultMsg.isEmpty)) else .next s1
    | _ => .next s

end Sys2Proof.Machine
end

