-- ==== Sys2Proof/Machine/Mailbox.lean ====
section
/-! DEFINITION. The timeline and mailbox instructions and their events (16_isa_dash_graph.md R362 to R364, 05_queues.md R99 to
R102). -/

namespace Sys2Proof.Machine

/-! Timelines (R362). -/

/-- A timeline operand, u(B) below 64. -/
def timelineArg (c : Ctx) (x : FE) : Except Trap Unit :=
  firstError [onceVal c x.b true, grfReads c [x.b] [], below c (rdSpec c 0 x.b x.lit).toNat 64]

/-- The timeline an instruction names. -/
def timelineOf (c : Ctx) (x : FE) : Nat := (rdSpec c 0 x.b x.lit).toNat

/-- The value of pair A, held once. -/
def pairOf (c : Ctx) (x : FE) : DWord := rdPair c 0 x.a 0

/-- A timeline write: a release at DEVICE, then the write, then the path goes on. new gives the value from the one held. -/
def timelineWrite (s : State) (x : FE) (new : DWord → DWord → DWord) : Answer :=
  issue s fun c =>
    match firstError [oncePair c x.a, grfReads c [] [x.a], timelineArg c x] with
    | .error t => .error t
    | .ok _ =>
      let t := timelineOf c x
      let s1 := finish (releaseNow s c.w 3) c (grfWords x)
      .ok (tlWrite s1 c.g.part t (new (tlGet (getPart s1 c.g.part) t) (pairOf c x)))

/-- TLSIG. -/
def execTlsig (x : FE) (s : State) : Answer := timelineWrite s x maxU

/-- TLSET. -/
def execTlset (x : FE) (s : State) : Answer := timelineWrite s x (fun _ v => v)

/-- TLRD: D pair := the value; an acquire at DEVICE. -/
def execTlrd (x : FE) (s : State) : Answer :=
  issue s fun c =>
    match firstError [evenS c x.d, timelineArg c x] with
    | .error t => .error t
    | .ok _ =>
      let v := tlGet (getPart s c.g.part) (timelineOf c x)
      .ok (acquire (updWave s c.w (fun w => advance c (grfWords x) (setSPair w (sNum x.d) v))) c.core 3)

/-- TLWAIT: released at once when the value is at least the threshold, else blocked (R161). -/
def execTlwait (x : FE) (s : State) : Answer :=
  issue s fun c =>
    match firstError [sDst c x.d, oncePair c x.a, grfReads c [] [x.a], timelineArg c x] with
    | .error t => .error t
    | .ok _ =>
      let t := timelineOf c x
      if (pairOf c x).toNat ≤ (tlGet (getPart s c.g.part) t).toNat then
        .ok (acquire (completeWith s c (sNum x.d) 0 (grfWords x)) c.core 3)
      else .ok (hold s c (.tlwait t (pairOf c x) (sNum x.d)))

/-! Mailboxes (R363). -/

/-- Operands of MBRECV and MBSEND, who issues it, the mailbox among those allowed, ALIGN, and the window (R221, R363). -/
def mailArg (c : Ctx) (op : Nat) (x : FE) (allowed : List Nat) : Except Trap Unit :=
  let off := (rdSpec c 0 x.a 0).toNat
  let mb := (rdSpec c 0 x.b x.lit).toNat
  firstError [onceVal c x.a false, onceVal c x.b true, pacerOnly c op x, grfReads c [x.a, x.b] [],
    if allowed.contains mb then .ok () else .error (illegalOperand mb c.mask),
    if off % 64 = 0 then .ok () else .error (alignTrap off c.mask),
    if off + 64 ≤ c.g.ent.scratch * 4096 then .ok () else .error (scratchBounds off c.mask)]

/-- The location of a window offset. -/
def winAt (c : Ctx) (off : Nat) : Nat := locScr c.core (c.g.scr * 4096 + off)

/-- Older stores of the wave to bytes that hardware writes now drain first. -/
def drainOver (s : State) (w lo n : Nat) : State :=
  match sqOf s w with
  | some (_, _, sq) =>
    if sq.any (fun e => e.bytes.any (fun b => decide (lo ≤ b.1 ∧ b.1 < lo + n))) then drainAll sq.length s w else s
  | none => s

/-- Dequeue a message for an MBRECV when there is one. Its 64 bytes are whole blocks, from which poison goes (entry 28, DESIGN
CHOICE). -/
def recvTry (s : State) (c : Ctx) (mb off d n : Nat) : Option State :=
  match tabGet [] (getPart s c.g.part).mbox mb with
  | [] => none
  | m :: t =>
    let s1 := updPart s c.g.part (fun p => { p with mbox := tabSet [] p.mbox mb t })
    let s2 := healBytes (memBytes (drainOver s1 c.w (winAt c off) 64) (winAt c off) m) c.core 0
      ((List.range 64).map (winAt c off + ·))
    some (acquire (completeWith s2 c d (BitVec.ofNat 32 t.length) n) c.core 4)

/-- MBRECV. -/
def execMbrecv (x : FE) (s : State) : Answer :=
  issue s fun c =>
    match firstError [sDst c x.d, mailArg c 0x0B x [0, 1, 2, 3, 4, 5, 6, 7, 8, 9, 10, 11, 15]] with
    | .error t => .error t
    | .ok _ =>
      let mb := (rdSpec c 0 x.b x.lit).toNat
      let off := (rdSpec c 0 x.a 0).toNat
      .ok ((recvTry s c mb off (sNum x.d) (grfWords x)).getD (hold s c (.mbrecv mb off (sNum x.d))))

/-- MBRECV_DEQUEUE: a blocked MBRECV takes its mailbox's oldest entry. -/
def execMbrecvDequeue (w : Nat) (pb : Bool) (s : State) : Answer :=
  match ctxAt s w pb with
  | none => .next s
  | some c =>
    match c.path.wait with
    | .mbrecv mb off d => .next ((recvTry s c mb off d (wordsAt c.path)).getD s)
    | _ => .next s

/-- The 64 scratch bytes of an MBSEND. -/
def mailBytes (s : State) (c : Ctx) (off : Nat) : List Byte := bytesAt s c.core 0 (winAt c off) 64

/-- Poison in them is ECC at the instruction, which sends nothing (R97). -/
def mailEcc (s : State) (c : Ctx) (off : Nat) : Option Trap :=
  firstSome (fun i => (poisonAt s [] c.core 0 (winAt c off + i)).map (fun e => eccTrap e.strct (off + i) c.mask)) (List.range 64)

/-- Enqueue on an outbound mailbox; its vector fires in every bound VF when the mailbox was empty (R378). -/
def sendMail (s : State) (part mb : Nat) (m : List Byte) : State :=
  let s1 := mboxPut s part mb [m]
  if (tabGet [] (getPart s part).mbox mb).isEmpty then msixVfs s1 part (mb - 12) else s1

/-- An MBSEND whose mailbox has room reads its bytes, whose single-bit errors are corrected, enqueues them and goes on. -/
def sendRun (s : State) (c : Ctx) (mb off n : Nat) : Except Trap State :=
  match mailEcc s c off with
  | some t => .error t
  | none => .ok (finish (sendMail (fixRange s c.core 0 (winAt c off) 64) c.g.part mb (mailBytes s c off)) c n)

/-- MBSEND: a release at SYSTEM, then the message, when there is room. -/
def execMbsend (x : FE) (s : State) : Answer :=
  issue s fun c =>
    match mailArg c 0x0C x [12, 13, 14] with
    | .error t => .error t
    | .ok _ =>
      let mb := (rdSpec c 0 x.b x.lit).toNat
      let off := (rdSpec c 0 x.a 0).toNat
      let s1 := releaseNow s c.w 4
      if mboxRoom (getPart s1 c.g.part) mb = 0 then .ok (hold s1 c (.mbsend mb off))
      else sendRun s1 c mb off (grfWords x)

/-- MBSEND_ENQUEUE: a stalled MBSEND enqueues once its mailbox has room. -/
def execMbsendEnqueue (w : Nat) (pb : Bool) (s : State) : Answer :=
  match ctxAt s w pb with
  | none => .next s
  | some c =>
    match c.path.wait with
    | .mbsend mb off =>
      if mboxRoom (getPart s c.g.part) mb = 0 then .next s
      else
        match sendRun s c mb off (wordsAt c.path) with
        | .ok t => .next t
        | .error e => .next (takeTrap s w pb e c.path.pc)
    | _ => .next s

/-! The debug mailbox (R102, R364). -/

/-- Append a word; vector 3 fires in every bound VF when the mailbox was empty (R378). -/
def putDebug (s : State) (part : Nat) (w : Word) : State :=
  let s1 := updPart s part (fun p => { p with dbg := p.dbg ++ [w] })
  if (getPart s part).dbg.isEmpty then msixVfs s1 part 3 else s1

/-- DBGSEND. -/
def execDbgsend (x : FE) (s : State) : Answer :=
  issue s fun c =>
    match firstError [onceVal c x.a false, grfReads c [x.a] []] with
    | .error t => .error t
    | .ok _ =>
      let w := rdSpec c 0 x.a 0
      let s1 := releaseNow s c.w 4
      if 64 ≤ (getPart s1 c.g.part).dbg.length then .ok (hold s1 c (.dbgsend w)) else .ok (finish (putDebug s1 c.g.part w) c 1)

/-- DBGSEND_APPEND: a stalled DBGSEND appends its word once there is room. -/
def execDbgsendAppend (w : Nat) (pb : Bool) (s : State) : Answer :=
  match ctxAt s w pb with
  | none => .next s
  | some c =>
    match c.path.wait with
    | .dbgsend x => if 64 ≤ (getPart s c.g.part).dbg.length then .next s else .next (finish (putDebug s c.g.part x) c 1)
    | _ => .next s

end Sys2Proof.Machine
end

