-- ==== Sys2Proof/Machine/HostPort.lean ====
section
/-! DEFINITION. The host port: registers, VF windows, BAR2, TLB invalidation, and the partition commands
(21_host_and_system.md R371 to R380). While the link is down no host access arrives (R382). -/

namespace Sys2Proof.Machine

/-! Partitions and VFs. -/

/-- The partition that a VF is bound to. -/
def partOfVf (s : State) (vf : Nat) : Option Nat :=
  if 128 ≤ vf then none
  else (List.range 20).find? (fun n => (boundVfs (getPart s n)).contains vf)

/-- A host access by a VF's window: nothing happens while the link is down or the VF is unbound (R371). -/
def byVf (s : State) (vf : Nat) (f : Nat → State) : Answer :=
  if s.dev.linkUp then
    match partOfVf s vf with
    | some n => .next (f n)
    | none => .next s
  else .next s

def putDev (s : State) (f : Dev → Dev) : State := { s with dev := f s.dev }

/-! Registers without behaviour of their own (R371, R372, R384). -/

/-- The partition block as a write of one of its registers leaves it; only while STATE = 0. -/
def blockWrite (p : Part) (off : Nat) (v : DWord) : Part :=
  if p.state != .free || p.ending != .none then p
  else
    match off with
    | 0x10 => { p with clmask := v }
    | 0x18 => { p with hwsh := v }
    | 0x20 => { p with gdsh := v }
    | 0x28 => { p with ptroot := v &&& ~~~0x1FFF#64 }
    | 0x30 => { p with ktabBlk := v &&& 0x01FFFFFFFFFFFFFF#64 }
    | 0x38 => { p with allot := v &&& 0x3FF#64 }
    | 0x40 => { p with vf0 := v }
    | 0x48 => { p with vf1 := v }
    | _ => p

/-- Bytes into a table of bytes, at an offset. -/
def putBytes (t : Tab Byte) (off : Nat) (l : List Byte) : Tab Byte :=
  (l.zipIdx).foldl (fun t e => tabSet 0 t (off + e.2) e.1) t

/-- REGISTER_WRITE: an aligned 8-byte write of the PF's partition blocks or ATTNONCE; function 0 is the PF. -/
def execRegisterWrite (fn off : Nat) (v : DWord) (s : State) : Answer :=
  if !s.dev.linkUp || fn != 0 || off % 8 != 0 then .next s
  else if 0x10000 ≤ off && off < 0x10000 + 0x100 * 20 then
    .next (updPart s ((off - 0x10000) / 0x100) (fun p => blockWrite p (off % 0x100) v))
  else if 0x200 ≤ off && off < 0x220 then
    .next (putDev s (fun d => { d with attnonce := putBytes d.attnonce (off - 0x200) (bytesOf 8 v.toNat) }))
  else .next s

/-! VF windows (R377). -/

/-- Key of a staging byte. -/
def stageKey (vf m i : Nat) : Nat := vf * 768 + m * 64 + i

/-- Commit the 64 staging bytes of a VF to an inbound mailbox, or count a drop. -/
def commitMail (s : State) (vf m part : Nat) : State :=
  if mboxRoom (getPart s part) m = 0 then updPart s part (fun p => { p with mbdrop := Nat.min 4294967295 (p.mbdrop + 1) })
  else mboxPut s part m [(List.range 64).map (fun i => tabGet 0 s.dev.staging (stageKey vf m i))]

/-- MBIN: bytes from an offset of the staging window of mailbox m; a write with byte 63 commits. -/
def execMbin (vf m off : Nat) (data : List Byte) (s : State) : Answer :=
  byVf s vf fun part =>
    if 12 ≤ m then s
    else
      let mine := data.take (64 - off)
      let s1 := putDev s (fun d => { d with staging := putBytes d.staging (stageKey vf m off) mine })
      if !mine.isEmpty && off + mine.length = 64 then commitMail s1 vf m part else s1

/-- MBPOP: the head of outbound mailbox 12, 13 or 14 leaves. -/
def execMbpop (vf : Nat) (v : DWord) (s : State) : Answer :=
  byVf s vf fun part =>
    if 12 ≤ v.toNat && v.toNat ≤ 14 then
      updPart s part (fun p => { p with mbox := tabSet [] p.mbox v.toNat (tabGet [] p.mbox v.toNat).tail })
    else s

/-- What a read returns to the host. -/
def toHost (s : State) (l : List Byte) : State := putDev s (fun d => { d with hostData := l })

/-- A read of DBGDATA of a partition: the oldest debug word with VALID, which it dequeues. -/
def readDebug (s : State) (part : Nat) : State :=
  match (getPart s part).dbg with
  | [] => toHost s (bytesOf 8 0)
  | w :: t => toHost (updPart s part (fun p => { p with dbg := t })) (bytesOf 8 (2 ^ 63 + w.toNat))

/-- DBGDATA: a read returns the oldest debug word with VALID, and dequeues it. -/
def execDbgdata (vf : Nat) (s : State) : Answer :=
  if !s.dev.linkUp then .next s
  else
    match partOfVf s vf with
    | none => .next (toHost s (bytesOf 8 0))
    | some part => .next (readDebug s part)

/-- TLBINV: a write of 1 starts or extends an invalidation (R380). -/
def execTlbinv (vf : Nat) (v : DWord) (s : State) : Answer :=
  byVf s vf fun part => if v = 1 then updPart s part (fun p => { p with tlbinv := true }) else s

/-- The TLBs lose every entry of a partition. -/
def dropTlbs (s : State) (part : Nat) : State :=
  { s with tlbs := s.tlbs.filterMap (fun e =>
      let t := e.2.filter (fun x => x.1 / 2 ^ 40 != part)
      if t.isEmpty then none else some (e.1, t)) }

/-- TLBINV_COMPLETE. -/
def execTlbinvComplete (part : Nat) (s : State) : Answer :=
  if (getPart s part).tlbinv then .next (updPart (dropTlbs s part) part (fun p => { p with tlbinv := false })) else .next s

/-! BAR2 (R379). -/

/-- The GDDR7 byte at a BAR2 address of a partition: its shares in ascending order. -/
def bar2Loc (p : Part) (a : Nat) : Option Nat := ((setBits p.gdsh)[a / 2 ^ 30]?).map (fun sh => sh * 2 ^ 30 + a % 2 ^ 30)

/-- HOST_BAR2_WRITE: bytes into the SYSTEM view of the shares; VF number 128 stands for the PF's 64 MiB window of R384. -/
def execHostBar2Write (vf addr : Nat) (data : List Byte) (s : State) : Answer :=
  if vf = 128 then
    if s.dev.linkUp then
      .next (putDev s (fun d => { d with window := putBytes d.window addr (data.take (2 ^ 26 - addr)) }))
    else .next s
  else
    byVf s vf fun part =>
      let l := (data.zipIdx).filterMap (fun (e : Byte × Nat) => (bar2Loc (getPart s part) (addr + e.2)).map (fun a => (a, e.1)))
      healBytes (l.foldl (fun s e => hostWriteByte s e.1 e.2) s) 0 4 (l.map (·.1))

/-- HOST_BAR2_READ: bytes as the SYSTEM view holds them, single-bit errors of GDDR7 corrected and counted (R97, R387); zero
for an unbound VF; VF number 128 stands for the PF's window (entry 36). -/
def execHostBar2Read (vf addr n : Nat) (s : State) : Answer :=
  if !s.dev.linkUp then .next s
  else if vf = 128 then
    .next (toHost s ((List.range n).map (fun i => if addr + i < 2 ^ 26 then tabGet 0 s.dev.window (addr + i) else 0)))
  else
    match partOfVf s vf with
    | none => .next (toHost s (List.replicate n 0))
    | some part =>
      let locs := (List.range n).map (fun i => bar2Loc (getPart s part) (addr + i))
      .next (toHost (fixErrs s (fun e => e.strct = 0 && locs.any (fun l => (l.map (· / 8)) == some (e.loc / 8))))
        (locs.map (fun l => (l.map (memByte s.mem)).getD 0)))

/-! Partition commands (R373 to R375). -/

/-- Partitions other than n that hold resources. -/
def otherParts (s : State) (n : Nat) : List Part :=
  ((List.range 20).filter (· != n)).filterMap (fun k => if (getPart s k).state = .free then none else some (getPart s k))

/-- The first check of R373 that fails. -/
def createErr (s : State) (n : Nat) : Option Nat :=
  let p := getPart s n
  let o := otherParts s n
  if p.state != .free then some 1
  else if (setBits p.clmask).length < 2 || o.any (fun x => x.clmask &&& p.clmask != 0) then some 2
  else if p.hwsh = 0 || o.any (fun x => x.hwsh &&& p.hwsh != 0) then some 3
  else if p.gdsh = 0 || o.any (fun x => x.gdsh &&& p.gdsh != 0) then some 4
  else if p.allot = 0 || 560 < (o.map (·.allot.toNat)).sum + p.allot.toNat then some 5
  else if o.any (fun x => x.vf0 &&& p.vf0 != 0 || x.vf1 &&& p.vf1 != 0) then some 6
  else none

/-- A refused command. -/
def refuseCmd (s : State) (n err : Nat) : State := updPart s n (fun p => { p with err := err })

/-- The block of a partition with everything else as a partition without an owner has it. -/
def bareBlock (p : Part) : Part :=
  { Part.init with err := p.err, clmask := p.clmask, hwsh := p.hwsh, gdsh := p.gdsh, ptroot := p.ptroot, ktabBlk := p.ktabBlk,
                   allot := p.allot, vf0 := p.vf0, vf1 := p.vf1 }

/-- The member cores' scratchpads are zeroed. -/
def zeroPads (s : State) (p : Part) : State :=
  (maskCores p.clmask).foldl (fun s c => zeroRange s (locScr c 0) (locScr (c + 1) 0)) s

/-- The shares are zeroed in every view. -/
def zeroShares (s : State) (p : Part) : State :=
  (setBits p.gdsh).foldl (fun s sh => zeroRange s (sh * 2 ^ 30) ((sh + 1) * 2 ^ 30)) s

/-- Steps 1 to 4 of a creation, but for the GDDR7 shares. -/
def makePart (s : State) (n : Nat) : State :=
  let p := getPart s n
  msix (setPart (dropTlbs (zeroPads s p) n) n
    { bareBlock p with state := .noPacer, pacerGone := true, budgetAt := s.dev.time / us10 }) 0 3

/-- A command acts: the link is up, the partition number exists, and no destruction is under way. -/
def command (s : State) (n : Nat) (f : State) : Answer :=
  if s.dev.linkUp && decide (n < 20) && (getPart s n).ending == .none && s.dev.stat == .ready then .next f else .next s

/-- PCMD_CREATE. -/
def execPcmdCreate (n : Nat) (s : State) : Answer :=
  command s n
    (match createErr s n with
     | some e => refuseCmd s n e
     | none => makePart (zeroShares s (getPart s n)) n)

/-- A byte of a table as firmware's own walk reads it (R122). -/
def fwByte (s : State) (part va : Nat) : Option Byte :=
  match applyEntry (getPart s part) part (walkEntry (walk s part va)) 0 va with
  | .ok loc => some ((devBytes s loc 1).headD 0)
  | .sparse => some 0
  | .fault => none

/-- n doublewords so read. -/
def fwDwords (s : State) (part va n : Nat) : Option (List DWord) :=
  let l := (List.range (8 * n)).map (fun i => fwByte s part (va + i))
  if l.all (·.isSome) then
    some ((List.range n).map (fun i => BitVec.ofNat 64 (natOfBytes (((l.drop (8 * i)).take 8).map (fun b => b.getD 0)))))
  else none

/-- Kernel-table entry 0 of the block's KTAB, when a pacer can start from it (R99, R374). -/
def pacerEnt (s : State) (n : Nat) : Option KEnt :=
  let k := (getPart s n).ktabBlk
  if ktabCount k = 0 then none
  else
    match fwDwords s n (ktabBase k) 8 with
    | none => none
    | some q => if kentBad q || (parseKEnt q).widthCode != 0 || (parseKEnt q).waves != 1 then none else some (parseKEnt q)

/-- Start the pacer: KTAB is installed and entry 0 is placed (R19, R374). Without room on its core nothing happens yet. -/
def startPacer (s : State) (n : Nat) : State :=
  match pacerEnt s n with
  | none => refuseCmd s n 7
  | some e =>
    let p := getPart s n
    let core := pacerCore p
    match fits s n core e true with
    | none => s
    | some (slots, scr) =>
      placeWg (setPart s n { p with state := .running, ktab := p.ktabBlk, pacerGone := false }) n core .pacer e
        (ktabBase p.ktabBlk) 0 0 0 0 core 0 0 slots scr

/-- PCMD_START_PACER. -/
def execPcmdStartPacer (n : Nat) (s : State) : Answer :=
  command s n (if (getPart s n).state = .noPacer then startPacer s n else refuseCmd s n 1)

/-- A wave of a partition. -/
def partWave (s : State) (n : Nat) (v : Wave) : Bool := ((getWg s v.wg).map (·.part)) == some n

/-- Every wave of a partition is asked to freeze. -/
def freezePart (s : State) (n : Nat) : State :=
  { s with waves := s.waves.map (fun e => if partWave s n e.2 then (e.1, { e.2 with freezing := true }) else e) }

/-- The children of a partition leave the spawn queues. -/
def dropChildren (s : State) (n : Nat) : State :=
  { s with cores := s.cores.filterMap (fun e =>
      let c := { e.2 with spawnq := e.2.spawnq.filter (fun ch => ch.part != n) }
      if c = Core.init then none else some (e.1, c)) }

/-- A destruction or reset begins: graphs are torn down without an event, saved state is discarded. -/
def beginEnd (s : State) (n : Nat) (e : Ending) : State :=
  updPart (dropChildren (freezePart s n) n) n (fun p =>
    { p with ending := e, evicted := [], events := [],
             graphs := p.graphs.map (fun g =>
               (g.1, match g.2.phase with
                     | .completed => g.2
                     | .torn => g.2
                     | _ => emptyQueue { g.2 with phase := .teardown 0, faultMsg := [], tearAt := none })) })

/-- Every wave stands still: they end, dirty lines are written back, and the block is bare again. -/
def finishEnd (s : State) (n : Nat) : State :=
  let p := getPart s n
  let s1 := drainOrphans (endWaves s (fun s v => partWave s n v)) (fun o => o.part = n)
  let s2 := (maskCores p.clmask).foldl (fun s c => propPath s c 4) s1
  let s3 := setPart s2 n (bareBlock p)
  match p.ending with
  | .reset => startPacer (makePart s3 n) n
  | _ => s3

/-- A destruction or reset goes on: it ends once every wave of the partition stands still. -/
def goOnEnding (s : State) (n : Nat) : State := if allStill s (partWave s n) then finishEnd s n else s

/-- Destroy and partition reset. -/
def endPart (s : State) (n : Nat) (e : Ending) : Answer :=
  if (getPart s n).ending = e then .next (goOnEnding s n)
  else
    command s n
      (match (getPart s n).state with
       | .running => goOnEnding (beginEnd s n e) n
       | .noPacer => goOnEnding (beginEnd s n e) n
       | .evicted => goOnEnding (beginEnd s n e) n
       | _ => refuseCmd s n 1)

/-- PCMD_DESTROY: the command, and, while it is under way, its next step. -/
def execPcmdDestroy (n : Nat) (s : State) : Answer := endPart s n .destroy

/-- PCMD_PARTITION_RESET: the command, and, while it is under way, its next step. -/
def execPcmdPartitionReset (n : Nat) (s : State) : Answer := endPart s n .reset

/-- PCMD_PREEMPT (R375). -/
def execPcmdPreempt (n : Nat) (s : State) : Answer :=
  command s n
    (match (getPart s n).state with
     | .running => evictCheck (freezePart (updPart s n (fun p => { p with state := .preempting })) n) n
     | .noPacer => evictCheck (freezePart (updPart s n (fun p => { p with state := .preempting })) n) n
     | _ => refuseCmd s n 1)

/-- The time since lo, when a partition was evicted, up to now does not count for its queued passes; of a pass that entered the
queue meanwhile, the time since it entered (R108, R375). -/
def shiftQueue (lo now : Nat) (g : Graph) : Graph :=
  { g with passes := g.passes.map (fun ps => { ps with queued := ps.queued.map (fun q => q + (now - Nat.max q lo)) }) }

/-- The pacer of a partition has ended, or has halted and waits for its engine work. -/
def pacerOut (s : State) (n : Nat) : Bool :=
  (getPart s n).pacerGone || s.waves.any (fun e => e.2.halted &&
    ((getWg s e.2.wg).map (fun g => g.part = n && isPacerWg g.kind)).getD false)

/-- PCMD_RESUME (R375): STATE 1, or 2 when the pacer ended or halted during the save phase. -/
def execPcmdResume (n : Nat) (s : State) : Answer :=
  command s n
    (let p := getPart s n
     if p.state != .evicted then refuseCmd s n 1
     else
       let out := pacerOut s n
       let s1 := setPart s n { p with state := if out then .noPacer else .running, pacerGone := out, evictedAt := none,
                                      graphs := p.graphs.map (fun g => (g.1, shiftQueue (p.evictedAt.getD s.dev.time) s.dev.time g.2)) }
       if out then msix s1 0 3 else s1)

/-! Register reads (R6, R371). The opcode table has no row for them; Move.read makes one. -/

/-- PSTAT.STATE (R372). -/
def stateCode : PState → Nat
  | .free => 0
  | .running => 1
  | .noPacer => 2
  | .preempting => 3
  | .evicted => 4

/-- PSTAT. -/
def pstat (p : Part) : DWord := BitVec.ofNat 64 (stateCode p.state + p.err % 256 * 256)

/-- A register of a partition's block (R372); PCMD is written only. -/
def blockRead (p : Part) (off : Nat) : DWord :=
  match off with
  | 0x08 => pstat p
  | 0x10 => p.clmask
  | 0x18 => p.hwsh
  | 0x20 => p.gdsh
  | 0x28 => p.ptroot
  | 0x30 => p.ktabBlk
  | 0x38 => p.allot
  | 0x40 => p.vf0
  | 0x48 => p.vf1
  | _ => 0

/-- DEVSTAT.STATE (R384). -/
def devCode : DevState → Nat
  | .boot => 0
  | .ready => 1
  | .recovery => 2
  | .fatal => 3

/-- Eight bytes of a table of bytes. -/
def tabWord (t : Tab Byte) (off : Nat) : DWord :=
  BitVec.ofNat 64 (natOfBytes ((List.range 8).map (fun i => tabGet 0 t (off + i))))

/-- A register of the PF (R372, R384, R387); those written only read zero. -/
def pfRead (s : State) (off : Nat) : DWord :=
  if 0x10000 ≤ off && off < 0x10000 + 0x100 * 20 then blockRead (getPart s ((off - 0x10000) / 0x100)) (off % 0x100)
  else if 0x400 ≤ off && off < 0x500 then tabWord s.dev.attrep (off - 0x400)
  else
    match off with
    | 0x0000 => 0x9240
    | 0x0008 => BitVec.ofNat 64 (devCode s.dev.stat)
    | 0x0100 => BitVec.ofNat 64 s.dev.errgd
    | 0x0108 => BitVec.ofNat 64 s.dev.errhw
    | 0x0110 => BitVec.ofNat 64 s.dev.errsp
    | 0x0118 => BitVec.ofNat 64 s.dev.errpar
    | 0x0120 => s.dev.errue
    | _ => 0

/-- A register of a VF's window on a partition, DBGDATA aside (R377). -/
def vfRead (p : Part) (n off : Nat) : DWord :=
  if 0x400 ≤ off && off < 0x4C0 then
    match tabGet [] p.mbox (12 + (off - 0x400) / 64) with
    | m :: _ => BitVec.ofNat 64 (natOfBytes ((m.drop (off % 64)).take 8))
    | [] => 0
  else
    let cnt (m : Nat) : Nat := (tabGet [] p.mbox m).length
    match off with
    | 0x500 => BitVec.ofNat 64 (cnt 12 + cnt 13 * 256 + cnt 14 * 65536)
    | 0x510 => BitVec.ofNat 64 p.mbdrop
    | 0x520 => if p.tlbinv then 1 else 0
    | 0x528 => BitVec.ofNat 64 (n + stateCode p.state * 256)
    | _ => 0

/-- A host read of n bytes at an offset of BAR0; function 0 is the PF, v + 1 is VF v. It returns zero for any size or
alignment but an aligned doubleword, and for a VF that no partition binds. -/
def hostRead (s : State) (fn off n : Nat) : State :=
  if !s.dev.linkUp then s
  else if n != 8 || off % 8 != 0 then toHost s (List.replicate n 0)
  else if fn = 0 then toHost s (bytesOf 8 (pfRead s off).toNat)
  else
    match partOfVf s (fn - 1) with
    | none => toHost s (bytesOf 8 0)
    | some part => if off = 0x518 then readDebug s part else toHost s (bytesOf 8 (vfRead (getPart s part) part off).toNat)

end Sys2Proof.Machine
end

