-- ==== Sys2Proof/Machine/Reord.lean ====
section
/-! DEFINITION. REORD's collections: closing by time, and repacking (02_execution.md R33 to R35, 03_registers.md R72). -/

namespace Sys2Proof.Machine

/-- The number of a parked wave's closed collection, 0 while it is open; none when it is not parked. -/
def setOf (v : Wave) : Option Nat := match v.base.wait with | .reord _ _ n => some n | _ => none

/-- Waves of the open collection at an address. -/
def openAt (s : State) (wg pc : Nat) : List (Nat × Wave) :=
  (runningWaves s wg).filter (fun e => setOf e.2 == some 0 && e.2.base.pc = pc)

/-- REORD_TIMEOUT: the open collection that wave slot i of the workgroup is parked in closes 256 cycles after its first wave
parked. Where that wave has left the open collection by a pending trap, R33 does not say from which wave the cycles then run:
the model counts them from the earliest of the waves still parked in it (entry 62, DESIGN CHOICE). -/
def execReordTimeout (wg i : Nat) (s : State) : Answer :=
  match getWave s i with
  | none => .next s
  | some v =>
    let l := openAt s wg v.base.pc
    if l.any (fun e => e.1 = i) && l.any (fun e => decide (e.2.parkedAt + 256 ≤ s.dev.cycle)) then
      .next { l.foldl (fun s e => updWave s e.1 (markSet s.nextId)) s with nextId := s.nextId + 1 }
    else .next s

/-! Repacking. -/

/-- A thread on its way: source wave slot, position, the thread, its RESMASK bit, its key. -/
structure Mover where
  src : Nat
  pos : Nat
  t : Thread
  res : Bool
  key : Nat
  deriving DecidableEq, Repr

/-- Key of a thread (R33). -/
def reordKey (s : State) (w : Nat) (v : Wave) (q : Nat) : Nat :=
  match v.base.wait, getWg s v.wg with
  | .reord k key _, some g =>
    (rdSpec { w := w, wave := v, g := g, pb := false, path := v.base, mask := liveMask v } q (BitVec.ofNat 7 key) 0).toNat % 2 ^ k
  | _, _ => 0

/-- L of R34 sorted by key. -/
def movers (s : State) (p : List (Nat × Wave)) : List Mover :=
  sortBy (·.key) (p.flatMap (fun e =>
    (List.range e.2.threads.length).filterMap (fun q =>
      match threadAt e.2 q with
      | some t => if t.live then some ⟨e.1, q, t, e.2.csr.resmask.getLsbD q, reordKey s e.1 e.2 q⟩ else none
      | none => none)))

/-- A v register that every participant holds UNIFORM with one value (R35). -/
def uniformAll (p : List (Nat × Wave)) (l : List Mover) (r : Nat) : Bool :=
  p.all (fun e => formOf e.2 r == some .uniform) &&
    (match l with
     | [] => false
     | m :: t => (tabGet? m.t.v r).isSome && t.all (fun x => tabGet? x.t.v r == tabGet? m.t.v r))

/-- The CSRs that a resulting wave takes from the source wave of its first thread, and RESMASK (R35, R72). -/
def movedCsrs (own src : Csrs) (res : Mask) : Csrs :=
  { own with wstat := src.wstat, wctl := src.wctl, brtab := src.brtab, whtab := src.whtab, smtab := src.smtab, tvec := src.tvec,
             privb := src.privb, tscr0 := src.tscr0, tscr1 := src.tscr1, tscr2 := src.tscr2, tscr3 := src.tscr3,
             watch0a := src.watch0a, watch0c := src.watch0c, watch1a := src.watch1a, watch1c := src.watch1c, resmask := res }

/-- A position without a thread. -/
def noThread : Thread := { tid := 0, live := false, v := [], p := 0, bad := [] }

/-- RESMASK of a participant after the move: the positions of the threads that had their bit set. -/
def resBits (mine : List Mover) : Mask :=
  maskOf ((mine.zipIdx).filterMap (fun (e : Mover × Nat) => if e.1.res then some e.2 else none))

/-- The source wave of the first thread that a participant takes. -/
def sourceWave (p : List (Nat × Wave)) (mine : List Mover) (v : Wave) : Wave :=
  match mine with
  | [] => v
  | m :: _ => tabGet v (sortBy (fun (e : Nat × Wave) => e.1) p) m.src

/-- A participant after the move: it resumes at the word after the REORD. Whether a GTH wait has ordered WSTAT.HFAULT goes with
WSTAT (R367). -/
def repacked (p : List (Nat × Wave)) (all mine : List Mover) (v : Wave) : Wave :=
  let src := sourceWave p mine v
  let width := v.threads.length
  let forms := (List.range 64).filterMap (fun r => if uniformAll p all r then some (r, Form.uniform) else none)
  let v1 : Wave := { leavePark v with
    threads := mine.map (·.t) ++ List.replicate (width - mine.length) noThread, s := src.s, sbad := src.sbad, forms := forms,
    csr := movedCsrs v.csr src.csr (resBits mine),
    hfOpen := src.hfOpen, base := { stepPath v.base 1 with mask := maskOf (List.range width) } }
  stepPend (stepArmed v) false v1

/-- Deal movers out to participants in ascending wave number. -/
def deal (p : List (Nat × Wave)) (all : List Mover) : List (Nat × Wave) → List Mover → State → State
  | [], _, s => s
  | (w, v) :: t, l, s =>
    let n := v.threads.length
    deal p all t (l.drop n) (endIfDone (setWave s w (repacked p all (l.take n) v)) w)

/-- REORD_REPACK: closed collection i of the workgroup, once every participant's counters are zero; a collection of which a
wave is to freeze waits, and starts afresh (R43). A participant that a pending fault has taken out of the collection is not
waited for, and the others are repacked without it (entry 62, DESIGN CHOICE). -/
def execReordRepack (wg i : Nat) (s : State) : Answer :=
  let p := (runningWaves s wg).filter (fun e => i != 0 && setOf e.2 == some i)
  if !p.isEmpty && p.all (fun e => countersZero e.2 && !e.2.freezing) then .next (deal p (movers s p) p (movers s p) s) else .next s

end Sys2Proof.Machine
end

