-- ==== Sys2Proof/Machine/System.lean ====
section
/-! DEFINITION. The device outside the cores: boot, firmware, attestation, the error log and soft errors, the link, clocks and
reset (21_host_and_system.md R381 to R388, 04_memories.md R97). -/

namespace Sys2Proof.Machine

/-! Boot and firmware (R384). -/

/-- DEVSTAT.STATE changes, and vector 1 of the PF fires (R378). -/
def setStatus (s : State) (x : DevState) : State := msix (putDev s (fun d => { d with stat := x })) 0 1

/-- The ROM boots the image in the flash, or waits in recovery. -/
def bootRom (s : State) : State :=
  if s.dev.stat = .boot then
    if Config.imageValid s.dev.flash then setStatus (putDev s (fun d => { d with running := d.flash })) .ready
    else setStatus s .recovery
  else s

/-- FWCMD_RECOVERY: in recovery the image in the window is verified, stored and booted. -/
def execFwcmdRecovery (s : State) : Answer :=
  if s.dev.linkUp && s.dev.stat == .recovery && Config.imageValid s.dev.window then
    .next (setStatus (putDev s (fun d => { d with flash := d.window, running := d.window })) .ready)
  else .next s

/-- FWCMD_UPDATE: the image in the window is verified and stored; it runs from the next device reset on. -/
def execFwcmdUpdate (s : State) : Answer :=
  if s.dev.linkUp && (s.dev.stat == .ready || s.dev.stat == .recovery) && Config.imageValid s.dev.window then
    .next (putDev s (fun d => { d with flash := d.window }))
  else .next s

/-! Attestation (R385). -/

/-- ATTGO: a report begins with the nonce as it stands. -/
def execAttgo (s : State) : Answer :=
  if s.dev.linkUp && s.dev.stat == .ready && !s.dev.attBusy then
    .next (putDev s (fun d => { d with attBusy := true, attUse := d.attnonce }))
  else .next s

/-- The partition table: the registers of every block, with the states (R372). -/
def partTable (s : State) : List DWord :=
  (List.range 20).flatMap (fun n =>
    let p := getPart s n
    [pstat p, p.clmask, p.hwsh, p.gdsh, p.ptroot, p.ktabBlk, p.allot, p.vf0, p.vf1])

/-- The 256 bytes of a report. The digests are functions of the running image and of the partition table; the signature is a
free value. -/
def report (s : State) : List Byte :=
  bytesOf 4 1 ++ bytesOf 4 0x9240 ++ (List.range 48).map (Config.imageDigest s.dev.running) ++
    (List.range 48).map (Config.tableDigest (partTable s)) ++ (List.range 32).map (fun i => tabGet 0 s.dev.attUse i) ++
    bytesOf 8 (timeNs s) ++ (List.range 96).map (Config.signature s.fresh) ++ bytesOf 16 0

/-- ATTEST_REPORT_READY. -/
def execAttestReportReady (s : State) : Answer :=
  if s.dev.attBusy then
    .next (msix { s with fresh := s.fresh + 1, dev := { s.dev with attBusy := false, attrep := putBytes [] 0 (report s) } } 0 2)
  else .next s

/-! The error log and soft errors (R97, R387). -/

/-- A write of an error counter by the host. -/
def clearCount (s : State) (f : Dev → Dev) : Answer := if s.dev.linkUp then .next (putDev s f) else .next s

/-- ERRGD. -/
def execErrgd (s : State) : Answer := clearCount s (fun d => { d with errgd := 0 })
/-- ERRHW. -/
def execErrhw (s : State) : Answer := clearCount s (fun d => { d with errhw := 0 })
/-- ERRSP. -/
def execErrsp (s : State) : Answer := clearCount s (fun d => { d with errsp := 0 })
/-- ERRPAR. -/
def execErrpar (s : State) : Answer := clearCount s (fun d => { d with errpar := 0 })

/-- PATROL_SCRUB: the scrubber reads the Heartwood line or the GDDR7 block of a location: single-bit errors are corrected
and counted, an uncorrectable one stays poisoned and is logged. -/
def execPatrolScrub (hw : Bool) (loc : Nat) (s : State) : Answer :=
  let size := if hw then 128 else 8
  let code := if hw then 1 else 0
  let here (e : SErr) : Bool := e.strct = code && e.loc / size = loc / size
  let s1 := fixErrs s here
  match s.dev.serr.find? (fun e => here e && !e.single) with
  | some e => .next (putErrue s1 (BitVec.ofNat 64 (code * 2 ^ 60 + e.loc % 2 ^ 57)))
  | none => .next s1

/-- A byte of stored data becomes a free value: the bits that a view holds of it, or the store's. -/
def strikeByte (view : Nat) (s : State) (loc : Nat) : State :=
  let b := Config.freeByte s.fresh
  let s1 := { s with fresh := s.fresh + 1 }
  if view = storeView then { s1 with mem := memPut s.mem loc b }
  else
    let c := cellAt s view loc
    putCell s1 view loc { c with val := b &&& c.has }

/-- Where Heartwood holds a block: cached in the views above L1, and for a ring or device scratch in the store itself. -/
def heartwoodOf (s : State) (blk : Nat) : List Nat :=
  (s.views.map (·.1)).filter (fun u => decide (256 ≤ u) && holdsBlock s u blk) ++ (if 2 ^ 62 ≤ 8 * blk then [storeView] else [])

/-- The copies of blocks that an uncorrectable error at a location poisons: its 64 bits, or the copies of its line in
Heartwood (R97). -/
def struckBlocks (s : State) (strct loc : Nat) : List (Nat × Nat) :=
  if strct = 1 then (List.range 16).flatMap (fun i => (heartwoodOf s (loc / 128 * 16 + i)).map (fun u => (u, loc / 128 * 16 + i)))
  else [(storeView, loc / 8)]

/-- An uncorrectable error strikes a location: the bytes of the struck blocks are free values, and the blocks are
poisoned. -/
def strike (s : State) (strct loc : Nat) : State :=
  let l := struckBlocks s strct loc
  let s1 := l.foldl (fun s e => (blockLocs e.2).foldl (strikeByte e.1) s) s
  { s1 with dev := { s1.dev with serr := s1.dev.serr ++ l.map (fun e => ⟨strct, 8 * e.2, false, e.1⟩) } }

/-- SOFT_ERROR: structures 0 GDDR7, 1 Heartwood, 2 scratchpad (a location), 3 register file ((slot * 64 + position) * 128
+ specifier), 4 tile (workgroup * 8192 + tile * 1024 + word), 5 L1, instruction cache or TLB. -/
def execSoftError (strct loc : Nat) (single : Bool) (s : State) : Answer :=
  match strct with
  | 3 =>
    let r := loc % 128
    .next (updWave s (loc / 8192) (fun v =>
      if r < 0x40 then { v with threads := listMod v.threads (loc / 128 % 64) (fun t => { t with bad := (r :: t.bad).eraseDups }) }
      else if r < 0x60 then { v with sbad := ((r - 0x40) :: v.sbad).eraseDups } else v))
  | 4 => .next (updWg s (loc / 8192) (fun g => { g with tbad := (loc % 8192 :: g.tbad).eraseDups }))
  | 5 => .next (countFix s 5)
  | _ =>
    if 2 < strct then .next s
    else if single then .next (putDev s (fun d => { d with serr := d.serr ++ [⟨strct, loc, true, storeView⟩] }))
    else .next (strike s strct loc)

/-! The links (R381 to R383). -/

/-- Waves of a graph freeze at once where they stand at a boundary (R381). -/
def freezeNow (s : State) (part g : Nat) : State :=
  (freezeGraph s part g).waves.foldl (fun s e =>
    if graphWave s part g e.2 && canFreeze e.2 && !e.2.halted && !e.2.frozen then freezeWave s e.1 e.2 false else s) (freezeGraph s part g)

/-- An SQ entry is an atomic on a HOST page. -/
def hostAtom (e : SqEntry) : Bool := isAtomEntry e && e.bytes.any (fun b => isHostLoc b.1)

/-- The HOST atomics of SQ w complete, oldest first: all ones, with PCIE_LOST pending. fuel is the SQ's length. -/
def loseAtoms : Nat → State → Nat → State
  | 0, s, _ => s
  | n + 1, s, w =>
    match sqOf s w with
    | none => s
    | some (_, _, sq) =>
      match sq.findIdx? hostAtom with
      | none => s
      | some i => loseAtoms n (performEntry s w i) w

/-- HOST bytes of a store that have not been sent are dropped. -/
def dropHostBytes (e : SqEntry) : SqEntry :=
  if isAtomEntry e then e else { e with bytes := e.bytes.filter (fun b => !isHostLoc b.1) }

/-- Step 1 of R381 on the SQ numbered w, the link being down. -/
def loseSq (s : State) (w : Nat) : State :=
  match sqOf s w with
  | none => s
  | some (_, _, sq) =>
    let s1 := loseAtoms sq.length s w
    match sqOf s1 w with
    | some (_, _, q) => putSq s1 w (q.map dropHostBytes)
    | none => s1

/-- Step 1 of R381: what the store queues hold for HOST pages is answered with all ones, or dropped. Operations under way
read the host at their completion, which finds the link down. -/
def loseHost (s : State) : State := (s.waves.map (·.1) ++ s.orph.map (·.1)).foldl loseSq s

/-- Host loss of one graph: the teardown with a KIND 3 event. -/
def loseGraph (part g : Nat) (s : State) : State := freezeNow (startTear s part g 3 (endMessage s 3 g)) part g

/-- Graphs of a partition that are marked as touching the host and still run. -/
def markedGraphs (p : Part) : List Nat :=
  p.graphs.filterMap (fun e => if e.2.live && e.2.host && (e.2.phase == .live || e.2.phase == .stopping) then some e.1 else none)

/-- LINK_DOWN (R381). -/
def execLinkDown (s : State) : Answer :=
  if s.dev.linkUp then
    .next ((s.parts.flatMap (fun e => (markedGraphs e.2).map (fun g => (e.1, g)))).foldl (fun s e => loseGraph e.1 e.2 s)
      (loseHost (putDev s (fun d => { d with linkUp := false }))))
  else .next s

/-- A message that waits for mailbox 15 is a RESREQ's, not an event of Canopy. -/
def isResMsg (e : EvSrc × List Byte) : Bool := match e.1 with | .resreq _ => true | .graph _ => false

/-- A partition after re-enumeration: queues empty, and the slots of graphs whose events are discarded are free (R103). What
a stalled RESREQ has still to send enters the empty mailbox, as a stalled MBSEND's message does (entry 58, DEDUCED). -/
def emptyMail (p : Part) : Part :=
  { p with mbox := [], dbg := [], mbdrop := 0, events := p.events.filter isResMsg,
           graphs := p.graphs.map (fun g => (g.1, if g.2.phase = .torn then { g.2 with live := false } else g.2)) }

/-- REENUMERATION (R382): the link is up again, and what was queued for the host while it was down is lost first. -/
def execReenumeration (s : State) : Answer :=
  if s.dev.linkUp then .next s
  else
    let s1 := loseHost s
    .next { s1 with dev := { s1.dev with linkUp := true, staging := [] }, parts := s1.parts.map (fun e => (e.1, emptyMail e.2)) }

/-- FLIT_REPLAY: only latency (R383). -/
def execFlitReplay (s : State) : Answer := event s

/-- The fatal state (R386): every core is stopped. -/
def fatal (s : State) : Answer := .next (if s.dev.stat = .fatal then s else setStatus s .fatal)

/-- LINK_RETRAIN_FAIL (R383). -/
def execLinkRetrainFail (s : State) : Answer := fatal s

/-! Clocks and reset (R386, R388). -/

/-- CLOCK_THROTTLE: 100 MHz down, to 1.0 GHz. -/
def execClockThrottle (s : State) : Answer := .next (putDev s (fun d => { d with clock := Nat.max 10 (d.clock - 1) }))

/-- CLOCK_RESTORE: one step up, to 1.9 GHz. -/
def execClockRestore (s : State) : Answer := .next (putDev s (fun d => { d with clock := Nat.min 19 (d.clock + 1) }))

/-- THERMAL_FATAL (R386). -/
def execThermalFatal (s : State) : Answer := fatal s

/-- DEVICE_RESET (R388): every partition is destroyed, CLK and TIMEBASE are 0, caches and scratchpads are empty, and the ROM is
about to boot. GDDR7 and host bytes, the flash, the PF's window and the host's own view of the port are kept. -/
def execDeviceReset (s : State) : Answer :=
  .next { State.reset with
    mem := s.mem.filter (fun c => decide (c.1 < 2 ^ 61)), nextId := s.nextId, fresh := s.fresh, seq := s.seq, epoch := s.epoch + 1,
    agenda := s.agenda, choice := s.choice,
    dev := { Dev.init with flash := s.dev.flash, window := s.dev.window, msix := s.dev.msix, hostData := s.dev.hostData } }

/-- VF_RESET (R388): the VF's staging bytes are 0. -/
def execVfReset (vf : Nat) (s : State) : Answer :=
  .next (putDev s (fun d => { d with staging := d.staging.filter (fun e => e.1 / 768 != vf) }))

end Sys2Proof.Machine
end

