-- ==== Sys2Proof/Machine/VecFloat.lean ====
section
/-! DEFINITION. VEC opcodes 0x60 to 0xC1: floating point and conversions (12_isa_vector_float.md R262 to R276). -/

namespace Sys2Proof.Machine

/-- FADD (R263). -/
def execFadd (x : F3) (s : State) : Answer := vec2 s x (fAdd .rne)
/-- FADD.RZ (R263). -/
def execFaddRz (x : F3) (s : State) : Answer := vec2 s x (fAdd .rtz)
/-- FADD.RD (R263). -/
def execFaddRd (x : F3) (s : State) : Answer := vec2 s x (fAdd .rdn)
/-- FADD.RU (R263). -/
def execFaddRu (x : F3) (s : State) : Answer := vec2 s x (fAdd .rup)
/-- FSUB (R263). -/
def execFsub (x : F3) (s : State) : Answer := vec2 s x (fSub .rne)
/-- FSUB.RZ (R263). -/
def execFsubRz (x : F3) (s : State) : Answer := vec2 s x (fSub .rtz)
/-- FSUB.RD (R263). -/
def execFsubRd (x : F3) (s : State) : Answer := vec2 s x (fSub .rdn)
/-- FSUB.RU (R263). -/
def execFsubRu (x : F3) (s : State) : Answer := vec2 s x (fSub .rup)
/-- FMUL (R263). -/
def execFmul (x : F3) (s : State) : Answer := vec2 s x (fMul .rne)
/-- FMUL.RZ (R263). -/
def execFmulRz (x : F3) (s : State) : Answer := vec2 s x (fMul .rtz)
/-- FMUL.RD (R263). -/
def execFmulRd (x : F3) (s : State) : Answer := vec2 s x (fMul .rdn)
/-- FMUL.RU (R263). -/
def execFmulRu (x : F3) (s : State) : Answer := vec2 s x (fMul .rup)
/-- FFMA (R263). -/
def execFfma (x : F3) (s : State) : Answer := vec3 s x (fFma .rne)
/-- FFMA.RZ (R263). -/
def execFfmaRz (x : F3) (s : State) : Answer := vec3 s x (fFma .rtz)
/-- FFMA.RD (R263). -/
def execFfmaRd (x : F3) (s : State) : Answer := vec3 s x (fFma .rdn)
/-- FFMA.RU (R263). -/
def execFfmaRu (x : F3) (s : State) : Answer := vec3 s x (fFma .rup)
/-- FMIN (R264). -/
def execFmin (x : F3) (s : State) : Answer := vec2 s x (minMax32 false false)
/-- FMAX (R264). -/
def execFmax (x : F3) (s : State) : Answer := vec2 s x (minMax32 true false)
/-- FMINNAN (R264). -/
def execFminnan (x : F3) (s : State) : Answer := vec2 s x (minMax32 false true)
/-- FMAXNAN (R264). -/
def execFmaxnan (x : F3) (s : State) : Answer := vec2 s x (minMax32 true true)
/-- FABS (R265): NaN patterns are kept. -/
def execFabs (x : F3) (s : State) : Answer := vec1 s x (fun a => a &&& 0x7FFFFFFF#32)
/-- FNEG (R265). -/
def execFneg (x : F3) (s : State) : Answer := vec1 s x (fun a => a ^^^ 0x80000000#32)
/-- FSAT (R265). -/
def execFsat (x : F3) (s : State) : Answer := vec1 s x fSat
/-- FCLASS (R266): a predicate, or the masked class word. -/
def execFclass (x : F3) (s : State) : Answer :=
  if predOk x.d then vecCmp s x (fun a b => fClass a &&& b != 0) else vec2 s x (fun a b => fClass a &&& b)
/-- FLDEXP (R267). -/
def execFldexp (x : F3) (s : State) : Answer := vec2 s x fLdexp
/-- FREXP and FREXP.E (R268). -/
def execFrexp (x : F3) (s : State) : Answer := vec1 s x (if x.m then fRexpE else fRexp)
/-- FDOT2 (R269). -/
def execFdot2 (x : F3) (s : State) : Answer := vec3 s x (dot2 fmtF16)
/-- BFDOT2 (R269). -/
def execBfdot2 (x : F3) (s : State) : Answer := vec3 s x (dot2 fmtBf16)

/-- FCMP.EQ (R270). -/
def execFcmpEq (x : F3) (s : State) : Answer := vecCmp s x fEq
/-- FCMP.NE (R270). -/
def execFcmpNe (x : F3) (s : State) : Answer := vecCmp s x (fun a b => !fEq a b)
/-- FCMP.LT (R270). -/
def execFcmpLt (x : F3) (s : State) : Answer := vecCmp s x fLt
/-- FCMP.LE (R270). -/
def execFcmpLe (x : F3) (s : State) : Answer := vecCmp s x fLe
/-- FCMP.GT (R270). -/
def execFcmpGt (x : F3) (s : State) : Answer := vecCmp s x (fun a b => fLt b a)
/-- FCMP.GE (R270). -/
def execFcmpGe (x : F3) (s : State) : Answer := vecCmp s x (fun a b => fLe b a)
/-- FCMP.UN (R270). -/
def execFcmpUn (x : F3) (s : State) : Answer := vecCmp s x fUn
/-- FCMP.ORD (R270). -/
def execFcmpOrd (x : F3) (s : State) : Answer := vecCmp s x (fun a b => !fUn a b)

/-- FRCP (R271). -/
def execFrcp (x : F3) (s : State) : Answer := vec1 s x (fun a => rne32 (Num.div .one (f32 a)))
/-- FRSQ (R271). -/
def execFrsq (x : F3) (s : State) : Answer := vec1 s x (fun a => rne32 (rsqNum (f32 a)))
/-- FSQRT (R271). -/
def execFsqrt (x : F3) (s : State) : Answer := vec1 s x (fun a => rne32 (sqrtNum (f32 a)))
/-- FEX2 (R271). -/
def execFex2 (x : F3) (s : State) : Answer := vec1 s x (fun a => rne32 (ex2Num (f32 a)))
/-- FLG2 (R271). -/
def execFlg2 (x : F3) (s : State) : Answer := vec1 s x (fun a => rne32 (lg2Num (f32 a)))
/-- FSIN (R271). -/
def execFsin (x : F3) (s : State) : Answer := vec1 s x (fun a => rne32 (sinNum (f32 a)))
/-- FCOS (R271). -/
def execFcos (x : F3) (s : State) : Answer := vec1 s x (fun a => rne32 (cosNum (f32 a)))
/-- FRND.N (R272). -/
def execFrndN (x : F3) (s : State) : Answer := vec1 s x (fRnd .rne)
/-- FRND.Z (R272). -/
def execFrndZ (x : F3) (s : State) : Answer := vec1 s x (fRnd .rtz)
/-- FRND.D (R272). -/
def execFrndD (x : F3) (s : State) : Answer := vec1 s x (fRnd .rdn)
/-- FRND.U (R272). -/
def execFrndU (x : F3) (s : State) : Answer := vec1 s x (fRnd .rup)

/-- CVT.F32.I32 (R273). -/
def execCvtF32I32 (x : F3) (s : State) : Answer := vec1 s x (fun a => rne32 (.ofInt a.toInt))
/-- CVT.F32.U32 (R273). -/
def execCvtF32U32 (x : F3) (s : State) : Answer := vec1 s x (fun a => rne32 (.ofInt a.toNat))
/-- CVT.I32.F32 (R273). -/
def execCvtI32F32 (x : F3) (s : State) : Answer := vec1 s x (cvtI32 .rne)
/-- CVT.I32.F32.RZ (R273). -/
def execCvtI32F32Rz (x : F3) (s : State) : Answer := vec1 s x (cvtI32 .rtz)
/-- CVT.I32.F32.RD (R273). -/
def execCvtI32F32Rd (x : F3) (s : State) : Answer := vec1 s x (cvtI32 .rdn)
/-- CVT.I32.F32.RU (R273). -/
def execCvtI32F32Ru (x : F3) (s : State) : Answer := vec1 s x (cvtI32 .rup)
/-- CVT.U32.F32 (R273). -/
def execCvtU32F32 (x : F3) (s : State) : Answer := vec1 s x cvtU32

/-- Two narrowed elements of n bits each, element 0 low (R274). -/
def pack2 (f : Fmt) (n : Nat) (a b : Word) : Word := BitVec.ofNat 32 (narrow f a + narrow f b * 2 ^ n)

/-- CVT.F16X2.F32 (R274). -/
def execCvtF16x2F32 (x : F3) (s : State) : Answer := vec2 s x (pack2 fmtF16 16)
/-- CVT.BF16X2.F32 (R274). -/
def execCvtBf16x2F32 (x : F3) (s : State) : Answer := vec2 s x (pack2 fmtBf16 16)
/-- CVT.E4M3X2.F32 (R274). -/
def execCvtE4m3x2F32 (x : F3) (s : State) : Answer := vec2 s x (pack2 fmtE4m3 8)
/-- CVT.E5M2X2.F32 (R274). -/
def execCvtE5m2x2F32 (x : F3) (s : State) : Answer := vec2 s x (pack2 fmtE5m2 8)
/-- CVT.E2M1X2.F32 (R274). -/
def execCvtE2m1x2F32 (x : F3) (s : State) : Answer := vec2 s x (pack2 fmtE2m1 4)

/-- The element of n bits that the selector names, widened (R275). -/
def unpackEl (f : Fmt) (n : Nat) (imm : BitVec 9) (a : Word) : Word := widen f (bits a.toNat (n * imm.toNat) n)

/-- CVT.F32.F16 (R275). -/
def execCvtF32F16 (x : FI) (s : State) : Answer := vecI s x (unpackEl fmtF16 16 x.imm)
/-- CVT.F32.BF16 (R275). -/
def execCvtF32Bf16 (x : FI) (s : State) : Answer := vecI s x (unpackEl fmtBf16 16 x.imm)
/-- CVT.F32.E4M3 (R275). -/
def execCvtF32E4m3 (x : FI) (s : State) : Answer := vecI s x (unpackEl fmtE4m3 8 x.imm)
/-- CVT.F32.E5M2 (R275). -/
def execCvtF32E5m2 (x : FI) (s : State) : Answer := vecI s x (unpackEl fmtE5m2 8 x.imm)
/-- CVT.F32.E2M1 (R275). -/
def execCvtF32E2m1 (x : FI) (s : State) : Answer := vecI s x (unpackEl fmtE2m1 4 x.imm)

/-- HADD2 (R276). -/
def execHadd2 (x : F3) (s : State) : Answer := vec2 s x (packed2 fmtF16 (Num.add false))
/-- HMUL2 (R276). -/
def execHmul2 (x : F3) (s : State) : Answer := vec2 s x (packed2 fmtF16 Num.mul)
/-- HFMA2 (R276). -/
def execHfma2 (x : F3) (s : State) : Answer := vec3 s x (packedFma fmtF16)
/-- HMIN2 (R276). -/
def execHmin2 (x : F3) (s : State) : Answer := vec2 s x (packedMinMax fmtF16 false)
/-- HMAX2 (R276). -/
def execHmax2 (x : F3) (s : State) : Answer := vec2 s x (packedMinMax fmtF16 true)
/-- BADD2 (R276). -/
def execBadd2 (x : F3) (s : State) : Answer := vec2 s x (packed2 fmtBf16 (Num.add false))
/-- BMUL2 (R276). -/
def execBmul2 (x : F3) (s : State) : Answer := vec2 s x (packed2 fmtBf16 Num.mul)
/-- BFMA2 (R276). -/
def execBfma2 (x : F3) (s : State) : Answer := vec3 s x (packedFma fmtBf16)
/-- BMIN2 (R276). -/
def execBmin2 (x : F3) (s : State) : Answer := vec2 s x (packedMinMax fmtBf16 false)
/-- BMAX2 (R276). -/
def execBmax2 (x : F3) (s : State) : Answer := vec2 s x (packedMinMax fmtBf16 true)

end Sys2Proof.Machine
end

