-- ==== Sys2Proof/Machine/VecInt.lean ====
section
/-! DEFINITION. VEC opcodes 0x00 to 0x47: integer and 64-bit arithmetic, packed halves, logic, bit fields, moves,
selection, bit planes, comparisons, predicate logic (11_isa_vector_int.md R234 to R253). -/

namespace Sys2Proof.Machine

/-- IADD (R234); its result keeps an affine form (R52). -/
def execIadd (x : F3) (s : State) : Answer :=
  vecDst s x.d false (wordsB x.b) [srcA x, srcB x] (fun c => iaddForm c x.a x.b x.lit)
    (fun c q => lowOnly (rdSpec c q x.a 0 + rdSpec c q x.b x.lit))

/-- ISUB (R234). -/
def execIsub (x : F3) (s : State) : Answer := vec2 s x (fun a b => a - b)
/-- IMUL (R234): the low 32 bits of the product. -/
def execImul (x : F3) (s : State) : Answer := vec2 s x (fun a b => a * b)
/-- IMULH (R234): bits [63:32] of the signed product. -/
def execImulh (x : F3) (s : State) : Answer := vec2 s x (fun a b => hiWord (a.signExtend 64 * b.signExtend 64))
/-- IMULHU (R234): bits [63:32] of the unsigned product. -/
def execImulhu (x : F3) (s : State) : Answer := vec2 s x (fun a b => hiWord (a.setWidth 64 * b.setWidth 64))
/-- IMAD (R236). -/
def execImad (x : F3) (s : State) : Answer := vec3 s x (fun a b d => a * b + d)
/-- IMIN (R234). -/
def execImin (x : F3) (s : State) : Answer := vec2 s x sMin
/-- IMAX (R234). -/
def execImax (x : F3) (s : State) : Answer := vec2 s x sMax
/-- UMIN (R234). -/
def execUmin (x : F3) (s : State) : Answer := vec2 s x uMin
/-- UMAX (R234). -/
def execUmax (x : F3) (s : State) : Answer := vec2 s x uMax
/-- IABS (R235): 0x80000000 gives itself. -/
def execIabs (x : F3) (s : State) : Answer := vec1 s x (fun a => if a.msb then 0 - a else a)
/-- IADDS (R234): signed, or with M unsigned, saturation. -/
def execIadds (x : F3) (s : State) : Answer :=
  vec2 s x (fun a b => if x.m then satU32 (a.toNat + b.toNat : Nat) else sat32 (a.toInt + b.toInt))
/-- ISUBS (R234). -/
def execIsubs (x : F3) (s : State) : Answer :=
  vec2 s x (fun a b => if x.m then satU32 ((a.toNat : Int) - b.toNat) else sat32 (a.toInt - b.toInt))
/-- SAD (R236). -/
def execSad (x : F3) (s : State) : Answer :=
  vec3 s x (fun a b d =>
    if x.m then d + (if uLe a b then b - a else a - b) else d + (if sLe a b then b - a else a - b))
/-- IMIN3 (R236). -/
def execImin3 (x : F3) (s : State) : Answer :=
  vec3 s x (fun a b d => if x.m then uMin (uMin a b) d else sMin (sMin a b) d)
/-- IMAX3 (R236). -/
def execImax3 (x : F3) (s : State) : Answer :=
  vec3 s x (fun a b d => if x.m then uMax (uMax a b) d else sMax (sMax a b) d)
/-- MINADD (R237). -/
def execMinadd (x : F3) (s : State) : Answer := vec3 s x (fun a b d => sMin d (sat32 (a.toInt + b.toInt)))
/-- MINADD.U (R237). -/
def execMinaddU (x : F3) (s : State) : Answer := vec3 s x (fun a b d => uMin d (satU32 (a.toNat + b.toNat : Nat)))

/-- The exact dot product of four bytes (R238). -/
def dot4 (signed : Bool) (a b : Word) : Int :=
  (List.range 4).foldl (fun acc i =>
    acc + (if signed then (byteOf a i).toInt * (byteOf b i).toInt
      else ((byteOf a i).toNat : Int) * ((byteOf b i).toNat : Int))) 0

/-- The accumulation of R238: wrap, or with M saturate. -/
def idp4Acc (m : Bool) (d : Word) (x : Int) : Word :=
  if m then sat32 (d.toInt + x) else BitVec.ofInt 32 (d.toInt + x)

/-- IDP4 (R238). -/
def execIdp4 (x : F3) (s : State) : Answer := vec3 s x (fun a b d => idp4Acc x.m d (dot4 true a b))
/-- IDP4U (R238). -/
def execIdp4u (x : F3) (s : State) : Answer := vec3 s x (fun a b d => idp4Acc x.m d (dot4 false a b))
/-- IADD2 (R239). -/
def execIadd2 (x : F3) (s : State) : Answer :=
  vec2 s x (onHalves (fun a b => if x.m then sat16 (a.toInt + b.toInt) else a + b))
/-- ISUB2 (R239). -/
def execIsub2 (x : F3) (s : State) : Answer :=
  vec2 s x (onHalves (fun a b => if x.m then sat16 (a.toInt - b.toInt) else a - b))
/-- IMIN2 (R239). -/
def execImin2 (x : F3) (s : State) : Answer :=
  vec2 s x (onHalves (fun a b => if (if x.m then decide (a.toNat ≤ b.toNat) else decide (a.toInt ≤ b.toInt)) then a else b))
/-- IMAX2 (R239). -/
def execImax2 (x : F3) (s : State) : Answer :=
  vec2 s x (onHalves (fun a b => if (if x.m then decide (a.toNat ≤ b.toNat) else decide (a.toInt ≤ b.toInt)) then b else a))

/-! 64-bit arithmetic. -/

/-- IADD.64 (R240). -/
def execIadd64 (x : F3) (s : State) : Answer :=
  vecDst s x.d true (wordsB x.b) [srcPA x, srcPB x] (fun c => plainForm c (bothOf x.a ++ bothOf x.b))
    (fun c q => rdPair c q x.a 0 + rdPair c q x.b x.lit)
/-- ISUB.64 (R240). -/
def execIsub64 (x : F3) (s : State) : Answer :=
  vecDst s x.d true (wordsB x.b) [srcPA x, srcPB x] (fun c => plainForm c (bothOf x.a ++ bothOf x.b))
    (fun c q => rdPair c q x.a 0 - rdPair c q x.b x.lit)

/-- The 64-bit product, signed or with M unsigned (R241). -/
def wideMul (m : Bool) (a b : Word) : DWord :=
  if m then a.setWidth 64 * b.setWidth 64 else a.signExtend 64 * b.signExtend 64

/-- IMUL.WIDE (R241). -/
def execImulWide (x : F3) (s : State) : Answer :=
  vecDst s x.d true (wordsB x.b) [srcA x, srcB x] (fun c => plainForm c [x.a, x.b])
    (fun c q => wideMul x.m (rdSpec c q x.a 0) (rdSpec c q x.b x.lit))
/-- IMAD.WIDE (R241). -/
def execImadWide (x : F3) (s : State) : Answer :=
  vecDst s x.d true (wordsB x.b) [srcA x, srcB x, srcPD x] (fun c => plainForm c (x.a :: x.b :: bothOf x.d))
    (fun c q => wideMul x.m (rdSpec c q x.a 0) (rdSpec c q x.b x.lit) + rdPair c q x.d 0)
/-- SHL.64 (R242). -/
def execShl64 (x : F3) (s : State) : Answer :=
  vecDst s x.d true (wordsB x.b) [srcPA x, srcB x] (fun c => plainForm c (bothOf x.a ++ [x.b]))
    (fun c q => let n := (rdSpec c q x.b x.lit).toNat; if 64 ≤ n then 0 else rdPair c q x.a 0 <<< n)
/-- SHR.64 (R242): logical, or with M arithmetic. -/
def execShr64 (x : F3) (s : State) : Answer :=
  vecDst s x.d true (wordsB x.b) [srcPA x, srcB x] (fun c => plainForm c (bothOf x.a ++ [x.b]))
    (fun c q =>
      let n := (rdSpec c q x.b x.lit).toNat
      let a := rdPair c q x.a 0
      if x.m then a.sshiftRight (Nat.min n 63) else if 64 ≤ n then 0 else a >>> n)

/-- LEA (R243). -/
def execLea (x : FI) (s : State) : Answer :=
  vecI s x (fun a => (a <<< (x.imm.extractLsb' 5 4).toNat) + (x.imm.extractLsb' 0 5).setWidth 32)
/-- IADD3 (R236). -/
def execIadd3 (x : F3) (s : State) : Answer := vec3 s x (fun a b d => a + b + d)

/-! Logic and bit manipulation. -/

/-- AND (R244). -/
def execAnd (x : F3) (s : State) : Answer := vec2 s x (fun a b => a &&& b)
/-- OR (R244). -/
def execOr (x : F3) (s : State) : Answer := vec2 s x (fun a b => a ||| b)
/-- XOR (R244). -/
def execXor (x : F3) (s : State) : Answer := vec2 s x (fun a b => a ^^^ b)
/-- ANDN (R244). -/
def execAndn (x : F3) (s : State) : Answer := vec2 s x (fun a b => a &&& ~~~b)

/-- Fields of LOP3's control word (R245). -/
def lopB (x : F3) : Reg := x.lit.extractLsb' 8 7
def lopC (x : F3) : Reg := x.lit.extractLsb' 15 7

/-- LOP3's bit function (R245): output bit TT[7 - (4 a + 2 b + c)]. -/
def lop3 (tt : Word) (a b c : Word) : Word :=
  (List.range 8).foldl (fun acc r =>
    if tt.getLsbD (7 - r) then
      acc ||| ((if r / 4 % 2 = 1 then a else ~~~a) &&& (if r / 2 % 2 = 1 then b else ~~~b) &&& (if r % 2 = 1 then c else ~~~c))
    else acc) 0

/-- LOP3's sources, of which its control word names B and C. -/
def lopSrcs (x : F3) : List Src :=
  [srcA x, ⟨lopB x, .value, false, x.lit.getLsbD 22⟩, ⟨lopC x, .value, false, x.lit.getLsbD 23⟩]

/-- The reserved bits of LOP3's control word are zero (R245). -/
def lopOk (x : F3) : Bool := x.lit.extractLsb' 24 8 == 0

/-- LOP3 (R245). A bad control word is refused after the operands (R221). -/
def execLop3 (x : F3) (s : State) : Answer :=
  if lopOk x then
    vecDst s x.d false 2 (lopSrcs x) (fun c => plainForm c [x.a, lopB x, lopC x])
      (fun c q => lowOnly (lop3 x.lit (rdSpec c q x.a 0) (rdSpec c q (lopB x) 0) (rdSpec c q (lopC x) 0)))
  else vecRefused s (x.word 0x24) x.d (lopSrcs x)

/-- SHL (R244): 0 when the amount is 32 or more. -/
def execShl (x : F3) (s : State) : Answer := vec2 s x (fun a b => if 32 ≤ b.toNat then 0 else a <<< b.toNat)
/-- SHR (R244). -/
def execShr (x : F3) (s : State) : Answer := vec2 s x (fun a b => if 32 ≤ b.toNat then 0 else a >>> b.toNat)
/-- SAR (R244): copies of bit 31 when the amount is 32 or more. -/
def execSar (x : F3) (s : State) : Answer := vec2 s x (fun a b => a.sshiftRight (Nat.min b.toNat 31))
/-- ROTL (R244). -/
def execRotl (x : F3) (s : State) : Answer := vec2 s x (fun a b => a.rotateLeft (b.toNat % 32))

/-- Field bounds of R246: position, and length shortened to end at bit 31. -/
def bfPos (x : FI) : Nat := (x.imm.extractLsb' 0 5).toNat
def bfLen (x : FI) : Nat := Nat.min (31 - bfPos x + 1) ((x.imm.extractLsb' 5 4).toNat + 1)

/-- BFE (R246). -/
def execBfe (x : FI) (s : State) : Answer := vecI s x (fun a => sext32 (bfLen x) (bits a.toNat (bfPos x) (bfLen x)))
/-- BFEU (R246). -/
def execBfeu (x : FI) (s : State) : Answer := vecI s x (fun a => BitVec.ofNat 32 (bits a.toNat (bfPos x) (bfLen x)))
/-- BFI (R246): D is read. -/
def execBfi (x : FI) (s : State) : Answer :=
  vecDst s x.d false 1 [⟨x.a, .value, false, x.la⟩, ⟨x.d, .value, false, false⟩] (fun c => plainForm c [x.a, x.d])
    (fun c q =>
      let m : Word := BitVec.ofNat 32 ((2 ^ bfLen x - 1) * 2 ^ bfPos x)
      lowOnly ((rdSpec c q x.d 0 &&& ~~~m) ||| ((rdSpec c q x.a 0 <<< bfPos x) &&& m)))

/-- The number of 1 bits (R247). -/
def popc (a : Word) : Nat := ((List.range 32).filter (fun k => a.getLsbD k)).length
/-- The number of 0 bits above the highest 1 bit (R247). -/
def clz (a : Word) : Nat := if a = 0 then 32 else 31 - Nat.log2 a.toNat

/-- POPC (R247). -/
def execPopc (x : F3) (s : State) : Answer := vec1 s x (fun a => BitVec.ofNat 32 (popc a))
/-- CLZ (R247). -/
def execClz (x : F3) (s : State) : Answer := vec1 s x (fun a => BitVec.ofNat 32 (clz a))
/-- BREV (R247). -/
def execBrev (x : F3) (s : State) : Answer := vec1 s x (fun a => a.reverse)

/-- One byte of PRMT (R248). -/
def prmtByte (imm : BitVec 9) (a : Word) (i : Nat) : Byte :=
  let b := byteOf a (imm.extractLsb' (2 * i) 2).toNat
  if imm.getLsbD 8 then (if b.msb then 0xFF else 0) else b

/-- PRMT (R248). -/
def execPrmt (x : FI) (s : State) : Answer :=
  vecI s x (fun a => ofBytes (prmtByte x.imm a 0) (prmtByte x.imm a 1) (prmtByte x.imm a 2) (prmtByte x.imm a 3))

/-! Moves, selection and bit planes. -/

/-- MOV (R249); of %tid it gives the affine form (R52). -/
def execMov (x : F3) (s : State) : Answer :=
  vecDst s x.d false 1 [srcA x] (fun c => movForm c x.a) (fun c q => lowOnly (rdSpec c q x.a 0))

/-- SEL (R250). With an s destination P must be p0, which is tested before A and B (entry 10). A predicate is no uniform source, so the result is FULL (R52). -/
def execSel (x : FP) (s : State) : Answer :=
  if isSSpec x.d && x.p != 0 then
    issue s fun c => .error (illegalOperand (0x60 + x.p.toNat) c.mask)
  else
    vecDst s x.d false (wordsB x.b) [⟨x.a, .value, false, false⟩, ⟨x.b, .value, true, false⟩]
      (fun _ => none)
      (fun c q => lowOnly (if predReg c.wave q x.p.toNat then rdSpec c q x.a 0 else rdSpec c q x.b x.lit))

/-- PLANE's word (R251): plane p in nibble p, bit j from byte j, planes from k on cleared. -/
def planeWord (k : Nat) (a : Word) : Word :=
  BitVec.ofNat 32 ((List.range 32).foldl (fun acc i =>
    if i / 4 < k && (byteOf a (i % 4)).getLsbD (7 - i / 4) then acc + 2 ^ i else acc) 0)

/-- UNPLANE's byte j (R251). -/
def unplaneByte (k : Nat) (h : Bool) (a : Word) (j : Nat) : Byte :=
  let n := (List.range k).foldl (fun acc p => if a.getLsbD (4 * p + j) then acc + 2 ^ (7 - p) else acc) 0
  BitVec.ofNat 8 (if h && k < 8 then n + 2 ^ (7 - k) else n)

/-- k of PLANE and UNPLANE; none where the word is illegal (R251). -/
def planeK (x : FI) : Option Nat :=
  let k := (x.imm.extractLsb' 0 4).toNat
  if 1 ≤ k ∧ k ≤ 8 then some k else none

/-- PLANE (R251). -/
def execPlane (x : FI) (s : State) : Answer :=
  match planeK x with
  | none => vecRefused s (x.word 0x32) x.d [⟨x.a, .value, false, x.la⟩]
  | some k => vecI s x (planeWord k)
/-- UNPLANE (R251). -/
def execUnplane (x : FI) (s : State) : Answer :=
  match planeK x with
  | none => vecRefused s (x.word 0x33) x.d [⟨x.a, .value, false, x.la⟩]
  | some k =>
    let h := x.imm.getLsbD 4
    vecI s x (fun a => ofBytes (unplaneByte k h a 0) (unplaneByte k h a 1) (unplaneByte k h a 2) (unplaneByte k h a 3))

/-! Comparisons (R252). -/

/-- ICMP.EQ. -/
def execIcmpEq (x : F3) (s : State) : Answer := vecCmp s x (fun a b => a == b)
/-- ICMP.NE. -/
def execIcmpNe (x : F3) (s : State) : Answer := vecCmp s x (fun a b => a != b)
/-- ICMP.LT. -/
def execIcmpLt (x : F3) (s : State) : Answer := vecCmp s x sLt
/-- ICMP.LE. -/
def execIcmpLe (x : F3) (s : State) : Answer := vecCmp s x sLe
/-- ICMP.GT. -/
def execIcmpGt (x : F3) (s : State) : Answer := vecCmp s x (fun a b => sLt b a)
/-- ICMP.GE. -/
def execIcmpGe (x : F3) (s : State) : Answer := vecCmp s x (fun a b => sLe b a)
/-- ICMP.ULT. -/
def execIcmpUlt (x : F3) (s : State) : Answer := vecCmp s x uLt
/-- ICMP.ULE. -/
def execIcmpUle (x : F3) (s : State) : Answer := vecCmp s x uLe
/-- ICMP.UGT. -/
def execIcmpUgt (x : F3) (s : State) : Answer := vecCmp s x (fun a b => uLt b a)
/-- ICMP.UGE. -/
def execIcmpUge (x : F3) (s : State) : Answer := vecCmp s x (fun a b => uLe b a)

/-! Predicate logic (R253): D, A and B are predicates. -/

/-- The predicate a specifier names, at a position. -/
def rdP (c : Ctx) (q : Nat) (r : Reg) : Bool := predReg c.wave q (predNum r)

/-- Two predicate sources. -/
def predSrcs (x : F3) : List Src := [⟨x.a, .pred, false, x.la⟩, ⟨x.b, .pred, false, x.lb⟩]

/-- PAND. -/
def execPand (x : F3) (s : State) : Answer :=
  vecPred s x.d (wordsB x.b) (predSrcs x) (fun c q => rdP c q x.a && rdP c q x.b)
/-- POR. -/
def execPor (x : F3) (s : State) : Answer :=
  vecPred s x.d (wordsB x.b) (predSrcs x) (fun c q => rdP c q x.a || rdP c q x.b)
/-- PXOR. -/
def execPxor (x : F3) (s : State) : Answer :=
  vecPred s x.d (wordsB x.b) (predSrcs x) (fun c q => rdP c q x.a != rdP c q x.b)
/-- PNOT. -/
def execPnot (x : F3) (s : State) : Answer :=
  vecPred s x.d 1 [⟨x.a, .pred, false, x.la⟩] (fun c q => !rdP c q x.a)

end Sys2Proof.Machine
end

