-- ==== Sys2Proof/Machine/VecLane.lean ====
section
/-! DEFINITION. VEC opcodes 0x48 to 0x5B: votes, broadcast, shuffles and wave reductions (11_isa_vector_int.md R254 to
R261). Threads are named by position; only the active threads of the issuing path take part. -/

namespace Sys2Proof.Machine

/-- A lane instruction: legality of D and the sources, the parity of the copies read (R97), the threads that read an unwritten
copy with the register named, the release of marked sources, and the write (R50, R51, R254). -/
def laneOp (s : State) (d : Reg) (dOk : Ctx → Bool) (n : Nat) (srcs : List Src) (par : Ctx → Except Trap Unit)
    (unw : Ctx → Reg × Mask) (wr : Ctx → Wave → Wave) : Answer :=
  issue s fun c =>
    match needSpec c (dOk c) d, srcsOk c false srcs, par c with
    | .error t, _, _ => .error t
    | _, .error t, _ => .error t
    | _, _, .error t => .error t
    | .ok _, .ok _, .ok _ =>
      let (r, m) := unw c
      if m != 0 && wStrict c.wave && !wTrap c.wave then .error (unwrittenTrap r m)
      else
        let v := releaseSrcs c srcs (setStatIf c.wave (m != 0) 0)
        .ok (setWave s c.w (advance c n (wr c v)))

/-- Positions of the path whose copy of one register is unwritten: in MATCH and the reductions they are the threads that read
it (entry 66, DESIGN CHOICE). -/
def unwAt (c : Ctx) (r : Reg) : Reg × Mask := (r, maskOf ((positions c.mask).filter (fun q => unwritten c q r 1)))

/-- No register that can be unwritten. -/
def noUnw (c : Ctx) (r : Reg) : Reg × Mask := (r, c.mask &&& 0)

/-- Active positions whose predicate A is true. -/
def trueAt (c : Ctx) (a : Reg) : List Nat := (positions c.mask).filter (fun q => rdP c q a)
where
  /-- The predicate a specifier names. -/
  rdP (c : Ctx) (q : Nat) (r : Reg) : Bool := predReg c.wave q (predNum r)

def srcP (x : F3) : Src := ⟨x.a, .pred, false, x.la⟩

/-- A v destination. -/
def vDst (c : Ctx) (d : Reg) : Bool := isVSpec d && dstOk c.g d false

/-- BALLOT (R255). -/
def execBallot (x : F3) (s : State) : Answer :=
  laneOp s x.d (fun c => isVSpec x.d && dstOk c.g x.d true) 1 [srcP x] (fun c => parityCheck c [srcP x]) (fun c => noUnw c x.a)
    (fun c v => writeDst c v x.d true none (fun _ => maskOf (trueAt c x.a)))

/-- VANY (R256). -/
def execVany (x : F3) (s : State) : Answer :=
  laneOp s x.d (fun _ => predOk x.d) 1 [srcP x] (fun c => parityCheck c [srcP x]) (fun c => noUnw c x.a)
    (fun c v => writeP c v x.d (fun _ => !(trueAt c x.a).isEmpty))

/-- VALL (R256). -/
def execVall (x : F3) (s : State) : Answer :=
  laneOp s x.d (fun _ => predOk x.d) 1 [srcP x] (fun c => parityCheck c [srcP x]) (fun c => noUnw c x.a)
    (fun c v => writeP c v x.d (fun _ => trueAt c x.a == positions c.mask))

/-- The values of A of the active threads. -/
def laneVals (c : Ctx) (a : Reg) : List (Nat × Word) := (positions c.mask).map (fun q => (q, rdSpec c q a 0))

/-- MATCH and MATCH.ANY (R257). -/
def execMatchOp (x : F3) (s : State) : Answer :=
  laneOp s x.d (fun _ => predOk x.d) 1 [srcA x] (fun c => parityCheck c [srcA x]) (fun c => unwAt c x.a)
    (fun c v => writeP c v x.d (fun q =>
      if x.m then matchAny (laneVals c x.a) q (rdSpec c q x.a 0) else matchAll (laneVals c x.a) (rdSpec c q x.a 0)))

/-- FIRST (R258). -/
def execFirst (x : F3) (s : State) : Answer :=
  laneOp s x.d (fun c => vDst c x.d) 1 [srcP x] (fun c => parityCheck c [srcP x]) (fun c => noUnw c x.a)
    (fun c v => writeDst c v x.d false none (fun _ =>
      lowOnly (match trueAt c x.a with | q :: _ => BitVec.ofNat 32 q | [] => 0xFFFFFFFF)))

/-- BCAST (R259): A of the lowest active position, whose copy alone is read; that position is the thread that reads it
(entry 66, DESIGN CHOICE). -/
def execBcast (x : F3) (s : State) : Answer :=
  laneOp s x.d (fun c => dstOk c.g x.d false) 1 [srcA x] (fun c => parityFrom c ((positions c.mask).take 1) [(srcA x, id)])
    (fun c => (x.a, if unwritten c ((positions c.mask).headD 0) x.a 1 then posBit ((positions c.mask).headD 0) else 0))
    (fun c v => writeDst c v x.d false (plainForm c [x.a]) (fun _ =>
      lowOnly (rdSpec c ((positions c.mask).headD 0) x.a 0)))

/-- The position whose A a shuffle gives to position q (R260). -/
def shflFrom (c : Ctx) (q : Nat) (j : Option Nat) : Nat :=
  match j with
  | some j => if c.mask.getLsbD j && j < 64 then j else q
  | none => q

/-- A shuffle (R260): every source is read before any destination is written; of A, the first source, the copies of the source
positions. -/
def shuffle (s : State) (d a : Reg) (n : Nat) (srcs : List Src) (rest : Ctx → Nat → Bool) (other : Reg)
    (j : Ctx → Nat → Option Nat) : Answer :=
  laneOp s d (fun c => vDst c d) n srcs
    (fun c => parityFrom c (positions c.mask) (srcs.zipIdx.map (fun e =>
      (e.1, if e.2 = 0 then fun q => shflFrom c q (j c q) else id))))
    (fun c =>
      let ma := maskOf ((positions c.mask).filter (fun q => unwritten c (shflFrom c q (j c q)) a 1))
      let mb := maskOf ((positions c.mask).filter (rest c))
      (if ma = 0 then other else a, ma ||| mb))
    (fun c v => writeDst c v d false (plainForm c (srcs.map (·.r))) (fun q => lowOnly (rdSpec c (shflFrom c q (j c q)) a 0)))

/-- SHFL.IDX. -/
def execShflIdx (x : F3) (s : State) : Answer :=
  shuffle s x.d x.a (wordsB x.b) [srcA x, srcB x] (fun c q => unwritten c q x.b 1) x.b
    (fun c q => some ((rdSpec c q x.b x.lit).toNat % widthOf c.wave))

/-- n of the FI shuffles. -/
def shflN (x : FI) : Nat := (x.imm.extractLsb' 0 6).toNat

/-- An FI shuffle. -/
def shuffleI (s : State) (x : FI) (j : Nat → Nat → Option Nat) : Answer :=
  shuffle s x.d x.a 1 [⟨x.a, .value, false, x.la⟩] (fun _ _ => false) x.a (fun c q => j (widthOf c.wave) q)

/-- SHFL.UP. -/
def execShflUp (x : FI) (s : State) : Answer :=
  shuffleI s x (fun _ q => if q < shflN x then none else some (q - shflN x))
/-- SHFL.DN. -/
def execShflDn (x : FI) (s : State) : Answer :=
  shuffleI s x (fun w q => if q + shflN x < w then some (q + shflN x) else none)
/-- SHFL.XOR. -/
def execShflXor (x : FI) (s : State) : Answer :=
  shuffleI s x (fun w q => if q ^^^ shflN x < w then some (q ^^^ shflN x) else none)
/-- SHFL.ROT. -/
def execShflRot (x : FI) (s : State) : Answer :=
  shuffleI s x (fun w q => some ((q + shflN x) % w))

/-- A wave reduction (R261). -/
def reduce (s : State) (x : F3) (f : Ctx → List Word → Word) : Answer :=
  laneOp s x.d (fun c => dstOk c.g x.d false) 1 [srcA x] (fun c => parityCheck c [srcA x]) (fun c => unwAt c x.a)
    (fun c v => writeDst c v x.d false (plainForm c [x.a]) (fun _ => lowOnly (f c ((laneVals c x.a).map (·.2)))))

/-- A reduction by an operation on words. -/
def reduceBy (s : State) (x : F3) (op : Word → Word → Word) : Answer :=
  reduce s x (fun _ l => match l with | [] => 0 | y :: t => t.foldl op y)

/-- REDADD. -/
def execRedadd (x : F3) (s : State) : Answer := reduceBy s x (· + ·)
/-- REDMIN. -/
def execRedmin (x : F3) (s : State) : Answer := reduceBy s x sMin
/-- REDMAX. -/
def execRedmax (x : F3) (s : State) : Answer := reduceBy s x sMax
/-- REDUMIN. -/
def execRedumin (x : F3) (s : State) : Answer := reduceBy s x uMin
/-- REDUMAX. -/
def execRedumax (x : F3) (s : State) : Answer := reduceBy s x uMax
/-- REDAND. -/
def execRedand (x : F3) (s : State) : Answer := reduceBy s x (· &&& ·)
/-- REDOR. -/
def execRedor (x : F3) (s : State) : Answer := reduceBy s x (· ||| ·)
/-- REDXOR. -/
def execRedxor (x : F3) (s : State) : Answer := reduceBy s x (· ^^^ ·)

/-- REDFADD (R200): a leaf per position, -0 where the position holds no active thread. -/
def execRedfadd (x : F3) (s : State) : Answer :=
  reduce s x (fun c _ => treeSum 6 ((List.range (widthOf c.wave)).map (fun q =>
    if c.mask.getLsbD q then rdSpec c q x.a 0 else 0x80000000)))

end Sys2Proof.Machine
end

