-- ==== Sys2Proof/Machine/Dispatch.lean ====
section
/-! DEFINITION. One arm per instruction and event of the table. -/

namespace Sys2Proof.Machine

def exec (i : Instr) (s : State) : Host.Outcome State Fault Refusal :=
  match i with
  | .iadd x => Sys2Proof.Machine.execIadd x s
  | .isub x => Sys2Proof.Machine.execIsub x s
  | .imul x => Sys2Proof.Machine.execImul x s
  | .imulh x => Sys2Proof.Machine.execImulh x s
  | .imulhu x => Sys2Proof.Machine.execImulhu x s
  | .imad x => Sys2Proof.Machine.execImad x s
  | .imin x => Sys2Proof.Machine.execImin x s
  | .imax x => Sys2Proof.Machine.execImax x s
  | .umin x => Sys2Proof.Machine.execUmin x s
  | .umax x => Sys2Proof.Machine.execUmax x s
  | .iabs x => Sys2Proof.Machine.execIabs x s
  | .iadds x => Sys2Proof.Machine.execIadds x s
  | .isubs x => Sys2Proof.Machine.execIsubs x s
  | .sad x => Sys2Proof.Machine.execSad x s
  | .imin3 x => Sys2Proof.Machine.execImin3 x s
  | .imax3 x => Sys2Proof.Machine.execImax3 x s
  | .minadd x => Sys2Proof.Machine.execMinadd x s
  | .minaddU x => Sys2Proof.Machine.execMinaddU x s
  | .idp4 x => Sys2Proof.Machine.execIdp4 x s
  | .idp4u x => Sys2Proof.Machine.execIdp4u x s
  | .iadd2 x => Sys2Proof.Machine.execIadd2 x s
  | .isub2 x => Sys2Proof.Machine.execIsub2 x s
  | .imin2 x => Sys2Proof.Machine.execImin2 x s
  | .imax2 x => Sys2Proof.Machine.execImax2 x s
  | .iadd64 x => Sys2Proof.Machine.execIadd64 x s
  | .isub64 x => Sys2Proof.Machine.execIsub64 x s
  | .imulWide x => Sys2Proof.Machine.execImulWide x s
  | .imadWide x => Sys2Proof.Machine.execImadWide x s
  | .shl64 x => Sys2Proof.Machine.execShl64 x s
  | .shr64 x => Sys2Proof.Machine.execShr64 x s
  | .lea x => Sys2Proof.Machine.execLea x s
  | .iadd3 x => Sys2Proof.Machine.execIadd3 x s
  | .and x => Sys2Proof.Machine.execAnd x s
  | .or x => Sys2Proof.Machine.execOr x s
  | .xor x => Sys2Proof.Machine.execXor x s
  | .andn x => Sys2Proof.Machine.execAndn x s
  | .lop3 x => Sys2Proof.Machine.execLop3 x s
  | .shl x => Sys2Proof.Machine.execShl x s
  | .shr x => Sys2Proof.Machine.execShr x s
  | .sar x => Sys2Proof.Machine.execSar x s
  | .rotl x => Sys2Proof.Machine.execRotl x s
  | .bfe x => Sys2Proof.Machine.execBfe x s
  | .bfeu x => Sys2Proof.Machine.execBfeu x s
  | .bfi x => Sys2Proof.Machine.execBfi x s
  | .popc x => Sys2Proof.Machine.execPopc x s
  | .clz x => Sys2Proof.Machine.execClz x s
  | .brev x => Sys2Proof.Machine.execBrev x s
  | .prmt x => Sys2Proof.Machine.execPrmt x s
  | .mov x => Sys2Proof.Machine.execMov x s
  | .sel x => Sys2Proof.Machine.execSel x s
  | .plane x => Sys2Proof.Machine.execPlane x s
  | .unplane x => Sys2Proof.Machine.execUnplane x s
  | .icmpEq x => Sys2Proof.Machine.execIcmpEq x s
  | .icmpNe x => Sys2Proof.Machine.execIcmpNe x s
  | .icmpLt x => Sys2Proof.Machine.execIcmpLt x s
  | .icmpLe x => Sys2Proof.Machine.execIcmpLe x s
  | .icmpGt x => Sys2Proof.Machine.execIcmpGt x s
  | .icmpGe x => Sys2Proof.Machine.execIcmpGe x s
  | .icmpUlt x => Sys2Proof.Machine.execIcmpUlt x s
  | .icmpUle x => Sys2Proof.Machine.execIcmpUle x s
  | .icmpUgt x => Sys2Proof.Machine.execIcmpUgt x s
  | .icmpUge x => Sys2Proof.Machine.execIcmpUge x s
  | .pand x => Sys2Proof.Machine.execPand x s
  | .por x => Sys2Proof.Machine.execPor x s
  | .pxor x => Sys2Proof.Machine.execPxor x s
  | .pnot x => Sys2Proof.Machine.execPnot x s
  | .ballot x => Sys2Proof.Machine.execBallot x s
  | .vany x => Sys2Proof.Machine.execVany x s
  | .vall x => Sys2Proof.Machine.execVall x s
  | .matchOp x => Sys2Proof.Machine.execMatchOp x s
  | .first x => Sys2Proof.Machine.execFirst x s
  | .bcast x => Sys2Proof.Machine.execBcast x s
  | .shflIdx x => Sys2Proof.Machine.execShflIdx x s
  | .shflUp x => Sys2Proof.Machine.execShflUp x s
  | .shflDn x => Sys2Proof.Machine.execShflDn x s
  | .shflXor x => Sys2Proof.Machine.execShflXor x s
  | .shflRot x => Sys2Proof.Machine.execShflRot x s
  | .redadd x => Sys2Proof.Machine.execRedadd x s
  | .redmin x => Sys2Proof.Machine.execRedmin x s
  | .redmax x => Sys2Proof.Machine.execRedmax x s
  | .redumin x => Sys2Proof.Machine.execRedumin x s
  | .redumax x => Sys2Proof.Machine.execRedumax x s
  | .redand x => Sys2Proof.Machine.execRedand x s
  | .redor x => Sys2Proof.Machine.execRedor x s
  | .redxor x => Sys2Proof.Machine.execRedxor x s
  | .redfadd x => Sys2Proof.Machine.execRedfadd x s
  | .fadd x => Sys2Proof.Machine.execFadd x s
  | .faddRz x => Sys2Proof.Machine.execFaddRz x s
  | .faddRd x => Sys2Proof.Machine.execFaddRd x s
  | .faddRu x => Sys2Proof.Machine.execFaddRu x s
  | .fsub x => Sys2Proof.Machine.execFsub x s
  | .fsubRz x => Sys2Proof.Machine.execFsubRz x s
  | .fsubRd x => Sys2Proof.Machine.execFsubRd x s
  | .fsubRu x => Sys2Proof.Machine.execFsubRu x s
  | .fmul x => Sys2Proof.Machine.execFmul x s
  | .fmulRz x => Sys2Proof.Machine.execFmulRz x s
  | .fmulRd x => Sys2Proof.Machine.execFmulRd x s
  | .fmulRu x => Sys2Proof.Machine.execFmulRu x s
  | .ffma x => Sys2Proof.Machine.execFfma x s
  | .ffmaRz x => Sys2Proof.Machine.execFfmaRz x s
  | .ffmaRd x => Sys2Proof.Machine.execFfmaRd x s
  | .ffmaRu x => Sys2Proof.Machine.execFfmaRu x s
  | .fmin x => Sys2Proof.Machine.execFmin x s
  | .fmax x => Sys2Proof.Machine.execFmax x s
  | .fminnan x => Sys2Proof.Machine.execFminnan x s
  | .fmaxnan x => Sys2Proof.Machine.execFmaxnan x s
  | .fabs x => Sys2Proof.Machine.execFabs x s
  | .fneg x => Sys2Proof.Machine.execFneg x s
  | .fsat x => Sys2Proof.Machine.execFsat x s
  | .fclass x => Sys2Proof.Machine.execFclass x s
  | .fldexp x => Sys2Proof.Machine.execFldexp x s
  | .frexp x => Sys2Proof.Machine.execFrexp x s
  | .fdot2 x => Sys2Proof.Machine.execFdot2 x s
  | .bfdot2 x => Sys2Proof.Machine.execBfdot2 x s
  | .fcmpEq x => Sys2Proof.Machine.execFcmpEq x s
  | .fcmpNe x => Sys2Proof.Machine.execFcmpNe x s
  | .fcmpLt x => Sys2Proof.Machine.execFcmpLt x s
  | .fcmpLe x => Sys2Proof.Machine.execFcmpLe x s
  | .fcmpGt x => Sys2Proof.Machine.execFcmpGt x s
  | .fcmpGe x => Sys2Proof.Machine.execFcmpGe x s
  | .fcmpUn x => Sys2Proof.Machine.execFcmpUn x s
  | .fcmpOrd x => Sys2Proof.Machine.execFcmpOrd x s
  | .frcp x => Sys2Proof.Machine.execFrcp x s
  | .frsq x => Sys2Proof.Machine.execFrsq x s
  | .fsqrt x => Sys2Proof.Machine.execFsqrt x s
  | .fex2 x => Sys2Proof.Machine.execFex2 x s
  | .flg2 x => Sys2Proof.Machine.execFlg2 x s
  | .fsin x => Sys2Proof.Machine.execFsin x s
  | .fcos x => Sys2Proof.Machine.execFcos x s
  | .frndN x => Sys2Proof.Machine.execFrndN x s
  | .frndZ x => Sys2Proof.Machine.execFrndZ x s
  | .frndD x => Sys2Proof.Machine.execFrndD x s
  | .frndU x => Sys2Proof.Machine.execFrndU x s
  | .cvtF32I32 x => Sys2Proof.Machine.execCvtF32I32 x s
  | .cvtF32U32 x => Sys2Proof.Machine.execCvtF32U32 x s
  | .cvtI32F32 x => Sys2Proof.Machine.execCvtI32F32 x s
  | .cvtI32F32Rz x => Sys2Proof.Machine.execCvtI32F32Rz x s
  | .cvtI32F32Rd x => Sys2Proof.Machine.execCvtI32F32Rd x s
  | .cvtI32F32Ru x => Sys2Proof.Machine.execCvtI32F32Ru x s
  | .cvtU32F32 x => Sys2Proof.Machine.execCvtU32F32 x s
  | .cvtF16x2F32 x => Sys2Proof.Machine.execCvtF16x2F32 x s
  | .cvtF32F16 x => Sys2Proof.Machine.execCvtF32F16 x s
  | .cvtBf16x2F32 x => Sys2Proof.Machine.execCvtBf16x2F32 x s
  | .cvtF32Bf16 x => Sys2Proof.Machine.execCvtF32Bf16 x s
  | .cvtE4m3x2F32 x => Sys2Proof.Machine.execCvtE4m3x2F32 x s
  | .cvtE5m2x2F32 x => Sys2Proof.Machine.execCvtE5m2x2F32 x s
  | .cvtF32E4m3 x => Sys2Proof.Machine.execCvtF32E4m3 x s
  | .cvtF32E5m2 x => Sys2Proof.Machine.execCvtF32E5m2 x s
  | .cvtE2m1x2F32 x => Sys2Proof.Machine.execCvtE2m1x2F32 x s
  | .cvtF32E2m1 x => Sys2Proof.Machine.execCvtF32E2m1 x s
  | .hadd2 x => Sys2Proof.Machine.execHadd2 x s
  | .hmul2 x => Sys2Proof.Machine.execHmul2 x s
  | .hfma2 x => Sys2Proof.Machine.execHfma2 x s
  | .hmin2 x => Sys2Proof.Machine.execHmin2 x s
  | .hmax2 x => Sys2Proof.Machine.execHmax2 x s
  | .badd2 x => Sys2Proof.Machine.execBadd2 x s
  | .bfma2 x => Sys2Proof.Machine.execBfma2 x s
  | .bmul2 x => Sys2Proof.Machine.execBmul2 x s
  | .bmin2 x => Sys2Proof.Machine.execBmin2 x s
  | .bmax2 x => Sys2Proof.Machine.execBmax2 x s
  | .ldB x => Sys2Proof.Machine.execLdB x s
  | .ldSb x => Sys2Proof.Machine.execLdSb x s
  | .ldH x => Sys2Proof.Machine.execLdH x s
  | .ldSh x => Sys2Proof.Machine.execLdSh x s
  | .ldW x => Sys2Proof.Machine.execLdW x s
  | .ldD x => Sys2Proof.Machine.execLdD x s
  | .ldQ x => Sys2Proof.Machine.execLdQ x s
  | .ldr x => Sys2Proof.Machine.execLdr x s
  | .ldrV4 x => Sys2Proof.Machine.execLdrV4 x s
  | .ldu x => Sys2Proof.Machine.execLdu x s
  | .lduD x => Sys2Proof.Machine.execLduD x s
  | .stB x => Sys2Proof.Machine.execStB x s
  | .stH x => Sys2Proof.Machine.execStH x s
  | .stW x => Sys2Proof.Machine.execStW x s
  | .stD x => Sys2Proof.Machine.execStD x s
  | .stQ x => Sys2Proof.Machine.execStQ x s
  | .str x => Sys2Proof.Machine.execStr x s
  | .strV4 x => Sys2Proof.Machine.execStrV4 x s
  | .stu x => Sys2Proof.Machine.execStu x s
  | .atomAdd x => Sys2Proof.Machine.execAtomAdd x s
  | .atomMin x => Sys2Proof.Machine.execAtomMin x s
  | .atomMax x => Sys2Proof.Machine.execAtomMax x s
  | .atomUmin x => Sys2Proof.Machine.execAtomUmin x s
  | .atomUmax x => Sys2Proof.Machine.execAtomUmax x s
  | .atomAnd x => Sys2Proof.Machine.execAtomAnd x s
  | .atomOr x => Sys2Proof.Machine.execAtomOr x s
  | .atomXor x => Sys2Proof.Machine.execAtomXor x s
  | .atomXchg x => Sys2Proof.Machine.execAtomXchg x s
  | .atomCas x => Sys2Proof.Machine.execAtomCas x s
  | .atomFadd x => Sys2Proof.Machine.execAtomFadd x s
  | .atomAdd64 x => Sys2Proof.Machine.execAtomAdd64 x s
  | .atomXchg64 x => Sys2Proof.Machine.execAtomXchg64 x s
  | .atomCas64 x => Sys2Proof.Machine.execAtomCas64 x s
  | .redAdd x => Sys2Proof.Machine.execRedAdd x s
  | .redMin x => Sys2Proof.Machine.execRedMin x s
  | .redMax x => Sys2Proof.Machine.execRedMax x s
  | .redUmin x => Sys2Proof.Machine.execRedUmin x s
  | .redUmax x => Sys2Proof.Machine.execRedUmax x s
  | .redAnd x => Sys2Proof.Machine.execRedAnd x s
  | .redOr x => Sys2Proof.Machine.execRedOr x s
  | .redXor x => Sys2Proof.Machine.execRedXor x s
  | .redFadd x => Sys2Proof.Machine.execRedFadd x s
  | .waitc x => Sys2Proof.Machine.execWaitc x s
  | .waita x => Sys2Proof.Machine.execWaita x s
  | .waitae x => Sys2Proof.Machine.execWaitae x s
  | .depo x => Sys2Proof.Machine.execDepo x s
  | .warv x => Sys2Proof.Machine.execWarv x s
  | .probe x => Sys2Proof.Machine.execProbe x s
  | .resreq x => Sys2Proof.Machine.execResreq x s
  | .pref x => Sys2Proof.Machine.execPref x s
  | .prefL2 x => Sys2Proof.Machine.execPrefL2 x s
  | .clwb x => Sys2Proof.Machine.execClwb x s
  | .invl x => Sys2Proof.Machine.execInvl x s
  | .nop => Sys2Proof.Machine.execNop s
  | .bra x => Sys2Proof.Machine.execBra x s
  | .brc x => Sys2Proof.Machine.execBrc x s
  | .brcAny x => Sys2Proof.Machine.execBrcAny x s
  | .brcAll x => Sys2Proof.Machine.execBrcAll x s
  | .brcU x => Sys2Proof.Machine.execBrcU x s
  | .bri a => Sys2Proof.Machine.execBri a s
  | .join => Sys2Proof.Machine.execJoin s
  | .call x => Sys2Proof.Machine.execCall x s
  | .calli a => Sys2Proof.Machine.execCalli a s
  | .ret => Sys2Proof.Machine.execRet s
  | .exit => Sys2Proof.Machine.execExit s
  | .reord k key => Sys2Proof.Machine.execReord k key s
  | .spawn k a1 a0 => Sys2Proof.Machine.execSpawn k a1 a0 s
  | .spawnW k a1 a0 => Sys2Proof.Machine.execSpawnW k a1 a0 s
  | .spawnAt k a1 a0 => Sys2Proof.Machine.execSpawnAt k a1 a0 s
  | .trap code => Sys2Proof.Machine.execTrap code s
  | .bkpt code => Sys2Proof.Machine.execBkpt code s
  | .eret => Sys2Proof.Machine.execEret s
  | .yield => Sys2Proof.Machine.execYield s
  | .wsleep a => Sys2Proof.Machine.execWsleep a s
  | .halt => Sys2Proof.Machine.execHalt s
  | .icinv scope => Sys2Proof.Machine.execIcinv scope s
  | .csrr num r => Sys2Proof.Machine.execCsrr num r s
  | .csrw num r => Sys2Proof.Machine.execCsrw num r s
  | .csrs num r => Sys2Proof.Machine.execCsrs num r s
  | .csrc num r => Sys2Proof.Machine.execCsrc num r s
  | .copyGs x => Sys2Proof.Machine.execCopyGs x s
  | .copySg x => Sys2Proof.Machine.execCopySg x s
  | .copySs x => Sys2Proof.Machine.execCopySs x s
  | .copyMc x => Sys2Proof.Machine.execCopyMc x s
  | .mma x => Sys2Proof.Machine.execMma x s
  | .mmaT x => Sys2Proof.Machine.execMmaT x s
  | .mmaz x => Sys2Proof.Machine.execMmaz x s
  | .mzero x => Sys2Proof.Machine.execMzero x s
  | .mld x => Sys2Proof.Machine.execMld x s
  | .mst x => Sys2Proof.Machine.execMst x s
  | .mrd x => Sys2Proof.Machine.execMrd x s
  | .mwr x => Sys2Proof.Machine.execMwr x s
  | .mdrain x => Sys2Proof.Machine.execMdrain x s
  | .mfill x => Sys2Proof.Machine.execMfill x s
  | .neval x => Sys2Proof.Machine.execNeval x s
  | .nevalU x => Sys2Proof.Machine.execNevalU x s
  | .nevalF32 x => Sys2Proof.Machine.execNevalF32 x s
  | .tex x => Sys2Proof.Machine.execTex x s
  | .texL x => Sys2Proof.Machine.execTexL x s
  | .texB x => Sys2Proof.Machine.execTexB x s
  | .texD x => Sys2Proof.Machine.execTexD x s
  | .texG x => Sys2Proof.Machine.execTexG x s
  | .texn x => Sys2Proof.Machine.execTexn x s
  | .tld x => Sys2Proof.Machine.execTld x s
  | .tqry x => Sys2Proof.Machine.execTqry x s
  | .trace x => Sys2Proof.Machine.execTrace x s
  | .traceA x => Sys2Proof.Machine.execTraceA x s
  | .dload x => Sys2Proof.Machine.execDload x s
  | .dwin x => Sys2Proof.Machine.execDwin x s
  | .dlaunch x => Sys2Proof.Machine.execDlaunch x s
  | .dlaunchR x => Sys2Proof.Machine.execDlaunchR x s
  | .dcapt x => Sys2Proof.Machine.execDcapt x s
  | .dcaptW x => Sys2Proof.Machine.execDcaptW x s
  | .dreset x => Sys2Proof.Machine.execDreset x s
  | .gsub x => Sys2Proof.Machine.execGsub x s
  | .gabort x => Sys2Proof.Machine.execGabort x s
  | .gstop x => Sys2Proof.Machine.execGstop x s
  | .gqry x => Sys2Proof.Machine.execGqry x s
  | .ghint x => Sys2Proof.Machine.execGhint x s
  | .gwait x => Sys2Proof.Machine.execGwait x s
  | .trel x => Sys2Proof.Machine.execTrel x s
  | .tlsig x => Sys2Proof.Machine.execTlsig x s
  | .tlwait x => Sys2Proof.Machine.execTlwait x s
  | .tlrd x => Sys2Proof.Machine.execTlrd x s
  | .tlset x => Sys2Proof.Machine.execTlset x s
  | .mbrecv x => Sys2Proof.Machine.execMbrecv x s
  | .mbsend x => Sys2Proof.Machine.execMbsend x s
  | .dbgsend x => Sys2Proof.Machine.execDbgsend x s
  | .clauseFetch => Sys2Proof.Machine.execClauseFetch s
  | .pendingTrap => Sys2Proof.Machine.execPendingTrap s
  | .sqDrain w n => Sys2Proof.Machine.execSqDrain w n s
  | .propagate view blk => Sys2Proof.Machine.execPropagate view blk s
  | .drop view blk => Sys2Proof.Machine.execDrop view blk s
  | .depoDeliver w n => Sys2Proof.Machine.execDepoDeliver w n s
  | .heldDepositDeliver w => Sys2Proof.Machine.execHeldDepositDeliver w s
  | .warvPass w pb => Sys2Proof.Machine.execWarvPass w pb s
  | .waitaTest w pb => Sys2Proof.Machine.execWaitaTest w pb s
  | .wsleepExpiry w pb => Sys2Proof.Machine.execWsleepExpiry w pb s
  | .icinvComplete w pb => Sys2Proof.Machine.execIcinvComplete w pb s
  | .mshrRelease core n => Sys2Proof.Machine.execMshrRelease core n s
  | .engineStart id => Sys2Proof.Machine.execEngineStart id s
  | .copyComplete id => Sys2Proof.Machine.execCopyComplete id s
  | .mxeComplete id => Sys2Proof.Machine.execMxeComplete id s
  | .batonTimeout core key => Sys2Proof.Machine.execBatonTimeout core key s
  | .batonTileDone id => Sys2Proof.Machine.execBatonTileDone id s
  | .texComplete id => Sys2Proof.Machine.execTexComplete id s
  | .traceComplete id => Sys2Proof.Machine.execTraceComplete id s
  | .dashComplete id => Sys2Proof.Machine.execDashComplete id s
  | .reordTimeout wg n => Sys2Proof.Machine.execReordTimeout wg n s
  | .reordRepack wg n => Sys2Proof.Machine.execReordRepack wg n s
  | .spawnEnqueue w pb => Sys2Proof.Machine.execSpawnEnqueue w pb s
  | .workgroupPlace part => Sys2Proof.Machine.execWorkgroupPlace part s
  | .childPlace core => Sys2Proof.Machine.execChildPlace core s
  | .taskRetire part g p k => Sys2Proof.Machine.execTaskRetire part g p k s
  | .tileClosure w pb => Sys2Proof.Machine.execTileClosure w pb s
  | .passAgeing part g p => Sys2Proof.Machine.execPassAgeing part g p s
  | .pwrbudRefresh part => Sys2Proof.Machine.execPwrbudRefresh part s
  | .graphTeardown part g => Sys2Proof.Machine.execGraphTeardown part g s
  | .eventEnqueue part => Sys2Proof.Machine.execEventEnqueue part s
  | .gsubAccept w pb => Sys2Proof.Machine.execGsubAccept w pb s
  | .mbrecvDequeue w pb => Sys2Proof.Machine.execMbrecvDequeue w pb s
  | .mbsendEnqueue w pb => Sys2Proof.Machine.execMbsendEnqueue w pb s
  | .dbgsendAppend w pb => Sys2Proof.Machine.execDbgsendAppend w pb s
  | .waveFreeze w => Sys2Proof.Machine.execWaveFreeze w s
  | .pcmdCreate part => Sys2Proof.Machine.execPcmdCreate part s
  | .pcmdDestroy part => Sys2Proof.Machine.execPcmdDestroy part s
  | .pcmdStartPacer part => Sys2Proof.Machine.execPcmdStartPacer part s
  | .pcmdPartitionReset part => Sys2Proof.Machine.execPcmdPartitionReset part s
  | .pcmdPreempt part => Sys2Proof.Machine.execPcmdPreempt part s
  | .pcmdResume part => Sys2Proof.Machine.execPcmdResume part s
  | .registerWrite fn off v => Sys2Proof.Machine.execRegisterWrite fn off v s
  | .mbin vf m off data => Sys2Proof.Machine.execMbin vf m off data s
  | .mbpop vf v => Sys2Proof.Machine.execMbpop vf v s
  | .dbgdata vf => Sys2Proof.Machine.execDbgdata vf s
  | .tlbinv vf v => Sys2Proof.Machine.execTlbinv vf v s
  | .tlbinvComplete part => Sys2Proof.Machine.execTlbinvComplete part s
  | .hostBar2Write vf addr data => Sys2Proof.Machine.execHostBar2Write vf addr data s
  | .hostBar2Read vf addr n => Sys2Proof.Machine.execHostBar2Read vf addr n s
  | .fwcmdRecovery => Sys2Proof.Machine.execFwcmdRecovery s
  | .fwcmdUpdate => Sys2Proof.Machine.execFwcmdUpdate s
  | .attgo => Sys2Proof.Machine.execAttgo s
  | .attestReportReady => Sys2Proof.Machine.execAttestReportReady s
  | .errgd => Sys2Proof.Machine.execErrgd s
  | .errhw => Sys2Proof.Machine.execErrhw s
  | .errsp => Sys2Proof.Machine.execErrsp s
  | .errpar => Sys2Proof.Machine.execErrpar s
  | .patrolScrub hw loc => Sys2Proof.Machine.execPatrolScrub hw loc s
  | .deviceReset => Sys2Proof.Machine.execDeviceReset s
  | .vfReset vf => Sys2Proof.Machine.execVfReset vf s
  | .linkDown => Sys2Proof.Machine.execLinkDown s
  | .reenumeration => Sys2Proof.Machine.execReenumeration s
  | .flitReplay => Sys2Proof.Machine.execFlitReplay s
  | .linkRetrainFail => Sys2Proof.Machine.execLinkRetrainFail s
  | .clockThrottle => Sys2Proof.Machine.execClockThrottle s
  | .clockRestore => Sys2Proof.Machine.execClockRestore s
  | .thermalFatal => Sys2Proof.Machine.execThermalFatal s
  | .softError strct loc single => Sys2Proof.Machine.execSoftError strct loc single s

end Sys2Proof.Machine
end

