-- ==== Sys2Proof/WellFormed.lean ====
section
/-! DEFINITION. Which terms of Instr are instructions of the machine: every field that must hold a fixed value holds it
(R215 to R217, R221 check 2), a word that is not there is zero, and an event names things that exist. -/

namespace Sys2Proof

/-- The arguments of an event lie in the ranges of what they name (R10, R101, R105, R372, R377). -/
def eventOk : Instr → Bool
  | .sqDrain w _ => w < 2 ^ 32
  | .propagate view blk => view < 323 && blk < 2 ^ 64
  | .drop view blk => view < 323 && blk < 2 ^ 64
  | .depoDeliver w _ => w < 2 ^ 32
  | .heldDepositDeliver w => w < 24576
  | .warvPass w _ => w < 24576
  | .waitaTest w _ => w < 24576
  | .wsleepExpiry w _ => w < 24576
  | .icinvComplete w _ => w < 24576
  | .mshrRelease core i => core < 256 && i < 64
  | .batonTimeout core _ => core < 256
  | .spawnEnqueue w _ => w < 24576
  | .workgroupPlace part => part < 20
  | .childPlace core => core < 256
  | .taskRetire part g p k => part < 20 && g < 4 && p < 64 && k < 65536
  | .tileClosure w _ => w < 24576
  | .passAgeing part g p => part < 20 && g < 4 && p < 64
  | .pwrbudRefresh part => part < 20
  | .graphTeardown part g => part < 20 && g < 4
  | .eventEnqueue part => part < 20
  | .gsubAccept w _ => w < 24576
  | .mbrecvDequeue w _ => w < 24576
  | .mbsendEnqueue w _ => w < 24576
  | .dbgsendAppend w _ => w < 24576
  | .waveFreeze w => w < 24576
  | .pcmdCreate part => part < 20
  | .pcmdDestroy part => part < 20
  | .pcmdStartPacer part => part < 20
  | .pcmdPartitionReset part => part < 20
  | .pcmdPreempt part => part < 20
  | .pcmdResume part => part < 20
  | .registerWrite fn _ _ => fn < 129
  | .mbin vf m off data => vf < 128 && m < 12 && off + data.length ≤ 64
  | .mbpop vf _ => vf < 128
  | .dbgdata vf => vf < 128
  | .tlbinv vf _ => vf < 128
  | .tlbinvComplete part => part < 20
  | .hostBar2Write vf _ _ => vf < 129
  | .hostBar2Read vf _ _ => vf < 128
  | .vfReset vf => vf < 128
  | .softError strct _ _ => strct < 8
  | _ => true

/-- A well-formed instruction or event. -/
def Instr.wf (i : Instr) : Bool := fixedOk i (headWord i) && unusedWords i == 0 && eventOk i

end Sys2Proof
end

