-- ==== Sys2Proof/Machine/Issue.lean ====
section
/-! DEFINITION. What surrounds an instruction's meaning in a step: the scoreboard (R25, R206, R323), the time it takes
(R23, R53), the counters of R165, dual issue (R30 to R32, R280, R369), time itself, and the moves that the machine makes on
its own when the agenda names none. -/

namespace Sys2Proof.Machine

/-! Registers that an instruction reads and writes, as ranges of specifiers. -/

/-- Ranges (first specifier, number) of v, s and predicate registers. -/
structure Uses where
  reads : List (Nat × Nat)
  writes : List (Nat × Nat)
  deriving DecidableEq, Repr

/-- A 7-bit field of the first word is not fixed by the encoding. -/
def fieldFree (i : Instr) (sh : Nat) : Bool := (fixedBits i).1.extractLsb' sh 7 != 0x7F

/-- D is read as a third source (R236). -/
def accumulates : Instr → Bool
  | .imad _ => true
  | .sad _ => true
  | .imin3 _ => true
  | .imax3 _ => true
  | .minadd _ => true
  | .minaddU _ => true
  | .idp4 _ => true
  | .idp4u _ => true
  | .iadd3 _ => true
  | .imadWide _ => true
  | .bfi _ => true
  | .ffma _ => true
  | .ffmaRz _ => true
  | .ffmaRd _ => true
  | .ffmaRu _ => true
  | .fdot2 _ => true
  | .bfdot2 _ => true
  | .hfma2 _ => true
  | .bfma2 _ => true
  | _ => false

/-- Widths of D, A and B in registers (R231). -/
def vecWidths : Instr → Nat × Nat × Nat
  | .iadd64 _ => (2, 2, 2)
  | .isub64 _ => (2, 2, 2)
  | .imulWide _ => (2, 1, 1)
  | .imadWide _ => (2, 1, 1)
  | .shl64 _ => (2, 2, 1)
  | .shr64 _ => (2, 2, 1)
  | .ballot _ => (2, 1, 1)
  | _ => (1, 1, 1)

/-- Sources of a vector instruction: A, B (of LOP3 the registers of its control word, R245), and SEL's predicate; with each
whether it is a last read. -/
def vecSrcs (i : Instr) : List (Nat × Nat × Bool) :=
  let w := headWord i
  let (_, na, nb) := vecWidths i
  let imm := !vecHasLit (fldOp w).toNat
  let srcA := if fieldFree i 15 then [((fldA w).toNat, na, w.getLsbD (if imm then 31 else 29))] else []
  let srcB := if !imm && fieldFree i 22 then [((fldB w).toNat, nb, w.getLsbD 30)] else []
  match i with
  | .sel x => (srcA ++ srcB).map (fun e => (e.1, e.2.1, false)) ++ [(0x60 + x.p.toNat, 1, false)]
  | .lop3 x => srcA ++ [((lopB x).toNat, 1, x.lit.getLsbD 22), ((lopC x).toNat, 1, x.lit.getLsbD 23)]
  | _ => srcA ++ srcB

def vecUses (i : Instr) : Uses :=
  let dst := if fieldFree i 8 then [((fldD (headWord i)).toNat, (vecWidths i).1)] else []
  { reads := (vecSrcs i).map (fun e => (e.1, e.2.1)) ++ (if accumulates i then dst else []), writes := dst }

/-- Registers of T, and whether an instruction writes it, reads it, or has none. -/
inductive TUse where
  | reads (n : Nat)
  | writes (n : Nat)
  | none
  deriving DecidableEq, Repr

def memT : Instr → TUse
  | .ldD _ => .writes 2
  | .ldQ _ => .writes 4
  | .ldrV4 _ => .writes 4
  | .lduD _ => .writes 2
  | .stD _ => .reads 2
  | .stQ _ => .reads 4
  | .strV4 _ => .reads 4
  | .atomAdd64 _ => .writes 2
  | .atomXchg64 _ => .writes 2
  | .atomCas64 _ => .writes 2
  | .stB _ => .reads 1
  | .stH _ => .reads 1
  | .stW _ => .reads 1
  | .str _ => .reads 1
  | .stu _ => .reads 1
  | .waita _ => .reads 1
  | .waitae _ => .reads 1
  | .resreq _ => .reads 1
  | .waitc _ => .none
  | .depo _ => .none
  | .warv _ => .none
  | .pref _ => .none
  | .prefL2 _ => .none
  | .clwb _ => .none
  | .invl _ => .none
  | .redAdd _ => .none
  | .redMin _ => .none
  | .redMax _ => .none
  | .redUmin _ => .none
  | .redUmax _ => .none
  | .redAnd _ => .none
  | .redOr _ => .none
  | .redXor _ => .none
  | .redFadd _ => .none
  | _ => .writes 1

/-- Register operands in the extension of an atomic or reduction (R311). -/
def memBC (i : Instr) (ext : Word) : List (Nat × Nat) :=
  let b := (ext.extractLsb' 0 7).toNat
  let c := (ext.extractLsb' 7 7).toNat
  match i with
  | .atomCas _ => [(b, 1), (c, 1)]
  | .atomCas64 _ => [(b, 2), (c, 2)]
  | .atomAdd64 _ => [(b, 2)]
  | .atomXchg64 _ => [(b, 2)]
  | _ => if 0x20 ≤ (fldOp (headWord i)).toNat && (fldOp (headWord i)).toNat < 0x40 then [(b, 1)] else []

/-- Registers of A: a pair where SPACE 0 addresses memory, one where it is an offset or a value (R74, R302). -/
def memA (i : Instr) : Nat :=
  match i with
  | .waitc _ => 0
  | .ldr _ => 1
  | .ldrV4 _ => 1
  | .str _ => 1
  | .strV4 _ => 1
  | .depo _ => 1
  | .warv _ => 1
  | _ => if (headWord i).extractLsb' 22 3 = 0 then 2 else 1

def memUses (i : Instr) : Uses :=
  let w := headWord i
  let t := (fldD w).toNat
  let srcA := if memA i = 0 then [] else [((fldA w).toNat, memA i)]
  let bc := memBC i ((extWord i).getD 0)
  match memT i with
  | .reads n => { reads := (t, n) :: srcA ++ bc, writes := [] }
  | .writes n => { reads := srcA ++ bc, writes := [(t, n)] }
  | .none => { reads := srcA ++ bc, writes := [] }

def ctlUses : Instr → Uses
  | .brc x => { reads := [(0x60 + x.p.toNat, 1)], writes := [] }
  | .brcAny x => { reads := [(0x60 + x.p.toNat, 1)], writes := [] }
  | .brcAll x => { reads := [(0x60 + x.p.toNat, 1)], writes := [] }
  | .brcU x => { reads := [(0x60 + x.p.toNat, 1)], writes := [] }
  | .reord _ key => { reads := [(key.toNat, 1)], writes := [] }
  | .spawn _ a1 a0 => { reads := [(a0.toNat, 1), (a1.toNat, 1)], writes := [] }
  | .spawnW _ a1 a0 => { reads := [(a0.toNat, 1), (a1.toNat, 1)], writes := [] }
  | .spawnAt _ a1 a0 => { reads := [(a0.toNat, 1), (a1.toNat, 1)], writes := [] }
  | .wsleep a => { reads := [(a.toNat, 1)], writes := [] }
  | .bri a => { reads := [(a.toNat, 2)], writes := [] }
  | .calli a => { reads := [(a.toNat, 2)], writes := [(0x5E, 2)] }
  | .call _ => { reads := [], writes := [(0x5E, 2)] }
  | .ret => { reads := [(0x5E, 2)], writes := [] }
  | .csrr _ r => { reads := [], writes := [(r.toNat, 2)] }
  | .csrw _ r => { reads := [(r.toNat, 2)], writes := [] }
  | .csrs _ r => { reads := [(r.toNat, 2)], writes := [] }
  | .csrc _ r => { reads := [(r.toNat, 2)], writes := [] }
  | _ => { reads := [], writes := [] }

/-- v registers and predicate that an engine operation writes at its completion (R323). -/
def engDest (op : Nat) (x : FE) : List (Nat × Nat) :=
  let d := x.d.toNat
  if op = 0x16 then [(d, 1)]
  else if op = 0x20 || op = 0x21 then [(d, (nvM x + 1) / 2), (0x60 + nvPred x, 1)]
  else if op = 0x22 then [(d, nvM x), (0x60 + nvPred x, 1)]
  else if op = 0x2D then [(d, 2), (0x60 + txPred x, 1)]
  else if 0x28 ≤ op && op < 0x30 then [(d, 4)]
  else if op = 0x30 || op = 0x31 then [(d, 4), (0x60 + txPred x, 1)]
  else []

/-- Registers that an engine instruction reads by ranges: with COPY's completion quad, MMA's format pair and MDRAIN's
address pair. -/
def engSrcs (op : Nat) (x : FE) : List (Nat × Nat) :=
  let a := x.a.toNat
  let b := x.b.toNat
  let d := x.d.toNat
  if op < 0x04 && cpWord x then [(d, 4), (a, 1), (b, 1)]
  else if 0x10 ≤ op && op ≤ 0x12 then [(d, 2), (a, 1), (b, 1)]
  else if op = 0x18 || op = 0x19 then [(a, 2), (b, 1)]
  else if 0x20 ≤ op && op < 0x28 then [(a, 1), (b, (nvN x + 1) / 2)]
  else if 0x28 ≤ op && op < 0x30 then [(a, (texRegs op).1), (b, (texRegs op).2)]
  else if op = 0x30 || op = 0x31 then [(a, 8)]
  else [(a, 1), (b, 1)]

def engUses (i : Instr) : Uses :=
  let w := headWord i
  let x := FE.of w ((extWord i).getD 0) 0
  { reads := engSrcs (fldOp w).toNat x, writes := engDest (fldOp w).toNat x }

/-- The s registers of the GRF instructions (R357). -/
def grfUses : Instr → Uses
  | .gsub x => { reads := [(x.a.toNat, 2)], writes := [(x.d.toNat, 1)] }
  | .gabort x => { reads := [(x.a.toNat, 1)], writes := [] }
  | .gstop x => { reads := [(x.a.toNat, 1)], writes := [] }
  | .gqry x => { reads := [(x.a.toNat, 1), (x.b.toNat, 1)], writes := [(x.d.toNat, 1)] }
  | .tlsig x => { reads := [(x.a.toNat, 2), (x.b.toNat, 1)], writes := [] }
  | .tlwait x => { reads := [(x.a.toNat, 2), (x.b.toNat, 1)], writes := [(x.d.toNat, 1)] }
  | .tlrd x => { reads := [(x.b.toNat, 1)], writes := [(x.d.toNat, 2)] }
  | .tlset x => { reads := [(x.a.toNat, 2), (x.b.toNat, 1)], writes := [] }
  | .mbrecv x => { reads := [(x.a.toNat, 1), (x.b.toNat, 1)], writes := [(x.d.toNat, 1)] }
  | .mbsend x => { reads := [(x.a.toNat, 1), (x.b.toNat, 1)], writes := [] }
  | .dbgsend x => { reads := [(x.a.toNat, 1)], writes := [] }
  | _ => { reads := [], writes := [] }

/-- What an instruction reads and writes. -/
def usesOf (i : Instr) : Uses :=
  match classOf i with
  | some 0 => vecUses i
  | some 1 => memUses i
  | some 2 => ctlUses i
  | some 3 => engUses i
  | some 4 => grfUses i
  | _ => { reads := [], writes := [] }

/-! The scoreboard. -/

/-- Two ranges of specifiers meet; p0 is never pending (R56). -/
def meets (a b : Nat × Nat) : Bool :=
  decide (0 < a.2 ∧ 0 < b.2 ∧ a.1 < b.1 + b.2 ∧ b.1 < a.1 + a.2) && b.1 != 0x60

/-- The destination of a memory instruction that waits for miss-status entries: it becomes ready with its last value (R304). -/
def mshrDest (x : Path) : List (Nat × Nat) :=
  match x.wait with
  | .mshr (.once wide) m _ _ => [(m.t.toNat, if wide then 2 else 1)]
  | .mshr act m _ _ => [(m.t.toNat, act.regs)]
  | _ => []

/-- Registers of a wave that operations under way still write: engines, loads and atomics that wait for miss-status entries,
and atomics in its SQ. -/
def pendingRegs (s : State) (w : Nat) (v : Wave) : List (Nat × Nat) :=
  (allPaths v).flatMap mshrDest ++ (s.ops.filter (fun o => o.wave = w)).flatMap (fun o => engDest o.op o.x) ++
    v.sq.flatMap (fun e => match e.kind with
      | .atom _ wide _ _ (some (r, _)) => [(r, if wide then 2 else 1)]
      | _ => [])

/-- The scoreboard holds an instruction that has not issued yet (R25, R323). -/
def heldBack (s : State) (c : Ctx) (i : Instr) : Bool :=
  !midInstr c.path &&
    (pendingRegs s c.w c.wave).any (fun b => (usesOf i).reads.any (fun a => meets a b) || (usesOf i).writes.any (fun a => meets a b))

/-! The instruction at a path's PC. -/

/-- What stands at a PC inside a fetched clause: an instruction, or a word that none is (R221), with that word. -/
inductive Here where
  | header
  | instr (i : Instr)
  | reject (w : Word)
  deriving DecidableEq, Repr

/-- The class and the words from the PC to the clause's end. -/
def wordsLeft (x : Path) : Option (Nat × List Word) :=
  match x.code with
  | some cl => if inClause cl x.pc then some (headClass cl.head, cl.words.drop ((x.pc - cl.base) / 4 - 1)) else none
  | none => none

noncomputable def hereAt (x : Path) : Here :=
  match wordsLeft x with
  | none => .header
  | some (cls, ws) =>
    match decodeWords cls ws with
    | .ok (i, _) => .instr i
    | .error _ => .reject (ws.headD 0)

/-! Time. -/

/-- The cores count a cycle (R165, CYCLES). -/
def countCycles (n : Nat) (k : Core) : Core :=
  { k with perf0 := perfOne 1 n k.perf0, perf1 := perfOne 1 n k.perf1, perf2 := perfOne 1 n k.perf2, perf3 := perfOne 1 n k.perf3 }

/-- The state an answer leads to. -/
def orSame (s : State) (a : Answer) : State := match a with | .next t => t | _ => s

/-- PWRBUD is refreshed when time passes a multiple of 10 µs (R164). -/
def dueBudget (s : State) : State := (s.parts.map (·.1)).foldl (fun s n => orSame s (execPwrbudRefresh n s)) s

/-- A held deposit is delivered in the first cycle in which its target's ACNT has room (R154). -/
def dueDeposits (s : State) : State :=
  { s with waves := s.waves.map (fun e => if e.2.heldDeps.isEmpty then e else (e.1, dueHelds e.2)) }

/-- Queued passes age (R108). -/
def dueAgeing (s : State) : State :=
  s.parts.foldl (fun s p => p.2.graphs.foldl (fun s g =>
    (List.range g.2.passes.length).foldl (fun s i => orSame s (execPassAgeing p.1 g.1 i s)) s) s) s

/-- Open collections close 256 cycles after their first wave parked (R33). -/
def dueReord (s : State) : State :=
  s.waves.foldl (fun s e =>
    if setOf e.2 == some 0 && decide (e.2.parkedAt + 256 ≤ s.dev.cycle) then orSame s (execReordTimeout e.2.wg e.1 s) else s) s

/-- Filling Baton tiles are dispatched 64 cycles after their first row (R337). -/
def dueBaton (s : State) : State :=
  s.btiles.foldl (fun s t =>
    if !t.dispatched && decide (t.openedAt + 64 ≤ s.dev.cycle) then orSame s (execBatonTimeout t.core t.id s) else s) s

/-- n cycles pass on the clocks. -/
def passCycles (s : State) (n : Nat) : State :=
  { s with dev := { s.dev with cycle := s.dev.cycle + n, time := s.dev.time + n * (10 * Config.unitsPerNs / s.dev.clock) } }

/-- n cycles pass, at most 1000 of them, and what falls due in them happens; a device that boots has booted. In the fatal
state only the clocks go on (R386, entry 45). -/
def advanceTime (s : State) (n0 : Nat) : State :=
  let n := Nat.min n0 1000
  let s1 := passCycles s n
  if s.dev.stat = .fatal then s1
  else bootRom (dueBaton (dueReord (dueAgeing (dueBudget (dueDeposits
    { s1 with cores := s1.cores.map (fun e => (e.1, countCycles n e.2)) })))))

/-! What an issue takes and counts. -/

/-- The unit classes of R30: INT 0, LANE 1, FP 2, XU 3, MEM 4, CTL 5, ENG 6, GRF 7. -/
def unitOf (i : Instr) : Nat :=
  match classOf i with
  | some 0 =>
    let o := (fldOp (headWord i)).toNat
    if o < 0x48 then 0 else if o < 0x5C then 1 else if 0x88 ≤ o && o < 0x93 then 3 else 2
  | some k => 3 + k
  | none => 99

/-- Beats of a wave, and those of a mask that hold an active thread (R23). -/
def beatsOf (v : Wave) : Nat := (v.threads.length + 15) / 16
def beatOn (m : Mask) (k : Nat) : Bool := m.extractLsb' (16 * k) 16 != 0

/-- A vector instruction issues beat by beat unless it writes an s register; a lane instruction does so then too (R254); a
memory instruction does unless it is made once for the wave (R23, R304). -/
def byBeats (i : Instr) : Bool :=
  match classOf i with
  | some 0 => unitOf i = 1 || !isSSpec (fldD (headWord i))
  | some 1 => match i with | .ldu _ => false | .lduD _ => false | .stu _ => false | _ => true
  | _ => false

/-- Cycles of the issue of an instruction without expansions. -/
def issueCycles (c : Ctx) (i : Instr) : Nat :=
  if byBeats i then Nat.max 1 (((List.range (beatsOf c.wave)).filter (beatOn c.mask)).length) else 1

/-- Beats skipped. -/
def skippedBeats (c : Ctx) (i : Instr) : Nat := if byBeats i then beatsOf c.wave - issueCycles c i else 0

/-- Ranges that an instruction reads for the last time. -/
def lastRanges (i : Instr) : List (Nat × Nat) :=
  match classOf i with
  | some 0 => ((vecSrcs i).filter (·.2.2)).map (fun e => (e.1, e.2.1))
  | some 1 => if (headWord i).getLsbD 30 then [((fldA (headWord i)).toNat, memA i)] else []
  | _ => []

/-- A v register holds a written copy that an instruction of a path does not release (R53, R54). -/
def keepsCopy (c : Ctx) (i : Instr) (r : Nat) : Bool :=
  let last := (lastRanges i).any (fun u => meets (r, 1) u)
  (List.range c.wave.threads.length).any (fun q => (vReg c.wave q r).isSome && !(last && c.mask.getLsbD q))

/-- Registers that an instruction's results have taken out of a compact form by an expansion (R53): those that some thread
still held written. A write by every unexited thread whose result is FULL is charged one too (entry 49, DEDUCED). -/
def expanded (c : Ctx) (i : Instr) (t : State) : Nat :=
  let n (v : Wave) : Nat := (c.wave.forms.filter (fun f => (formOf v f.1).isNone && keepsCopy c i f.1)).length
  match classOf i, getWave t c.w with
  | some 0, some v => n v
  | some 1, some v => n v
  | _, _ => 0

/-- The path issued an instruction: it moved, or its wave halted, and it is not held at issue. An instruction that waits
issued before. One that takes a trap counts; a word that is no instruction does not (entry 53, DESIGN CHOICE). -/
def didIssue (c : Ctx) (t : State) : Bool :=
  (c.path.wait = .ready || c.path.wait = .stall) &&
    (match getWave t c.w with
     | none => true
     | some v =>
       (v.halted && !c.wave.halted) ||
       (match pathOf v c.pb with | some x => x != c.path && x.wait != .stall | none => true))

/-- HALT and EXIT stop a path or a wave by their own effect. -/
def stopsItself : Instr → Bool
  | .halt => true
  | .exit => true
  | _ => false

/-- A path's instruction took a trap or halted the wave by a fault. -/
def faulted (w : Nat) (v : Wave) (i : Instr) (t : State) : Bool :=
  match getWave t w with
  | none => !stopsItself i
  | some x => (x.saved.isSome && v.saved.isNone) || (x.halted && !v.halted && !stopsItself i)

/-- The PERFSEL register that a CSR instruction writes. -/
def perfWritten : Instr → Option Nat
  | .csrw n _ => perfIx n
  | .csrs n _ => perfIx n
  | .csrc n _ => perfIx n
  | _ => none
where
  perfIx (n : BitVec 12) : Option Nat := if 0x102 ≤ n.toNat ∧ n.toNat ≤ 0x105 then some (n.toNat - 0x102) else none

/-- Events of the cycle in which an instruction wrote a PERFSEL register are not counted there (R301): it keeps the value
that it had at that moment. -/
def keepPerf (c : Ctx) (i : Instr) (at_ t : State) : State :=
  let k := getCore at_ c.core
  let n := getCore t c.core
  if faulted c.w c.wave i at_ then t
  else match perfWritten i with
    | some 0 => setCore t c.core { n with perf0 := k.perf0 }
    | some 1 => setCore t c.core { n with perf1 := k.perf1 }
    | some 2 => setCore t c.core { n with perf2 := k.perf2 }
    | some _ => setCore t c.core { n with perf3 := k.perf3 }
    | none => t

/-- A wave that has issued in a cycle issues its next instruction once its operands are free (R25): how long that takes is
free (entry 59). -/
def busy (w cycle : Nat) (t : State) : State :=
  updWave t w (fun v => { v with freeAt := t.dev.cycle + Config.latency w cycle })

/-- The counters of R165 and the time of an issue. -/
def account (c : Ctx) (i : Instr) (t : State) : State :=
  if didIssue c t then
    let e := expanded c i t
    let t1 := perfAdd (perfAdd (perfAdd t c.core 2 1) c.core 4 (skippedBeats c i)) c.core 5 e
    busy c.w t.dev.cycle (keepPerf c i t (advanceTime t1 (issueCycles c i + e)))
  else advanceTime t 1

/-- What exec answers, with what surrounds it. -/
def around (c : Ctx) (i : Instr) (a : Answer) : Answer :=
  match a with
  | .next t => .next (account c i t)
  | .fault f => .fault f
  | .refused r => .refused r

/-- A decoded instruction at the path that cur names: held by the scoreboard, or issued. -/
def issueInstr (s : State) (c : Ctx) (i : Instr) : Answer :=
  if heldBack s c i then .next (advanceTime s 1) else around c i (exec i s)

/-! The next move of a path. -/

/-- A completion fault, WATCH, STEP or save trap is pending outside trap mode (R287). -/
def hasPending (v : Wave) : Bool := !wTrap v && (!v.faults.isEmpty || v.watch.isSome || v.step.isSome || v.save)

/-- It may be taken: every path stands at a boundary, and the save trap waits for the counters (R45, R153). -/
def pendingDue (v : Wave) : Bool :=
  atBoundary v && (!v.faults.isEmpty || v.watch.isSome || v.step.isSome || countersZero v)

/-- The path named by cur makes its next move: a pending trap, its clause's fetch, or its next instruction. -/
noncomputable def runPath (s : State) : Answer :=
  match ctxAt s s.cur s.curB with
  | none => .next s
  | some c =>
    if hasPending c.wave && atBoundary c.wave then exec .pendingTrap s
    else if atHeader c.path then exec .clauseFetch s
    else
      match hereAt c.path with
      | .instr i => issueInstr s c i
      | .reject w => .next (takeTrap s c.w c.pb (illegalOp w c.mask) c.path.pc)
      | .header => .next s

/-- A path at a wave becomes the one that issues. -/
def atPath (s : State) (w : Nat) (pb : Bool) : State := { s with cur := w, curB := pb }

/-! Dual issue (R30). -/

/-- An instruction writes an s register. -/
def writesS (i : Instr) : Bool := (usesOf i).writes.any (fun u => 0x40 ≤ u.1 && u.1 < 0x60)

/-- A range of v registers has one of which something holds. -/
def anyReg (u : Nat × Nat) (f : Nat → Bool) : Bool := decide (u.1 < 0x40) && (List.range u.2).any (fun k => f (u.1 + k))

/-- Operands held once for the wave: s registers, specials, and operands with a register in UNIFORM or AFFINE form; constants
and literals are not counted. -/
def onceOperands (v : Wave) (i : Instr) : Nat :=
  ((usesOf i).reads.filter (fun u =>
    anyReg u (fun r => (formOf v r).isSome) || (0x40 ≤ u.1 && u.1 < 0x60) || (0x68 ≤ u.1 && u.1 < 0x78))).length

/-- A destination must first be expanded (R53): one of its registers is in UNIFORM or AFFINE form and keeps a written copy. An
engine's results are written at its completion. -/
def mustExpand (c : Ctx) (i : Instr) : Bool :=
  (classOf i == some 0 || classOf i == some 1) &&
    (usesOf i).writes.any (fun u => anyReg u (fun r => (formOf c.wave r).isSome && keepsCopy c i r))

/-- The four conditions of R30. -/
def dualOk (a b : Ctx) (i j : Instr) : Bool :=
  unitOf i = unitOf j && !writesS i && !writesS j && !mustExpand a i && !mustExpand b j &&
    decide (onceOperands a.wave i + onceOperands b.wave j ≤ 2)

/-- Depth of a wave's divergence stack. -/
def depthOf (s : State) (w : Nat) : Nat := ((getWave s w).map (·.stack.length)).getD 0

/-- One WATCH for both paths: path A's, with the threads of both (R369). -/
def mergeWatch (w : Nat) (first : Option Pend) (s : State) : State :=
  match first with
  | none => s
  | some p => updWave s w (fun v => { v with watch := some { p with fmask := p.fmask ||| ((v.watch.map (·.fmask)).getD 0) } })

/-- W1C bits of WSTAT that an instruction of path A sets, whatever they were before. -/
def flagsSet (s : State) (w : Nat) (i : Instr) : DWord :=
  let clr (v : Wave) : Wave := { v with csr := { v.csr with wstat := v.csr.wstat &&& ~~~(csrW1c 0) } }
  match getWave (orSame s (exec i (atPath (updWave s w clr) w false))) w with
  | some v => v.csr.wstat &&& csrW1c 0
  | none => 0

/-- A flag that path A's instruction sets in the cycle in which path B's clears it is left at 1 (R301). -/
def keepFlags (s : State) (w : Nat) (i j : Instr) (t : State) : State :=
  let put : State := updWave t w (fun v => { v with csr := { v.csr with wstat := v.csr.wstat ||| flagsSet s w i } })
  match j with
  | .csrw n _ => if n = 0 then put else t
  | .csrc n _ => if n = 0 then put else t
  | _ => t

/-- STEP of path A's instruction stands on the path that a pop by path B's has left (R292). -/
def stepPopped (a : Ctx) (t : State) : State :=
  if depthOf t a.w < a.wave.stack.length then
    updWave t a.w (fun v => { v with step := v.step.map (fun p => { p with pathB := pathAfterPop a v }) })
  else t

/-- Path B's instruction after path A's, in one cycle: a match of a watchpoint by A is set aside meanwhile. -/
def secondOf (s s1 : State) (w : Nat) (j : Instr) : State :=
  let old := (getWave s w).bind (·.watch)
  let first := if old.isSome then none else (getWave s1 w).bind (·.watch)
  let s2 := if first.isSome then updWave s1 w (fun v => { v with watch := none }) else s1
  mergeWatch w first (orSame s2 (exec j (atPath s2 w true)))

/-- What a cycle of dual issue leaves: the state, and the state right after the instruction of each path that issued. -/
structure PairEnd where
  st : State
  a : Option State
  b : Option State

/-- The state after a path's instruction, where it issued. -/
def issuedAt (c : Ctx) (t : State) : Option State := if didIssue c t then some t else none

/-- The top entry of a wave's stack is set aside. -/
def hideTop (s : State) (w : Nat) : State := updWave s w (fun v => { v with stack := v.stack.drop 1 })
/-- And put back. -/
def showTop (p : Option Pair) (w : Nat) (s : State) : State := updWave s w (fun v => { v with stack := p.toList ++ v.stack })

/-- The effects of one cycle in which both paths of the top pair issue: A first, then B (R31). Where A faults, B's instruction
still completes, unless it faults too (R32) or divides its path. Where A divides its path, B's instruction takes effect on the
pair below the new one, unless it would divide its path too (R280) or faults; then B has not issued. -/
def dualPair (s : State) (a b : Ctx) (i j : Instr) : PairEnd :=
  let w := a.w
  let d := depthOf s w
  let sA := orSame s (exec i (atPath s w false))
  let onlyA : PairEnd := { st := sA, a := issuedAt a sA, b := none }
  if faulted w a.wave i sA then
    let sB := orSame s (exec j (atPath s w true))
    if faulted w b.wave j sB || depthOf sB w != d then onlyA
    else
      let t := orSame sB (exec i (atPath sB w false))
      { st := t, a := issuedAt a t, b := issuedAt b sB }
  else
    let deep := decide (d < depthOf sA w)
    let s1 := if deep then hideTop sA w else sA
    let t := stepPopped a (keepFlags s w i j (secondOf s s1 w j))
    if (ctxAt s1 w true).isNone || (deep && (faulted w b.wave j t || depthOf t w != d)) then onlyA
    else
      { st := if deep then showTop ((getWave sA w).bind (·.stack.head?)) w t else t, a := issuedAt a sA, b := issuedAt b t }

/-- Beats in which at least one, and in which both of two paths are active. -/
def eitherBeats (v : Wave) (a b : Mask) : Nat := ((List.range (beatsOf v)).filter (fun k => beatOn a k || beatOn b k)).length
def bothBeats (v : Wave) (a b : Mask) : Nat := ((List.range (beatsOf v)).filter (fun k => beatOn a k && beatOn b k)).length

/-- A path at an instruction that it may issue now. -/
def readyInstr (s : State) (c : Ctx) (i : Instr) : Bool := c.path.wait == .ready && !heldBack s c i

/-- The counters of R165 for one path of a pair. -/
def countPath (c : Ctx) (i : Instr) (r : Option State) (s : State) : State :=
  if r.isSome then perfAdd (perfAdd s c.core 2 1) c.core 4 (skippedBeats c i) else s

/-- Events are not counted in a PERFSEL register that the path wrote in their cycle (R301). -/
def keepPath (c : Ctx) (i : Instr) (r : Option State) (s : State) : State :=
  match r with | some t => keepPerf c i t s | none => s

/-- Cycles of a pair, and those in which both decoders issue. -/
def pairCycles (a b : Ctx) (i j : Instr) (p : PairEnd) : Nat × Nat :=
  match p.a, p.b with
  | some _, some _ =>
    if byBeats i && byBeats j then (Nat.max 1 (eitherBeats a.wave a.mask b.mask), bothBeats a.wave a.mask b.mask)
    else (Nat.max (issueCycles a i) (issueCycles b j), 1)
  | some _, none => (issueCycles a i, 0)
  | none, some _ => (issueCycles b j, 0)
  | none, none => (1, 0)

/-- The counters and the time of a pair. -/
def accountPair (a b : Ctx) (i j : Instr) (p : PairEnd) : State :=
  let (n, both) := pairCycles a b i j p
  let t := keepPath b j p.b (keepPath a i p.a
    (advanceTime (perfAdd (countPath a i p.a (countPath b j p.b p.st)) a.core 3 both) n))
  if p.a.isSome || p.b.isSome then busy a.w p.st.dev.cycle t else t

/-- Both paths of a wave issue in one cycle where R30 allows it; else the path pb makes its move. -/
noncomputable def runDual (s : State) (w : Nat) (pb : Bool) : Answer :=
  let alone := runPath (atPath s w pb)
  match ctxAt s w false, ctxAt s w true with
  | some a, some b =>
    if hasPending a.wave then alone
    else
      match hereAt a.path, hereAt b.path with
      | .instr i, .instr j =>
        if dualOk a b i j && readyInstr s a i && readyInstr s b j then
          .next (accountPair a b i j (dualPair (atPath s w true) a b i j))
        else alone
      | _, _ => alone
  | _, _ => alone

/-! Moves that need no choice: what the machine does on its own when the agenda names nothing. -/

/-- Events that a path's wait may bring. -/
noncomputable def waitEvents (w : Nat) (pb : Bool) (x : Path) : List Instr :=
  match x.wait with
  | .warv _ => [.warvPass w pb]
  | .sleep _ => [.wsleepExpiry w pb]
  | .icinv _ => [.icinvComplete w pb]
  | .spawn => [.spawnEnqueue w pb]
  | .mbrecv _ _ _ => [.mbrecvDequeue w pb]
  | .mbsend _ _ => [.mbsendEnqueue w pb]
  | .dbgsend _ => [.dbgsendAppend w pb]
  | .gsub _ _ _ => [.gsubAccept w pb]
  | .trel => [.tileClosure w pb]
  | .waita .. => [.waitaTest w pb]
  | _ => []

/-- Entries of an SQ that may leave. -/
noncomputable def sqEvents (w : Nat) (sq : List SqEntry) : List Instr := (List.range sq.length).flatMap (fun i => [.sqDrain w i, .depoDeliver w i])

noncomputable def waveEvents (w : Nat) (v : Wave) : List Instr :=
  sqEvents w v.sq ++ (if v.heldDeps.isEmpty then [] else [.heldDepositDeliver w]) ++
    ([false, true].flatMap (fun pb => match pathOf v pb with | some x => waitEvents w pb x | none => [])) ++
    (match setOf v with | some (n + 1) => [.reordRepack v.wg (n + 1)] | _ => []) ++ (if v.freezing then [.waveFreeze w] else [])

noncomputable def opEvents (o : EngOp) : List Instr :=
  if !o.started then [.engineStart o.id]
  else
    match engOfOp o.op with
    | .copy => [.copyComplete o.id]
    | .matrix => [.mxeComplete o.id]
    | .baton => []
    | .sampler => [.texComplete o.id]
    | .trace => [.traceComplete o.id]
    | .dash => [.dashComplete o.id]

noncomputable def coreEvents (n : Nat) (k : Core) : List Instr :=
  (if k.mshr.isEmpty && k.mwait.isEmpty then [] else (List.range (k.mshr.length + 1)).map (fun i => .mshrRelease n i)) ++
    (if k.icinv.isEmpty then [] else [.icinvComplete (n * Config.slotsPerCore) false]) ++ (if k.spawnq.isEmpty then [] else [.childPlace n])

/-- Tasks in flight of a graph. -/
noncomputable def taskEvents (part g : Nat) (x : Graph) : List Instr :=
  (x.passes.zipIdx).flatMap (fun (e : PassSt × Nat) => e.1.tasks.filterMap (fun t =>
    match t.2.st with
    | .placed _ => some (.taskRetire part g e.2 t.1)
    | _ => none))

noncomputable def graphEvents (part : Nat) (e : Nat × Graph) : List Instr :=
  match e.2.phase with
  | .teardown _ => .graphTeardown part e.1 :: taskEvents part e.1 e.2
  | .live => taskEvents part e.1 e.2
  | .stopping => taskEvents part e.1 e.2
  | _ => []

noncomputable def partEvents (n : Nat) (p : Part) : List Instr :=
  (match p.ending with | .none => [] | .destroy => [.pcmdDestroy n] | .reset => [.pcmdPartitionReset n]) ++
    p.graphs.flatMap (graphEvents n) ++ (if p.events.isEmpty then [] else [.eventEnqueue n]) ++
    (if p.evicted.isEmpty && p.graphs.isEmpty then [] else [.workgroupPlace n]) ++ (if p.tlbinv then [.tlbinvComplete n] else [])

/-- Dirty copies move up. -/
noncomputable def viewEvents (e : Nat × Tab VCell) : List Instr :=
  match e.2.find? (fun x => x.2.dirty != 0) with
  | some (l, _) => [.propagate e.1 (l / 8)]
  | none => []

/-- Everything that may happen on its own now. -/
noncomputable def ownEvents (s : State) : List Instr :=
  s.waves.flatMap (fun e => waveEvents e.1 e.2) ++ s.orph.flatMap (fun e => sqEvents e.1 e.2.sq) ++ s.ops.flatMap opEvents ++
    (s.btiles.filter (·.dispatched)).map (fun t => .batonTileDone t.id) ++ s.cores.flatMap (fun e => coreEvents e.1 e.2) ++
    s.parts.flatMap (fun e => partEvents e.1 e.2) ++ s.views.flatMap viewEvents ++
    (if s.dev.attBusy then [.attestReportReady] else [])

/-- An event changes the state: a test of WAITA more than what its loads count and draw. -/
def changes (e : Instr) (s t : State) : Bool :=
  match e with
  | .waitaTest _ _ => { t with cores := s.cores, fresh := s.fresh } != s
  | _ => t != s

/-- The first event of a list that changes the state. -/
def firstChange (s : State) : List Instr → Option State
  | [] => none
  | e :: t => if changes e s (orSame s (exec e s)) then some (orSame s (exec e s)) else firstChange s t

/-! Whose turn it is (R25, R297). -/

/-- The instruction at a path that stands before it would issue now: its operands are free, and nothing of it stalls (R25,
R120). -/
noncomputable def issuable (s : State) (c : Ctx) : Bool :=
  match hereAt c.path with
  | .instr i =>
    decide (c.wave.freeAt ≤ s.dev.cycle) && !heldBack s c i &&
      (c.path.wait == .ready || (match exec i (atPath s c.w c.pb) with | .next t => t != atPath s c.w c.pb | _ => true))
  | _ => true

/-- A path may make a move when its turn comes: not within an instruction, for what that waits for goes on without it; not
where its wave is to freeze; a wave with a trap to take does only that. -/
noncomputable def mayMove (s : State) (w : Nat) (pb : Bool) : Bool :=
  match ctxAt s w pb with
  | none => false
  | some c =>
    if midInstr c.path || c.wave.freezing then false
    else if hasPending c.wave then pendingDue c.wave
    else
      match c.path.wait with
      | .ready => atHeader c.path || issuable s c
      | .stall => issuable s c
      | .counters _ a b d e => waitsMet c.wave a b d e
      | .resreq id => !resWaits (getPart s c.g.part) id
      | _ => false

/-- A wave with a path that may move. -/
noncomputable def waveReady (s : State) (w : Nat) : Bool := mayMove s w false || mayMove s w true

/-- The slice of a slot key: twelve slots each (R10). -/
def sliceOf (w : Nat) : Nat := w / 12

/-- One more than the slot served last on a slice; 0 before the first. -/
def lastServed (s : State) (sl : Nat) : Nat := tabGet 0 (getCore s (sl / 8)).last (sl % 8)

/-- A wave that yielded when its slice served it last (R297). -/
def yielded (s : State) (e : Nat × Wave) : Bool := e.2.yieldAt != 0 && lastServed s (sliceOf e.1) == e.1 + 1

/-- The ready waves that a slice offers: one that yielded only when no other is ready. -/
noncomputable def offered (s : State) (sl : Nat) : List (Nat × Wave) :=
  let ready := s.waves.filter (fun e => sliceOf e.1 = sl && waveReady s e.1)
  if ready.all (yielded s) then ready else ready.filter (fun e => !yielded s e)

/-- The wave that a slice selects: the oldest, and of equal age the next slot after the one served last (R25). -/
noncomputable def selected (s : State) (sl : Nat) : Option Nat :=
  match offered s sl with
  | [] => none
  | l =>
    let old := l.filter (fun e => l.all (fun x => decide (e.2.age ≤ x.2.age)))
    ((old.find? (fun e => decide (lastServed s sl ≤ e.1))).orElse (fun _ => old.head?)).map (·.1)

/-- A slice serves a wave. -/
def serve (s : State) (w : Nat) : State :=
  let k := getCore s (coreOf w)
  updWave (setCore s (coreOf w) { k with last := tabSet 0 k.last (sliceOf w % 8) (w + 1) }) w (fun v => { v with yieldAt := 0 })

/-- Slices with waves, those after cur's first. -/
def turnSlices (s : State) : List Nat :=
  let all := (s.waves.map (fun e => sliceOf e.1)).eraseDups
  all.filter (fun n => decide (sliceOf s.cur < n)) ++ all.filter (fun n => decide (n ≤ sliceOf s.cur))

/-- The path of a wave whose turn it is: the one that did not issue in the wave's previous cycle, path A if both or neither did
(R30). -/
noncomputable def turnPath (s : State) (w : Nat) : Bool :=
  let other := s.cur = w && !s.curB
  if mayMove s w other then other else !other

/-- A wave's turn: both paths of a pair issue together where they can. -/
noncomputable def takeTurn (s : State) (w : Nat) : Answer :=
  let pb := turnPath s w
  if mayMove s w false && mayMove s w true then runDual (serve s w) w pb else runPath (atPath (serve s w) w pb)

/-- The boot ROM, else an event, else the next slice in turn, else a cycle passes. -/
noncomputable def runFree (s : State) : Answer :=
  if s.dev.stat = .boot then .next (bootRom s)
  else if s.dev.stat = .fatal then .next (advanceTime s 1)
  else
    match firstChange s (ownEvents s) with
    | some t => .next t
    | none =>
      match (turnSlices s).findSome? (selected s) with
      | some w => takeTurn s w
      | none => .next (advanceTime s 1)

/-- Events of the cores, of their units and of Canopy, which stop in the fatal state (R386). -/
def coreEvent : Instr → Bool
  | .clauseFetch => true
  | .pendingTrap => true
  | .sqDrain _ _ => true
  | .propagate _ _ => true
  | .drop _ _ => true
  | .depoDeliver _ _ => true
  | .heldDepositDeliver _ => true
  | .warvPass _ _ => true
  | .waitaTest _ _ => true
  | .wsleepExpiry _ _ => true
  | .icinvComplete _ _ => true
  | .mshrRelease _ _ => true
  | .engineStart _ => true
  | .copyComplete _ => true
  | .mxeComplete _ => true
  | .batonTimeout _ _ => true
  | .batonTileDone _ => true
  | .texComplete _ => true
  | .traceComplete _ => true
  | .dashComplete _ => true
  | .reordTimeout _ _ => true
  | .reordRepack _ _ => true
  | .spawnEnqueue _ _ => true
  | .workgroupPlace _ => true
  | .childPlace _ => true
  | .taskRetire _ _ _ _ => true
  | .tileClosure _ _ => true
  | .passAgeing _ _ _ => true
  | .pwrbudRefresh _ => true
  | .graphTeardown _ _ => true
  | .eventEnqueue _ => true
  | .gsubAccept _ _ => true
  | .mbrecvDequeue _ _ => true
  | .mbsendEnqueue _ _ => true
  | .dbgsendAppend _ _ => true
  | .waveFreeze _ => true
  | _ => false

/-- A path that the agenda names has its turn: it may move, and its slice selects its wave (R25). -/
noncomputable def agendaTurn (s : State) (w : Nat) (pb : Bool) : Bool :=
  mayMove s w pb && selected s (sliceOf w) == some w

/-- An event that the agenda names may not happen now: one of the cores in the fatal state (R386), or a clause's fetch by a
path that may not move or has a trap to take first (R43, R369). -/
noncomputable def eventHeld (s : State) (i : Instr) : Bool :=
  (s.dev.stat == .fatal && coreEvent i) ||
    (match i with
     | .clauseFetch => !mayMove s s.cur s.curB || ((getWave s s.cur).map hasPending).getD false
     | _ => false)

/-- A move that the agenda names; one that cannot be made lets a cycle pass. -/
noncomputable def runMove (s : State) (m : Move) : Answer :=
  match m with
  | .issue w pb =>
    if s.dev.stat != .fatal && agendaTurn s w pb then runPath (atPath (serve s w) w pb) else .next (advanceTime s 1)
  | .dual w =>
    if s.dev.stat != .fatal && agendaTurn s w false && agendaTurn s w true then runDual (serve s w) w (turnPath s w)
    else .next (advanceTime s 1)
  | .event i => if (classOf i).isNone && eventOk i && !eventHeld s i then exec i s else .next s
  | .tick n => .next (advanceTime s n)
  | .read fn off n => .next (hostRead s fn off n)
  | .choose c => .next { s with choice := c }

/-! Placing one instruction. -/

/-- The clause that holds one word as its only instruction, with as many zero words after it as the instruction takes. -/
noncomputable def wordClause (base : Nat) (w : Word) : Clause :=
  let cls := ((tableReading w).map (·.1)).getD 0
  let n := sizeOf cls w
  { base := base, head := BitVec.ofNat 32 (0xA0FFF000 + 16 * cls + n), words := w :: List.replicate (n - 1) 0 }

/-- Kernel entry of the pacer that stands for a loaded program. -/
def loadedEnt : KEnt :=
  { entry := 4096, psz := 0, strict := false, dash := true, waves := 1, tiles := 4, scratch := 1, vregs8 := 8, widthCode := 0,
    brtab := 0, whtab := 0, smtab := 0, tvec := 0, privBase := 0 }

/-- The path named by cur, in a device that runs, next in its slice's turn; where there is none, partition 0 with a pacer on core 0. -/
def withPath (s : State) : State :=
  let s1 := { s with dev := { s.dev with stat := .ready } }
  match ctxAt s1 s1.cur s1.curB with
  | some c =>
    let k := getCore s1 c.core
    setWave (setCore s1 c.core { k with last := tabSet 0 k.last (sliceOf c.w % 8) c.w }) c.w
      { c.wave with faults := [], watch := none, step := none, save := false, freezing := false, age := 0, yieldAt := 0, freeAt := 0 }
  | none =>
    let p : Part := { Part.init with state := .running, clmask := 3, hwsh := 1, gdsh := 1, allot := 1 }
    atPath (placeWg (setPart s1 0 p) 0 0 .pacer loadedEnt 0 0 0 0 0 0 0 0 [0] 0) 0 false

/-- One instruction in the clause of the path named by cur, and that path's issue as the next move. -/
noncomputable def placedWord (s : State) (_nbits w : Nat) : State :=
  let s1 := withPath s
  let put (x : Path) : Path :=
    { x with pc := x.pc - 4 + 4, code := some (wordClause (x.pc - 4) (BitVec.ofNat 32 w)), wait := .ready, resume := none }
  updWave { s1 with agenda := .issue s1.cur s1.curB :: s1.agenda } s1.cur (fun v =>
    match pathOf v s1.curB with
    | some x => setPath v s1.curB (put x)
    | none => v)

end Sys2Proof.Machine
end

