-- ==== Sys2Proof/Machine/Step.lean ====
section
/-! DEFINITION. One step of the machine: the next move of the agenda, else what the machine does on its own
(Issue.lean). And the placing of one instruction where the next step takes it. -/

namespace Sys2Proof.Machine

/-- One step. -/
noncomputable def step (s : State) : Host.Outcome State Fault Refusal :=
  match s.agenda with
  | [] => runFree s
  | m :: t => runMove { s with agenda := t } m

/-- The state with one instruction as the rest of the clause that the path named by cur has fetched, and that path's
issue as the next move (placedWord). Where cur names no path, a partition with a pacer stands for the load that
firmware and the driver make (R99, R373, R374). -/
noncomputable def State.withFetchWord (s : State) (nbits w : Nat) : State := placedWord s nbits w

end Sys2Proof.Machine
end

