-- ==== Sys2Proof/Safety.lean ====
section
/-! DEFINITION. The terms in which claims are stated: when an instruction may issue and its operands can be read, and what
it leaves changed and unchanged. -/

namespace Sys2Proof.Machine

/-! Before. -/

/-- The path that cur names may issue, and c is what it stands on: the device is not in its fatal state, the wave is
neither halted nor frozen, and the path has an active thread (R24, R386). -/
def Issues (s : State) (c : Ctx) : Prop := s.dev.stat ≠ .fatal ∧ ctxAt s s.cur s.curB = some c

/-- The sources of an instruction can be read: each is legal (R49, R51, R231), no register read fails its parity (R97), and
no copy read is unwritten under STRICT outside trap mode (R50). -/
def SourcesRead (c : Ctx) (once : Bool) (srcs : List Src) : Prop :=
  (∀ x ∈ srcs, srcOk c.g once x = true) ∧ (∀ x ∈ srcs, ∀ q ∈ positions c.mask, srcBad c q x = false) ∧
    (unwMask c srcs = 0 ∨ wStrict c.wave = false ∨ wTrap c.wave = true)

/-- A read of a lane instruction: the source, the position that reads, and the position whose copy it reads. -/
structure LaneSrc where
  src : Src
  reader : Nat
  pos : Nat

/-- Every active thread reads its own copy of each source. -/
def ownReads (c : Ctx) (srcs : List Src) : List LaneSrc := srcs.flatMap (fun y => (positions c.mask).map (fun q => ⟨y, q, q⟩))

/-- The sources of a lane instruction can be read: each is legal, no copy that it reads fails its parity, and m is the threads
that read an unwritten copy (R50, R97, R254). -/
def LaneRead (c : Ctx) (srcs : List Src) (reads : List LaneSrc) (m : Mask) : Prop :=
  (∀ x ∈ srcs, srcOk c.g false x = true) ∧ (∀ e ∈ reads, srcBad c e.pos e.src = false) ∧
    (m = 0 ∨ wStrict c.wave = false ∨ wTrap c.wave = true)

/-! After. -/

/-- Of the whole state only the wave in slot w differs; every byte of memory reads as before. -/
structure OnlyWave (s t : State) (w : Nat) : Prop where
  rest : t = { s with waves := t.waves }
  others : ∀ u, u ≠ w → getWave t u = getWave s u
  bytes : ∀ a, memByte t.mem a = memByte s.mem a

/-- The registers that an instruction writes for its active threads: v registers and predicates by position, s registers
once; the v registers it releases (R51); and whether it read an unwritten copy, which sets WSTAT.UR (R50). -/
structure Writes where
  v : List (Nat × (Nat → Word)) := []
  s : List (Nat × Word) := []
  p : List (Nat × (Nat → Bool)) := []
  released : List Nat := []
  ur : Bool := false

/-- The value of v register r at an active position after some writes. -/
def Writes.vAt (x : Writes) (c : Ctx) (q r : Nat) : Option Word :=
  match x.v.lookup r with
  | some f => some (f q)
  | none => if r ∈ x.released then none else vReg c.wave q r

/-- The value of predicate k at an active position after some writes; p0 is true (R56). -/
def Writes.pAt (x : Writes) (c : Ctx) (q k : Nat) : Bool :=
  match x.p.lookup k with
  | some f => if k = 0 then true else f q
  | none => predReg c.wave q k

/-- The registers of a wave after some writes: nothing else of it has changed but its paths, STEP and the storage forms. -/
structure RegsAfter (c : Ctx) (x : Writes) (v : Wave) : Prop where
  vregs : ∀ q r, vReg v q r = if c.mask.getLsbD q then x.vAt c q r else vReg c.wave q r
  sregs : ∀ n, sReg v n = (x.s.lookup n).getD (sReg c.wave n)
  preds : ∀ q k, predReg v q k = if c.mask.getLsbD q then x.pAt c q k else predReg c.wave q k
  csrs : v.csr = (setStatIf c.wave x.ur 0).csr
  tids : ∀ q, tidAt v q = tidAt c.wave q
  live : liveMask v = liveMask c.wave
  rest : v = { c.wave with threads := v.threads, s := v.s, sbad := v.sbad, forms := v.forms, csr := v.csr,
                           base := v.base, stack := v.stack, step := v.step }

/-- The path that issued stands at x, no other path of the wave has moved, and STEP is pending where it was armed (R292). -/
structure PathAfter (c : Ctx) (x : Path) (v : Wave) : Prop where
  base : v.base = (setPath c.wave c.pb x).base
  stack : v.stack = (setPath c.wave c.pb x).stack
  step : v.step = (stepPend (stepArmed c.wave) c.pb c.wave).step

/-- An instruction of n words that writes registers and goes on to the next instruction: everything it changes. -/
def RegEffect (s t : State) (c : Ctx) (n : Nat) (x : Writes) : Prop :=
  OnlyWave s t c.w ∧ ∃ v, getWave t c.w = some v ∧ RegsAfter c x v ∧ PathAfter c (stepPath c.path n) v

/-- The v registers that sources marked as last reads release (R51). -/
def releasedBy (srcs : List Src) : List Nat :=
  srcs.flatMap (fun x => if x.last then
    (match specOf x.r with | .v n => (List.range x.regs).map (n + ·) | _ => []) else [])

/-- A write of a destination of one or two registers (R230 to R232); m is the threads that read an unwritten copy. -/
def destWrites (c : Ctx) (d : Reg) (wide : Bool) (srcs : List Src) (m : Mask) (f : Nat → DWord) : Writes :=
  let lo (q : Nat) : Word := loWord (f q)
  let hi (q : Nat) : Word := hiWord (f q)
  let first := (positions c.mask).headD 0
  { v := match specOf d with | .v r => if wide then [(r + 1, hi), (r, lo)] else [(r, lo)] | _ => []
    s := match specOf d with | .s r => if wide then [(r + 1, hi first), (r, lo first)] else [(r, lo first)] | _ => []
    released := releasedBy srcs
    ur := m != 0 }

/-- A write of a predicate (R56, R252). -/
def predWrites (d : Reg) (srcs : List Src) (m : Mask) (f : Nat → Bool) : Writes :=
  { p := [(predNum d, f)], released := releasedBy srcs, ur := m != 0 }

/-! A step. -/

/-- The instruction whose words stand at a path's PC in the body of the clause that it has fetched (R206 to R212). -/
def InstrAt (x : Path) (i : Instr) (rest : List Word) : Prop :=
  ∃ cl, x.code = some cl ∧ cl.base < x.pc ∧ x.pc < cl.base + 4 * (cl.words.length + 1) ∧
    decodeWords (headClass cl.head) (cl.words.drop ((x.pc - cl.base) / 4 - 1)) = .ok (i, rest)

/-- The tables of the machine in order: the keys of each rise strictly, Baton's tiles stand in the order of their numbers,
which are below the next number, and no workgroup names a slot twice. -/
structure InOrder (s : State) : Prop where
  views : tabRising none s.views = true
  waves : tabRising none s.waves = true
  ended : tabRising none s.orph = true
  groups : tabRising none s.wgs = true
  cores : tabRising none s.cores = true
  parts : tabRising none s.parts = true
  graphs : ∀ e ∈ s.parts, tabRising none e.2.graphs = true
  tiles : (s.btiles.map (·.id)).Pairwise (· < ·) ∧ ∀ b ∈ s.btiles, b.id < s.nextId
  slots : ∀ e ∈ s.wgs, e.2.slots.Nodup

/-- Nothing is taken before the next instruction of a wave: no completion fault, WATCH, STEP or save trap is pending, or the
wave is in trap mode (R287). -/
def NoTrapDue (v : Wave) : Prop := wTrap v = true ∨ (v.faults = [] ∧ v.watch = none ∧ v.step = none ∧ v.save = false)

/-- A path may issue its next instruction when its turn comes: it waits for nothing, its wave is not to freeze and has not
yielded, and nothing is taken first (R25, R43, R297). -/
def MayIssue (c : Ctx) : Prop := NoTrapDue c.wave ∧ c.wave.freezing = false ∧ c.wave.yieldAt = 0 ∧ c.path.wait = .ready

/-! The VEC instructions, as the tables of 11_isa_vector_int.md and 12_isa_vector_float.md give them. -/

/-- A VEC instruction that writes a register or a pair: its words, its sources, and the value each thread receives. -/
structure RegOp where
  instr : Instr
  d : Reg
  wide : Bool
  words : Nat
  srcs : List Src
  value : Ctx → Nat → DWord

/-- A VEC instruction that writes a predicate. -/
structure PredOp where
  instr : Instr
  d : Reg
  words : Nat
  srcs : List Src
  value : Ctx → Nat → Bool

/-- D := f A (R235, R247, R249, R265, R267 to R273). -/
def oneOp (i : F3 → Instr) (f : Word → Word) (x : F3) : RegOp :=
  { instr := i x, d := x.d, wide := false, words := 1, srcs := [srcA x], value := fun c q => lowOnly (f (rdSpec c q x.a 0)) }

/-- D := f A B; the B field may name the literal word (R208, R234). -/
def twoOp (i : F3 → Instr) (f : Word → Word → Word) (x : F3) : RegOp :=
  { instr := i x, d := x.d, wide := false, words := wordsB x.b, srcs := [srcA x, srcB x],
    value := fun c q => lowOnly (f (rdSpec c q x.a 0) (rdSpec c q x.b x.lit)) }

/-- D := f A B D: D is read as a third source, before it is written (R236). -/
def accOp (i : F3 → Instr) (f : Word → Word → Word → Word) (x : F3) : RegOp :=
  { instr := i x, d := x.d, wide := false, words := wordsB x.b, srcs := [srcA x, srcB x, srcD x],
    value := fun c q => lowOnly (f (rdSpec c q x.a 0) (rdSpec c q x.b x.lit) (rdSpec c q x.d 0)) }

/-- D := f A, with an immediate (R215). -/
def immOp (i : FI → Instr) (f : BitVec 9 → Word → Word) (x : FI) : RegOp :=
  { instr := i x, d := x.d, wide := false, words := 1, srcs := [⟨x.a, .value, false, x.la⟩],
    value := fun c q => lowOnly (f x.imm (rdSpec c q x.a 0)) }

/-- Pair D := f A B on 64-bit operands (R240). -/
def pairOp (i : F3 → Instr) (f : DWord → DWord → DWord) (x : F3) : RegOp :=
  { instr := i x, d := x.d, wide := true, words := wordsB x.b, srcs := [srcPA x, srcPB x],
    value := fun c q => f (rdPair c q x.a 0) (rdPair c q x.b x.lit) }

/-- Pair D := f A n, A a pair and n the value of B (R242). -/
def shiftOp (i : F3 → Instr) (f : DWord → Nat → DWord) (x : F3) : RegOp :=
  { instr := i x, d := x.d, wide := true, words := wordsB x.b, srcs := [srcPA x, srcB x],
    value := fun c q => f (rdPair c q x.a 0) (rdSpec c q x.b x.lit).toNat }

/-- Predicate D := f A B (R252, R270). -/
def cmpOp (i : F3 → Instr) (f : Word → Word → Bool) (x : F3) : PredOp :=
  { instr := i x, d := x.d, words := wordsB x.b, srcs := [srcA x, srcB x],
    value := fun c q => f (rdSpec c q x.a 0) (rdSpec c q x.b x.lit) }

/-- The exact product read signed, and read unsigned. -/
def sProd (a b : Word) : Int := a.toInt * b.toInt
def uProd (a b : Word) : Nat := a.toNat * b.toNat

/-- The two-source arithmetic and logic of R234, R239 and R244. -/
def twoSourceOps (x : F3) : List RegOp := [
  twoOp .iadd (fun a b => a + b) x,
  twoOp .isub (fun a b => a - b) x,
  twoOp .imul (fun a b => BitVec.ofInt 32 (sProd a b)) x,
  twoOp .imulh (fun a b => BitVec.ofInt 32 (sProd a b / 2 ^ 32)) x,
  twoOp .imulhu (fun a b => BitVec.ofNat 32 (uProd a b / 2 ^ 32)) x,
  twoOp .imin (fun a b => if a.toInt ≤ b.toInt then a else b) x,
  twoOp .imax (fun a b => if a.toInt ≤ b.toInt then b else a) x,
  twoOp .umin (fun a b => if a.toNat ≤ b.toNat then a else b) x,
  twoOp .umax (fun a b => if a.toNat ≤ b.toNat then b else a) x,
  twoOp .iadds (fun a b => if x.m then satU32 (a.toNat + b.toNat : Nat) else sat32 (a.toInt + b.toInt)) x,
  twoOp .isubs (fun a b => if x.m then satU32 ((a.toNat : Int) - b.toNat) else sat32 (a.toInt - b.toInt)) x,
  twoOp .iadd2 (onHalves (fun a b => if x.m then sat16 (a.toInt + b.toInt) else a + b)) x,
  twoOp .isub2 (onHalves (fun a b => if x.m then sat16 (a.toInt - b.toInt) else a - b)) x,
  twoOp .imin2 (onHalves (fun a b =>
    if x.m then (if a.toNat ≤ b.toNat then a else b) else if a.toInt ≤ b.toInt then a else b)) x,
  twoOp .imax2 (onHalves (fun a b =>
    if x.m then (if a.toNat ≤ b.toNat then b else a) else if a.toInt ≤ b.toInt then b else a)) x,
  twoOp .and (fun a b => a &&& b) x,
  twoOp .or (fun a b => a ||| b) x,
  twoOp .xor (fun a b => a ^^^ b) x,
  twoOp .andn (fun a b => a &&& ~~~b) x,
  twoOp .shl (fun a b => if b.toNat < 32 then a <<< b.toNat else 0) x,
  twoOp .shr (fun a b => if b.toNat < 32 then a >>> b.toNat else 0) x,
  twoOp .sar (fun a b => if b.toNat < 32 then a.sshiftRight b.toNat else if a.msb then 0xFFFFFFFF else 0) x,
  twoOp .rotl (fun a b => a.rotateLeft (b.toNat % 32)) x]

/-- The accumulating family of R236, R237 and R238. -/
def accumulateOps (x : F3) : List RegOp := [
  accOp .imad (fun a b d => BitVec.ofInt 32 (sProd a b + d.toInt)) x,
  accOp .sad (fun a b d =>
    if x.m then d + BitVec.ofNat 32 (((a.toNat : Int) - b.toNat).natAbs) else d + BitVec.ofNat 32 ((a.toInt - b.toInt).natAbs)) x,
  accOp .imin3 (fun a b d => if x.m then uMin (uMin a b) d else sMin (sMin a b) d) x,
  accOp .imax3 (fun a b d => if x.m then uMax (uMax a b) d else sMax (sMax a b) d) x,
  accOp .iadd3 (fun a b d => a + b + d) x,
  accOp .minadd (fun a b d => sMin d (sat32 (a.toInt + b.toInt))) x,
  accOp .minaddU (fun a b d => uMin d (satU32 (a.toNat + b.toNat : Nat))) x,
  accOp .idp4 (fun a b d => idp4Acc x.m d (dot4 true a b)) x,
  accOp .idp4u (fun a b d => idp4Acc x.m d (dot4 false a b)) x]

/-- One source (R235, R247, R249). -/
def oneSourceOps (x : F3) : List RegOp := [
  oneOp .iabs (fun a => BitVec.ofInt 32 (a.toInt.natAbs : Int)) x,
  oneOp .popc (fun a => BitVec.ofNat 32 ((List.range 32).filter (fun k => a.getLsbD k)).length) x,
  oneOp .clz (fun a => BitVec.ofNat 32 (clz a)) x,
  oneOp .brev (fun a => a.reverse) x,
  oneOp .mov (fun a => a) x]

/-- Scaling, bit fields, byte selection (R243, R246, R248) and element widening (R275); BFI reads D. -/
def immediateOps (x : FI) : List RegOp := [
  immOp .lea (fun i a => (a <<< (i.extractLsb' 5 4).toNat) + (i.extractLsb' 0 5).setWidth 32) x,
  immOp .bfe (fun _ a => sext32 (bfLen x) (bits a.toNat (bfPos x) (bfLen x))) x,
  immOp .bfeu (fun _ a => BitVec.ofNat 32 (bits a.toNat (bfPos x) (bfLen x))) x,
  immOp .prmt (fun i a => ofBytes (prmtByte i a 0) (prmtByte i a 1) (prmtByte i a 2) (prmtByte i a 3)) x,
  immOp .cvtF32F16 (fun i a => widen fmtF16 (bits a.toNat (16 * i.toNat) 16)) x,
  immOp .cvtF32Bf16 (fun i a => widen fmtBf16 (bits a.toNat (16 * i.toNat) 16)) x,
  immOp .cvtF32E4m3 (fun i a => widen fmtE4m3 (bits a.toNat (8 * i.toNat) 8)) x,
  immOp .cvtF32E5m2 (fun i a => widen fmtE5m2 (bits a.toNat (8 * i.toNat) 8)) x,
  immOp .cvtF32E2m1 (fun i a => widen fmtE2m1 (bits a.toNat (4 * i.toNat) 4)) x,
  { instr := .bfi x, d := x.d, wide := false, words := 1,
    srcs := [⟨x.a, .value, false, x.la⟩, ⟨x.d, .value, false, false⟩],
    value := fun c q =>
      let m : Word := BitVec.ofNat 32 ((2 ^ bfLen x - 1) * 2 ^ bfPos x)
      lowOnly ((rdSpec c q x.d 0 &&& ~~~m) ||| ((rdSpec c q x.a 0 <<< bfPos x) &&& m)) }]

/-- Bit planes, for a k from 1 to 8 (R251). -/
def planeOps (x : FI) (k : Nat) : List RegOp := [
  immOp .plane (fun _ a => planeWord k a) x,
  immOp .unplane (fun i a => ofBytes (unplaneByte k (i.getLsbD 4) a 0) (unplaneByte k (i.getLsbD 4) a 1)
    (unplaneByte k (i.getLsbD 4) a 2) (unplaneByte k (i.getLsbD 4) a 3)) x]

/-- 64-bit arithmetic (R240 to R242). -/
def wideOps (x : F3) : List RegOp := [
  pairOp .iadd64 (fun a b => a + b) x,
  pairOp .isub64 (fun a b => a - b) x,
  { instr := .imulWide x, d := x.d, wide := true, words := wordsB x.b, srcs := [srcA x, srcB x],
    value := fun c q => wideMul x.m (rdSpec c q x.a 0) (rdSpec c q x.b x.lit) },
  { instr := .imadWide x, d := x.d, wide := true, words := wordsB x.b, srcs := [srcA x, srcB x, srcPD x],
    value := fun c q => wideMul x.m (rdSpec c q x.a 0) (rdSpec c q x.b x.lit) + rdPair c q x.d 0 },
  shiftOp .shl64 (fun a n => if n < 64 then a <<< n else 0) x,
  shiftOp .shr64 (fun a n =>
    if n < 64 then (if x.m then a.sshiftRight n else a >>> n) else if x.m && a.msb then 0xFFFFFFFFFFFFFFFF#64 else 0) x]

/-- Floating point with two sources (R263, R264, R267, R274, R276). -/
def floatTwoOps (x : F3) : List RegOp := [
  twoOp .fadd (fAdd .rne) x, twoOp .faddRz (fAdd .rtz) x, twoOp .faddRd (fAdd .rdn) x, twoOp .faddRu (fAdd .rup) x,
  twoOp .fsub (fSub .rne) x, twoOp .fsubRz (fSub .rtz) x, twoOp .fsubRd (fSub .rdn) x, twoOp .fsubRu (fSub .rup) x,
  twoOp .fmul (fMul .rne) x, twoOp .fmulRz (fMul .rtz) x, twoOp .fmulRd (fMul .rdn) x, twoOp .fmulRu (fMul .rup) x,
  twoOp .fmin (minMax32 false false) x, twoOp .fmax (minMax32 true false) x,
  twoOp .fminnan (minMax32 false true) x, twoOp .fmaxnan (minMax32 true true) x,
  twoOp .fldexp fLdexp x,
  twoOp .cvtF16x2F32 (pack2 fmtF16 16) x, twoOp .cvtBf16x2F32 (pack2 fmtBf16 16) x,
  twoOp .cvtE4m3x2F32 (pack2 fmtE4m3 8) x, twoOp .cvtE5m2x2F32 (pack2 fmtE5m2 8) x,
  twoOp .cvtE2m1x2F32 (pack2 fmtE2m1 4) x,
  twoOp .hadd2 (packed2 fmtF16 (Num.add false)) x, twoOp .hmul2 (packed2 fmtF16 Num.mul) x,
  twoOp .hmin2 (packedMinMax fmtF16 false) x, twoOp .hmax2 (packedMinMax fmtF16 true) x,
  twoOp .badd2 (packed2 fmtBf16 (Num.add false)) x, twoOp .bmul2 (packed2 fmtBf16 Num.mul) x,
  twoOp .bmin2 (packedMinMax fmtBf16 false) x, twoOp .bmax2 (packedMinMax fmtBf16 true) x]

/-- Floating point that accumulates into D (R263, R269, R276). -/
def floatAccOps (x : F3) : List RegOp := [
  accOp .ffma (fFma .rne) x, accOp .ffmaRz (fFma .rtz) x, accOp .ffmaRd (fFma .rdn) x, accOp .ffmaRu (fFma .rup) x,
  accOp .fdot2 (dot2 fmtF16) x, accOp .bfdot2 (dot2 fmtBf16) x,
  accOp .hfma2 (packedFma fmtF16) x, accOp .bfma2 (packedFma fmtBf16) x]

/-- Floating point with one source (R265, R268, R271 to R273). -/
def floatOneOps (x : F3) : List RegOp := [
  oneOp .fabs (fun a => a &&& 0x7FFFFFFF#32) x, oneOp .fneg (fun a => a ^^^ 0x80000000#32) x, oneOp .fsat fSat x,
  oneOp .frexp (if x.m then fRexpE else fRexp) x,
  oneOp .frcp (fun a => rne32 (Num.div .one (f32 a))) x, oneOp .frsq (fun a => rne32 (rsqNum (f32 a))) x,
  oneOp .fsqrt (fun a => rne32 (sqrtNum (f32 a))) x, oneOp .fex2 (fun a => rne32 (ex2Num (f32 a))) x,
  oneOp .flg2 (fun a => rne32 (lg2Num (f32 a))) x, oneOp .fsin (fun a => rne32 (sinNum (f32 a))) x,
  oneOp .fcos (fun a => rne32 (cosNum (f32 a))) x,
  oneOp .frndN (fRnd .rne) x, oneOp .frndZ (fRnd .rtz) x, oneOp .frndD (fRnd .rdn) x, oneOp .frndU (fRnd .rup) x,
  oneOp .cvtF32I32 (fun a => rne32 (.ofInt a.toInt)) x, oneOp .cvtF32U32 (fun a => rne32 (.ofInt a.toNat)) x,
  oneOp .cvtI32F32 (cvtI32 .rne) x, oneOp .cvtI32F32Rz (cvtI32 .rtz) x,
  oneOp .cvtI32F32Rd (cvtI32 .rdn) x, oneOp .cvtI32F32Ru (cvtI32 .rup) x, oneOp .cvtU32F32 cvtU32 x]

/-- Comparisons (R252, R270). -/
def compareOps (x : F3) : List PredOp := [
  cmpOp .icmpEq (fun a b => decide (a = b)) x, cmpOp .icmpNe (fun a b => decide (a ≠ b)) x,
  cmpOp .icmpLt (fun a b => decide (a.toInt < b.toInt)) x, cmpOp .icmpLe (fun a b => decide (a.toInt ≤ b.toInt)) x,
  cmpOp .icmpGt (fun a b => decide (b.toInt < a.toInt)) x, cmpOp .icmpGe (fun a b => decide (b.toInt ≤ a.toInt)) x,
  cmpOp .icmpUlt (fun a b => decide (a.toNat < b.toNat)) x, cmpOp .icmpUle (fun a b => decide (a.toNat ≤ b.toNat)) x,
  cmpOp .icmpUgt (fun a b => decide (b.toNat < a.toNat)) x, cmpOp .icmpUge (fun a b => decide (b.toNat ≤ a.toNat)) x,
  cmpOp .fcmpEq fEq x, cmpOp .fcmpNe (fun a b => !fEq a b) x, cmpOp .fcmpLt fLt x, cmpOp .fcmpLe fLe x,
  cmpOp .fcmpGt (fun a b => fLt b a) x, cmpOp .fcmpGe (fun a b => fLe b a) x, cmpOp .fcmpUn fUn x,
  cmpOp .fcmpOrd (fun a b => !fUn a b) x]

/-- The predicate that a specifier names, at a position; p0 is true (R56). -/
def predAt (c : Ctx) (q : Nat) (r : Reg) : Bool := predReg c.wave q (predNum r)

/-- Predicate logic (R253). -/
def predicateOps (x : F3) : List PredOp := [
  { instr := .pand x, d := x.d, words := wordsB x.b, srcs := predSrcs x, value := fun c q => predAt c q x.a && predAt c q x.b },
  { instr := .por x, d := x.d, words := wordsB x.b, srcs := predSrcs x, value := fun c q => predAt c q x.a || predAt c q x.b },
  { instr := .pxor x, d := x.d, words := wordsB x.b, srcs := predSrcs x, value := fun c q => predAt c q x.a != predAt c q x.b },
  { instr := .pnot x, d := x.d, words := 1, srcs := [⟨x.a, .pred, false, x.la⟩], value := fun c q => !predAt c q x.a }]

/-- Every VEC instruction that writes a register from its own thread's operands. -/
def laneLocalOps (x : F3) (i : FI) : List RegOp :=
  twoSourceOps x ++ accumulateOps x ++ oneSourceOps x ++ immediateOps i ++ wideOps x ++ floatTwoOps x ++ floatAccOps x ++ floatOneOps x

/-! Lane instructions (R254 to R261). -/

/-- The lowest position of the active threads. -/
def lowestActive (c : Ctx) : Nat := (positions c.mask).headD 0

/-- Active positions whose predicate A is true. -/
def trueThreads (c : Ctx) (a : Reg) : List Nat := (positions c.mask).filter (fun q => predAt c q a)

/-- The values of A over the active threads, lowest position first. -/
def activeVals (c : Ctx) (a : Reg) : List Word := (positions c.mask).map (fun q => rdSpec c q a 0)

/-- Active threads whose copy of a register is unwritten. -/
def unwrittenOf (c : Ctx) (a : Reg) : Mask := maskOf ((positions c.mask).filter (fun q => unwritten c q a 1))

/-- A lane instruction that writes a register: m is the threads that read an unwritten copy. -/
structure LaneOp where
  instr : Instr
  d : Reg
  dOk : Ctx → Bool
  wide : Bool
  words : Nat
  srcs : List Src
  reads : Ctx → List LaneSrc
  m : Ctx → Mask
  /-- The operand that UNWRITTEN names. -/
  who : Ctx → Reg
  value : Ctx → Nat → DWord

/-- A lane instruction that writes a predicate. -/
structure LanePredOp where
  instr : Instr
  d : Reg
  srcs : List Src
  reads : Ctx → List LaneSrc
  m : Ctx → Mask
  value : Ctx → Nat → Bool

/-- A wave reduction, over the active threads in position order (R261). -/
def redOp (i : F3 → Instr) (f : Ctx → List Word → Word) (x : F3) : LaneOp :=
  { instr := i x, d := x.d, dOk := fun c => dstOk c.g x.d false, wide := false, words := 1, srcs := [srcA x],
    reads := fun c => ownReads c [srcA x], m := fun c => unwrittenOf c x.a, who := fun _ => x.a, value := fun c _ => lowOnly (f c (activeVals c x.a)) }

/-- Fold an operation over a list that is not empty. -/
def foldWith (op : Word → Word → Word) (l : List Word) : Word :=
  match l with
  | [] => 0
  | y :: t => t.foldl op y

/-- A shuffle: thread q reads A of position j, when j exists and is active, else its own (R260). -/
def shuffleOp (i : Instr) (d other : Reg) (words : Nat) (srcA : Src) (srcB : List Src) (more : Ctx → Mask)
    (j : Ctx → Nat → Option Nat) : LaneOp :=
  let src (c : Ctx) (q : Nat) : Nat :=
    match j c q with
    | some k => if k < 64 ∧ c.mask.getLsbD k = true then k else q
    | none => q
  { instr := i, d := d, dOk := fun c => isVSpec d && dstOk c.g d false, wide := false, words := words, srcs := srcA :: srcB,
    reads := fun c => (positions c.mask).map (fun q => ⟨srcA, q, src c q⟩) ++ ownReads c srcB
    m := fun c => maskOf ((positions c.mask).filter (fun q => unwritten c (src c q) srcA.r 1)) ||| more c
    who := fun c => if maskOf ((positions c.mask).filter (fun q => unwritten c (src c q) srcA.r 1)) = 0 then other else srcA.r
    value := fun c q => lowOnly (rdSpec c (src c q) srcA.r 0) }

/-- Votes, broadcast and reductions that write a register (R255, R258, R259, R261). -/
def voteOps (x : F3) : List LaneOp := [
  { instr := .ballot x, d := x.d, dOk := fun c => isVSpec x.d && dstOk c.g x.d true, wide := true, words := 1,
    srcs := [⟨x.a, .pred, false, x.la⟩], reads := fun c => ownReads c [⟨x.a, .pred, false, x.la⟩], m := fun _ => 0, who := fun _ => x.a, value := fun c _ => maskOf (trueThreads c x.a) },
  { instr := .first x, d := x.d, dOk := fun c => isVSpec x.d && dstOk c.g x.d false, wide := false, words := 1,
    srcs := [⟨x.a, .pred, false, x.la⟩], reads := fun c => ownReads c [⟨x.a, .pred, false, x.la⟩], m := fun _ => 0, who := fun _ => x.a
    value := fun c _ => lowOnly (match trueThreads c x.a with | q :: _ => BitVec.ofNat 32 q | [] => 0xFFFFFFFF#32) },
  { instr := .bcast x, d := x.d, dOk := fun c => dstOk c.g x.d false, wide := false, words := 1, srcs := [srcA x],
    reads := fun c => [⟨srcA x, lowestActive c, lowestActive c⟩], m := fun c => if unwritten c (lowestActive c) x.a 1 then posBit (lowestActive c) else 0
    who := fun _ => x.a
    value := fun c _ => lowOnly (rdSpec c (lowestActive c) x.a 0) },
  redOp .redadd (fun _ => foldWith (· + ·)) x,
  redOp .redmin (fun _ => foldWith sMin) x,
  redOp .redmax (fun _ => foldWith sMax) x,
  redOp .redumin (fun _ => foldWith uMin) x,
  redOp .redumax (fun _ => foldWith uMax) x,
  redOp .redand (fun _ => foldWith (· &&& ·)) x,
  redOp .redor (fun _ => foldWith (· ||| ·)) x,
  redOp .redxor (fun _ => foldWith (· ^^^ ·)) x,
  redOp .redfadd (fun c _ => treeSum 6 ((List.range (widthOf c.wave)).map (fun q =>
    if c.mask.getLsbD q then rdSpec c q x.a 0 else 0x80000000#32))) x]

/-- Votes that write a predicate (R256, R257). -/
def votePredOps (x : F3) : List LanePredOp := [
  { instr := .vany x, d := x.d, srcs := [⟨x.a, .pred, false, x.la⟩],
    reads := fun c => ownReads c [⟨x.a, .pred, false, x.la⟩], m := fun _ => 0,
    value := fun c _ => !(trueThreads c x.a).isEmpty },
  { instr := .vall x, d := x.d, srcs := [⟨x.a, .pred, false, x.la⟩],
    reads := fun c => ownReads c [⟨x.a, .pred, false, x.la⟩], m := fun _ => 0,
    value := fun c _ => trueThreads c x.a == positions c.mask },
  { instr := .matchOp x, d := x.d, srcs := [srcA x], reads := fun c => ownReads c [srcA x], m := fun c => unwrittenOf c x.a,
    value := fun c q =>
      if x.m then (positions c.mask).any (fun u => u != q && rdSpec c u x.a 0 == rdSpec c q x.a 0)
      else (positions c.mask).all (fun u => rdSpec c u x.a 0 == rdSpec c q x.a 0) }]

/-- The shuffles (R260). -/
def shuffleOps (x : F3) (i : FI) : List LaneOp :=
  let n := (i.imm.extractLsb' 0 6).toNat
  let im (op : Instr) (j : Nat → Nat → Option Nat) : LaneOp :=
    shuffleOp op i.d i.a 1 ⟨i.a, .value, false, i.la⟩ [] (fun _ => 0) (fun c q => j (widthOf c.wave) q)
  [ shuffleOp (.shflIdx x) x.d x.b (wordsB x.b) (srcA x) [srcB x] (fun c => unwrittenOf c x.b)
      (fun c q => some ((rdSpec c q x.b x.lit).toNat % widthOf c.wave)),
    im (.shflUp i) (fun _ q => if q < n then none else some (q - n)),
    im (.shflDn i) (fun w q => if q + n < w then some (q + n) else none),
    im (.shflXor i) (fun w q => if q ^^^ n < w then some (q ^^^ n) else none),
    im (.shflRot i) (fun w q => some ((q + n) % w)) ]

/-! What completing means for each shape. -/

/-- The instruction completes with its value in D, and with nothing else changed, whenever its path may issue, its
destination is legal and its sources can be read. -/
def RegOp.Completes (o : RegOp) : Prop :=
  ∀ (s : State) (c : Ctx), Issues s c → dstOk c.g o.d o.wide = true → SourcesRead c (isSSpec o.d) o.srcs →
    ∃ t, exec o.instr s = .next t ∧
      RegEffect s t c o.words (destWrites c o.d o.wide o.srcs (unwMask c o.srcs) (o.value c))

/-- The same for a predicate destination. -/
def PredOp.Completes (o : PredOp) : Prop :=
  ∀ (s : State) (c : Ctx), Issues s c → predOk o.d = true → SourcesRead c false o.srcs →
    ∃ t, exec o.instr s = .next t ∧ RegEffect s t c o.words (predWrites o.d o.srcs (unwMask c o.srcs) (o.value c))

/-- The same for a lane instruction. -/
def LaneOp.Completes (o : LaneOp) : Prop :=
  ∀ (s : State) (c : Ctx), Issues s c → o.dOk c = true → LaneRead c o.srcs (o.reads c) (o.m c) →
    ∃ t, exec o.instr s = .next t ∧ RegEffect s t c o.words (destWrites c o.d o.wide o.srcs (o.m c) (o.value c))

def LanePredOp.Completes (o : LanePredOp) : Prop :=
  ∀ (s : State) (c : Ctx), Issues s c → predOk o.d = true → LaneRead c o.srcs (o.reads c) (o.m c) →
    ∃ t, exec o.instr s = .next t ∧ RegEffect s t c 1 (predWrites o.d o.srcs (o.m c) (o.value c))

/-! The forms that stand apart. -/

/-- SEL (R250). -/
def selOp (x : FP) : RegOp :=
  { instr := .sel x, d := x.d, wide := false, words := wordsB x.b, srcs := [⟨x.a, .value, false, false⟩, ⟨x.b, .value, true, false⟩]
    value := fun c q => lowOnly (if predReg c.wave q x.p.toNat then rdSpec c q x.a 0 else rdSpec c q x.b x.lit) }

/-- LOP3 (R245): B and C are named by the control word. -/
def lop3Op (x : F3) : RegOp :=
  { instr := .lop3 x, d := x.d, wide := false, words := 2
    srcs := lopSrcs x
    value := fun c q => lowOnly (lop3 x.lit (rdSpec c q x.a 0) (rdSpec c q (lopB x) 0) (rdSpec c q (lopC x) 0)) }

/-- FCLASS to a register, and to a predicate (R266). -/
def fclassReg (x : F3) : RegOp := twoOp .fclass (fun a b => fClass a &&& b) x
def fclassPred (x : F3) : PredOp := cmpOp .fclass (fun a b => fClass a &&& b != 0) x

/-- The class of a value, for each bit of FCLASS's word (R266). -/
def classTests : List (Nat × (Word → Prop)) := [
  (0, fun a => a = 0xFF800000), (1, fun a => 0x80800000 ≤ a.toNat ∧ a.toNat < 0xFF800000),
  (2, fun a => 0x80000001 ≤ a.toNat ∧ a.toNat ≤ 0x807FFFFF), (3, fun a => a = 0x80000000), (4, fun a => a = 0),
  (5, fun a => 1 ≤ a.toNat ∧ a.toNat ≤ 0x007FFFFF), (6, fun a => 0x00800000 ≤ a.toNat ∧ a.toNat < 0x7F800000),
  (7, fun a => a = 0x7F800000), (8, fun a => 0x7F800000 < a.toNat % 2 ^ 31)]

/-- A bit of a word as a number. -/
def bitNat (x : Word) (k : Nat) : Nat := if x.getLsbD k then 1 else 0

/-- Every VEC instruction that writes a register from its own thread's operands, with SEL, LOP3 and FCLASS. -/
def registerOps (x : F3) (i : FI) (p : FP) : List RegOp := laneLocalOps x i ++ [selOp p, lop3Op x, fclassReg x]

/-- Every VEC instruction that writes a predicate from its own thread's operands. -/
def predicateResults (x : F3) : List PredOp := compareOps x ++ predicateOps x ++ [fclassPred x]

/-- A form that its own entry refuses: SEL into an s register by another predicate than p0 (R250), LOP3 with a bad control word
(R245), FCLASS into a predicate (which is its other form). -/
def RegOp.apart (o : RegOp) : Bool :=
  match o.instr with
  | .sel x => isSSpec x.d && x.p != 0
  | .fclass x => predOk x.d
  | .lop3 x => !lopOk x
  | _ => false

/-- The first of some sources that some active thread reads unwritten. -/
def firstUnwritten (c : Ctx) (srcs : List Src) : Option Src :=
  srcs.find? (fun x => (positions c.mask).any (fun q => unwritten c q x.r x.regs))

/-- The first of some sources whose parity fails in some active thread, and the threads in which one fails. -/
def firstBad (c : Ctx) (srcs : List Src) : Option Src := srcs.find? (fun x => (positions c.mask).any (fun q => srcBad c q x))
def badMask (c : Ctx) (srcs : List Src) : Mask :=
  maskOf ((positions c.mask).filter (fun q => srcs.any (fun x => srcBad c q x)))

/-- The faults of an instruction's sources once its destination is legal: the first illegal one, else one whose parity
fails. -/
def SourceTraps (s : State) (c : Ctx) (i : Instr) (once : Bool) (srcs : List Src) : Prop :=
  (∀ y, srcs.find? (fun y => !srcOk c.g once y) = some y → exec i s = .next (takeTrap s c.w c.pb (illegalOperand y.r.toNat c.mask) c.path.pc)) ∧
  ((∀ y ∈ srcs, srcOk c.g once y = true) → ∀ y, firstBad c srcs = some y →
    exec i s = .next (takeTrap s c.w c.pb (eccTrap 3 y.r.toNat (badMask c srcs)) c.path.pc))

/-- The faults of a lane instruction's sources: the first illegal one, else the first of which a copy that is read fails its
parity, with the threads that read such a copy. -/
def LaneTraps (s : State) (c : Ctx) (i : Instr) (srcs : List Src) (reads : List LaneSrc) : Prop :=
  let bad (y : Src) : Bool := reads.any (fun e => e.src == y && srcBad c e.pos y)
  let readers : Mask := maskOf ((positions c.mask).filter (fun q => reads.any (fun e => e.reader == q && srcBad c e.pos e.src)))
  (∀ y, srcs.find? (fun y => !srcOk c.g false y) = some y →
    exec i s = .next (takeTrap s c.w c.pb (illegalOperand y.r.toNat c.mask) c.path.pc)) ∧
  ((∀ y ∈ srcs, srcOk c.g false y = true) → ∀ y, srcs.find? bad = some y →
    exec i s = .next (takeTrap s c.w c.pb (eccTrap 3 y.r.toNat readers) c.path.pc))

/-- An instruction that its own entry refuses, after check 3 of R221: an illegal destination, then an illegal source, then
ILLEGAL_OP. -/
def EntryRefuses (s : State) (c : Ctx) (i : Instr) (d : Reg) (srcs : List Src) : Prop :=
  let takes (t : Trap) : Prop := exec i s = .next (takeTrap s c.w c.pb t c.path.pc)
  (dstOk c.g d false = false → takes (illegalOperand d.toNat c.mask)) ∧
  (dstOk c.g d false = true →
    (∀ y, srcs.find? (fun y => !srcOk c.g (isSSpec d) y) = some y → takes (illegalOperand y.r.toNat c.mask)) ∧
    ((∀ y ∈ srcs, srcOk c.g (isSSpec d) y = true) → takes (illegalOp (headWord i) c.mask)))

/-! Control. -/

/-- An instruction that writes registers and leaves its path at p: everything it changes. -/
def PathEffect (s t : State) (c : Ctx) (p : Path) (x : Writes) : Prop :=
  OnlyWave s t c.w ∧ ∃ v, getWave t c.w = some v ∧ RegsAfter c x v ∧ PathAfter c p v

/-- The path waits within its instruction, and nothing else has changed. -/
def Held (s t : State) (c : Ctx) (wt : Wait) : Prop :=
  OnlyWave s t c.w ∧ getWave t c.w = some (setPath c.wave c.pb { c.path with wait := wt })

/-- The instruction takes a trap at its own address. -/
def Traps (s : State) (c : Ctx) (i : Instr) (t : Trap) : Prop := exec i s = .next (takeTrap s c.w c.pb t c.path.pc)

/-- The address n words from the instruction, modulo 2^64 (R215, R278). -/
def wordsAway (c : Ctx) (n : Int) : Nat := (((c.path.pc : Int) + 4 * n) % (2 ^ 64 : Nat)).toNat

/-- A transfer of the whole path: where it goes, what a failed test of its target reports, the s registers it writes, and
when its operand can be read (R278, R281). -/
structure JumpOp where
  instr : Instr
  target : Ctx → Nat
  tval : Ctx → Nat
  links : Bool
  reads : Ctx → Prop

/-- An even s register whose pair has no parity error (R281, R97). -/
def PairReads (r : Reg) (c : Ctx) : Prop :=
  (∃ n, specOf r = .s n ∧ n % 2 = 0) ∧ ∀ q ∈ positions c.mask, srcBad c q ⟨r, .pair, false, false⟩ = false

/-- BRA and CALL go to an offset, BRI, CALLI and RET to a pair's value; calls leave the return address in s30:s31. -/
def jumpOps (x : FBL) (r : Reg) : List JumpOp := [
  { instr := .bra x, target := fun c => wordsAway c x.tgt.toInt, tval := fun c => wordsAway c x.tgt.toInt % 2 ^ 57,
    links := false, reads := fun _ => True },
  { instr := .call x, target := fun c => wordsAway c x.tgt.toInt, tval := fun c => wordsAway c x.tgt.toInt % 2 ^ 57,
    links := true, reads := fun _ => True },
  { instr := .bri r, target := fun c => (sPair c.wave (r.toNat - 0x40)).toNat, tval := fun c => (sPair c.wave (r.toNat - 0x40)).toNat,
    links := false, reads := PairReads r },
  { instr := .calli r, target := fun c => (sPair c.wave (r.toNat - 0x40)).toNat, tval := fun c => (sPair c.wave (r.toNat - 0x40)).toNat,
    links := true, reads := PairReads r },
  { instr := .ret, target := fun c => (sPair c.wave 30).toNat, tval := fun c => (sPair c.wave 30).toNat, links := false,
    reads := PairReads 0x5E }]

/-- The return address in s30:s31. -/
def linkWrites (c : Ctx) : Writes :=
  let a : DWord := BitVec.ofNat 64 (c.path.pc + 4)
  { s := [(31, hiWord a), (30, loWord a)] }

/-- c(t) of R279: the predicate, or with N its complement. -/
def branchTrue (c : Ctx) (x : FB) (q : Nat) : Bool := predReg c.wave q x.p.toNat != x.n

/-- The target and the join point of a conditional branch (R279). -/
def branchTarget (c : Ctx) (x : FB) : Nat := wordsAway c x.tgt.toInt
def branchJoin (c : Ctx) (x : FB) : Nat := c.path.pc + 4 * x.join.toNat

/-- The conditional branches of a whole path, each with its condition (R279). -/
def branchOps (x : FB) : List (Instr × (Ctx → Bool)) := [
  (.brcAny x, fun c => (positions c.mask).any (branchTrue c x)),
  (.brcAll x, fun c => (positions c.mask).all (branchTrue c x)),
  (.brcU x, fun c => branchTrue c x (lowestActive c))]

/-- CTL instructions that only go on, and when: NOP always, BKPT without BKEN or in trap mode, JOIN where R28 does not make
it act (R277, R282, R290). -/
def goOnOps (code : BitVec 24) : List (Instr × (Ctx → Prop)) := [
  (.nop, fun _ => True),
  (.bkpt code, fun c => wBken c.wave = false ∨ wTrap c.wave = true),
  (.join, fun c => joinActs c = false)]

/-- CTL instructions that go on and give up their wave's turn: YIELD, and WSLEEP of 0 (R297, R298). -/
def yieldOps (r : Reg) : List (Instr × (Ctx → Prop)) := [
  (.yield, fun _ => True),
  (.wsleep r, fun c => sleepOk r = true ∧ (∀ q ∈ positions c.mask, srcBad c q ⟨r, .value, false, false⟩ = false) ∧
    rdSpec c 0 r 0 = 0)]

/-- The two paths of a pair once the issuing path has arrived at its join point. -/
def arrived (c : Ctx) (p : Pair) : Pair :=
  if c.pb then { p with b := stepPath c.path 1, arrB := true } else { p with a := stepPath c.path 1, arrA := true }

/-- The union of the paths of a pair (R28): the threads of both, where the first of them with an active thread stands. -/
def unionPath (c : Ctx) (p : Pair) : Path :=
  let x := arrived c p
  { (if activeMask c.wave x.a = 0 then x.b else x.a) with mask := (x.a.mask ||| x.b.mask) &&& liveMask c.wave }

/-- The path that goes on from a pair when the issuing path's threads have all exited and its partner has arrived (R29). -/
def partnerPath (c : Ctx) (p : Pair) : Path :=
  let x := arrived c p
  { (if c.pb then p.a else p.b) with mask := (x.a.mask ||| x.b.mask) &&& (liveMask c.wave &&& ~~~c.mask) }

/-- The TRACE operations of a wave under way, which a halt abandons (R291). -/
def tracesOf (s : State) (w : Nat) : List EngOp := s.ops.filter (fun o => o.wave = w && isTrace o)

/-- No other byte of memory and no wave's registers: what EXIT, REORD and HALT leave alone. -/
structure KeepsOthers (s t : State) (w : Nat) : Prop where
  regs : ∀ u v, u ≠ w → getWave s u = some v → ∃ v', getWave t u = some v' ∧ v'.threads = v.threads ∧ v'.s = v.s ∧
    v'.csr = v.csr ∧ v'.acnt = v.acnt
  bytes : ∀ a, memByte t.mem a = memByte s.mem a

/-- The registers of a wave are those it had. -/
structure SameRegs (u v : Wave) : Prop where
  vregs : ∀ q r, vReg v q r = vReg u q r
  sregs : ∀ n, sReg v n = sReg u n
  preds : ∀ q k, predReg v q k = predReg u q k
  tids : ∀ q, tidAt v q = tidAt u q
  live : liveMask v = liveMask u

/-- The wave CSRs of a trap, as R65 and R287 write them. -/
def trapCsrs (v : Wave) (pb : Bool) (t : Trap) (epc : Nat) : Csrs :=
  { v.csr with
    tcause := BitVec.ofNat 64 ((if pb then 4096 else 0) + 256 * t.cls + t.code)
    tepc := BitVec.ofNat 64 (epc % 2 ^ 57 / 4 * 4)
    tval := t.tval
    tmaska := match v.stack with | [] => activeMask v v.base | p :: _ => activeMask v p.a
    tmaskb := match v.stack with | [] => 0 | p :: _ => activeMask v p.b
    tfmask := t.fmask &&& liveMask v
    tstk := BitVec.ofNat 64 v.stack.length
    wctl := v.csr.wctl ||| 16#64 }

/-- The CSR write instructions: the new value from the RW bits, the W1C bits, the old value and the pair (R300). -/
def csrWriteOps (num : BitVec 12) (r : Reg) : List (Instr × (DWord → DWord → DWord → DWord → DWord)) := [
  (.csrw num r, fun rw w1c old x => (old &&& ~~~rw &&& ~~~(w1c &&& x)) ||| (x &&& rw)),
  (.csrs num r, fun rw _ old x => old ||| (x &&& rw)),
  (.csrc num r, fun rw w1c old x => old &&& ~~~(x &&& (rw ||| w1c)))]

/-! Engines. -/

/-- An engine instruction that enters a queue: its opcode, extension words, fields, what else holds it, and its checks. -/
structure QueueOp where
  instr : Instr
  op : Nat
  ext : Nat
  x : FE
  held : State → Ctx → Bool
  check : State → Ctx → Except Trap (Wave × EngIn)

/-- An engine instruction that nothing but a full queue or counter holds. -/
def queueOp (i : FE → Instr) (op ext : Nat) (x : FE) (check : State → Ctx → Except Trap (Wave × EngIn)) : QueueOp :=
  { instr := i x, op := op, ext := ext, x := x, held := fun _ _ => false, check := check }

/-- The copies (R325 to R328). -/
noncomputable def copyOps (x : FE) : List QueueOp := [
  queueOp .copyGs 0x00 1 x (fun s => copyCheck s 0x00 x false false),
  queueOp .copySg 0x01 1 x (fun s => copyCheck s 0x01 x true false),
  queueOp .copySs 0x02 1 x (fun _ => copySsCheck x),
  queueOp .copyMc 0x03 1 x (fun s => copyCheck s 0x03 x false true)]

/-- The matrix engine (R329 to R334); the tile moves wait for earlier products to their tile (R60). -/
noncomputable def matrixOps (x : FE) : List QueueOp := [
  queueOp .mma 0x10 1 x (fun _ => mmaCheck 0x10 x), queueOp .mmaT 0x11 1 x (fun _ => mmaCheck 0x11 x),
  queueOp .mmaz 0x12 1 x (fun _ => mmaCheck 0x12 x), queueOp .mzero 0x13 0 x (fun _ => mzeroCheck x),
  { queueOp .mld 0x14 1 x (fun _ => tileMoveCheck 0x14 x) with held := fun s => tileBusy s x },
  { queueOp .mst 0x15 1 x (fun _ => tileMoveCheck 0x15 x) with held := fun s => tileBusy s x },
  { queueOp .mrd 0x16 0 x (fun _ => mrdCheck x) with held := fun s => tileBusy s x },
  { queueOp .mwr 0x17 0 x (fun _ => mwrCheck x) with held := fun s => tileBusy s x },
  queueOp .mdrain 0x18 0 x (fun s => tileSaveCheck s 0x18 x), queueOp .mfill 0x19 0 x (fun s => tileSaveCheck s 0x19 x)]

/-- The sampler's queue and ray traversal (R340 to R348). -/
noncomputable def gatherOps (x : FE) : List QueueOp := [
  queueOp .tex 0x28 1 x (fun s => texQueueCheck s 0x28 x), queueOp .texL 0x29 1 x (fun s => texQueueCheck s 0x29 x),
  queueOp .texB 0x2A 1 x (fun s => texQueueCheck s 0x2A x), queueOp .texD 0x2B 1 x (fun s => texQueueCheck s 0x2B x),
  queueOp .texG 0x2C 1 x (fun s => texQueueCheck s 0x2C x), queueOp .tld 0x2E 1 x (fun s => texQueueCheck s 0x2E x),
  queueOp .tqry 0x2F 1 x (fun s => texQueueCheck s 0x2F x),
  queueOp .trace 0x30 1 x (fun s => traceCheck s 0x30 x), queueOp .traceA 0x31 1 x (fun s => traceCheck s 0x31 x)]

/-- The Dash array (R349 to R356). -/
noncomputable def dashOps (x : FE) : List QueueOp := [
  queueOp .dload 0x38 1 x (fun s => dashMemCheck s 0x38 x (bits x.ext.toNat 16 16 = 0 && !x.ext.getLsbD 7 && x.f = 0) (dlCl x)
    (256 * dlN x) (fun c => legal c (decide (dlRow0 x + dlN x ≤ 128)) (dlRow0 x + dlN x))),
  queueOp .dwin 0x39 0 x (fun s => dwinCheck s x),
  queueOp .dlaunch 0x3A 1 x (fun s => dashMemCheck s 0x3A x (bits x.ext.toNat 1 31 = 0 && x.f.extractLsb' 1 2 == 0)
    (x.ext.getLsbD 0) 256 (fun _ => .ok ())),
  queueOp .dlaunchR 0x3B 0 x (fun s => dlaunchRCheck s x),
  queueOp .dcapt 0x3C 1 x (fun s => dashMemCheck s 0x3C x (bits x.ext.toNat 1 31 = 0 && x.f = 0) (x.ext.getLsbD 0) 256
    (fun _ => .ok ())),
  queueOp .dcaptW 0x3D 1 x (fun s => dashMemCheck s 0x3D x (bits x.ext.toNat 1 31 = 0 && x.f = 0) (x.ext.getLsbD 0) 256
    (fun _ => .ok ())),
  queueOp .dreset 0x3E 0 x (fun s => dresetCheck s x)]

/-- Every engine instruction that enters a queue. -/
noncomputable def queueOps (x : FE) : List QueueOp := copyOps x ++ matrixOps x ++ gatherOps x ++ dashOps x

/-- Of the device only the errors that reads have corrected, their counts and the vectors that these fire (R97). -/
def Corrected (s t : State) : Prop :=
  t.dev = { s.dev with errgd := t.dev.errgd, errhw := t.dev.errhw, errsp := t.dev.errsp, errpar := t.dev.errpar,
                       msix := t.dev.msix, serr := t.dev.serr }

/-- What an engine instruction changes beside its wave when it issues: the operations under way, the translations that its
tables fill, and a graph's mark of a HOST page that a table it reads lies in. -/
structure EngFrame (s t : State) (c : Ctx) : Prop where
  rest : t = { s with waves := t.waves, parts := t.parts, ops := t.ops, nextId := t.nextId, tlbs := t.tlbs, dev := t.dev }
  dev : Corrected s t
  others : ∀ u, u ≠ c.w → getWave t u = getWave s u
  parts : ∀ n, getPart t n = { getPart s n with graphs := (getPart t n).graphs }
  graphs : ∀ n g x, getGraph s n g = some x → ∃ h, getGraph t n g = some { x with host := h }

/-- The outstanding counters of a wave with those of one class one higher (R151). -/
def CountsOneMore (k : Cnt) (u v : Wave) : Prop := cntOf v k = cntOf u k + 1 ∧ ∀ j, j ≠ k → cntOf v j = cntOf u j

/-- The operation that an engine instruction leaves in its queue (R323). -/
def queuedOp (s : State) (c : Ctx) (o : QueueOp) (i : EngIn) : EngOp :=
  { id := s.nextId, wave := c.w, core := c.core, op := o.op, x := o.x, mask := c.mask, started := false, seq := s.seq,
    a := i.a, b := i.b, d := i.d, vals := i.vals, recd := i.recd,
    toks := dirtyToks s c.core (if o.op < 0x10 then scopeLevel (cpScope o.x) else 0) }

/-- An engine instruction whose checks pass enters its queue and counts, or stalls with nothing done while the queue is full,
its counter is at 255, or an earlier product to its tile is under way (R118, R151, R323). -/
def QueueOp.Completes (o : QueueOp) : Prop :=
  ∀ (s : State) (c : Ctx) (v : Wave) (i : EngIn), Issues s c → o.check s c = .ok (v, i) →
    (engStall s c o.op = true ∨ o.held s c = true → ∃ t, exec o.instr s = .next t ∧ Held s t c .stall) ∧
    (engStall s c o.op = false → o.held s c = false →
      ∃ t u, exec o.instr s = .next t ∧ EngFrame s t c ∧ t.ops = s.ops ++ [queuedOp s c o i] ∧ getWave t c.w = some u ∧
        SameRegs c.wave u ∧ (∃ b, u.csr = (setStatIf c.wave b 0).csr) ∧ CountsOneMore (cntOfOp o.op) c.wave u ∧
        PathAfter c (stepPath c.path (feWords o.ext o.x)) u ∧ u.sq = c.wave.sq ∧ u.acnt = c.wave.acnt)

/-- The NEVAL family (R335): opcode, whether the handle is held once for the wave, whether results are FP32. -/
noncomputable def nevalOps (x : FE) : List (Instr × Nat × Bool × Bool) :=
  [(.neval x, 0x20, false, false), (.nevalU x, 0x21, true, false), (.nevalF32 x, 0x22, false, true)]

/-- No store queue holds an entry, and no engine operation has a copy to carry up. -/
def NothingQueued (s : State) : Prop :=
  (∀ w core wg sq, sqOf s w = some (core, wg, sq) → sq = []) ∧ ∀ o ∈ s.ops, o.toks = []

/-- Baton has taken an operation: it counts, and its path goes on or waits until all its groups have entered (R337). -/
def BatonTakes (s t : State) (c : Ctx) (op : Nat) (x : FE) : Prop :=
  ∃ u p, getWave t c.w = some u ∧ CountsOneMore .gth c.wave u ∧
    (∃ o ∈ t.ops, o.id = s.nextId ∧ o.wave = c.w ∧ o.op = op ∧ o.x = x ∧ o.mask = c.mask ∧ o.started = true) ∧
    pathOf u c.pb = some p ∧ (p = stepPath c.path (feWords 1 x) ∨ p = { c.path with wait := .baton s.nextId })

/-- The completion events of the engines that a queue serves. -/
noncomputable def completionOps (id : Nat) : List (Instr × Eng) :=
  [(.copyComplete id, .copy), (.mxeComplete id, .matrix), (.texComplete id, .sampler), (.traceComplete id, .trace),
   (.dashComplete id, .dash)]

/-! Memory instructions. -/

/-- What of the machine beside its own wave a memory instruction may change: copies in views, translations, its core's
miss-status entries and performance counters, corrected errors and their counts, a graph's mark of a HOST page. No byte
of the SYSTEM view is among it. -/
structure MemFrame (s t : State) (c : Ctx) : Prop where
  rest : t = { s with waves := t.waves, views := t.views, tlbs := t.tlbs, cores := t.cores, parts := t.parts,
                      dev := t.dev, fresh := t.fresh, seq := t.seq }
  others : ∀ u, u ≠ c.w → getWave t u = getWave s u
  bytes : ∀ a, memByte t.mem a = memByte s.mem a
  cores : ∀ k, k ≠ c.core → getCore t k = getCore s k
  core : (getCore t c.core).spawnq = (getCore s c.core).spawnq ∧ (getCore t c.core).icache = (getCore s c.core).icache
  parts : ∀ n, getPart t n = { getPart s n with graphs := (getPart t n).graphs }
  graphs : ∀ n g x, getGraph s n g = some x → ∃ h, getGraph t n g = some { x with host := h }
  dev : Corrected s t

/-- The tests of a WAITA or WAITAE that are not met: each, in order, reads its word in the state that those before it have left,
as a load with acquire (R178, R315). -/
def testsLeft (eq : Bool) (scope : Nat) (c : Ctx) : State → List WordTest → List WordTest
  | _, [] => []
  | s, u :: more =>
    let s1 := match u.2.2.1 with | some l => readTest s c l | none => s
    let rest := testsLeft eq scope c (acquireScope s1 c.core scope) more
    if testMet eq (testVal s c u.2.2.1) u.2.2.2 then rest else u :: rest

/-- What a memory instruction leaves in its wave: registers, store queue, the flags it sets in WSTAT and RESMASK, pending
faults and watchpoint. -/
structure MemAfter where
  vreg : Nat → Nat → Option Word
  sreg : Nat → Word
  new : List SqEntry
  stat : DWord
  res : Mask
  faults : List Pend
  watch : Option Pend

/-- The wave after a memory instruction: nothing else of it has changed but its paths, STEP and the storage forms. -/
structure MemWave (c : Ctx) (x : MemAfter) (v : Wave) : Prop where
  vregs : ∀ q r, vReg v q r = x.vreg q r
  sregs : ∀ n, sReg v n = x.sreg n
  preds : ∀ q k, predReg v q k = predReg c.wave q k
  tids : ∀ q, tidAt v q = tidAt c.wave q
  live : liveMask v = liveMask c.wave
  sq : v.sq = c.wave.sq ++ x.new
  csrs : v.csr = { c.wave.csr with wstat := c.wave.csr.wstat ||| x.stat, resmask := c.wave.csr.resmask ||| x.res }
  faults : v.faults = x.faults
  watch : v.watch = x.watch
  rest : v = { c.wave with threads := v.threads, s := v.s, sbad := v.sbad, forms := v.forms, csr := v.csr, sq := v.sq,
                           faults := v.faults, watch := v.watch, base := v.base, stack := v.stack, step := v.step }

/-- The path waits at x within its instruction, and no other path of the wave has moved. -/
structure PathWaits (c : Ctx) (x : Path) (v : Wave) : Prop where
  base : v.base = (setPath c.wave c.pb x).base
  stack : v.stack = (setPath c.wave c.pb x).stack
  step : v.step = c.wave.step

/-- WSTAT flags: UR for an unwritten copy, OOB for a thread outside its window or bounds, NRES for a sparse page (R63). -/
def memStat (c : Ctx) (srcs : List Src) (ps : List Plan) : DWord :=
  (if unwMask c srcs = 0 then 0 else 1) ||| (if ps.any (fun p => p.acc == .outside || p.oob) then 2 else 0) |||
    (if ps.any (fun p => p.acc == .sparse) then 4 else 0)

/-- Bits of RESMASK: the threads that met a sparse page, or for an access made once every active thread (R68, R306). -/
def memRes (c : Ctx) (ps : List Plan) (all : Bool) : Mask :=
  if all then (if ps.any (fun p => p.acc == .sparse) then c.mask else 0)
  else maskOf ((ps.filter (fun p => p.acc == .sparse)).map (·.q))

/-- The registers of a wave after some writes by its active threads. -/
def vAfter (c : Ctx) (x : Writes) (q r : Nat) : Option Word := if c.mask.getLsbD q then x.vAt c q r else vReg c.wave q r
def sAfter (c : Ctx) (x : Writes) (n : Nat) : Word := (x.s.lookup n).getD (sReg c.wave n)

/-- The miss-status entries that accesses take: the newly touched lines (R119). -/
def grantedLines (s : State) (c : Ctx) (miss : Nat → Bool) (ps : List Plan) : List Nat :=
  grantLines (ps.map (accLines c.core miss)) (64 - (getCore s c.core).mshr.length)

/-- The accesses of a path that are rejected: those with a line that gets no entry (R119). -/
def rejectedOf (s : State) (c : Ctx) (miss : Nat → Bool) (ps : List Plan) : List Plan :=
  ps.filter (fun p => !(accLines c.core miss p).all (grantedLines s c miss ps).contains)

/-- The entries for which a wave with rejected accesses joins the wait list: one for each line that got none, but no more than a
core's 64 leave beside those promised (R42, R119). -/
def entriesNeeded (s : State) (c : Ctx) (miss : Nat → Bool) (ps : List Plan) : Nat :=
  let got := grantedLines s c miss ps
  let k := getCore s c.core
  Nat.min ((((rejectedOf s c miss ps).map (accLines c.core miss)).flatten).eraseDups.filter (fun l => !got.contains l)).length
    (64 - promised { k with mshr := k.mshr ++ got.map (fun l => (c.w, l)) } c.w)

/-- The path waits for miss-status entries of a memory instruction, which is replayed without it (R119). -/
def replayWaits (x : Path) : Bool := match x.wait with | .mshr _ _ _ _ => true | _ => false

/-- Every access of an instruction gets its miss-status entries (R119). -/
def Granted (s : State) (c : Ctx) (miss : Nat → Bool) (ps : List Plan) : Prop := rejectedOf s c miss ps = []

/-! Loads. -/

/-- A load into consecutive v registers: its sources, its checks, and the word that register i of a thread receives. -/
structure LoadOp where
  instr : Instr
  x : FM
  regs : Nat
  srcs : List Src
  check : State → Ctx → Except Trap (Wave × List Plan)
  value : State → Ctx → Plan → Nat → Word

/-- A load of n bytes for each thread (R305). -/
def laneLoad (i : FM → Instr) (n regs : Nat) (conv : Nat → Nat) (x : FM) : LoadOp :=
  { instr := i x, x := x, regs := regs, srcs := [addrSrc x.space.toNat x.a x.l], check := fun s c => loadCheck s c x n regs
    value := fun s c p i => BitVec.ofNat 32 (conv (accNat s c.wave c.core p.acc) / 2 ^ (32 * i)) }

/-- A load through a buffer record (R307, R129, R130). -/
def recLoad (i : FM → Instr) (regs : Nat) (x : FM) : LoadOp :=
  { instr := i x, x := x, regs := regs, srcs := [addrSrc 5 x.a x.l]
    check := fun s c => (recCheck s c x regs).map (fun r => (r.1, r.2.2.map (·.1)))
    value := fun s c p i =>
      match recCheck s c x regs with
      | .ok (_, r, pl) =>
        match pl.find? (fun e => e.1.q = p.q) with
        | some e => recChannel s c r (if regs = 1 then 1 else r.c) (recAccess e) i
        | none => 0
      | .error _ => 0 }

/-- The loads that write v registers. -/
def loadOps (x : FM) : List LoadOp := [
  laneLoad .ldB 1 1 id x, laneLoad .ldSb 1 1 (sextNat 8) x, laneLoad .ldH 2 1 id x, laneLoad .ldSh 2 1 (sextNat 16) x,
  laneLoad .ldW 4 1 id x, laneLoad .ldD 8 2 id x, laneLoad .ldQ 16 4 id x, recLoad .ldr 1 x, recLoad .ldrV4 4 x]

/-- The access of a position. -/
def planOf (ps : List Plan) (q : Nat) : Option Plan := ps.find? (fun p => p.q = q)

/-- The registers that a load writes and releases. -/
def LoadOp.writes (o : LoadOp) (s : State) (c : Ctx) (ps : List Plan) : Writes :=
  { v := (List.range o.regs).map (fun i => (o.x.t.toNat + i, fun q =>
      match planOf ps q with | some p => o.value s c p i | none => 0))
    released := releasedBy o.srcs }

/-- A load whose checks pass, whose bytes no unperformed atomic will write, and which has its miss-status entries writes
its registers and goes on. -/
def LoadOp.Completes (o : LoadOp) : Prop :=
  ∀ (s : State) (c : Ctx) (v0 : Wave) (ps : List Plan), Issues s c → replayWaits c.path = false →
    o.check s c = .ok (v0, ps) → (∀ p ∈ ps, readsAtom c.wave p = false) →
    Granted s c (loadMiss s c.wave c.core) ps →
      ∃ t v, exec o.instr s = .next t ∧ MemFrame s t c ∧ getWave t c.w = some v ∧
        PathAfter c (stepPath c.path (fmWords o.x)) v ∧
        MemWave c
          { vreg := vAfter c (o.writes s c ps), sreg := sReg c.wave, new := [], stat := memStat c o.srcs ps,
            res := memRes c ps false, faults := (lostFault s c ps false c.wave).faults,
            watch := (watchPlans c 0 ps false c.wave).watch } v

/-- The loads made once for the wave (R306): T is an s register, or with the second a pair. -/
def onceLoadOps (x : FM) : List (Instr × Nat × Bool) := [(.ldu x, 4, false), (.lduD x, 8, true)]

/-! Stores. -/

/-- A store: its sources, its checks, and the SQ entries of a thread's access. -/
structure StoreOp where
  instr : Instr
  x : FM
  all : Bool
  srcs : State → Ctx → List Src
  check : State → Ctx → Except Trap (Wave × List Plan)
  data : State → Ctx → Plan → Pieces

/-- A store of n bytes for each thread (R308). -/
def laneStore (i : FM → Instr) (n : Nat) (x : FM) : StoreOp :=
  { instr := i x, x := x, all := false, srcs := fun _ _ => [addrSrc x.space.toNat x.a x.l, storeSrc x.t n]
    check := fun s c => storeCheck s c x n, data := fun _ c p => storeData c x n p.q p.acc }

/-- A store through a buffer record (R310). STR.V4 reads as many registers from T on as the record has channels (R130). -/
def recStore (i : FM → Instr) (v4 : Bool) (x : FM) : StoreOp :=
  { instr := i x, x := x, all := false
    srcs := fun s c => recStoreSrcs x (match recStoreCheck s c x v4 with | .ok (_, r, _) => if v4 then r.c else 1 | .error _ => 1)
    check := fun s c => (recStoreCheck s c x v4).map (fun r => (r.1, r.2.2.map (·.1)))
    data := fun s c p =>
      match recStoreCheck s c x v4 with
      | .ok (_, r, pl) => match pl.find? (fun e => e.1.q = p.q) with | some e => recStoreData c x r e | none => []
      | .error _ => [] }

/-- The stores; STU is made once for the wave (R309). -/
def storeOps (x : FM) : List StoreOp := [
  laneStore .stB 1 x, laneStore .stH 2 x, laneStore .stW 4 x, laneStore .stD 8 x, laneStore .stQ 16 x,
  recStore .str false x, recStore .strV4 true x,
  { instr := .stu x, x := x, all := true, srcs := fun _ _ => [addrSrc x.space.toNat x.a false, storeSrc x.t 4]
    check := fun s c => stuCheck s c x, data := fun _ c p => storeData c x 4 p.q p.acc }]

/-- Whether an access reaches bytes. -/
def inMem (p : Plan) : Bool := match p.acc with | .mem _ => true | _ => false

/-- The SQ entries of an instruction: threads in ascending %tid, each with its pieces, numbered in turn; a release waits for
the copies dirty on its core's path now (R166, R170, R171). -/
def newEntries (s : State) (c : Ctx) (x : FM) (kind : Plan → SqKind) (acq : Bool) (data : Plan → Pieces)
    (ps : List Plan) : List SqEntry :=
  let rel := isRel x && decide (2 ≤ x.scope.toNat)
  (((ps.filter inMem).flatMap (fun p => (data p).map (fun b => (p, b)))).zipIdx).map (fun e =>
    { seq := s.seq + e.2, grp := s.seq, kind := kind e.1.1, bytes := e.1.2, scope := x.scope.toNat, rel := rel, acq := acq
      toks := if rel then dirtyToks s c.core (scopeLevel x.scope.toNat) else [], va := e.1.1.addr })

/-- A store whose checks pass and which has its miss-status entries enters the SQ and goes on; the wave's own loads of
every location it does not store to read as before. -/
def StoreOp.Completes (o : StoreOp) : Prop :=
  ∀ (s : State) (c : Ctx) (v0 : Wave) (ps : List Plan), Issues s c → replayWaits c.path = false →
    o.check s c = .ok (v0, ps) → Granted s c (fun _ => true) ps →
      ∃ t v, exec o.instr s = .next t ∧ MemFrame s t c ∧ getWave t c.w = some v ∧
        PathAfter c (stepPath c.path (fmWords o.x)) v ∧
        MemWave c
          { vreg := vAfter c { released := releasedBy (o.srcs s c) }, sreg := sReg c.wave
            new := newEntries s c o.x (fun _ => .store) false (o.data s c) ps, stat := memStat c (o.srcs s c) ps
            res := memRes c ps o.all, faults := c.wave.faults, watch := (watchPlans c 1 ps o.all c.wave).watch } v ∧
        ∀ a, (∀ e ∈ newEntries s c o.x (fun _ => .store) false (o.data s c) ps, touches e a = false) →
          loadByte t v.sq c.core a = loadByte s c.wave.sq c.core a

/-! Atomics and reductions. -/

/-- An atomic or reduction: its opcode, whether it acts on doublewords, returns a value, and is a CAS (R311 to R313). -/
structure AtomOp where
  instr : Instr
  op : Nat
  wide : Bool
  ret : Bool
  cas : Bool

/-- The atomics and reductions of R312. -/
def atomOps (x : FM) : List AtomOp := [
  ⟨.atomAdd x, 0x20, false, true, false⟩, ⟨.atomMin x, 0x21, false, true, false⟩, ⟨.atomMax x, 0x22, false, true, false⟩,
  ⟨.atomUmin x, 0x23, false, true, false⟩, ⟨.atomUmax x, 0x24, false, true, false⟩, ⟨.atomAnd x, 0x25, false, true, false⟩,
  ⟨.atomOr x, 0x26, false, true, false⟩, ⟨.atomXor x, 0x27, false, true, false⟩, ⟨.atomXchg x, 0x28, false, true, false⟩,
  ⟨.atomCas x, 0x29, false, true, true⟩, ⟨.atomFadd x, 0x2A, false, true, false⟩, ⟨.atomAdd64 x, 0x2B, true, true, false⟩,
  ⟨.atomXchg64 x, 0x2C, true, true, false⟩, ⟨.atomCas64 x, 0x2D, true, true, true⟩,
  ⟨.redAdd x, 0x30, false, false, false⟩, ⟨.redMin x, 0x31, false, false, false⟩, ⟨.redMax x, 0x32, false, false, false⟩,
  ⟨.redUmin x, 0x33, false, false, false⟩, ⟨.redUmax x, 0x34, false, false, false⟩, ⟨.redAnd x, 0x35, false, false, false⟩,
  ⟨.redOr x, 0x36, false, false, false⟩, ⟨.redXor x, 0x37, false, false, false⟩, ⟨.redFadd x, 0x38, false, false, false⟩]

/-- The SQ entries of an atomic: one a thread, with the operands read at issue and the register that it will write. -/
def AtomOp.entries (o : AtomOp) (s : State) (c : Ctx) (x : FM) (ps : List Plan) : List SqEntry :=
  newEntries s c x
    (fun p => .atom o.op o.wide (atVal c p.q (atB x) o.wide) (atVal c p.q (atC x) o.wide)
      (if o.ret then some (x.t.toNat, tidAt c.wave p.q) else none)) (isAcq x)
    (fun p => match p.acc with | .mem bs => [bs.map (fun b => (b.1, b.2, 0))] | _ => []) ps

/-- The v registers after an atomic has entered the SQ: a thread whose access reaches no byte receives zero, every other
destination is written when the entry is performed. -/
def AtomOp.vreg (o : AtomOp) (c : Ctx) (x : FM) (ps : List Plan) (q r : Nat) : Option Word :=
  let n := if o.wide then 2 else 1
  let zero : Bool := match planOf ps q with | some p => !inMem p | none => false
  if c.mask.getLsbD q && o.ret && zero && decide (x.t.toNat ≤ r ∧ r < x.t.toNat + n) then some 0
  else vAfter c { released := releasedBy (atSrcs x o.wide o.cas) } q r

/-- An atomic whose checks pass and which has its miss-status entries enters the SQ. Its path goes on, or with ACQ or AR
waits until every entry has been performed. -/
def AtomOp.Completes (o : AtomOp) (x : FM) : Prop :=
  ∀ (s : State) (c : Ctx) (v0 : Wave) (ps : List Plan), Issues s c → replayWaits c.path = false →
    atomCheck s c x o.wide o.ret o.cas = .ok (v0, ps) → Granted s c (fun _ => true) ps →
      ∃ t v, exec o.instr s = .next t ∧ MemFrame s t c ∧ getWave t c.w = some v ∧
        (isAcq x = false ∨ o.entries s c x ps = [] → PathAfter c (stepPath c.path (fmWords x)) v) ∧
        (isAcq x = true → o.entries s c x ps ≠ [] →
          PathWaits c { c.path with wait := .atom s.seq (s.seq + (o.entries s c x ps).length) } v) ∧
        MemWave c
          { vreg := o.vreg c x ps, sreg := sReg c.wave, new := o.entries s c x ps
            stat := memStat c (atSrcs x o.wide o.cas) ps, res := memRes c ps false, faults := c.wave.faults
            watch := (watchPlans c 2 ps false c.wave).watch } v

/-! Checks. -/

/-- A memory instruction with its ordered checks (R75), as the path acts now. -/
structure CheckOp where
  instr : Instr
  check : State → Ctx → Option Trap

/-- The trap of a check. -/
def trapOfCheck {α : Type} (r : Except Trap α) : Option Trap := match r with | .error t => some t | .ok _ => none

/-- Loads, stores, atomics and reductions with their checks. -/
def accessOps (x : FM) : List CheckOp :=
  (loadOps x).map (fun o => ⟨o.instr, fun s c => trapOfCheck (o.check s c)⟩) ++
  (onceLoadOps x).map (fun o => ⟨o.1, fun s c => trapOfCheck (loadOnceCheck s c x o.2.1 o.2.2)⟩) ++
  (storeOps x).map (fun o => ⟨o.instr, fun s c => trapOfCheck (o.check s c)⟩) ++
  (atomOps x).map (fun o => ⟨o.instr, fun s c => trapOfCheck (atomCheck s c x o.wide o.ret o.cas)⟩)

/-- The other instructions of class MEM with their checks; none of them replays. -/
def hintOps (x : FM) : List CheckOp := [
  ⟨.waita x, fun s c => trapOfCheck (waitCheck s c x)⟩, ⟨.waitae x, fun s c => trapOfCheck (waitCheck s c x)⟩,
  ⟨.probe x, fun _ c => trapOfCheck (probeCheck c x)⟩, ⟨.resreq x, fun _ c => trapOfCheck (resCheck c x)⟩,
  ⟨.pref x, fun _ c => trapOfCheck (prefCheck c x)⟩, ⟨.prefL2 x, fun _ c => trapOfCheck (prefCheck c x)⟩,
  ⟨.clwb x, fun s c => trapOfCheck (lineCheck s c x)⟩, ⟨.invl x, fun s c => trapOfCheck (lineCheck s c x)⟩]

/-- An access that takes miss-status entries: whether it loads, whether it is an atomic, and the sources that it reads. -/
structure RejectOp where
  instr : Instr
  loads : Bool
  atom : Bool
  srcs : State → Ctx → List Src
  check : State → Ctx → Except Trap (Wave × List Plan)

/-- Every instruction that takes miss-status entries. -/
def rejectOps (x : FM) : List RejectOp :=
  (loadOps x).map (fun o => ⟨o.instr, true, false, fun _ _ => o.srcs, o.check⟩) ++
  (onceLoadOps x).map (fun o => ⟨o.1, true, false, fun _ _ => [], fun s c => loadOnceCheck s c x o.2.1 o.2.2⟩) ++
  (storeOps x).map (fun o => ⟨o.instr, false, false, o.srcs, o.check⟩) ++
  (atomOps x).map (fun o => ⟨o.instr, false, true, fun _ _ => atSrcs x o.wide o.cas, fun s c => atomCheck s c x o.wide o.ret o.cas⟩)

/-- The misses of an access: of a load those of L1, of a store or atomic every line that leaves the core (R119). -/
def RejectOp.miss (o : RejectOp) (s : State) (c : Ctx) : Nat → Bool :=
  if o.loads then loadMiss s c.wave c.core else fun _ => true

/-- The accesses that a rejection leaves to be replayed. -/
def RejectOp.rejected (o : RejectOp) (s : State) (c : Ctx) (ps : List Plan) : List Plan := rejectedOf s c (o.miss s c) ps

/-- The miss-status entries that the rejected lines still need. -/
def RejectOp.need (o : RejectOp) (s : State) (c : Ctx) (ps : List Plan) : Nat := entriesNeeded s c (o.miss s c) ps

/-! Spawns, graphs, timelines, mailboxes. -/

/-- The spawn instructions: opcode, whether one child is made, whether queues go by address (R285). -/
def spawnOps (k : BitVec 10) (a1 a0 : Reg) : List (Instr × BitVec 8 × Bool × Bool) :=
  [(.spawn k a1 a0, 0x0D, false, false), (.spawnW k a1 a0, 0x0E, true, false), (.spawnAt k a1 a0, 0x0F, false, true)]

/-- The child of a thread: the root task and tile coordinates of the parent, one level deeper, and its two arguments
(R36). -/
def childOf (s : State) (c : Ctx) (e : KEnt) (task : Nat × Nat × Nat) (k : BitVec 10) (a1 a0 : Reg) (q : Nat) : Child :=
  { part := c.g.part, g := task.1, p := task.2.1, k := task.2.2, ent := e, kbase := ktabBase (getPart s c.g.part).ktab
    kidx := k.toNat, depth := c.g.depth + 1, tilex := c.g.tilex, tiley := c.g.tiley, arg0 := rdSpec c q a0 0
    arg1 := rdSpec c q a1 0 }

/-- The threads that spawn, in ascending %tid. -/
def spawners (c : Ctx) (low : Bool) : List Nat := if low then (byTid c.wave c.mask).take 1 else byTid c.wave c.mask

/-- The core whose spawn queue a thread's child enters: the parent's, or for SPAWN.AT the one of the address that its two
arguments form (R38). -/
def spawnCore (s : State) (c : Ctx) (at_ : Bool) (a1 a0 : Reg) (q : Nat) : Nat :=
  if at_ then atCore s c.g.part c.core ((rdSpec c q a1 0).toNat % 2 ^ 25 * 2 ^ 32 + (rdSpec c q a0 0).toNat) else c.core

/-- The children that enter the queue of a core. -/
def childrenAt (s : State) (c : Ctx) (e : KEnt) (task : Nat × Nat × Nat) (k : BitVec 10) (a1 a0 : Reg) (low at_ : Bool)
    (d : Nat) : List Child :=
  ((spawners c low).filter (fun q => spawnCore s c at_ a1 a0 q = d)).map (childOf s c e task k a1 a0)

/-- The GRF instructions with the checks that come before anything else (R357, R100). -/
noncomputable def grfOps (x : FE) : List (Instr × (Ctx → Except Trap Unit)) := [
  (.gsub x, fun c => firstError [sDst c x.d, evenS c x.a, pacerOnly c 0x00 x, grfReads c [] [x.a],
    alignCheck c (sPair c.wave (sNum x.a)).toNat 64]),
  (.gabort x, fun c => handleArg c 0x01 x), (.gstop x, fun c => handleArg c 0x02 x),
  (.gqry x, fun c => firstError [sDst c x.d, onceVal c x.a false, onceVal c x.b true, grfReads c [x.a, x.b] [],
    below c (rdSpec c 0 x.a 0).toNat 4]),
  (.ghint x, fun c => taskOnly c 0x04 x), (.gwait x, fun c => taskOnly c 0x05 x), (.trel x, fun c => taskOnly c 0x06 x),
  (.tlsig x, fun c => firstError [oncePair c x.a, grfReads c [] [x.a], timelineArg c x]),
  (.tlset x, fun c => firstError [oncePair c x.a, grfReads c [] [x.a], timelineArg c x]),
  (.tlrd x, fun c => firstError [evenS c x.d, timelineArg c x]),
  (.tlwait x, fun c => firstError [sDst c x.d, oncePair c x.a, grfReads c [] [x.a], timelineArg c x]),
  (.mbrecv x, fun c => firstError [sDst c x.d, mailArg c 0x0B x [0, 1, 2, 3, 4, 5, 6, 7, 8, 9, 10, 11, 15]]),
  (.mbsend x, fun c => mailArg c 0x0C x [12, 13, 14]),
  (.dbgsend x, fun c => firstError [onceVal c x.a false, grfReads c [x.a] []])]

/-- The checks of a GRF instruction pass. -/
def Passes (l : List (Instr × (Ctx → Except Trap Unit))) (i : Instr) (c : Ctx) : Prop := ∀ o ∈ l, o.1 = i → o.2 c = .ok ()

/-- The issuing path has gone on n words, and of its wave's registers only the s registers of some writes have changed. -/
def WentOn (t : State) (c : Ctx) (n : Nat) (s : List (Nat × Word)) : Prop :=
  ∃ v, getWave t c.w = some v ∧ PathAfter c (stepPath c.path n) v ∧ (∀ q r, vReg v q r = vReg c.wave q r) ∧
    (∀ q k, predReg v q k = predReg c.wave q k) ∧ (∀ r, sReg v r = sAfter c { s := s } r) ∧ v.csr = c.wave.csr

/-- The issuing path waits at its instruction with its wave's registers as they were. -/
def StaysAt (t : State) (c : Ctx) (wt : Wait) : Prop :=
  ∃ v, getWave t c.w = some v ∧ PathWaits c { c.path with wait := wt } v ∧ SameRegs c.wave v ∧ v.csr = c.wave.csr

/-! Events. -/

/-- No wave, no byte of memory and no copy in a view has changed. -/
structure Untouched (s t : State) : Prop where
  waves : ∀ u, getWave t u = getWave s u
  bytes : ∀ a, memByte t.mem a = memByte s.mem a
  cells : ∀ u a, cellAt t u a = cellAt s u a

/-- The cores beside the issuing one that an ICINV of a scope covers: the cluster, the die, or the partition (R299). -/
def IcinvCovers (scope core d : Nat) : Prop :=
  (scope = 3 ∧ d / 4 = core / 4) ∨ (scope = 4 ∧ d / 128 = core / 128) ∨ 5 ≤ scope

/-- A path stands at the start of a clause that it has not fetched. -/
def AtClause (c : Ctx) : Prop := c.path.wait = .ready ∧ c.path.code = none ∧ c.path.resume = none

/-- The four wait fields of a header (R207, R210). -/
def headerWaits (h : Word) : Wait := .counters true (headCpy h) (headMtx h) (headGth h) (headDsh h)

/-- Only the paths of the issuing wave have changed, and what the fetch keeps in caches and TLBs. -/
structure FetchFrame (s t : State) (c : Ctx) : Prop where
  rest : t = { s with waves := t.waves, cores := t.cores, tlbs := t.tlbs, dev := t.dev }
  dev : Corrected s t
  others : ∀ u, u ≠ c.w → getWave t u = getWave s u
  spawnq : ∀ k, (getCore t k).spawnq = (getCore s k).spawnq

/-- A tile after a task has retired: RETIRED if the task writes it, and one reader fewer if the task covers it (R107, R155,
R156). -/
def tileAfter (gr : Graph) (p k r i : Nat) (u : TileSt) : TileSt :=
  let a := if (((gr.image.passes[p]?).map (fun e => e.writes.contains r)).getD false) = true ∧ i = k then retireTile u else u
  if (r, i) ∈ covers gr.image p k then readTile a else a

/-- A tile's storage has been granted to a task that was not placed before and is placed now (R106). -/
def NewlyPlaced (gr gr' : Graph) (r i : Nat) : Prop :=
  ∃ q e tk, gr.image.passes[q]? = some e ∧ r ∈ e.writes ∧ (∀ x, taskOf gr q i = some x → isPlaced x = false) ∧
    taskOf gr' q i = some tk ∧ isPlaced tk = true

/-- The pending event that is taken first, and whether it concerns path B: completion faults, WATCH, STEP, the save trap
(R287). -/
def FirstPending (v : Wave) (p : Trap) (pb : Bool) : Prop :=
  (∃ q more, v.faults = q :: more ∧ p = pendTrap q ∧ pb = false) ∨
  (v.faults = [] ∧ ∃ q, v.watch = some q ∧ p = pendTrap q ∧ pb = q.pathB) ∨
  (v.faults = [] ∧ v.watch = none ∧ ∃ q, v.step = some q ∧ p = pendTrap q ∧ pb = q.pathB) ∨
  (v.faults = [] ∧ v.watch = none ∧ v.step = none ∧ v.save = true ∧ p = trapOf 0x15 6 0 0 ∧ pb = false)

/-- The threads that the waves of a closed collection hold, in wave and position order (R34's list before it is sorted). -/
def threadsHeld (s : State) (p : List (Nat × Wave)) : List Mover :=
  p.flatMap (fun e => (List.range e.2.threads.length).filterMap (fun q =>
    match threadAt e.2 q with
    | some t => if t.live then some ⟨e.1, q, t, e.2.csr.resmask.getLsbD q, reordKey s e.1 e.2 q⟩ else none
    | none => none))

/-- The waves of closed collection i of a workgroup, in ascending wave number. -/
def collection (s : State) (wg i : Nat) : List (Nat × Wave) :=
  (runningWaves s wg).filter (fun e => i != 0 && setOf e.2 == some i)

/-- Wave n of a workgroup at its placement (R21, R48, R62, R64, R135): every v register unwritten, s registers 0, p1 to p7
false, its table CSRs from the kernel-table entry. -/
structure PlacedWave (e : KEnt) (id n : Nat) (v : Wave) : Prop where
  wg : v.wg = id
  num : v.num = n
  path : v.base = wholePath (kWidth e) e.entry
  stack : v.stack = []
  width : v.threads.length = kWidth e
  vregs : ∀ q r, vReg v q r = none
  sregs : ∀ r, sReg v r = 0
  preds : ∀ q k, k ≠ 0 → predReg v q k = false
  tids : ∀ q, q < kWidth e → tidAt v q = n * kWidth e + q
  strict : v.csr.wctl = (if e.strict then 5 else 4)
  tables : v.csr.brtab = e.brtab ∧ v.csr.whtab = e.whtab ∧ v.csr.smtab = e.smtab ∧ v.csr.tvec = e.tvec
  zero : v.csr.wstat = 0 ∧ v.csr.resmask = 0 ∧ v.acnt = 0 ∧ countersZero v = true ∧ v.sq = []

/-- A workgroup of number id has been placed on a core: its waves, its cleared scratch granules, its tiles of zeros, its
Dash grant. -/
structure PlacedWg (s t : State) (part core : Nat) (kind : WgKind) (e : KEnt) (slots : List Nat) (scr : Nat) : Prop where
  wg : ∃ g, getWg t s.nextId = some g ∧ g.part = part ∧ g.core = core ∧ g.kind = kind ∧ g.ent = e ∧ g.scr = scr ∧
    g.slots = slots ∧ (∀ k i, tileWord g k i = 0)
  waves : ∀ n w, slots[n]? = some w → ∃ v, getWave t w = some v ∧ PlacedWave e s.nextId n v
  others : ∀ u, u ∉ slots → getWave t u = getWave s u
  scratch : ∀ a, locScr core (scr * 4096) ≤ a → a < locScr core ((scr + e.scratch) * 4096) → memByte t.mem a = 0
  bytes : ∀ a, (a < locScr core (scr * 4096) ∨ locScr core ((scr + e.scratch) * 4096) ≤ a) →
    memByte t.mem a = memByte s.mem a
  dash : e.dash = true → getDash t (clusterOf core) = { Dash.init with holder := some s.nextId }

/-- A partition command may act: the link is up, the firmware runs, and the partition is not being ended (R373). -/
def Commanded (s : State) (n : Nat) : Prop :=
  s.dev.linkUp = true ∧ n < 20 ∧ (getPart s n).ending = .none ∧ s.dev.stat = .ready

/-- A command was refused: ERR holds the code, and nothing else has changed (R373, R374). -/
def Refused (s t : State) (n err : Nat) : Prop := t = setPart s n { getPart s n with err := err }

/-- A VF is bound to a partition, and the host can reach it (R371, R372). -/
def Reaches (s : State) (vf n : Nat) : Prop := s.dev.linkUp = true ∧ partOfVf s vf = some n

/-- Path A of the issuing path's pair waits in a WARV for which there are arrivals enough: it goes first (R31, R317). -/
def PathAFirst (c : Ctx) : Prop :=
  c.pb = true ∧ ∃ a m, pathOf c.wave false = some a ∧ a.wait = .warv m ∧ m ≤ c.wave.acnt

/-- No resource of any graph has an element that lies in more than one block of 8 bytes (R85, R183). -/
def NoWideTiles (s : State) : Prop := ∀ p ∈ s.parts, ∀ g ∈ p.2.graphs, ∀ e ∈ g.2.image.ress, wideElems e = false

/-- Some lines moved block by block in the views of a core's path below a level: each propagated (CLWB) or its clean bytes
dropped (INVL), a line of a scratchpad left alone (R321). -/
def linesMoved (move : State → Nat → Nat → State) (core level : Nat) (lines : List Nat) (s : State) : State :=
  lines.foldl (fun s line =>
    if singleCopy (line * 128) then s
    else (List.range (Nat.min 4 level)).foldl (fun s l =>
      (List.range 16).foldl (fun s i => move s (viewAt core l) (line * 16 + i)) s) s) s

/-- No wave of a partition runs. -/
def NoWave (s : State) (n : Nat) : Prop := ∀ e ∈ s.waves, partWave s n e.2 = false

end Sys2Proof.Machine
end

