-- ==== Sys2Proof/Certificates/Slice0/Obligations.lean ====
section
/-! DEFINITION. The statements for the provers, each with the rules of spec/ that it rests on. -/

open Sys2Proof Sys2Proof.Machine

/-! The machine. -/

/-- At reset every partition block is at its initial values, no VF is bound, no wave exists, CLK and TIMEBASE are 0, no view
holds a copy, every core is as reset leaves it and DEVSTAT.STATE is 0. The memory is in its canonical form and every byte
reads 0 (for GDDR7 and host memory 0 is the model's choice, log entry 1), and the tables are in order. The first step of a
machine in that STATE is the boot: with a valid image STATE becomes 1 and the image runs, otherwise STATE becomes 2; vector 1
of the PF fires (that it fires for STATE 2 is the model's reading, log entry 37). (R388, R384, R372, R163, R166, R378, R73.)
-/
def Obligations.ResetAndBoot : Prop :=
  ((∀ n, getPart State.reset n = Part.init) ∧ (∀ vf, partOfVf State.reset vf = none) ∧ (∀ w, getWave State.reset w = none) ∧
    memoryWf State.reset.mem = true ∧ (∀ a, memByte State.reset.mem a = 0) ∧ InOrder State.reset ∧ State.reset.dev.cycle = 0 ∧ timeNs State.reset = 0 ∧ State.reset.dev.stat = .boot ∧
    (∀ u a, cellAt State.reset u a = noCell) ∧ (∀ k, getCore State.reset k = Core.init)) ∧
  (∀ s, s.agenda = [] → s.dev.stat = .boot →
    ∃ t, step s = .next t ∧ t = { s with dev := t.dev } ∧ t.dev.msix = s.dev.msix ++ [(0, 1)] ∧
      (Config.imageValid s.dev.flash = true → t.dev.stat = .ready ∧ t.dev.running = s.dev.flash) ∧
      (Config.imageValid s.dev.flash = false → t.dev.stat = .recovery ∧ t.dev.running = s.dev.running))

/-- From every state whose memory is in its canonical form (addresses strictly rising, no entry equal to what an unlisted
address reads as), a step that answers a next state leaves a memory in that form. The form is the model's own (log entry 2).
(R166, R170, R73.) -/
def Obligations.StepKeepsMemoryCanonical : Prop :=
  ∀ (s t : State), memoryWf s.mem = true → step s = .next t → memoryWf t.mem = true

/-- From every state whose tables are in order (keys of the views, waves, ended queues, workgroups, cores, partitions and
graph slots strictly rising, the Baton tiles in the order of their numbers and below the next number, no slot twice in a
workgroup), a step that answers a next state leaves tables in order. The tables are the model's own form of the state (log
entry 2). (R10, R166, R103, R337.) -/
def Obligations.StepKeepsTablesInOrder : Prop :=
  ∀ (s t : State), InOrder s → step s = .next t → InOrder t

/-- When the agenda asks a path to issue and that path may not, or the device is in its fatal state, a cycle passes and
nothing else happens. When the path has a context, no trap is due, it waits for nothing, and the words of its clause at its
PC decode to i in the class of the clause header, then it may issue exactly when the scoreboard does not hold i back, and
when its slice selects its wave, step is exec of i in the state where cur names the path and its slice has served it, which
reads as the state before, with what step adds around an issue (the time that the instruction takes and its performance
counters). The agenda and the latency that keeps operands busy after an issue are the model's own (log entries 2 and 59).
(R206, R209, R25, R30, R287.) -/
def Obligations.StepRunsTheDecodedInstruction : Prop :=
  ∀ (s : State) (w : Nat) (pb : Bool) (more : List Move), s.agenda = .issue w pb :: more →
    let s0 : State := { s with agenda := more }
    (s.dev.stat = .fatal ∨ mayMove s0 w pb = false ∨ selected s0 (w / 12) ≠ some w → step s = .next (advanceTime s0 1)) ∧
    (∀ (c : Ctx) (i : Instr) (rest : List Word), s.dev.stat ≠ .fatal → ctxAt s w pb = some c → MayIssue c →
      InstrAt c.path i rest →
        (mayMove s0 w pb = (decide (c.wave.freeAt ≤ s.dev.cycle) && !heldBack s0 c i)) ∧
        (mayMove s0 w pb = true → selected s0 (w / 12) = some w →
          let s1 : State := { serve s0 w with cur := w, curB := pb }
          (∀ u, getWave s1 u = getWave s u) ∧ s1.mem = s.mem ∧ s1.views = s.views ∧ ctxAt s1 w pb = some c ∧
          step s = around c i (exec i s1)))

/-- The wave that a slice selects is one of its waves with a path that may move. No such wave of the slice that has not
yielded is older; among equal ages the slot after the last one served comes first, cyclically; a wave that yielded in the
cycle before is selected only when every wave of the slice that may move has. Serving a wave remembers its slot. When nothing
is on the agenda, no event of the machine is due and only this slice has such a wave, a step gives that wave its turn. How
turns, events and the agenda interleave is the model's choice (log entry 59). (R25, R297.) -/
def Obligations.SlicesSelectTheOldest : Prop :=
  ∀ (s : State) (sl w : Nat), selected s sl = some w →
    ∃ v, (w, v) ∈ s.waves ∧ w / 12 = sl ∧ (mayMove s w false = true ∨ mayMove s w true = true) ∧
      (∀ e ∈ s.waves, e.1 / 12 = sl → mayMove s e.1 false = true ∨ mayMove s e.1 true = true →
        (v.age ≤ e.2.age ∨ yielded s e = true) ∧ (yielded s (w, v) = true → yielded s e = true) ∧
        (e.2.age = v.age → yielded s e = yielded s (w, v) → tabRising none s.waves = true →
          (lastServed s sl ≤ e.1 → lastServed s sl ≤ w ∧ w ≤ e.1) ∧ (e.1 < lastServed s sl → w < lastServed s sl → w ≤ e.1))) ∧
      lastServed (serve s w) sl = w + 1 ∧
      (s.agenda = [] → s.dev.stat ≠ .boot → s.dev.stat ≠ .fatal → firstChange s (ownEvents s) = none →
        (∀ n, n ≠ sl → selected s n = none) → step s = takeTurn s w)

/-- Words of the classes VEC, CTL, MEM and GRF, written out from the encodings of 10_encoding.md and the instruction entries,
decode to IADD, AND with a literal, TRAP, CSRW, STU with an extension word, GQRY with a literal and ICINV; the word 0xFF of
class ENG is unassigned. (R206, R207, R208, R215, R216, R217.) -/
def Obligations.WordsDecode : Prop :=
  decodeWords 0 [0x30008300#32] = .ok (.iadd ⟨0x03, 0x01, 0x40, true, false, false, 0⟩, []) ∧
  decodeWords 0 [0x1FC00120#32, 0x00000007#32] = .ok (.and ⟨0x01, 0x00, 0x7F, false, false, false, 7⟩, []) ∧
  decodeWords 2 [0x00001510#32] = .ok (.trap 0x15, []) ∧
  decodeWords 2 [0x01304618#32] = .ok (.csrw 0x013 0x46, []) ∧
  decodeWords 1 [0x80A6CF17#32, 0x00000004#32] = .ok (.stu { t := 0x4F, a := 0x4D, space := 2, scope := 0, ord := 0, l := false, x := true, ext := 4 }, []) ∧
  decodeWords 4 [0x1FE24E03#32, 0x00000100#32] = .ok (.gqry { d := 0x4E, a := 0x44, b := 0x7F, f := 0, ext := 0, lit := 0x100 }, []) ∧
  decodeWords 2 [0x00000516#32] = .ok (.icinv 5, []) ∧
  decodeWords 3 [0x000000FF#32] = .error .unassigned

/-- For every well-formed instruction of every class, with every operand at every value its fields admit, decoding its
encoded words in its class, whatever words follow, gives the instruction and exactly the words that follow. (R206, R207,
R208, R215, R216, R217, R220.) -/
def Obligations.EncodedInstructionsDecode : Prop :=
  ∀ (i : Instr) (cls : Nat) (rest : List Word), i.wf = true → classOf i = some cls →
    decodeWords cls (encode i ++ rest) = .ok (i, rest)

/-- exec of any instruction in any state answers a next state, or it stops because cur names no path that can issue, or
because the device is in its fatal state. That these two are answers of their own, noIssuer and deviceFatal, is the model's
reading of R24, R25 and R386 (log entry 45, DEDUCED). No instruction is refused and none has another fault. (R24, R25, R386.)
-/
def Obligations.ExecAnswers : Prop :=
  ∀ (i : Instr) (s : State), (∃ t, exec i s = .next t) ∨
    (exec i s = .fault .noIssuer ∧ ctxAt s s.cur s.curB = none) ∨
    (exec i s = .fault .deviceFatal ∧ s.dev.stat = .fatal)

/-! Vector instructions. -/

/-- For each VEC instruction that writes a register from its own thread's operands (integer arithmetic, logic, bit fields,
planes, 64-bit forms, FP32, conversions, packed formats, transcendentals, SEL, LOP3, FCLASS into a register): in every state
where the path may issue, the destination is legal and the sources can be read, exec answers the next state in which the
active threads of the path hold the value that the table of RegOp gives (an s register holds that of the lowest active
thread), sources marked as last reads are released, WSTAT.UR is set for an unwritten copy, the path has gone on, and nothing
else has changed: no other register, predicate, CSR, wave or byte of memory. PLANE and UNPLANE have k from 1 to 8, SEL into
an s register has p0. Rounding of the transcendentals is the one of log entry 11. (R230, R231, R232, R234, R236, R240, R244,
R246, R250, R263, R271, R274.) -/
def Obligations.RegisterResults : Prop :=
  (∀ (x : F3) (i : FI), ∀ o ∈ laneLocalOps x i, o.Completes) ∧
  (∀ (x : FI) (k : Nat), planeK x = some k → ∀ o ∈ planeOps x k, o.Completes) ∧
  (∀ (x : FP), (isSSpec x.d = false ∨ x.p = 0) → (selOp x).Completes) ∧
  (∀ (x : F3), (lopOk x = true → (lop3Op x).Completes) ∧ (fclassReg x).Completes)

/-- ICMP, FCMP, the predicate logic and FCLASS into a predicate: in every state where the path may issue, the destination is
a predicate and the sources can be read, exec answers the next state in which the active threads' predicate holds the result
(p0 stays true), last reads are released, WSTAT.UR is set for an unwritten copy, the path has gone on, and nothing else has
changed. (R252, R253, R266, R270, R56, R50, R51.) -/
def Obligations.PredicateResults : Prop :=
  ∀ (x : F3), ∀ o ∈ predicateResults x, o.Completes

/-- BALLOT, FIRST, BCAST, the reductions and the shuffles write their register, VANY, VALL and MATCH their predicate, with
the value that the entry gives over the active threads of the path in position order; the path goes on and nothing else
changes. (R254, R255, R256, R257, R258, R259, R260, R261.) -/
def Obligations.LaneResults : Prop :=
  ∀ (x : F3) (i : FI), (∀ o ∈ voteOps x ++ shuffleOps x i, o.Completes) ∧ (∀ o ∈ votePredOps x, o.Completes)

/-- Bit k of LOP3's result is bit 7 - (4a + 2b + c) of the table field, where a, b and c are bits k of the three inputs. Each
of the nine bits of FCLASS's word is set exactly for the values of its class, and no higher bit is set. (R245, R266.) -/
def Obligations.TernaryTableAndClasses : Prop :=
  (∀ (tt a b c : Word) (k : Nat), k < 32 →
    (lop3 tt a b c).getLsbD k = tt.getLsbD (7 - (4 * bitNat a k + 2 * bitNat b k + bitNat c k))) ∧
  (∀ (a : Word), ∀ e ∈ classTests, (fClass a).getLsbD e.1 = true ↔ e.2 a) ∧
  (∀ (a : Word) (k : Nat), 8 < k → (fClass a).getLsbD k = false)

/-- A VEC instruction with a register destination takes ILLEGAL_OPERAND for an illegal destination, then for the first
illegal source, then ECC for a register whose parity fails, then under STRICT outside trap mode UNWRITTEN for the first
source with an unwritten copy. The lane instructions (votes, shuffles, broadcast, reductions, MATCH) and the instructions
that write a predicate do the same in that order, a shuffle and a broadcast counting the copies that are read, with the
threads that read them for ECC. SEL into an s register by another predicate than p0 takes ILLEGAL_OPERAND with TVAL 0x60 + P;
PLANE and UNPLANE with k out of 1 to 8, and LOP3 with a bad control word, take ILLEGAL_OP once their operands are legal; a
comparison, a predicate operation or a vote into no predicate takes ILLEGAL_OPERAND. The order of the tests among themselves
is the model's (log entry 10), and so is whose UNWRITTEN copies a lane instruction reports (log entry 66). (R49, R50, R51,
R56, R97, R221, R231, R250, R251, R252, R254.) -/
def Obligations.OperandFaults : Prop :=
  (∀ (x : F3) (i : FI) (p : FP) (o : RegOp), (o ∈ registerOps x i p ∨ ∃ k, planeK i = some k ∧ o ∈ planeOps i k) →
     ∀ (s : State) (c : Ctx), Issues s c → o.apart = false →
     (dstOk c.g o.d o.wide = false → Traps s c o.instr (illegalOperand o.d.toNat c.mask)) ∧
     (dstOk c.g o.d o.wide = true →
       (∀ y, o.srcs.find? (fun y => !srcOk c.g (isSSpec o.d) y) = some y →
         Traps s c o.instr (illegalOperand y.r.toNat c.mask)) ∧
       ((∀ y ∈ o.srcs, srcOk c.g (isSSpec o.d) y = true) →
         (∀ y, firstBad c o.srcs = some y → Traps s c o.instr (eccTrap 3 y.r.toNat (badMask c o.srcs))) ∧
         (firstBad c o.srcs = none → wStrict c.wave = true → wTrap c.wave = false →
           ∀ y, firstUnwritten c o.srcs = some y → Traps s c o.instr (unwrittenTrap y.r (unwMask c o.srcs)))))) ∧
  (∀ (x : F3) (i : FI) (s : State) (c : Ctx), Issues s c →
     (∀ o ∈ voteOps x ++ shuffleOps x i,
       (o.dOk c = false → Traps s c o.instr (illegalOperand o.d.toNat c.mask)) ∧
       (o.dOk c = true → LaneTraps s c o.instr o.srcs (o.reads c) ∧
         ((∀ y ∈ o.srcs, srcOk c.g false y = true) → (∀ e ∈ o.reads c, srcBad c e.pos e.src = false) → wStrict c.wave = true →
           wTrap c.wave = false → o.m c ≠ 0 → Traps s c o.instr (unwrittenTrap (o.who c) (o.m c))))) ∧
     (∀ o ∈ votePredOps x,
       (predOk o.d = false → Traps s c o.instr (illegalOperand o.d.toNat c.mask)) ∧
       (predOk o.d = true → LaneTraps s c o.instr o.srcs (o.reads c) ∧
         ((∀ y ∈ o.srcs, srcOk c.g false y = true) → (∀ e ∈ o.reads c, srcBad c e.pos e.src = false) → wStrict c.wave = true →
           wTrap c.wave = false → o.m c ≠ 0 → ∀ y ∈ o.srcs, Traps s c o.instr (unwrittenTrap y.r (o.m c))))) ∧
     (∀ o ∈ predicateResults x, predOk o.d = true → SourceTraps s c o.instr false o.srcs ∧
       ((∀ y ∈ o.srcs, srcOk c.g false y = true) → firstBad c o.srcs = none → wStrict c.wave = true → wTrap c.wave = false →
         ∀ y, firstUnwritten c o.srcs = some y → Traps s c o.instr (unwrittenTrap y.r (unwMask c o.srcs))))) ∧
  (∀ (s : State) (c : Ctx), Issues s c →
     (∀ x : FP, isSSpec x.d = true → x.p ≠ 0 → Traps s c (.sel x) (illegalOperand (0x60 + x.p.toNat) c.mask)) ∧
     (∀ x : FI, planeK x = none → ∀ i ∈ [Instr.plane x, .unplane x], EntryRefuses s c i x.d [⟨x.a, .value, false, x.la⟩]) ∧
     (∀ x : F3, lopOk x = false → EntryRefuses s c (.lop3 x) x.d (lopSrcs x)) ∧
     (∀ (x : F3) (o : PredOp), o ∈ compareOps x ++ predicateOps x → predOk o.d = false →
       Traps s c o.instr (illegalOperand o.d.toNat c.mask)))

/-! Control. -/

/-- BRC tests its target and then its join point and takes MISALIGNED_TARGET, with the address, for one that fails the test
of R211 or for a join offset of 0; it moves the whole path where c is true in every active thread, falls through where it is
true in none, and otherwise pushes the split pair with its two masks and PCs, or takes DSTACK_OVF at 16 entries. A JOIN that
acts marks its path as arrived; when the other path has arrived the pair is popped and the union path stands in the base or
in the path of the pair below from which it was pushed. No register changes and no other wave. (R26, R28, R279, R282, R211.)
-/
def Obligations.BranchesDivergeAndJoin : Prop :=
  (∀ (x : FB) (s : State) (c : Ctx), Issues s c →
     (targetOk s c.g.part c.core (branchTarget c x) 0 = false →
       Traps s c (.brc x) (misalignedTarget (branchTarget c x % 2 ^ 57) c.mask)) ∧
     (targetOk s c.g.part c.core (branchTarget c x) 0 = true →
     (x.join = 0 ∨ targetOk s c.g.part c.core (branchJoin c x) 1 = false →
       Traps s c (.brc x) (misalignedTarget (branchJoin c x % 2 ^ 57) c.mask)) ∧
     (x.join ≠ 0 → targetOk s c.g.part c.core (branchJoin c x) 1 = true →
       ((∀ q ∈ positions c.mask, branchTrue c x q = true) →
         ∃ t, exec (.brc x) s = .next t ∧ PathEffect s t c (jumpPath c.path (branchTarget c x)) {}) ∧
       ((∀ q ∈ positions c.mask, branchTrue c x q = false) →
         ∃ t, exec (.brc x) s = .next t ∧ PathEffect s t c (stepPath c.path 1) {}) ∧
       ((∃ q ∈ positions c.mask, branchTrue c x q = true) → (∃ q ∈ positions c.mask, branchTrue c x q = false) →
         (16 ≤ c.wave.stack.length → Traps s c (.brc x) (dstackOvf c.mask)) ∧
         (c.wave.stack.length < 16 →
           ∃ t v p, exec (.brc x) s = .next t ∧ OnlyWave s t c.w ∧ getWave t c.w = some v ∧ RegsAfter c {} v ∧
             v.base = c.wave.base ∧ v.stack = p :: c.wave.stack ∧ p.join = branchJoin c x ∧
             (∀ q, p.a.mask.getLsbD q = (c.mask.getLsbD q && branchTrue c x q)) ∧
             (∀ q, p.b.mask.getLsbD q = (c.mask.getLsbD q && !branchTrue c x q)) ∧
             p.a.pc = branchTarget c x ∧ p.b.pc = c.path.pc + 4 ∧ p.a.wait = .ready ∧ p.b.wait = .ready ∧
             p.a.code = none ∧ p.b.code = none ∧ p.arrA = false ∧ p.arrB = false ∧ p.fromB = c.pb))))) ∧
  (∀ (s : State) (c : Ctx) (p : Pair) (rest : List Pair), Issues s c → c.wave.stack = p :: rest → joinActs c = true →
     ((if c.pb then p.arrA else p.arrB) = false →
       ∃ t v, exec .join s = .next t ∧ OnlyWave s t c.w ∧ getWave t c.w = some v ∧ RegsAfter c {} v ∧
         v.base = c.wave.base ∧ v.stack = arrived c p :: rest) ∧
     ((if c.pb then p.arrA else p.arrB) = true → rest = [] →
       ∃ t v, exec .join s = .next t ∧ OnlyWave s t c.w ∧ getWave t c.w = some v ∧ RegsAfter c {} v ∧
         v.base = unionPath c p ∧ v.stack = []) ∧
     ((if c.pb then p.arrA else p.arrB) = true → ∀ q more, rest = q :: more →
       (if p.fromB then q.arrB else q.arrA) = false →
       ∃ t v, exec .join s = .next t ∧ OnlyWave s t c.w ∧ getWave t c.w = some v ∧ RegsAfter c {} v ∧
         v.base = c.wave.base ∧
         v.stack = (if p.fromB then { q with b := unionPath c p } else { q with a := unionPath c p }) :: more))

/-- Outside trap mode EXIT ends the active threads of the issuing path and their v registers become unwritten; engine work
under way and its counters stay. A wave without a live thread and with counters of zero is gone, otherwise its other
registers and CSRs stay as they were. Where a pair is on the stack and threads remain, the issuing path counts as arrived and
its partner goes on; when the partner had arrived already, the pair is popped and the path that goes on is the partner's with
its remaining threads, in the base or in the path of the pair below. In trap mode EXIT takes ILLEGAL_OP. No other wave's
registers and no byte of memory change. (R20, R29, R283.) -/
def Obligations.ExitEndsThreads : Prop :=
  (∀ (s : State) (c : Ctx), Issues s c →
     (wTrap c.wave = true → Traps s c .exit (illegalOp 0x0000000B c.mask)) ∧
     (wTrap c.wave = false →
       ∃ t, exec .exit s = .next t ∧ KeepsOthers s t c.w ∧
         (liveMask c.wave &&& ~~~c.mask = 0 → countersZero c.wave = true → getWave t c.w = none) ∧
         (liveMask c.wave &&& ~~~c.mask ≠ 0 ∨ countersZero c.wave = false →
           ∃ v, getWave t c.w = some v ∧ v.threads.length = c.wave.threads.length ∧
             liveMask v = liveMask c.wave &&& ~~~c.mask ∧
             (∀ q r, vReg v q r = if c.mask.getLsbD q then none else vReg c.wave q r) ∧
             (∀ q k, predReg v q k = predReg c.wave q k) ∧ v.s = c.wave.s ∧ v.csr = c.wave.csr ∧ v.cpy = c.wave.cpy ∧
             v.mtx = c.wave.mtx ∧ v.gth = c.wave.gth ∧ v.dsh = c.wave.dsh ∧ t.ops = s.ops))) ∧
  (∀ (s : State) (c : Ctx) (p : Pair) (rest : List Pair), Issues s c → wTrap c.wave = false → c.wave.stack = p :: rest →
     liveMask c.wave &&& ~~~c.mask ≠ 0 → isParked c.wave = false →
     ((if c.pb then p.arrA else p.arrB) = false →
       ∃ t v, exec .exit s = .next t ∧ getWave t c.w = some v ∧ v.base = c.wave.base ∧ v.stack = arrived c p :: rest) ∧
     ((if c.pb then p.arrA else p.arrB) = true → (if c.pb then p.a.mask else p.b.mask) &&& (liveMask c.wave &&& ~~~c.mask) ≠ 0 →
       (rest = [] →
         ∃ t v, exec .exit s = .next t ∧ getWave t c.w = some v ∧ v.base = partnerPath c p ∧ v.stack = []) ∧
       (∀ q more, rest = q :: more → (if p.fromB then q.arrB else q.arrA) = false →
         ∃ t v, exec .exit s = .next t ∧ getWave t c.w = some v ∧ v.base = c.wave.base ∧
           v.stack = (if p.fromB then { q with b := partnerPath c p } else { q with a := partnerPath c p }) :: more)))

/-- REORD with an illegal key operand takes ILLEGAL_OPERAND, then in trap mode or on a split path ILLEGAL_OP. Otherwise, when
its key can be read, the wave parks at the instruction with its registers as they were; no other wave's registers and no byte
of memory change. (R33, R72, R221, R284.) -/
def Obligations.ReordParks : Prop :=
  ∀ (k : BitVec 4) (key : Reg) (s : State) (c : Ctx), Issues s c →
    (srcOk c.g false ⟨key, .value, false, false⟩ = false → Traps s c (.reord k key) (illegalOperand key.toNat c.mask)) ∧
    (srcOk c.g false ⟨key, .value, false, false⟩ = true → wTrap c.wave = true ∨ c.wave.stack ≠ [] →
      Traps s c (.reord k key) (illegalOp (wordReord 0x0C k key) c.mask)) ∧
    (wTrap c.wave = false → c.wave.stack = [] → SourcesRead c false [⟨key, .value, false, false⟩] →
      ∃ t v n, exec (.reord k key) s = .next t ∧ KeepsOthers s t c.w ∧ getWave t c.w = some v ∧ SameRegs c.wave v ∧
        v.base = { c.path with wait := .reord (k.toNat + 1) key.toNat n } ∧ v.stack = [] ∧
        v.csr = (setStatIf c.wave (unwMask c [⟨key, .value, false, false⟩] != 0) 0).csr)

/-- HALT encodes as 0x00000015. Outside trap mode it writes TCAUSE := 0, TVAL := 0, TEPC := its address and TFMASK := the
active threads of its path; in trap mode it leaves the trap CSRs as they are. Either way the wave halts: with no operation
outstanding but traces, which a halt abandons, it ends, otherwise it stays halted with its registers; for a wave of a graph
that runs, the graph's event message carries cause 0, or in trap mode the cause of the trap. No other wave's registers and no
byte of memory change. Formalises R291. -/
def Obligations.HaltStopsTheWave : Prop :=
  encode .halt = [0x00000015#32] ∧ decodeWords 2 [0x00000015#32] = .ok (.halt, []) ∧
  ∀ (s : State) (c : Ctx), Issues s c →
    ∃ t, exec .halt s = .next t ∧ KeepsOthers s t c.w ∧
      (c.wave.cpy = 0 → c.wave.mtx = 0 → c.wave.gth ≤ (tracesOf s c.w).length → c.wave.dsh = 0 → getWave t c.w = none) ∧
      (c.wave.cpy ≠ 0 ∨ c.wave.mtx ≠ 0 ∨ c.wave.dsh ≠ 0 ∨ (tracesOf s c.w).length < c.wave.gth →
        ∃ v, getWave t c.w = some v ∧ v.halted = true ∧ SameRegs c.wave v ∧
          (wTrap c.wave = true → v.csr = c.wave.csr) ∧
          (wTrap c.wave = false →
            v.csr = { c.wave.csr with tcause := 0, tval := 0, tepc := BitVec.ofNat 64 (c.path.pc % 2 ^ 57 / 4 * 4),
                                      tfmask := c.mask })) ∧
      (∀ k gr, rootGraph c.g.kind = some k → getGraph s c.g.part k = some gr → gr.phase = .live ∨ gr.phase = .stopping →
        ∃ gr', getGraph t c.g.part k = some gr' ∧ gr'.phase = .teardown 1 ∧
          (gr'.faultMsg.drop 12).take 4 =
            (if wTrap c.wave then bytesOf 4 (c.wave.csr.tcause.toNat % 2 ^ 13) else [0, 0, 0, 0]))

/-- TRAP holds its code in bits 31 to 8 of opcode 0x10, BKPT in those of 0x11, and the two example words decode so. TRAP
raises SWTRAP (code 0x14, class 5) with its code as TVAL; BKPT with BKEN = 1 and TRAP = 0 raises BKPT (code 0x11, class 4),
and otherwise completes as NOP. When the handler is entered, TFMASK holds the active threads of the issuing path and TEPC the
instruction's own address. An ERET from SWTRAP's handler goes on at TEPC, so that a handler that has not advanced it runs the
TRAP again. Formalises R289, R290. -/
def Obligations.TrapInstructions : Prop :=
  (∀ code : BitVec 24, encode (.trap code) = [(code ++ 0x10#8 : BitVec 32)] ∧ encode (.bkpt code) = [(code ++ 0x11#8 : BitVec 32)]) ∧
  decodeWords 2 [0x00001510#32] = .ok (.trap 0x15, []) ∧ decodeWords 2 [0x00000111#32] = .ok (.bkpt 1, []) ∧
  ∀ (code : BitVec 24) (s : State) (c : Ctx), Issues s c →
    Traps s c (.trap code) ⟨0x14, 5, code.setWidth 64, c.mask, false⟩ ∧
    (wBken c.wave = true → wTrap c.wave = false → Traps s c (.bkpt code) ⟨0x11, 4, code.setWidth 64, c.mask, false⟩) ∧
    (wBken c.wave = false ∨ wTrap c.wave = true → ∃ t, exec (.bkpt code) s = .next t ∧ RegEffect s t c 1 {}) ∧
    (wTrap c.wave = false → (∀ p ∈ allPaths c.wave, midInstr p = false) →
      ∀ o ∈ [(Instr.trap code, 5, 0x514, true), (.bkpt code, 4, 0x411, wBken c.wave)], o.2.2.2 = true →
        ∀ pc, vectorEntry s c.w c.g.part c.wave o.2.1 = some pc →
          ∃ t v, exec o.1 s = .next t ∧ getWave t c.w = some v ∧ v.base.pc = pc ∧ v.csr.tfmask = c.mask ∧
            v.csr.tcause.toNat = (if c.pb then 0x1000 else 0) + o.2.2.1 ∧ v.csr.tval = code.setWidth 64 ∧
            v.csr.tepc.toNat = c.path.pc % 2 ^ 57 / 4 * 4) ∧
    (∀ sv, wTrap c.wave = true → c.wave.stack = [] → c.wave.saved = some sv → sv.code = 0x14 → sv.stack = [] →
      ∃ t v, exec .eret s = .next t ∧ getWave t c.w = some v ∧ wTrap v = false ∧ v.base.pc = c.wave.csr.tepc.toNat)

/-- NOP, BKPT that does not trap and a JOIN that does not act only go on; YIELD and WSLEEP of 0 go on and give up the wave's
turn in the next cycle. WSLEEP of another n holds its path until n cycles have passed and takes ILLEGAL_OPERAND for another
operand than R298 allows. ICINV waits for its scope and its path goes on when the invalidation is done; scope 7 takes
SCOPE_RESERVED. (R277, R282, R290, R297, R298, R299.) -/
def Obligations.ControlGoesOn : Prop :=
  ∀ (s : State) (c : Ctx), Issues s c →
    (∀ (code : BitVec 24), ∀ o ∈ goOnOps code, o.2 c → ∃ t, exec o.1 s = .next t ∧ RegEffect s t c 1 {}) ∧
    (∀ r, ∀ o ∈ yieldOps r, o.2 c →
      ∃ t v, exec o.1 s = .next t ∧ OnlyWave s t c.w ∧ getWave t c.w = some { v with yieldAt := s.dev.cycle + 1 } ∧
        RegsAfter c {} v ∧ PathAfter c (stepPath c.path 1) v) ∧
    (∀ r, sleepOk r = false → Traps s c (.wsleep r) (illegalOperand r.toNat c.mask)) ∧
    (∀ r, sleepOk r = true → (∀ q ∈ positions c.mask, srcBad c q ⟨r, .value, false, false⟩ = false) → rdSpec c 0 r 0 ≠ 0 →
      ∃ t, exec (.wsleep r) s = .next t ∧ Held s t c (.sleep (s.dev.cycle + (rdSpec c 0 r 0).toNat))) ∧
    (∀ scope, scope ≠ 7#3 → ∃ t, exec (.icinv scope) s = .next t ∧ Held s t c (.icinv scope.toNat)) ∧
    Traps s c (.icinv 7) (scopeReserved c.mask)

/-- BRA, CALL, BRI, CALLI and RET move the path to their target, the calls leave the return address in s30:s31; BRC.ANY,
BRC.ALL and BRC.U move it or fall through by their condition. A target that fails the test of R211 takes MISALIGNED_TARGET,
taken or not, and nothing is written. BRI and CALLI of another specifier than an even s register take ILLEGAL_OPERAND.
Nothing else changes. (R211, R278, R279, R281.) -/
def Obligations.WholePathTransfers : Prop :=
  (∀ (x : FBL) (r : Reg), ∀ o ∈ jumpOps x r, ∀ (s : State) (c : Ctx), Issues s c → o.reads c →
    (targetOk s c.g.part c.core (o.target c) 0 = true →
      ∃ t, exec o.instr s = .next t ∧
        PathEffect s t c (jumpPath c.path (o.target c)) (if o.links then linkWrites c else {})) ∧
    (targetOk s c.g.part c.core (o.target c) 0 = false →
      Traps s c o.instr (misalignedTarget (o.tval c) c.mask))) ∧
  (∀ (r : Reg) (s : State) (c : Ctx), Issues s c → (∀ n, specOf r = .s n → n % 2 = 1) →
    ∀ i ∈ [Instr.bri r, .calli r], Traps s c i (illegalOperand r.toNat c.mask)) ∧
  (∀ (x : FB), ∀ o ∈ branchOps x, ∀ (s : State) (c : Ctx), Issues s c →
    (targetOk s c.g.part c.core (branchTarget c x) 0 = true →
      ∃ t, exec o.1 s = .next t ∧
        PathEffect s t c (if o.2 c then jumpPath c.path (branchTarget c x) else stepPath c.path 1) {}) ∧
    (targetOk s c.g.part c.core (branchTarget c x) 0 = false →
      Traps s c o.1 (misalignedTarget (branchTarget c x % 2 ^ 57) c.mask)))

/-- CSRR puts the 64-bit value of a CSR into its s pair and changes nothing else; WSTAT.HFAULT that a completion has set may
read clear while no wait on GTH orders the read after it (R367). An odd or other data specifier takes ILLEGAL_OPERAND in all
four, and so do a number that R62 does not list and KTAB for another wave than the pacer, with the number. CSRW, CSRS and
CSRC leave in the CSR the value that R300 computes from its writable and write-1-to-clear bits, the old value and the pair (a
PERFSEL register keeps its low word), every other CSR as it was, and no register changed. (R61, R62, R66, R300, R301, R367.)
-/
def Obligations.CsrAccess : Prop :=
  (∀ (num : BitVec 12) (r : Reg) (s : State) (c : Ctx), Issues s c →
     ((∀ n, specOf r = .s n → n % 2 = 1) → ∀ i ∈ [Instr.csrr num r, .csrw num r, .csrs num r, .csrc num r],
       Traps s c i (illegalOperand r.toNat c.mask)) ∧
     (∀ n, specOf r = .s n → n % 2 = 0 →
       (csrGet s c.w c.wave c.g num.toNat = none → Traps s c (.csrr num r) (illegalOperand num.toNat c.mask)) ∧
       (num = 0x303 → c.g.kind ≠ .pacer → Traps s c (.csrr num r) (illegalOperand num.toNat c.mask)) ∧
       (∀ a, csrGet s c.w c.wave c.g num.toNat = some a → (num ≠ 0x303 ∨ c.g.kind = .pacer) →
         let seen : DWord := if num = 0 ∧ c.wave.hfOpen = true ∧ s.choice.oldFlag = true then a &&& ~~~16#64 else a
         ∃ t, exec (.csrr num r) s = .next t ∧ RegEffect s t c 1 { s := [(n + 1, hiWord seen), (n, loWord seen)] }))) ∧
  (∀ (num : BitVec 12) (r : Reg), ∀ o ∈ csrWriteOps num r, ∀ (n : Nat) (s : State) (c : Ctx), Issues s c →
     specOf r = .s n → n % 2 = 0 → (∀ q ∈ positions c.mask, srcBad c q ⟨r, .pair, false, false⟩ = false) →
     (csrGet s c.w c.wave c.g num.toNat = none → Traps s c o.1 (illegalOperand num.toNat c.mask)) ∧
     (num = 0x303 → c.g.kind ≠ .pacer → Traps s c o.1 (illegalOperand num.toNat c.mask)) ∧
     (∀ old, csrGet s c.w c.wave c.g num.toNat = some old → (num ≠ 0x303 ∨ c.g.kind = .pacer) →
       let new := o.2 (csrRw (wTrap c.wave) num.toNat) (csrW1c num.toNat) old (sPair c.wave n)
       ∃ t v, exec o.1 s = .next t ∧ t = { s with waves := t.waves, cores := t.cores, parts := t.parts } ∧
         (∀ u, u ≠ c.w → getWave t u = getWave s u) ∧ getWave t c.w = some v ∧ SameRegs c.wave v ∧
         PathAfter c (stepPath c.path 1) v ∧ v.sq = c.wave.sq ∧ v.acnt = c.wave.acnt ∧
         csrGet t c.w v c.g num.toNat =
           some (if 0x102 ≤ num.toNat ∧ num.toNat ≤ 0x105 then new &&& 0xFFFFFFFF else new) ∧
         (∀ m, m ≠ num.toNat → csrGet t c.w v c.g m = csrGet s c.w c.wave c.g m)))

/-- Outside trap mode a trap writes TCAUSE, TEPC, TVAL, TFMASK, TMASKA, TMASKB and TSTK, sets WCTL.TRAP, moves the divergence
stack to the save area, makes every unexited thread active and goes to the handler that the vector entry of its class names;
registers, counters and memory stay as they were, and a pending STEP is dropped. Without a handler the wave halts with the
same CSRs. In trap mode a synchronous fault halts the wave and reports DOUBLE: only TCAUSE, TEPC, TVAL and TFMASK are
written. A wave with copies outstanding stays. (R32, R65, R70, R149, R213, R286, R287, R288, R295.) -/
def Obligations.TrapEntry : Prop :=
  ∀ (s : State) (c : Ctx) (x : Trap) (epc : Nat), Issues s c → (∀ p ∈ allPaths c.wave, midInstr p = false) →
    let t := takeTrap s c.w c.pb x epc
    (wTrap c.wave = false → ∀ pc, vectorEntry s c.w c.g.part c.wave x.cls = some pc →
      ∃ v, getWave t c.w = some v ∧ v.csr = trapCsrs (setStatIf c.wave x.ur 0) c.pb x epc ∧ SameRegs c.wave v ∧
        v.stack = [] ∧ v.base.pc = pc ∧ activeMask v v.base = liveMask c.wave ∧ v.halted = false ∧
        (∃ sv, v.saved = some sv ∧ sv.code = x.code ∧ sv.pathB = c.pb ∧ sv.stack = c.wave.stack.map unwaitPair ∧
          sv.base = unwait c.wave.base) ∧
        v.cpy = c.wave.cpy ∧ v.mtx = c.wave.mtx ∧ v.gth = c.wave.gth ∧ v.dsh = c.wave.dsh ∧ v.step = none ∧
        (∀ u, u ≠ c.w → getWave t u = getWave s u) ∧ (∀ a, memByte t.mem a = memByte s.mem a)) ∧
    (wTrap c.wave = false → vectorEntry s c.w c.g.part c.wave x.cls = none →
      (∀ a, memByte t.mem a = memByte s.mem a) ∧
      ∀ v, getWave t c.w = some v → v.halted = true ∧ SameRegs c.wave v ∧
        v.csr = trapCsrs (setStatIf c.wave x.ur 0) c.pb x epc) ∧
    (wTrap c.wave = true →
      (∀ a, memByte t.mem a = memByte s.mem a) ∧ (c.wave.cpy ≠ 0 → (getWave t c.w).isSome = true) ∧
      ∀ v, getWave t c.w = some v → v.halted = true ∧ SameRegs c.wave v ∧
        v.csr = { (setStatIf c.wave x.ur 0).csr with
          tcause := BitVec.ofNat 64 ((if c.pb then 4096 else 0) + 256 * x.cls + 0x18)
          tepc := BitVec.ofNat 64 (epc % 2 ^ 57 / 4 * 4)
          tval := x.tval
          tfmask := x.fmask &&& liveMask c.wave })

/-- ERET outside trap mode takes ILLEGAL_OP; with a non-empty handler stack the wave halts and reports DOUBLE, with PATHB for
an ERET of path B; from the handler of PAGE_FAULT, RING_UNDECL, TILE_CLOSED, PCIE_LOST or ECC it halts with the trap's CSRs.
Otherwise (PREEMPT apart) it restores the saved stack, clears WCTL.TRAP, and the trapping path resumes at TEPC; registers,
other CSRs, other waves and memory stay as they were. (R32, R70, R212, R286, R293.) -/
def Obligations.EretReturns : Prop :=
  ∀ (s : State) (c : Ctx), Issues s c →
    (wTrap c.wave = false → Traps s c .eret (illegalOp 0x00000012 c.mask)) ∧
    (wTrap c.wave = true → c.wave.stack ≠ [] →
      ∃ t, exec .eret s = .next t ∧ (∀ a, memByte t.mem a = memByte s.mem a) ∧
        ∀ v, getWave t c.w = some v → v.halted = true ∧ v.csr.tcause = (if c.pb then 0x1018 else 0x18)) ∧
    (∀ sv, wTrap c.wave = true → c.wave.stack = [] → c.wave.saved = some sv → haltsAtEret sv.code = true →
      ∃ t, exec .eret s = .next t ∧ (∀ a, memByte t.mem a = memByte s.mem a) ∧
        ∀ v, getWave t c.w = some v → v.halted = true ∧ v.csr = c.wave.csr) ∧
    (∀ sv, wTrap c.wave = true → c.wave.stack = [] → c.wave.saved = some sv → haltsAtEret sv.code = false → sv.code ≠ 0x15 →
      ∃ t v, exec .eret s = .next t ∧ OnlyWave s t c.w ∧ getWave t c.w = some v ∧ SameRegs c.wave v ∧ v.saved = none ∧
        v.csr = { c.wave.csr with wctl := c.wave.csr.wctl &&& ~~~16#64 } ∧
        v.stack.length = sv.stack.length ∧
        (sv.stack = [] → v.base.mask = sv.base.mask ∧ v.base.pc = c.wave.csr.tepc.toNat) ∧
        (∀ p more, sv.stack = p :: more → v.base = sv.base ∧
          ∃ p', v.stack = p' :: more ∧ p'.join = p.join ∧ p'.arrA = p.arrA ∧ p'.arrB = p.arrB ∧
            p'.a.mask = p.a.mask ∧ p'.b.mask = p.b.mask ∧
            (sv.pathB = true → p'.a = p.a ∧ p'.b.pc = c.wave.csr.tepc.toNat) ∧
            (sv.pathB = false → p'.b = p.b ∧ p'.a.pc = c.wave.csr.tepc.toNat)))

/-! Memory. -/

/-- A load whose checks pass, whose bytes no unperformed atomic of the wave will write, and which has its miss-status
entries, goes on: each active thread receives its bytes (a record load its channels converted by R128, LDU and LDU.D once for
the wave in s registers), OOB, NRES and RESMASK are set for accesses outside a window or on sparse pages, which read zero,
last reads are released, and nothing else changes: no other register, no store queue, no byte of memory, nothing of another
wave. A load of a HOST byte while the link is down completes and leaves PCIE_LOST pending: that it is taken as a completion
fault is the model's reading of R95 (log entry 12, DEDUCED). While an atomic of the wave is still to write one of its bytes,
a load of v registers stalls. (R24, R50, R63, R68, R75, R95, R119, R128, R170, R305, R306, R307.) -/
def Obligations.LoadsComplete : Prop :=
  (∀ (x : FM), ∀ o ∈ loadOps x, o.Completes) ∧
  (∀ (x : FM), ∀ o ∈ onceLoadOps x, ∀ (s : State) (c : Ctx) (v0 : Wave) (ps : List Plan), Issues s c →
     replayWaits c.path = false → loadOnceCheck s c x o.2.1 o.2.2 = .ok (v0, ps) → (∀ p ∈ ps, readsAtom c.wave p = false) →
     Granted s c (loadMiss s c.wave c.core) ps →
       ∃ p t v, ps = [p] ∧ exec o.1 s = .next t ∧ MemFrame s t c ∧ getWave t c.w = some v ∧
         PathAfter c (stepPath c.path (fmWords x)) v ∧
         MemWave c
           { vreg := vReg c.wave
             sreg := sAfter c { s := (List.range (if o.2.2 then 2 else 1)).map (fun i =>
               (x.t.toNat - 0x40 + i, BitVec.ofNat 32 (accNat s c.wave c.core p.acc / 2 ^ (32 * i)))) }
             new := [], stat := memStat c [addrSrc x.space.toNat x.a false] ps, res := memRes c ps true
             faults := (lostFault s c ps true c.wave).faults, watch := (watchPlans c 0 ps true c.wave).watch } v) ∧
  (∀ (x : FM), ∀ o ∈ loadOps x, ∀ (s : State) (c : Ctx) (v0 : Wave) (ps : List Plan) (p : Plan), Issues s c →
     replayWaits c.path = false → o.check s c = .ok (v0, ps) → p ∈ ps → readsAtom c.wave p = true →
       ∃ t, exec o.instr s = .next t ∧ Held s t c .stall)

/-- A store whose checks pass and which has its miss-status entries appends to its wave's store queue one entry for each
thread's access in ascending tid (a wide or record store in pieces), at the address computed from its operands and with the
bytes of its source, and goes on. No register, byte of memory or other wave changes, and the wave's own loads of every
location that it does not store to read as before. (R75, R77, R119, R130, R166, R170, R308, R309, R310.) -/
def Obligations.StoresComplete : Prop :=
  ∀ (x : FM), ∀ o ∈ storeOps x, o.Completes

/-- An atomic or reduction whose checks pass and which has its miss-status entries appends one entry a thread with its
operands as read at issue; a thread whose access reaches no byte receives zero. The path goes on, or with ACQ or AR waits
until every entry has been performed. No other register, byte of memory or wave changes. (R75, R119, R171, R173, R311, R312,
R313.) -/
def Obligations.AtomicsEnterTheQueue : Prop :=
  ∀ (x : FM), ∀ o ∈ atomOps x, o.Completes x

/-- A plan of accesses lists the active threads in ascending tid, each with the address of its form, its bytes, its
translated or window location, or none where it lies outside its window or on a sparse page. ALIGN comes first, then
SCRATCH_BOUNDS under STRICT outside trap mode, then PAGE_FAULT, each with the lowest failing tid's address and the threads
that fail; a walk that meets poison takes ECC between the last two (the model's reading, log entry 28). Every memory
instruction whose checks fail takes that trap. A load whose operands, alignment, window and translation are good in every
active thread passes its checks. (R74, R75, R76, R77, R79, R90, R119, R168, R221.) -/
def Obligations.AccessChecks : Prop :=
  (∀ (s : State) (c : Ctx) (space n kind : Nat) (align strict : Bool) (address : Nat → Nat) (ps : List Plan),
     planSpace s c space n kind align strict address = .ok ps →
       ps.map (·.q) = byTid c.wave c.mask ∧
       ∀ p ∈ ps, p.addr = address p.q ∧ p.space = space ∧ p.spans = [(address p.q, n)] ∧ (align = true → p.addr % n = 0) ∧
         (space < 2 →
           (∃ loc, translate s c.g.part c.core kind p.addr = .ok loc ∧ p.acc = .mem (wholeBytes loc n)) ∨
           (translate s c.g.part c.core kind p.addr = .sparse ∧ p.acc = .sparse)) ∧
         (2 ≤ space → outsideWin s c space p.addr n = true → p.acc = .outside) ∧
         (2 ≤ space → outsideWin s c space p.addr n = false → p.acc = .mem (wholeBytes (winLoc c space p.addr) n))) ∧
  (∀ (s : State) (c : Ctx) (space n kind : Nat) (address : Nat → Nat) (q : Nat), q ∈ byTid c.wave c.mask → n ≠ 0 →
     let lowest (p : Nat → Bool) : Nat := ((byTid c.wave c.mask).filter p).headD 0
     let odd (q : Nat) : Bool := address q % n != 0
     let out (q : Nat) : Bool := outsideWin s c space (address q) n
     let absent (q : Nat) : Bool := translate s c.g.part c.core kind (address q) == .fault
     let bad (q : Nat) : Bool := (walkEcc s c [address q]).isSome
     (odd q = true → planSpace s c space n kind true true address =
       .error (alignTrap (address (lowest odd)) (maskOf ((byTid c.wave c.mask).filter odd)))) ∧
     ((∀ u ∈ byTid c.wave c.mask, odd u = false) → wStrict c.wave = true → wTrap c.wave = false → out q = true →
       planSpace s c space n kind true true address =
         .error (scratchBounds (address (lowest out)) (maskOf ((byTid c.wave c.mask).filter out)))) ∧
     ((∀ u ∈ byTid c.wave c.mask, odd u = false) → space < 2 → bad q = true →
       planSpace s c space n kind true true address =
         .error (walkTrap ((walkEcc s c [address (lowest bad)]).getD 0) (maskOf ((byTid c.wave c.mask).filter bad)))) ∧
     ((∀ u ∈ byTid c.wave c.mask, odd u = false ∧ bad u = false) → space < 2 → absent q = true →
       planSpace s c space n kind true true address =
         .error (pageFault (address (lowest absent)) kind (maskOf ((byTid c.wave c.mask).filter absent))))) ∧
  (∀ (x : FM), (∀ o ∈ accessOps x, ∀ (s : State) (c : Ctx) (t : Trap), Issues s c → replayWaits c.path = false →
       o.check s c = some t → Traps s c o.instr t) ∧
     (∀ o ∈ hintOps x, ∀ (s : State) (c : Ctx) (t : Trap), Issues s c → c.path.wait = .ready →
       o.check s c = some t → Traps s c o.instr t)) ∧
  (∀ (x : FM) (n regs : Nat) (s : State) (c : Ctx), (n, regs) ∈ [(1, 1), (2, 1), (4, 1), (8, 2), (16, 4)] →
     loadDst c x.t regs = true → addrOk c x.space.toNat x.a = true → (x.l = true → isVSpec x.a = true) →
     x.space.toNat ≤ 4 → x.ord.toNat ≤ 1 → x.scope ≠ 7 →
     (∀ q ∈ positions c.mask, srcBad c q (addrSrc x.space.toNat x.a x.l) = false) →
     (unwMask c [addrSrc x.space.toNat x.a x.l] = 0 ∨ wStrict c.wave = false ∨ wTrap c.wave = true) →
     (∀ q ∈ positions c.mask, let a := formAddr c x.space.toNat x.a (extOff x) q (tidAt c.wave q)
       a % n = 0 ∧
       (wStrict c.wave = true → wTrap c.wave = false → outsideWin s c x.space.toNat a n = false) ∧
       (x.space.toNat < 2 → translate s c.g.part c.core 0 a ≠ .fault)) →
     s.dev.serr = [] →
       ∃ ps, loadCheck s c x n regs =
         .ok (setStatIf c.wave (unwMask c [addrSrc x.space.toNat x.a x.l] != 0) 0, ps))

/-- Accesses beyond the free miss-status entries are rejected: their path waits with them as they were at issue, the granted
lines take entries, the wave keeps its first place in the core's list and needs an entry more for each other line, but no
more than the core's 64 leave beside those promised, and no register of a rejected or inactive thread changes. Releasing an
entry frees it when nobody waits and otherwise gives it to the first waiting wave; once that wave holds all it needs and is
not frozen, its threads' accesses are made with the values read at issue, it leaves the list and its path goes on; no other
wave and no byte of memory changes. That a thread is rejected whole, how many entries it waits for at most, and when entries
are given back, are the model's choices (log entry 52). (R119, R120, R173, R304.) -/
def Obligations.MissEntriesAreShared : Prop :=
  (∀ (x : FM), ∀ o ∈ rejectOps x, ∀ (s : State) (c : Ctx) (v0 : Wave) (ps : List Plan), Issues s c →
     replayWaits c.path = false → o.check s c = .ok (v0, ps) → (o.loads = true → ∀ p ∈ ps, readsAtom c.wave p = false) →
     o.rejected s c ps ≠ [] →
       let left := (o.rejected s c ps).map (·.q)
       ∃ t v act todo, exec o.instr s = .next t ∧ MemFrame s t c ∧ getWave t c.w = some v ∧
         PathWaits c { c.path with wait := .mshr act x s.seq todo } v ∧ todo.map (·.plan) = o.rejected s c ps ∧
         act.isLoad = o.loads ∧ act.isAtom = o.atom ∧
         (getCore t c.core).mshr = (getCore s c.core).mshr ++
           (grantedLines s c (o.miss s c) ps).map (fun l => (c.w, l)) ∧
         (getCore t c.core).mwait = listWave c.w (o.need s c ps) (getCore s c.core).mwait ∧
         (∀ q r, c.mask.getLsbD q = false ∨ q ∈ left → vReg v q r = vAfter c { released := releasedBy (o.srcs s c) } q r)) ∧
  (∀ (core i : Nat) (s : State) (e : Nat × Nat), (getCore s core).mshr[i]? = some e →
     let k := getCore s core
     (k.mwait = [] → exec (.mshrRelease core i) s = .next (setCore s core { k with mshr := k.mshr.eraseIdx i })) ∧
     (∀ m more v, k.mwait = m :: more → getWave s m.wave = some v →
       (e.2 = heldLine → (∃ n ∈ k.mwait, n.wave = e.1) → m.need ≠ 0 → exec (.mshrRelease core i) s = .next s) ∧
       ((e.2 = heldLine → ∀ n ∈ k.mwait, n.wave ≠ e.1) →
         (1 < m.need ∨ (m.need = 1 ∧ v.frozen = true) →
           exec (.mshrRelease core i) s =
             .next (setCore s core { k with mshr := k.mshr.set i (m.wave, heldLine), mwait := { m with need := m.need - 1 } :: more })) ∧
         (∀ g act x grp todo, m.need = 1 → v.frozen = false → v.stack = [] → getWg s v.wg = some g →
           v.base.wait = .mshr act x grp todo → (∀ a ∈ todo, readsAtom v a.plan = false) → (act.isAtom && isAcq x) = false →
           (todo.map (·.plan.q)).Nodup → (∀ a ∈ todo, (threadAt v a.plan.q).isSome = true) →
           ∃ t u, exec (.mshrRelease core i) s = .next t ∧ getWave t m.wave = some u ∧
             u.base = stepPath v.base (fmWords x) ∧ u.stack = [] ∧ (getCore t core).mwait = more ∧
             (getCore t core).mshr.length = k.mshr.length ∧ (∀ w, w ≠ m.wave → getWave t w = getWave s w) ∧
             (∀ a, memByte t.mem a = memByte s.mem a) ∧
             (∀ n sx, act = .load n sx → ∀ a ∈ todo, ∀ r, r < n →
               vReg u a.plan.q (x.t.toNat + r) = some (BitVec.ofNat 32
                 ((if sx = 0 then id else sextNat sx) (accNat s v (coreOf m.wave) a.plan.acc) / 2 ^ (32 * r)))) ∧
             (∀ o, act = .store o →
               (u.sq.drop v.sq.length).map (·.bytes) = todo.flatMap (fun a => if inMem a.plan then a.data else []))))))

/-- WAITC goes on when its counters are at or below their thresholds and waits otherwise; one on GTH orders later reads after
the completions before it. WARV of 0 goes on; of 1 to 65535 it subtracts as much from the arrival counter and goes on, at
once or as soon as the counter holds it, but path B not before a WARV of path A that could pass; of more it takes
ILLEGAL_OPERAND with the specifier of A as TVAL, which R286 gives where an entry names no other value. DEPO with a legal
target puts a deposit that is a release at CLUSTER into the store queue, stalls while a deposit of the wave is held, and
takes ILLEGAL_OPERAND with the value for an illegal target. An operand that cannot be read takes its own trap in both. (R31,
R151, R152, R153, R154, R286, R314, R316, R317.) -/
def Obligations.CounterAndArrivalWaits : Prop :=
  (∀ (x : FM) (s : State) (c : Ctx), Issues s c →
     (∀ a b d e, waitcThr x = (a, b, d, e) →
       (waitsMet c.wave a b d e = true → ∃ t v, exec (.waitc x) s = .next t ∧ OnlyWave s t c.w ∧
         getWave t c.w = some (noteWait d v) ∧ RegsAfter c {} v ∧ PathAfter c (stepPath c.path 1) v) ∧
       (waitsMet c.wave a b d e = false → ∃ t, exec (.waitc x) s = .next t ∧ Held s t c (.counters false a b d e))) ∧
     (∀ e, depoArg c x = .error e → Traps s c (.warv x) e ∧ Traps s c (.depo x) e) ∧
     (depoArg c x = .ok () →
       (65535 < depoVal c x → Traps s c (.warv x) (illegalOperand x.a.toNat c.mask)) ∧
       (depoVal c x = 0 → ∃ t, exec (.warv x) s = .next t ∧ RegEffect s t c (fmWords x) {}) ∧
       (depoVal c x ≠ 0 → depoVal c x ≤ 65535 → c.wave.acnt < depoVal c x ∨ PathAFirst c →
         ∃ t, exec (.warv x) s = .next t ∧ Held s t c (.warv (depoVal c x))) ∧
       (depoVal c x ≠ 0 → depoVal c x ≤ c.wave.acnt → depoVal c x ≤ 65535 → ¬PathAFirst c →
         ∃ t v, exec (.warv x) s = .next t ∧ MemFrame s t c ∧ getWave t c.w = some v ∧ v.acnt = c.wave.acnt - depoVal c x ∧
           PathAfter c (stepPath c.path (fmWords x)) v ∧ SameRegs c.wave v ∧ v.csr = c.wave.csr) ∧
       (targetLegal c.g (depoVal c x) = false → Traps s c (.depo x) (illegalOperand (depoVal c x) c.mask)) ∧
       (targetLegal c.g (depoVal c x) = true → hasHeld s c.w = true →
         ∃ t, exec (.depo x) s = .next t ∧ Held s t c .stall) ∧
       (targetLegal c.g (depoVal c x) = true → hasHeld s c.w = false →
         ∃ t v, exec (.depo x) s = .next t ∧ MemFrame s t c ∧ getWave t c.w = some v ∧
           PathAfter c (stepPath c.path (fmWords x)) v ∧
           MemWave c
             { vreg := vReg c.wave, sreg := sReg c.wave, stat := 0, res := 0, faults := c.wave.faults, watch := c.wave.watch
               new := [{ seq := s.seq, grp := s.seq, kind := .depo (depoVal c x), bytes := [], scope := 3, rel := true
                         acq := false, toks := dirtyToks s c.core 1, va := 0 }] } v))) ∧
  (∀ (w : Nat) (pb : Bool) (s : State) (c : Ctx) (n : Nat), ctxAt s w pb = some c → c.path.wait = .warv n →
     (c.wave.acnt < n ∨ PathAFirst c → exec (.warvPass w pb) s = .next s) ∧
     (n ≤ c.wave.acnt → ¬PathAFirst c →
       ∃ t v, exec (.warvPass w pb) s = .next t ∧ MemFrame s t c ∧ getWave t w = some v ∧ v.acnt = c.wave.acnt - n ∧
         PathAfter c (stepPath c.path (wordsAt c.path)) v ∧ SameRegs c.wave v ∧ v.csr = c.wave.csr))

/-- WAITA and WAITAE whose checks pass wait with one test for each active thread, with the flags of a load; nothing is
released yet. A test pass is made by the threads that do not wait for miss-status entries, when no queued atomic will write a
byte of their words. It reads each word along its path as a load with acquire in the state that the tests before it left,
leaves no clean copy below the scope, drops the tests that are met, and when none is left completes the instruction and
releases the registers marked as last reads; other registers stay as they were. Threads whose lines get no entry are rejected
and keep their tests, and the wave joins its core's wait list. A word on a HOST page while the link is down leaves PCIE_LOST
pending once, and a poisoned first word takes ECC at the instruction: both forms are the model's reading (log entries 12 and
28), and so are the entries of a test and its fixed location (52 and 71). (R315, R63, R68, R95, R97, R119, R170, R171, R172,
R178.) -/
def Obligations.WordWaits : Prop :=
  (∀ (x : FM), ∀ o ∈ [((Instr.waita x), false), ((Instr.waitae x), true)], ∀ (s : State) (c : Ctx) (v0 : Wave) (ps : List Plan),
     Issues s c → c.path.wait = .ready → waitCheck s c x = .ok (v0, ps) →
       let srcs := [addrSrc x.space.toNat x.a x.l, ⟨x.t, .value, false, false⟩]
       ∃ t v, exec o.1 s = .next t ∧ MemFrame s t c ∧ getWave t c.w = some v ∧
         PathWaits c { c.path with wait := .waita o.2 x.scope.toNat (lastRegs x) (waitTests c x ps) [] } v ∧
         MemWave c
           { vreg := vReg c.wave, sreg := sReg c.wave, new := [], stat := memStat c srcs ps
             res := memRes c ps false, faults := c.wave.faults, watch := c.wave.watch } v) ∧
  (∀ (w : Nat) (pb : Bool) (s : State) (c : Ctx) (eq : Bool) (scope : Nat) (last rej : List Nat) (tests turn : List WordTest),
     ctxAt s w pb = some c → c.path.wait = .waita eq scope last tests rej → turn = tests.filter (fun u => !rej.contains u.1) →
       let pending (u : WordTest) : Prop := ∃ l k, u.2.2.1 = some l ∧ k < 4 ∧ atomAhead c.wave.sq (l + k) = true
       let host (u : WordTest) : Prop := ∃ l, u.2.2.1 = some l ∧ isHostLoc l = true
       let sound (u : WordTest) : Prop :=
         ∀ l, u.2.2.1 = some l → poisonIn s c.wave.sq c.core 0 (wholeBytes l 4) = none
       let miss := loadMiss s c.wave c.core
       let refused := (rejectedOf s c miss (turn.map testPlan)).map (·.q)
       let v1 := retestFlags (spaceAt c.path) ((turn.filter (fun u => u.2.2.1.isNone)).map (·.1)) c.wave
       let unmet := testsLeft eq scope c (setWave s w v1) turn
       let left := tests.filter (fun u => rej.contains u.1 || unmet.contains u)
       (turn = [] ∨ (∃ u ∈ turn, pending u) → exec (.waitaTest w pb) s = .next s) ∧
       (turn ≠ [] → (∀ u ∈ turn, ¬pending u) →
         (refused = [] → (∀ u ∈ turn, sound u) → s.dev.linkUp = true ∨ (∀ u ∈ turn, ¬host u) →
           ∃ t v, exec (.waitaTest w pb) s = .next t ∧ MemFrame s t c ∧ getWave t w = some v ∧
             (∀ n, sReg v n = sReg c.wave n) ∧ (∀ q k, predReg v q k = predReg c.wave q k) ∧
             v.csr = v1.csr ∧
             (∀ l a, l < scopeLevel scope → l < 4 →
               (cellAt t (viewAt c.core l) a).has &&& ~~~(cellAt t (viewAt c.core l) a).dirty = 0) ∧
             (left = [] → PathAfter c (stepPath c.path (wordsAt c.path)) v ∧
               ∀ q r, vReg v q r = if c.mask.getLsbD q && last.contains r then none else vReg c.wave q r) ∧
             (left ≠ [] → PathWaits c { c.path with wait := .waita eq scope last left rej } v ∧
               ∀ q r, vReg v q r = vReg c.wave q r)) ∧
         (refused = [] → (∀ u ∈ turn, sound u) → s.dev.linkUp = false → (∃ u ∈ turn, host u) → wTrap c.wave = false →
           lostPending c.wave = false →
             ∃ t v p, exec (.waitaTest w pb) s = .next t ∧ MemFrame s t c ∧ getWave t w = some v ∧ SameRegs c.wave v ∧
               v.faults = c.wave.faults ++ [p] ∧ p.code = 0x16 ∧ v.base = c.wave.base ∧ v.stack = c.wave.stack) ∧
         (∀ u more l e, refused = [] → turn = u :: more → u.2.2.1 = some l →
           poisonIn s c.wave.sq c.core 0 (wholeBytes l 4) = some e →
           ∃ m, exec (.waitaTest w pb) s = .next (takeTrap s w pb (eccTrap e.strct u.2.1 m) c.path.pc)) ∧
         (refused ≠ [] → (∀ u ∈ turn, sound u) → s.dev.linkUp = true ∨ (∀ u ∈ turn, ¬host u) →
           ∃ t v later, exec (.waitaTest w pb) s = .next t ∧ MemFrame s t c ∧ getWave t w = some v ∧
             PathWaits c { c.path with wait := .waita eq scope last later (rej ++ refused) } v ∧
             (∀ u ∈ tests, u.1 ∈ rej ++ refused → u ∈ later) ∧ (∀ u ∈ later, u ∈ tests) ∧
             (∀ q r, vReg v q r = vReg c.wave q r) ∧
             (getCore t c.core).mshr = (getCore s c.core).mshr ++
               (grantedLines s c miss (turn.map testPlan)).map (fun l => (c.w, l)) ∧
             (getCore t c.core).mwait =
               listWave c.w (entriesNeeded s c miss (turn.map testPlan)) (getCore s c.core).mwait)))

/-- PROBE writes whether each thread's page translates, and no flag, also when it faults; PREF and PREF.L2 change nothing a
program can read. RESREQ enters one message for each page and thread into mailbox 15 while it has room and no older message
waits; the rest wait behind the messages already waiting, and the path goes on once they have entered. CLWB leaves no dirty
copy of the named lines below its scope, and at its scope (memory for SYSTEM) each byte of them holds the value there before
with the dirty bits of the lower copies merged in, the lowest last; INVL leaves no clean copy below its scope. Beyond those
lines no byte of memory changes, and with INVL none. Where a graph has elements that lie in several blocks, whose blocks move
together, the views and the memory are those that the moves of the named lines' blocks leave. (R318, R319, R320, R321, R171,
R63.) -/
def Obligations.HintsAndLines : Prop :=
  (∀ (x : FM) (s : State) (c : Ctx), Issues s c →
     (∀ v0, probeCheck c x = .ok v0 →
       ∃ t v, exec (.probe x) s = .next t ∧ MemFrame s t c ∧ getWave t c.w = some v ∧
         PathAfter c (stepPath c.path (fmWords x)) v ∧
         RegsAfter c (predWrites x.t [addrSrc x.space.toNat x.a x.l] 0
           (fun q => match translate s c.g.part c.core 0 (pageAddr c x q) with | .ok _ => true | _ => false)) v) ∧
     (∀ e, probeCheck c x = .error e → e.ur = false) ∧
     (∀ v0, prefCheck c x = .ok v0 → ∀ i ∈ [Instr.pref x, Instr.prefL2 x],
       ∃ t v, exec i s = .next t ∧ MemFrame s t c ∧ getWave t c.w = some v ∧
         PathAfter c (stepPath c.path (fmWords x)) v ∧
         RegsAfter c {} v)) ∧
  (∀ (x : FM) (s : State) (c : Ctx), Issues s c →
     (∀ v0, c.path.wait = .ready → resCheck c x = .ok v0 →
       let srcs := [addrSrc x.space.toNat x.a x.l, ⟨x.t, .value, false, false⟩]
       let msgs := resMessages s c (fun q => rdSpec c q x.t 0) (pageAddr c x)
       let p := getPart s c.g.part
       let k := if p.events = [] then mboxRoom p 15 else 0
       ∃ t v, exec (.resreq x) s = .next t ∧ getWave t c.w = some v ∧
         RegsAfter c { released := releasedBy srcs, ur := unwMask c srcs != 0 } v ∧
         getPart t c.g.part =
           { p with mbox := tabSet [] p.mbox 15 (tabGet [] p.mbox 15 ++ msgs.take k)
                    events := p.events ++ (msgs.drop k).map (fun m => (.resreq s.nextId, m)) } ∧
         (∀ n, n ≠ c.g.part → getPart t n = getPart s n) ∧ (∀ u, u ≠ c.w → getWave t u = getWave s u) ∧ t.mem = s.mem ∧
         (msgs.length ≤ k → PathAfter c (stepPath c.path (fmWords x)) v) ∧
         (k < msgs.length → t.nextId = s.nextId + 1 ∧ PathWaits c { c.path with wait := .resreq s.nextId } v)) ∧
     (∀ id, c.path.wait = .resreq id →
       (resWaits (getPart s c.g.part) id = true → exec (.resreq x) s = .next s) ∧
       (resWaits (getPart s c.g.part) id = false → ∃ t, exec (.resreq x) s = .next t ∧ RegEffect s t c (fmWords x) {}))) ∧
  (∀ (x : FM) (s : State) (c : Ctx) (v0 : Wave) (ps : List Plan), Issues s c → lineCheck s c x = .ok (v0, ps) →
     let lv := scopeLevel x.scope.toNat
     let below (y : Byte) (a : Nat) : Byte := ([3, 2, 1, 0].filter (· < lv)).foldl (fun y l =>
       mergeBits y (cellAt s (viewAt c.core l) a).val (cellAt s (viewAt c.core l) a).dirty) y
     ∀ i ∈ [(Instr.clwb x, propBlock), (Instr.invl x, dropBlock)],
       ∃ t v v1, exec i.1 s = .next t ∧ getWave t c.w = some v ∧ PathAfter c (stepPath c.path (fmWords x)) v ∧
         (∀ q r, vReg v q r = vAfter c { released := releasedBy [addrSrc x.space.toNat x.a x.l] } q r) ∧
         (∀ n, sReg v n = sReg c.wave n) ∧ (∀ q k, predReg v q k = predReg c.wave q k) ∧
         t.mem = (linesMoved i.2 c.core lv (namedLines s c x 0) (setWave s c.w v1)).mem ∧
         t.views = (linesMoved i.2 c.core lv (namedLines s c x 0) (setWave s c.w v1)).views ∧
         (i.1 = .invl x → ∀ a, memByte t.mem a = memByte s.mem a) ∧
         (NoWideTiles s → (∀ line ∈ namedLines s c x 0, line < 2 ^ 56) →
           (∀ a, a / 128 ∉ namedLines s c x 0 → memByte t.mem a = memByte s.mem a ∧ ∀ u, cellAt t u a = cellAt s u a) ∧
           (∀ line ∈ namedLines s c x 0, singleCopy (line * 128) = false → ∀ k, k < 128 →
             let a := line * 128 + k
             (∀ l, l < lv →
               (i.1 = .clwb x → (cellAt t (viewAt c.core l) a).dirty = 0) ∧
               (i.1 = .invl x → (cellAt t (viewAt c.core l) a).has &&& ~~~(cellAt t (viewAt c.core l) a).dirty = 0)) ∧
             (i.1 = .clwb x → lv < 4 → memByte t.mem a = memByte s.mem a ∧
               (cellAt t (viewAt c.core lv) a).val = below (cellAt s (viewAt c.core lv) a).val a) ∧
             (i.1 = .clwb x → lv = 4 → memByte t.mem a = below (memByte s.mem a) a))))

/-- A store that may leave its queue writes exactly its bytes: into the lowest view of its core, dirty, or for a scratchpad
or HOST byte into memory (nothing while the link is down); every other byte and copy stays. An atomic that may leave it reads
and writes its word at the level of its scope, and puts the old value into its destination; no other byte of memory changes.
(R166, R170, R171, R173, R391, R95.) -/
def Obligations.QueuedAccessesArePerformed : Prop :=
  (∀ (w i : Nat) (s : State) (core wg : Nat) (sq : List SqEntry) (e : SqEntry), sqOf s w = some (core, wg, sq) →
     sq[i]? = some e → e.kind = .store → (e.bytes.map (·.1)).Nodup →
     (drainOk sq i = false → exec (.sqDrain w i) s = .next s) ∧
     (drainOk sq i = true →
       ∃ t, exec (.sqDrain w i) s = .next t ∧
         (((sqOf t w).map (·.2.2)).getD []).map (·.seq) = (sq.eraseIdx i).map (·.seq) ∧
         (∀ a, a ∉ e.bytes.map (·.1) → memByte t.mem a = memByte s.mem a ∧ ∀ u, cellAt t u a = cellAt s u a) ∧
         (∀ b ∈ e.bytes,
           (singleCopy b.1 = false →
             memByte t.mem b.1 = memByte s.mem b.1 ∧ (∀ u, u ≠ viewAt core 0 → cellAt t u b.1 = cellAt s u b.1) ∧
             cellAt t (viewAt core 0) b.1 = (let k := cellAt s (viewAt core 0) b.1
               if (k.has ||| b.2.1) = 0 then noCell
               else { val := mergeBits k.val b.2.2 b.2.1, has := k.has ||| b.2.1, dirty := k.dirty ||| b.2.1 })) ∧
           (singleCopy b.1 = true → b.1 ≠ locNone → isHostLoc b.1 = false ∨ s.dev.linkUp = true →
             memByte t.mem b.1 = mergeBits (memByte s.mem b.1) b.2.2 b.2.1) ∧
           (isHostLoc b.1 = true → s.dev.linkUp = false → memByte t.mem b.1 = memByte s.mem b.1)))) ∧
  (∀ (w i : Nat) (s : State) (core wg : Nat) (sq : List SqEntry) (e : SqEntry) (op : Nat) (wide : Bool) (b c : DWord)
     (dst : Option (Nat × Nat)) (loc : Nat), sqOf s w = some (core, wg, sq) → sq[i]? = some e →
     e.kind = .atom op wide b c dst → drainOk sq i = true →
     e.bytes.map (·.1) = (List.range (if wide then 8 else 4)).map (loc + ·) →
     (∀ k, k < 8 → singleCopy (loc + k) = singleCopy loc ∧ loc + k ≠ locNone) → isHostLoc loc = false ∨ s.dev.linkUp = true →
       let n := if wide then 8 else 4
       let lv := if isHostLoc loc then 4 else scopeLevel e.scope
       let old : DWord := BitVec.ofNat 64 (natOfBytes (bytesAt ((e.bytes.map (·.1)).foldl (fun s l => pushByte s core lv l) s)
         core lv loc n))
       ∃ t, exec (.sqDrain w i) s = .next t ∧
         (((sqOf t w).map (·.2.2)).getD []).map (·.seq) = (sq.eraseIdx i).map (·.seq) ∧
         (lv ≤ 4 → bytesAt t core lv loc n = bytesOf n ((atomNew op old b c).getD old).toNat) ∧
         (∀ a, a ∉ e.bytes.map (·.1) → memByte t.mem a = memByte s.mem a) ∧
         (∀ r tid u q, dst = some (r, tid) → tidPlace s wg tid = some (u, q) →
           ∃ v, getWave t u = some v ∧ vReg v q r = some (loWord old) ∧ (wide = true → vReg v q (r + 1) = some (hiWord old))))

/-- A deposit that may leave the store queue waits while an earlier deposit of its wave is held; otherwise it adds one to the
target wave's arrival counter, is held where that counter is full or others are held before it, and is kept apart while the
wave is parked. The oldest held deposit is delivered when there is room. Memory and views stay as they were. How held
deposits are kept is the model's (log entry 26). (R35, R154, R316.) -/
def Obligations.DepositsAreDelivered : Prop :=
  (∀ (w i : Nat) (s : State) (core wg : Nat) (sq : List SqEntry) (e : SqEntry) (n : Nat), sqOf s w = some (core, wg, sq) →
     sq[i]? = some e → e.kind = .depo n → drainOk sq i = true →
     (hasHeld s w = true → exec (.depoDeliver w i) s = .next s) ∧
     (hasHeld s w = false →
       ∃ t, exec (.depoDeliver w i) s = .next t ∧ t.mem = s.mem ∧ t.views = s.views ∧
         ∀ u v, (if n / 2 ^ 15 % 2 = 1 then some ((core / 4 * 4 + n % 4) * 96 + n / 4 % 128)
               else waveNumbered (putSq s w (sq.eraseIdx i)) wg (n % 16)) = some u →
           getWave (putSq s w (sq.eraseIdx i)) u = some v →
           getWave t u = some (
             if isParked v = true ∧ n / 2 ^ 15 % 2 = 0 then { v with parkedDeps := v.parkedDeps ++ [w] }
             else if 65535 ≤ v.acnt ∨ v.heldDeps ≠ [] then { v with heldDeps := v.heldDeps ++ [w] }
             else { v with acnt := v.acnt + 1 }))) ∧
  (∀ (w : Nat) (s : State) (v : Wave), getWave s w = some v →
     ∃ t, exec (.heldDepositDeliver w) s = .next t ∧ t = { s with waves := t.waves } ∧
       (∀ u, u ≠ w → getWave t u = getWave s u) ∧
       (∀ d more, v.heldDeps = d :: more → v.acnt < 65535 →
         getWave t w = some { v with acnt := v.acnt + 1, heldDeps := more }) ∧
       (65535 ≤ v.acnt ∨ v.heldDeps = [] → getWave t w = some v))

/-- PROPAGATE moves the dirty bits of one block of a view into the parent view or memory and cleans them, and touches no
other block (the blocks that hold parts of one element of a tile, in a ring or an overflow tile, move together); DROP removes
the clean bits of a block and no dirty one. A load reads its wave's newest store of a byte, else the lowest view of its path
that holds it, else memory; a single-copy byte is read from memory. (R166, R167, R170, R172, R183, R391.) -/
def Obligations.CopiesPropagateAndAreRead : Prop :=
  (∀ (view blk : Nat) (s : State) (k : Nat), k < 8 →
     let a := 8 * blk + k
     let cell := cellAt s view a
     (wideTile s (8 * blk) = none → ∀ b, b ∈ groupLocs s blk ↔ b / 8 = blk) ∧
     (∀ (h : TileShape) (base len : Nat), wideTile s (8 * blk) = some (h, [(base, len)]) → len = h.planes * h.plane →
       h.plane % h.chunk = 0 → h.chunk % 8 = 0 → 0 < h.chunk → base ≤ 8 * blk → 8 * blk < base + len →
       ∀ p j, p < h.planes → j < h.chunk / 8 →
         base + p * h.plane + (8 * blk - base) % h.plane / h.chunk * h.chunk + 8 * j ∈ groupLocs s blk) ∧
     (∃ t, exec (.propagate view blk) s = .next t ∧
       (cell.dirty = 0 → cellAt t view a = cell) ∧
       (cell.dirty ≠ 0 →
         cellAt t view a = (if cell.has = 0 then noCell else { cell with dirty := 0 }) ∧
         (parentOf view = none → a ≠ locNone → memByte t.mem a = mergeBits (memByte s.mem a) cell.val cell.dirty) ∧
         (∀ p, parentOf view = some p →
           memByte t.mem a = memByte s.mem a ∧
           cellAt t p a = (let d := cellAt s p a
             { val := mergeBits d.val cell.val cell.dirty, has := d.has ||| cell.dirty, dirty := d.dirty ||| cell.dirty }))) ∧
       (∀ u b, b ∉ groupLocs s blk → cellAt t u b = cellAt s u b ∧ memByte t.mem b = memByte s.mem b)) ∧
     (∃ t, exec (.drop view blk) s = .next t ∧ t.mem = s.mem ∧ t.waves = s.waves ∧
       (cell.has ≠ 0 → cell.dirty = 0 → cellAt t view a = noCell) ∧
       (cell.has ≠ 0 → cell.dirty ≠ 0 → cellAt t view a = { cell with has := cell.dirty, val := cell.val &&& cell.dirty }) ∧
       (∀ u b, u ≠ view ∨ b ∉ groupLocs s blk → cellAt t u b = cellAt s u b))) ∧
  (∀ (s : State) (sq : List SqEntry) (core a : Nat),
     (∀ older e newer m x, sq = older ++ e :: newer → (∀ n ∈ newer, touches n a = false) →
       e.bytes.find? (fun b => b.1 = a) = some (a, m, x) → m = 0xFF → loadByte s sq core a = x) ∧
     ((∀ e ∈ sq, touches e a = false) → singleCopy a = true → loadByte s sq core a = memByte s.mem a) ∧
     ((∀ e ∈ sq, touches e a = false) → singleCopy a = false →
       (∀ l, l < 4 → (cellAt s (viewAt core l) a).has = 0xFF → (∀ k, k < l → (cellAt s (viewAt core k) a).has = 0) →
         loadByte s sq core a = (cellAt s (viewAt core l) a).val) ∧
       ((∀ l, l < 4 → (cellAt s (viewAt core l) a).has = 0) → loadByte s sq core a = memByte s.mem a)))

/-! Engines. -/

/-- A copy, matrix, sampler, trace or Dash instruction whose checks pass leaves one operation in its queue, with its operands
and the copies that are dirty below its scope, adds one to its counter and goes on, or stalls with nothing done while its
queue is full, its counter is at 255 or an earlier product to its tile is under way. Nothing else of any wave changes. (R60,
R118, R151, R174, R322, R323, R340, R349.) -/
def Obligations.EngineInstructionsQueue : Prop :=
  ∀ (x : FE), ∀ o ∈ queueOps x, o.Completes

/-- An engine instruction, a NEVAL, a TEXN or a GRF instruction whose checks fail takes the trap of the first failing check
and does nothing else. The order of the checks is the model's (log entry 10). (R100, R221, R322, R335, R343, R357.) -/
def Obligations.EngineAndGraphChecksTrap : Prop :=
  (∀ (x : FE), (∀ o ∈ queueOps x, ∀ (s : State) (c : Ctx) (t : Trap), Issues s c → o.check s c = .error t →
       Traps s c o.instr t) ∧
     (∀ o ∈ nevalOps x, ∀ (s : State) (c : Ctx) (t : Trap), Issues s c → c.path.wait = .ready →
       nevalCheck o.2.1 x o.2.2.1 o.2.2.2 c = .error t → Traps s c o.1 t) ∧
     (∀ (s : State) (c : Ctx) (t : Trap), Issues s c → c.path.wait = .ready → texCheck s c 0x2D x = .error t →
       Traps s c (.texn x) t)) ∧
  (∀ (x : FE), ∀ o ∈ grfOps x, ∀ (s : State) (c : Ctx) (t : Trap), Issues s c → o.2 c = .error t → Traps s c o.1 t)

/-- NEVAL, NEVAL.U, NEVAL.F32 and TEXN whose checks pass are taken by Baton with GTH counted one higher, and their path goes
on or waits until its groups have entered; they stall, with nothing done, while the counter is at its limit, the key has no
gathering slot, or (TEXN) the sampler's queue is full. That TEXN takes and waits for a place of the sampler's queue is the
model's choice (log entry 15), and a full tile is dispatched in the same step, its reads after the release that log entry 41
describes. With nothing in any store queue, and no copy that an operation has to carry, no byte of memory changes, and for
NEVAL no register and no other wave. (R118, R151, R335, R337, R344.) -/
def Obligations.BatonTakesOperations : Prop :=
  ∀ (x : FE), (∀ o ∈ nevalOps x, ∀ (s : State) (c : Ctx) (v : Wave), Issues s c → c.path.wait = .ready →
      nevalCheck o.2.1 x o.2.2.1 o.2.2.2 c = .ok v →
      let key := (rdSpec c (lowestTid c.wave c.mask) x.a 0).toNat % 65536
      (engStall s c o.2.1 = true ∨ keyRoom s c.core c.wave.csr.whtab key = false →
        ∃ t, exec o.1 s = .next t ∧ Held s t c .stall) ∧
      (engStall s c o.2.1 = false → keyRoom s c.core c.wave.csr.whtab key = true →
        ∃ t, exec o.1 s = .next t ∧ BatonTakes s t c o.2.1 x ∧
          (NothingQueued s → t.mem = s.mem ∧ (∀ u, u ≠ c.w → getWave t u = getWave s u) ∧
            ∀ u, getWave t c.w = some u → SameRegs c.wave u ∧ ∃ b, u.csr = (setStatIf c.wave b 0).csr))) ∧
    (∀ (s : State) (c : Ctx) (v : Wave) (m : Smp) (i : EngIn), Issues s c → c.path.wait = .ready →
      texCheck s c 0x2D x = .ok (v, m, i) →
      (64 ≤ (inQueue s .sampler c.core).length ∨ engStall s c 0x2D = true ∨
          keyRoom s c.core c.wave.csr.whtab m.handle = false →
        ∃ t, exec (.texn x) s = .next t ∧ Held s t c .stall) ∧
      (c.wave.sq = [] → (inQueue s .sampler c.core).length < 64 → engStall s c 0x2D = false →
        keyRoom s c.core c.wave.csr.whtab m.handle = true →
        ∃ t, exec (.texn x) s = .next t ∧ BatonTakes s t c 0x2D x ∧ (NothingQueued s → t.mem = s.mem)))

/-- An operation starts only at the head of its queue, and on the Dash array only alone. Completing an operation takes it out
and makes its counter one lower and no other (a product waits for earlier ones to its tile). (R117, R118, R151, R152, R323.)
-/
def Obligations.EngineOrderAndCounters : Prop :=
  (∀ (id : Nat) (s : State) (o : EngOp), getOp s id = some o →
     let e := engOfOp o.op
     let busy : Prop := e = .dash ∧ ∃ x ∈ s.ops, x.started = true ∧ engOfOp x.op = e ∧ sameQueue e o.core x.core = true
     (((inQueue s e o.core).head?.map (·.id)) ≠ some id ∨ busy → exec (.engineStart id) s = .next s) ∧
     (((inQueue s e o.core).head?.map (·.id)) = some id → ¬busy →
       ∃ t, exec (.engineStart id) s = .next t ∧ t = { s with ops := t.ops } ∧ t.ops.map (·.id) = s.ops.map (·.id) ∧
         ∃ o', getOp t id = some o' ∧ o' = { o with started := true })) ∧
  (∀ (id : Nat), ∀ e ∈ completionOps id, ∀ (s : State) (o : EngOp) (v : Wave) (g : Wg), runningOp s e.2 id = some o →
     opCtx s o = some (v, g) → (e.2 = .matrix → ∀ p ∈ s.ops, p.id < id → sameTile s v.wg (feTile o.x) p = false) →
       ∃ t, exec e.1 s = .next t ∧ getOp t id = none ∧
         ∀ u, getWave t o.wave = some u → cntOf u (cntOfOp o.op) = cntOf v (cntOfOp o.op) - 1 ∧
           ∀ j, j ≠ cntOfOp o.op → cntOf u j = cntOf v j)

/-- A completed COPY.SS leaves the source bytes at the destination and every other byte as it was. COPY.GS, COPY.MC and
COPY.SG run their elements in their order after the release of R174: an element read, once its bytes are pushed up to H(S),
leaves its converted channels in each scratch extent, an element written leaves the converted scratch values at its record
location, and nothing else. MZERO clears its tile, MLD and MST move 1,024 words between a tile and scratch, MRD moves one
word a thread, MWR leaves at each index the value of the last thread that names it, MDRAIN leaves the tile's words at its
save area and MFILL reads them back, MMA, MMA.T and MMAZ leave the product of their operands; other tiles and other bytes
stay. That every read and write of an operation is made in its one completion step is the model's choice (log entry 41),
where R176 and R332 allow earlier moments. (R174, R175, R325, R326, R327, R328, R329, R330, R331, R332, R333, R334.) -/
def Obligations.CopiesAndTiles : Prop :=
  (∀ (id : Nat) (s : State) (o : EngOp) (v : Wave) (g : Wg), runningOp s .copy id = some o → opCtx s o = some (v, g) →
     o.op = 2 → v.sq = [] → cpScope o.x ≤ 5 → cpWord o.x = false → s.dev.serr = [] →
       let src := extentLoc o.core g (ssSrcCl o.x) o.a.toNat
       let dst := extentLoc o.core g (ssDstCl o.x) (if ssDstCl o.x then ssCore o.x * 2 ^ 30 + ssDst o.x else ssDst o.x)
       dst + o.b.toNat ≤ locNone →
       ∃ t, exec (.copyComplete id) s = .next t ∧
         (∀ k, k < o.b.toNat → memByte t.mem (dst + k) = memByte s.mem (src + k)) ∧
         (∀ a, a < dst ∨ dst + o.b.toNat ≤ a → memByte t.mem a = memByte s.mem a)) ∧
  (∀ (id : Nat) (s : State) (o : EngOp) (v : Wave) (g : Wg), runningOp s .copy id = some o → opCtx s o = some (v, g) →
     o.op ≠ 2 → cpWord o.x = false → v.sq = [] → liveMask v ≠ 0 → v.halted = false →
       let level := scopeLevel (cpScope o.x)
       let scr := if o.op = 3 then (mcAddrs o.a.toNat).map (extentLoc o.core g true) else [extentLoc o.core g (cpCl o.x) o.a.toNat]
       let run := (cpSteps o.x).foldl (copyElem o g (parseRec (cpRec o.x) o.recd) (o.op = 1) level scr) (engRelease s o, none)
       ∃ t, exec (.copyComplete id) s = .next t ∧ t.mem = run.1.mem ∧ t.views = run.1.views ∧ getOp t id = none) ∧
  (∀ (o : EngOp) (g : Wg) (r : Rec) (level : Nat) (s : State) (i px py : Nat) (oob : Bool) (v : Wave) (bs : List (Nat × Byte))
     (first : Option Trap), i ∈ cpSteps o.x → getWave s o.wave = some v → s.dev.serr = [] → s.dev.linkUp = true → level ≤ 4 →
     let x := o.x
     let c := engCtx o v g
     let l := locate s g r r.c px py
     let s1 := if oob then opStat s o 1 else s
     let at_ := cpXY x r o.b.toNat i
     let s2 := pushBlocks s1 o.core level (bs.map (·.1))
     (∀ scr, whereElem r false at_.1 at_.2 = .elem px py oob → (∀ va, l.va = some va → faultIn s c 0 va l.bytes = none) →
       engineAcc s1 c 0 l = .mem bs → scr.Pairwise (fun a b => a + cpExtent x r ≤ b ∨ b + cpExtent x r ≤ a) →
       (∀ a ∈ scr, a + cpExtent x r ≤ locNone) →
         let out := copyElem o g r false level scr (s, first) i
         out.2 = first ∧
         (∀ base ∈ scr, ∀ ch e, ch < r.c → l.elems[ch]? = some e →
           elemRaw (cpScr x r (i * r.c + ch)) (fun k => memByte out.1.mem (base + k)) =
             toSfmt x r (rawFrom e l.bytes (bs.map (fun b => opByte s2 o i level b.1))) % 2 ^ (4 * cpNibbles x r)) ∧
         (∀ a, (∀ base ∈ scr, ∀ ch, ch < r.c → ∀ b ∈ elemBytes (cpScr x r (i * r.c + ch)), a ≠ base + b.1) →
           memByte out.1.mem a = memByte s2.mem a)) ∧
     (∀ base, whereElem r true at_.1 at_.2 = .elem px py oob → (∀ va, l.va = some va → faultIn s c 1 va l.bytes = none) →
       engineAcc s1 c 1 l = .mem bs → (bs.map (·.1)).Nodup → locNone ∉ bs.map (·.1) →
         let out := copyElem o g r true level [base] (s, first) i
         let puts := joinBytes (((l.elems.zip ((List.range r.c).map (fun ch => cpScr x r (i * r.c + ch)))).map (fun e =>
           elemPut e.1 (ofSfmt x r (elemRaw e.2 (fun k => scrByte s o i (base + k)))))).flatten)
         out.2 = first ∧
         (∀ e ∈ bs.zip puts,
           byteAt out.1 o.core level e.1.1 = mergeBits (byteAt s o.core level e.1.1) e.2.2.2 e.2.2.1) ∧
         (∀ a, a ∉ bs.map (·.1) → memByte out.1.mem a = memByte s.mem a ∧ ∀ u, cellAt out.1 u a = cellAt s u a))) ∧
  (∀ (id : Nat) (s : State) (o : EngOp) (v : Wave) (g : Wg), runningOp s .matrix id = some o → opCtx s o = some (v, g) →
     (∀ p ∈ s.ops, p.id < id → sameTile s v.wg (feTile o.x) p = false) → v.sq = [] → liveMask v ≠ 0 → v.halted = false →
     let l := extentLoc o.core g (o.x.ext.getLsbD 0) o.a.toNat
     l + 4096 ≤ locNone →
       ∃ t g' u, exec (.mxeComplete id) s = .next t ∧ getWg t v.wg = some g' ∧ getWave t o.wave = some u ∧
         (∀ k i, k ≠ feTile o.x → i < 1024 → tileWord g' k i = tileWord g k i) ∧
         (o.op = 0x13 → ∀ i, i < 1024 → tileWord g' (feTile o.x) i = 0) ∧
         (o.op = 0x14 → ∀ i, i < 1024 → tileWord g' (feTile o.x) i = BitVec.ofNat 32 (natOfBytes
           ((List.range 4).map (fun k => memByte s.mem (l + 4 * i + k))))) ∧
         (o.op = 0x15 →
           (∀ i k, i < 1024 → k < 4 → memByte t.mem (l + 4 * i + k) = (tileWord g (feTile o.x) i).extractLsb' (8 * k) 8) ∧
           (∀ a, (a < l ∨ l + 4096 ≤ a) → memByte t.mem a = memByte s.mem a)) ∧
         (o.op = 0x16 → (o.vals.map (·.1)).Nodup → ∀ e ∈ o.vals, (liveMask v).getLsbD e.1 = true →
           vReg u e.1 o.x.d.toNat = some (tileWord g (feTile o.x) ((e.2.headD 0).toNat % 1024))) ∧
         (o.op = 0x17 → ∀ i, i < 1024 → tileWord g' (feTile o.x) i =
           match o.vals.reverse.find? (fun e => (e.2.headD 0).toNat % 1024 = i) with
           | some e => (e.2[1]?).getD 0
           | none => tileWord g (feTile o.x) i) ∧
         (0x10 ≤ o.op → o.op ≤ 0x12 → ∀ i, i < 1024 → tileWord g' (feTile o.x) i =
           mmaTile (parseFb o.d) (mmaGroups o.x) (o.op = 0x11) (o.op = 0x12) (fun _ => memByte s.mem)
             (extentLoc o.core g (mmaAcl o.x) o.a.toNat) (extentLoc o.core g (mmaBcl o.x) o.b.toNat)
             (tileWord g (feTile o.x)) i) ∧
         (o.op ≠ 0x15 → o.op ≠ 0x18 → ∀ a, memByte t.mem a = memByte s.mem a)) ∧
  (∀ (id : Nat) (s : State) (o : EngOp) (v : Wave) (g : Wg), runningOp s .matrix id = some o → opCtx s o = some (v, g) →
     (∀ p ∈ s.ops, p.id < id → sameTile s v.wg (feTile o.x) p = false) → v.sq = [] → liveMask v ≠ 0 → v.halted = false →
     s.dev.serr = [] →
     (o.op = 0x18 → o.b.toNat ≠ 0 → (o.b.toNat ≤ 3 → extentOk g (o.b.toNat = 3) o.a.toNat 4096 = true) →
       (∀ i loc, drainWord s o g 1 i = .ok loc → i < 1024 → loc + 4 ≤ locNone ∨ locNone < loc) →
       ∃ t, exec (.mxeComplete id) s = .next t ∧
         ∀ i k loc, i < 1024 → k < 4 → drainWord s o g 1 i = .ok loc →
           byteAt t o.core 0 (loc + k) = (tileWord g (feTile o.x) i).extractLsb' (8 * k) 8) ∧
     (∀ loc : Nat → Nat, o.op = 0x19 → (∀ i, i < 1024 → drainWord s o g 0 i = .ok (loc i) ∧ isHostLoc (loc i) = false) →
       ∃ t g', exec (.mxeComplete id) s = .next t ∧ getWg t v.wg = some g' ∧
         ∀ i, i < 1024 → tileWord g' (feTile o.x) i =
           BitVec.ofNat 32 (natOfBytes ((List.range 4).map (fun k => engByte s o.core 0 (loc i + k))))))

/-- DLOAD writes the named rows, sets LOADED and leaves in the replay list only entries that are the latest for some row;
DWIN the window; DLAUNCH (from scratch) and DLAUNCH.R (from registers) leave each column's minimum or maximum and its winner
and the launch's mode and window; DCAPT and DCAPT.W store outputs or winners in scratch and nothing else there; DRESET makes
cells, outputs and winners the reset values, clears LOADED, MAX and the launch's mode and window, and empties the replay
list. Only captures write memory. Scratch is read at the completion step by the model's choice (log entry 41). (R349, R350,
R351, R352, R353, R354, R355.) -/
def Obligations.DashOperations : Prop :=
  ∀ (id : Nat) (s : State) (o : EngOp) (v : Wave) (g : Wg), runningOp s .dash id = some o → opCtx s o = some (v, g) →
    v.sq = [] → liveMask v ≠ 0 → v.halted = false →
    extentLoc o.core g (o.x.ext.getLsbD 0) o.a.toNat + 256 ≤ locNone →
      let d := getDash s (clusterOf o.core)
      ∃ t, exec (.dashComplete id) s = .next t ∧
        let d' := getDash t (clusterOf o.core)
        (o.op = 0x38 → ∀ r j, r < 128 → j < 128 → dashCell d' r j =
          (if dlRow0 o.x ≤ r ∧ r < dlRow0 o.x + dlN o.x then
            scrHalf s (extentLoc o.core g (dlCl o.x) o.a.toNat + 256 * (r - dlRow0 o.x) + 2 * j) % 1024
          else dashCell d r j)) ∧
        (o.op = 0x38 → d'.loaded = true ∧ ∀ pre e post, d'.replay = pre ++ e :: post →
          ∃ r, entRow r e = true ∧ ∀ x ∈ post, entRow r x = false) ∧
        (o.op = 0x39 → d' = { d with w := o.a.toNat }) ∧
        (o.op = 0x3A → ∀ j, j < 128 → (tabGet never d'.out j, tabGet 255 d'.win j) =
          dashOut (dashMode o.x) (dashRows d (fun i =>
            scrHalf s (extentLoc o.core g (o.x.ext.getLsbD 0) o.a.toNat + 2 * i) % 1024) j)) ∧
        (o.op = 0x3B → ∀ j, j < 128 → (tabGet never d'.out j, tabGet 255 d'.win j) =
          dashOut (dashMode o.x) (dashRows d (fun i =>
            match o.vals.find? (fun e => e.1 = i) with
            | some e => Nat.min (e.2.headD 0).toNat never
            | none => never) j)) ∧
        (o.op = 0x3A ∨ o.op = 0x3B → d'.cells = d.cells ∧ d'.maxMode = dashMode o.x ∧ d'.max = dashMode o.x ∧ d'.lwin = d.w) ∧
        (o.op = 0x3C ∨ o.op = 0x3D → d' = d ∧
          (∀ j, j < 128 → scrHalf t (extentLoc o.core g (o.x.ext.getLsbD 0) o.a.toNat + 2 * j) =
            captHalf d (o.op = 0x3D) j % 65536) ∧
          (∀ a, (a < extentLoc o.core g (o.x.ext.getLsbD 0) o.a.toNat ∨
              extentLoc o.core g (o.x.ext.getLsbD 0) o.a.toNat + 256 ≤ a) → memByte t.mem a = memByte s.mem a)) ∧
        (o.op = 0x3E → (∀ r j, dashCell d' r j = never) ∧ (∀ j, tabGet never d'.out j = never ∧ tabGet 255 d'.win j = 255) ∧
          d'.replay = [] ∧ d'.loaded = false ∧ d'.max = false ∧ d'.maxMode = false ∧ d'.lwin = never ∧
          d'.holder = d.holder ∧ d'.w = d.w) ∧
        (o.op ≤ 0x3B ∨ o.op = 0x3E → ∀ a, memByte t.mem a = memByte s.mem a)

/-- A completed texture operation puts four words of its thread's filtered value into D to D+3 of each live thread; a
completed trace puts the hit words there and the hit into its predicate, and leaves a thread that met a fault unwritten.
Other registers and memory stay. Results on values that the spec leaves open are free values (log entry 21), and texels and
the tree are read at the completion step by the model's choice (log entry 41). (R342, R343, R345, R346, R347, R348.) -/
def Obligations.GatherResults : Prop :=
  ∀ (id : Nat) (s : State) (o : EngOp) (v : Wave) (g : Wg), opCtx s o = some (v, g) → (o.vals.map (·.1)).Nodup →
    liveMask v ≠ 0 → v.halted = false → v.sq = [] →
    (runningOp s .sampler id = some o →
      ∃ t u, exec (.texComplete id) s = .next t ∧ getWave t o.wave = some u ∧ t.mem = s.mem ∧
        (∀ e ∈ o.vals, (liveMask v).getLsbD e.1 = true → ∀ k, k < 4 →
          vReg u e.1 (o.x.d.toNat + k) = (texWords s e.1 (texThread s o v g e.2).words)[k]?) ∧
        (∀ q r, r < o.x.d.toNat ∨ o.x.d.toNat + 4 ≤ r → vReg u q r = vReg v q r) ∧ (∀ n, sReg u n = sReg v n) ∧
        (∀ q k, predReg u q k = predReg v q k)) ∧
    (runningOp s .trace id = some o →
      let tree : Tree := { part := g.part, core := o.core, r := parseRec (txSmp o.x) o.recd, any := o.op = 0x31, young := [] }
      ∃ t u, exec (.traceComplete id) s = .next t ∧ getWave t o.wave = some u ∧ t.mem = s.mem ∧
        (∀ e ∈ o.vals, (liveMask v).getLsbD e.1 = true →
          let r := traceRay s tree (rayOf e.2)
          (r.1.fault = none →
            (∀ k, k < 4 → vReg u e.1 (o.x.d.toNat + k) = (hitWords r.1.hit)[k]?) ∧
            (txPred o.x ≠ 0 → predReg u e.1 (txPred o.x) = r.1.hit.isSome)) ∧
          (r.1.fault ≠ none → ∀ k, vReg u e.1 k = vReg v e.1 k ∧ predReg u e.1 k = predReg v e.1 k)) ∧
        (∀ q r, r < o.x.d.toNat ∨ o.x.d.toNat + 4 ≤ r → vReg u q r = vReg v q r) ∧ (∀ n, sReg u n = sReg v n))

/-- A tile that has gathered for 64 cycles is dispatched, after the release at WG of its rows' operations, with an output for
each row computed from the weights as they read then; before that nothing happens. That the release and the reads of the
weights belong to the dispatch step is the model's choice (log entry 41). When the tile that serves all rows of an operation
is done, the operation is gone, GTH is one lower, and each live thread holds its outputs and validity. (R174, R336, R337,
R338.) -/
def Obligations.BatonTilesAndResults : Prop :=
  (∀ (core key : Nat) (s : State) (b : BTile), s.btiles.find? (fun t => t.id = key && t.core = core && !t.dispatched) = some b →
     (s.dev.cycle < b.openedAt + 64 → exec (.batonTimeout core key) s = .next s) ∧
     (NothingQueued s → releaseRows s b = s) ∧
     (b.openedAt + 64 ≤ s.dev.cycle → InOrder s →
       let s' := releaseRows s b
       ∃ t b', exec (.batonTimeout core key) s = .next t ∧ t.mem = s'.mem ∧ t.waves = s'.waves ∧ t.ops = s'.ops ∧
         b' ∈ t.btiles ∧ b'.id = key ∧ b'.dispatched = true ∧ b'.rows = b.rows ∧ b'.outs.length = b.rows.length ∧
         b'.outs = (runTile s' (youngRows s' b) (tilePart s' b) core b).outs)) ∧
  (∀ (id : Nat) (s : State) (b : BTile) (o : EngOp) (v : Wave) (g : Wg) (r : BRes), s.btiles.find? (fun t => t.id = id && t.dispatched) = some b →
     s.bres = [r] → r.op = o.id → r.outs = [] → r.waiting = [] → r.left = b.rows.length → r.fault = [] → b.fault = none →
     b.outs.length = b.rows.length → b.rows ≠ [] → (∀ x ∈ b.rows, x.op = o.id) → (b.rows.map (·.pos)).Nodup →
     getOp s o.id = some o → opCtx s o = some (v, g) → (∀ p ∈ s.ops, p.id < o.id → p.wave = o.wave → engOfOp p.op ≠ .baton) →
     cntOfOp o.op = .gth → liveMask v ≠ 0 → v.halted = false →
       ∃ t u, exec (.batonTileDone id) s = .next t ∧ t.mem = s.mem ∧ getOp t o.id = none ∧ getWave t o.wave = some u ∧
         u.gth = v.gth - 1 ∧ t.bres = [] ∧
         ∀ e ∈ b.rows.zip b.outs, (liveMask v).getLsbD e.1.pos = true →
           (∀ k, k < (rowRegs o e.2).length → vReg u e.1.pos (o.x.d.toNat + k) = (rowRegs o e.2)[k]?) ∧
           (nvPred o.x ≠ 0 → predReg u e.1.pos (nvPred o.x) = e.2.1))

/-! Spawns, graphs, timelines, mailboxes. -/

/-- A spawn of the pacer or in trap mode takes ILLEGAL_OP; a kernel entry that does not translate gives PAGE_FAULT, one on a
HOST page while the link is down PCIE_LOST (at the instruction: log entry 12), a bad one or one of more than one wave
ILLEGAL_OPERAND; at depth 4 SPAWN_DEPTH. With room in every queue its children enter the queues of their cores in ascending
tid, with the root task, coordinates and arguments of R36, and the path goes on; registers and memory stay. SPAWN.W reads its
operands in the lowest active tid only. (R36, R37, R38, R95, R116, R122, R180, R285.) -/
def Obligations.SpawnsEnterQueues : Prop :=
  ∀ (k : BitVec 10) (a1 a0 : Reg), ∀ o ∈ spawnOps k a1 a0, ∀ (s : State) (c : Ctx), Issues s c →
    valueOk c.g a0 false = true → valueOk c.g a1 false = true →
    (rootTask c.g.kind = none ∨ wTrap c.wave = true → Traps s c o.1 (illegalOp (wordSpawn o.2.1 k a1 a0) c.mask)) ∧
    (rootTask c.g.kind ≠ none → wTrap c.wave = false → c.wave.spawns = [] →
      (∀ a, readKEnt s c.g.part c.core (getPart s c.g.part).ktab k.toNat = .page a → Traps s c o.1 (pageFault a 0 c.mask)) ∧
      (∀ st a, readKEnt s c.g.part c.core (getPart s c.g.part).ktab k.toNat = .ecc st a → Traps s c o.1 (eccTrap st a c.mask)) ∧
      (∀ a, readKEnt s c.g.part c.core (getPart s c.g.part).ktab k.toNat = .lost a →
        Traps s c o.1 (pcieLost (a % 2 ^ 57) c.mask)) ∧
      (readKEnt s c.g.part c.core (getPart s c.g.part).ktab k.toNat = .bad → Traps s c o.1 (illegalOperand k.toNat c.mask))) ∧
    (∀ task e, rootTask c.g.kind = some task → wTrap c.wave = false → c.wave.spawns = [] → c.wave.sq = [] →
      readKEnt s c.g.part c.core (getPart s c.g.part).ktab k.toNat = .ok e →
      (e.waves ≠ 1 → Traps s c o.1 (illegalOperand k.toNat c.mask)) ∧
      (e.waves = 1 → 4 ≤ c.g.depth → Traps s c o.1 (spawnDepth c.mask)) ∧
      (e.waves = 1 → c.g.depth < 4 →
        SourcesRead (if o.2.2.1 then lowCtx c else c) false [⟨a0, .value, false, false⟩, ⟨a1, .value, false, false⟩] →
        (∀ d, (getCore s d).spawnq.length + (childrenAt s c e task k a1 a0 o.2.2.1 o.2.2.2 d).length ≤ 64) →
        ∃ t v, exec o.1 s = .next t ∧ (∀ a, memByte t.mem a = memByte s.mem a) ∧
          (∀ d, (getCore t d).spawnq = (getCore s d).spawnq ++ childrenAt s c e task k a1 a0 o.2.2.1 o.2.2.2 d) ∧
          getWave t c.w = some v ∧ PathAfter c (stepPath c.path 1) v ∧ SameRegs c.wave v ∧ v.spawns = [] ∧
          v.csr = (setStatIf c.wave
            (unwMask (if o.2.2.1 then lowCtx c else c) [⟨a0, .value, false, false⟩, ⟨a1, .value, false, false⟩] != 0) 0).csr))

/-- GSUB, and its accept step while it waits, wait without a free graph slot or without arena shares, take PAGE_FAULT for a
table that does not translate and PCIE_LOST for one that the loss of the link has taken (at the instruction: log entry 12),
give 0x80000001 for a malformed image and 0x80000002 for one that can never fit, and otherwise take the lowest free slot: the
graph is live with that image, its device scratch and rings are zero, every other byte of memory stays, and D holds the slot.
(R73, R95, R103, R122, R140, R144, R358.) -/
def Obligations.GraphSubmission : Prop :=
  ∀ (s : State) (c : Ctx) (x : FE) (w : Nat) (pb : Bool) (addr d : Nat) (ktab : DWord),
    let issued := Issues s c ∧ Passes (grfOps x) (.gsub x) c ∧ c.wave.sq = [] ∧ addr = (sPair c.wave (sNum x.a)).toNat ∧
      d = sNum x.d ∧ ktab = (getPart s c.g.part).ktab
    let waiting := ctxAt s w pb = some c ∧ c.path.wait = .gsub addr d ktab
    ∀ i s1, (i = .gsub x ∧ issued ∧ s1 = releaseNow s c.w 3) ∨ (i = .gsubAccept w pb ∧ waiting ∧ s1 = s) →
      let part := c.g.part
      let shares := shareCount (getPart s part)
      (freeGraph (getPart s part) = none → ∃ t, exec i s = .next t ∧ StaysAt t c (.gsub addr d ktab)) ∧
      (∀ g, freeGraph (getPart s part) = some g →
        (∀ a, readImage s1 part c.core addr = .error a → Traps s c i (a.trap c.mask)) ∧
        (∀ raw, readImage s1 part c.core addr = .ok raw →
          (∀ a, buildImage s1 part c.core ktab raw = .bad a → Traps s c i (a.trap c.mask)) ∧
          (buildImage s1 part c.core ktab raw = .malformed → ∃ t, exec i s = .next t ∧ WentOn t c 1 [(d, 0x80000001)]) ∧
          (∀ im, buildImage s1 part c.core ktab raw = .ok im →
            (needFits shares im = false → ∃ t, exec i s = .next t ∧ WentOn t c 1 [(d, 0x80000002)]) ∧
            (needFits shares im = true → shares - sharesHeld (getPart s part) - 1 < im.ashare →
              ∃ t, exec i s = .next t ∧ StaysAt t c (.gsub addr d ktab)) ∧
            (needFits shares im = true → im.ashare ≤ shares - sharesHeld (getPart s part) - 1 →
              ∃ t gr, exec i s = .next t ∧ WentOn t c 1 [(d, BitVec.ofNat 32 g)] ∧ getGraph t part g = some gr ∧
                gr.image = im ∧ gr.phase = .live ∧ gr.live = true ∧ gr.host = false ∧
                (∀ a, locDs part g 0 ≤ a → a < locDs part (g + 1) 0 → memByte t.mem a = 0) ∧
                (∀ a, locRing part g 0 0 ≤ a → a < locRing part (g + 1) 0 0 → memByte t.mem a = 0) ∧
                (∀ a, (a < locDs part g 0 ∨ locDs part (g + 1) 0 ≤ a) → (a < locRing part g 0 0 ∨ locRing part (g + 1) 0 0 ≤ a) →
                  memByte t.mem a = memByte s.mem a)))))

/-- GABORT and GSTOP act after the retirements of tasks that ended on their core before (R157). GABORT puts a graph that runs
into teardown with event 2 and leaves any other alone; GSTOP stops a live graph with tasks in flight and empties its pass
queue, ends one with nothing in flight at once without an event, and leaves a graph that does not run alone. GQRY gives the
word that its selector names, or takes ILLEGAL_OPERAND for an illegal selector with the specifier of B as TVAL, R286's
default. Where no retirement is owed, nothing else of the wave or of memory changes. When a retirement is due is the model's
(log entry 19). (R101, R113, R114, R157, R286, R357, R359, R360.) -/
def Obligations.GraphEndsAndQueries : Prop :=
  (∀ (s : State) (c : Ctx) (x : FE), Issues s c →
     let part := c.g.part
     let g := (rdSpec c 0 x.a 0).toNat
     let s1 := beforeEvent s c
     let went (t : State) : Prop := s1 = s → t.mem = s.mem ∧ WentOn t c 1 []
     (owed s part c.core s.nextId = [] → s1 = s) ∧
     (Passes (grfOps x) (.gabort x) c →
       ∃ t, exec (.gabort x) s = .next t ∧ t.mem = s1.mem ∧ went t ∧
         (∀ gr, getGraph s1 part g = some gr → gr.live = true → gr.phase = .live ∨ gr.phase = .stopping →
           ∃ gr', getGraph t part g = some gr' ∧ gr'.phase = .teardown 2 ∧ gr'.faultMsg = endMessage s 2 g ∧ gr'.image = gr.image) ∧
         (∀ gr, getGraph s1 part g = some gr → gr.live = false ∨ (gr.phase ≠ .live ∧ gr.phase ≠ .stopping) →
           getGraph t part g = some gr)) ∧
     (Passes (grfOps x) (.gstop x) c →
       (∀ gr, getGraph s1 part g = some gr → gr.live = true → gr.phase = .live → noFlight gr = false →
         ∃ t gr', exec (.gstop x) s = .next t ∧ t.mem = s1.mem ∧ went t ∧ getGraph t part g = some gr' ∧
           gr'.phase = .stopping ∧ (∀ ps ∈ gr'.passes, ps.queued = none) ∧ gr'.image = gr.image ∧ gr'.ress = gr.ress) ∧
       (∀ gr, getGraph s1 part g = some gr → gr.live = true → gr.phase = .live → noFlight gr = true →
         ∃ t gr', exec (.gstop x) s = .next t ∧ getGraph t part g = some gr' ∧ gr'.phase = .torn ∧ gr'.live = false ∧
           gr'.image = gr.image ∧
           ((∀ e ∈ s1.waves, graphWave s1 part g e.2 = false) → (∀ e ∈ s1.orph, orphanOf part g e.2 = false) →
             (∀ p ∈ allPaths c.wave, ∀ h d, p.wait ≠ .tlwait gr.image.ctl h d) → went t)) ∧
       (∀ gr, getGraph s1 part g = some gr → gr.live = false ∨ gr.phase ≠ .live →
         ∃ t, exec (.gstop x) s = .next t ∧ t.mem = s1.mem ∧ went t ∧ getGraph t part g = some gr) ∧
       (getGraph s1 part g = none → ∃ t, exec (.gstop x) s = .next t ∧ t.mem = s1.mem ∧ went t))) ∧
  (∀ (s : State) (c : Ctx) (x : FE), Issues s c → Passes (grfOps x) (.gqry x) c →
     let sel := (rdSpec c 0 x.b x.lit).toNat
     (gqryWord (getPart s c.g.part) (rdSpec c 0 x.a 0).toNat sel = none →
       Traps s c (.gqry x) (illegalOperand x.b.toNat c.mask)) ∧
     (∀ r, gqryWord (getPart s c.g.part) (rdSpec c 0 x.a 0).toNat sel = some r →
       ∃ t, exec (.gqry x) s = .next t ∧ RegEffect s t c (grfWords x) { s := [(sNum x.d, r)] }))

/-- GHINT marks its task as hinted; GWAIT goes on when every covered tile is RETIRED and waits otherwise; TREL takes its
closing point and waits, or goes on where it has nothing to close. The closure makes the task's tiles RETIRED, or FREED with
no reader left, and the task closed; it waits for stores that issued before the closing point and are still to enter a store
queue, and for the retirements of its core. What else it waits for is the model's reading (log entry 19). (R156, R157, R181,
R182, R361.) -/
def Obligations.HintsWaitsAndTileReleases : Prop :=
  (∀ (s : State) (c : Ctx) (x : FE) (g p k : Nat), Issues s c → rootTask c.g.kind = some (g, p, k) →
     (∃ t, exec (.ghint x) s = .next t ∧ t.mem = s.mem ∧ WentOn t c 1 [] ∧
       (∀ gr tk, getGraph s c.g.part g = some gr → writesNothing gr p = false → taskOf gr p k = some tk → tk.closing = false →
         tk.closed = false → ∃ gr' tk', getGraph t c.g.part g = some gr' ∧ taskOf gr' p k = some tk' ∧ tk' = { tk with hinted := true })) ∧
     (waitOver s c.g = true → ∃ t, exec (.gwait x) s = .next t ∧ t.mem = s.mem ∧ WentOn t c 1 []) ∧
     (waitOver s c.g = false → ∃ t, exec (.gwait x) s = .next t ∧ Held s t c .gwait)) ∧
  (∀ (s : State) (c : Ctx) (x : FE) (g p k : Nat) (gr : Graph), rootTask c.g.kind = some (g, p, k) →
     getGraph s c.g.part g = some gr →
     (Issues s c → writesNothing gr p = false → ∀ tk, taskOf gr p k = some tk → tk.closing = false → tk.closed = false →
       ∃ t gr' tk', exec (.trel x) s = .next t ∧ t.mem = s.mem ∧ StaysAt t c .trel ∧ getGraph t c.g.part g = some gr' ∧
         taskOf gr' p k = some tk' ∧ tk' = { tk with closing := true, closeAt := s.seq }) ∧
     (Issues s c → c.wave.sq = [] → writesNothing gr p = true ∨ taskOf gr p k = none ∨
         (∃ tk, taskOf gr p k = some tk ∧ (tk.closing = true ∨ tk.closed = true)) →
       ∃ t, exec (.trel x) s = .next t ∧ t.mem = s.mem ∧ WentOn t c 1 []) ∧
     (∀ w pb, ctxAt s w pb = some c → c.path.wait = .trel →
       closeAhead s c g p k = true ∨ owed s c.g.part c.core s.nextId ≠ [] ∨ (gr.phase ≠ .live ∧ gr.phase ≠ .stopping) →
       exec (.tileClosure w pb) s = .next s) ∧
     (∀ w pb, ctxAt s w pb = some c → c.path.wait = .trel → gr.phase = .live ∨ gr.phase = .stopping →
       closeAhead s c g p k = false → owed s c.g.part c.core s.nextId = [] →
       ∃ t gr', exec (.tileClosure w pb) s = .next t ∧ getGraph t c.g.part g = some gr' ∧
         (∀ e r i, gr.image.passes[p]? = some e → r ∈ e.writes → i = k → ∀ u, tileOf gr r i = some u → u.st = .writing →
           ∃ u', tileOf gr' r i = some u' ∧ u'.st = (if u.count = 0 then .freed else .retired)) ∧
         (∀ tk, taskOf gr p k = some tk → ∃ tk', taskOf gr' p k = some tk' ∧ tk'.closed = true)))

/-- TLSIG raises a timeline to its value, TLSET sets it; every waiter whose threshold it reaches receives 0 and goes on, and
no other waiter moves. TLRD reads the timeline; TLWAIT goes on with 0 when the threshold is reached and waits otherwise. No
other timeline and no byte of memory changes. (R160, R161, R180, R362.) -/
def Obligations.Timelines : Prop :=
  (∀ (s : State) (c : Ctx) (x : FE), InOrder s → Issues s c → c.wave.sq = [] →
     ∀ o ∈ [((Instr.tlsig x), true), ((Instr.tlset x), false)], Passes (grfOps x) o.1 c →
       let old := tlGet (getPart s c.g.part) (timelineOf c x)
       let new : DWord := if o.2 && decide ((pairOf c x).toNat < old.toNat) then old else pairOf c x
       ∃ t, exec o.1 s = .next t ∧ (∀ a, memByte t.mem a = memByte s.mem a) ∧
         ((∀ p ∈ allPaths c.wave, ∀ h d, p.wait ≠ .tlwait (timelineOf c x) h d) → WentOn t c (grfWords x) []) ∧
         tlGet (getPart t c.g.part) (timelineOf c x) = new ∧
         (∀ n, n ≠ timelineOf c x → tlGet (getPart t c.g.part) n = tlGet (getPart s c.g.part) n) ∧
         (∀ u v d h, u ≠ c.w → getWave s u = some v → v.stack = [] → v.halted = false → v.frozen = false →
           v.base.wait = .tlwait (timelineOf c x) h d → (getWg s v.wg).map (·.part) = some c.g.part →
           (h.toNat ≤ new.toNat → ∃ v', getWave t u = some v' ∧ sReg v' d = 0 ∧ v'.base.wait = .ready) ∧
           (new.toNat < h.toNat → ∃ v', getWave t u = some v' ∧ v'.base = v.base ∧ v'.s = v.s))) ∧
  (∀ (s : State) (c : Ctx) (x : FE), Issues s c →
     let v := tlGet (getPart s c.g.part) (timelineOf c x)
     (Passes (grfOps x) (.tlrd x) c →
       ∃ t, exec (.tlrd x) s = .next t ∧ t.mem = s.mem ∧ WentOn t c (grfWords x) [(sNum x.d + 1, hiWord v), (sNum x.d, loWord v)]) ∧
     (Passes (grfOps x) (.tlwait x) c →
       ((pairOf c x).toNat ≤ v.toNat →
         ∃ t, exec (.tlwait x) s = .next t ∧ t.mem = s.mem ∧ WentOn t c (grfWords x) [(sNum x.d, 0)]) ∧
       (v.toNat < (pairOf c x).toNat →
         ∃ t, exec (.tlwait x) s = .next t ∧ Held s t c (.tlwait (timelineOf c x) (pairOf c x) (sNum x.d)))))

/-- MBRECV takes the oldest entry of its mailbox into 64 scratch bytes and gives the number left, or waits. MBSEND and
DBGSEND append their message or word and go on, or wait while the queue is full, and the vector of each bound VF fires when
the queue was empty. No other mailbox changes, and MBRECV changes no other byte of memory. (R98, R99, R102, R363, R364,
R378.) -/
def Obligations.MailAndDebug : Prop :=
  (∀ (s : State) (c : Ctx) (x : FE) (w : Nat) (pb : Bool) (mb off d n : Nat) (i : Instr), c.wave.sq = [] →
     winAt c off + 64 ≤ locNone →
     (i = .mbrecv x ∧ Issues s c ∧ Passes (grfOps x) (.mbrecv x) c ∧ mb = (rdSpec c 0 x.b x.lit).toNat ∧
         off = (rdSpec c 0 x.a 0).toNat ∧ d = sNum x.d ∧ n = grfWords x) ∨
       (i = .mbrecvDequeue w pb ∧ ctxAt s w pb = some c ∧ c.path.wait = .mbrecv mb off d ∧ n = wordsAt c.path) →
     (tabGet [] (getPart s c.g.part).mbox mb = [] →
       ∃ t, exec i s = .next t ∧ StaysAt t c (.mbrecv mb off d) ∧ t.mem = s.mem) ∧
     (∀ m more, tabGet [] (getPart s c.g.part).mbox mb = m :: more → m.length = 64 →
       ∃ t, exec i s = .next t ∧ WentOn t c n [(d, BitVec.ofNat 32 more.length)] ∧
         tabGet [] (getPart t c.g.part).mbox mb = more ∧
         (∀ k, k ≠ mb → tabGet [] (getPart t c.g.part).mbox k = tabGet [] (getPart s c.g.part).mbox k) ∧
         (∀ k, k < 64 → some (memByte t.mem (winAt c off + k)) = m[k]?) ∧
         (∀ a, a < winAt c off ∨ winAt c off + 64 ≤ a → memByte t.mem a = memByte s.mem a))) ∧
  (∀ (s s1 : State) (c : Ctx) (x : FE) (w : Nat) (pb : Bool) (mb off n : Nat) (i : Instr),
     (i = .mbsend x ∧ Issues s c ∧ c.wave.sq = [] ∧ Passes (grfOps x) (.mbsend x) c ∧ mb = (rdSpec c 0 x.b x.lit).toNat ∧
         off = (rdSpec c 0 x.a 0).toNat ∧ n = grfWords x ∧ s1 = releaseNow s c.w 4) ∨
       (i = .mbsendEnqueue w pb ∧ ctxAt s w pb = some c ∧ c.path.wait = .mbsend mb off ∧ n = wordsAt c.path ∧ s1 = s) →
     ((tabGet [] (getPart s c.g.part).mbox mb).length = 64 → ∃ t, exec i s = .next t ∧ StaysAt t c (.mbsend mb off)) ∧
     ((tabGet [] (getPart s c.g.part).mbox mb).length < 64 →
       ∃ t, exec i s = .next t ∧ WentOn t c n [] ∧
         tabGet [] (getPart t c.g.part).mbox mb = tabGet [] (getPart s c.g.part).mbox mb ++
           [bytesAt s1 c.core 0 (winAt c off) 64] ∧
         (∀ k, k ≠ mb → tabGet [] (getPart t c.g.part).mbox k = tabGet [] (getPart s c.g.part).mbox k) ∧
         t.dev.msix = s.dev.msix ++ (if tabGet [] (getPart s c.g.part).mbox mb = [] then
           (boundVfs (getPart s c.g.part)).map (fun v => (v + 1, mb - 12)) else []))) ∧
  (∀ (s : State) (c : Ctx) (x : FE) (w : Nat) (pb : Bool) (d : Word) (i : Instr),
     (i = .dbgsend x ∧ Issues s c ∧ c.wave.sq = [] ∧ Passes (grfOps x) (.dbgsend x) c ∧ d = rdSpec c 0 x.a 0) ∨
       (i = .dbgsendAppend w pb ∧ ctxAt s w pb = some c ∧ c.path.wait = .dbgsend d) →
     (64 ≤ (getPart s c.g.part).dbg.length → ∃ t, exec i s = .next t ∧ StaysAt t c (.dbgsend d)) ∧
     ((getPart s c.g.part).dbg.length < 64 →
       ∃ t, exec i s = .next t ∧ WentOn t c 1 [] ∧ (getPart t c.g.part).dbg = (getPart s c.g.part).dbg ++ [d] ∧
         t.dev.msix = s.dev.msix ++ (if (getPart s c.g.part).dbg = [] then
           (boundVfs (getPart s c.g.part)).map (fun v => (v + 1, 3)) else [])))

/-! Events. -/

/-- A sleep ends when its cycle has come and not before. ICINV ends with the instruction caches of its scope empty, which is
how the model drops the lines fetched before (log entry 44, DEDUCED), and every other as it was; an invalidation that a
freeze has left running ends the same way without a path. A waiting spawn enters its blocks in order, each where its queue
has room for all of it, up to the first that has none, where it waits on, and goes on after the last. (R44, R116, R285, R298,
R299.) -/
def Obligations.WaitingInstructionsEnd : Prop :=
  ∀ (w : Nat) (pb : Bool) (s : State) (c : Ctx), ctxAt s w pb = some c →
    (∀ n, c.path.wait = .sleep n →
      (s.dev.cycle < n → exec (.wsleepExpiry w pb) s = .next s) ∧
      (n ≤ s.dev.cycle → ∃ t, exec (.wsleepExpiry w pb) s = .next t ∧ OnlyWave s t w ∧ WentOn t c 1 [])) ∧
    (∀ k, c.path.wait = .icinv k →
      ∃ t, exec (.icinvComplete w pb) s = .next t ∧ WentOn t c 1 [] ∧ t.mem = s.mem ∧
        (∀ u, u ≠ w → getWave t u = getWave s u) ∧
        (∀ d, d < 256 →
          (d = c.core ∨ (coreInPart (getPart s c.g.part) d = true ∧ IcinvCovers k c.core d) →
            getCore t d = { getCore s d with icache := [] }) ∧
          (d ≠ c.core → coreInPart (getPart s c.g.part) d = false ∨ ¬IcinvCovers k c.core d → getCore t d = getCore s d))) ∧
    (∀ part sc more, (∀ k, c.path.wait ≠ .icinv k) → (getCore s c.core).icinv = (part, sc) :: more →
      ∃ t, exec (.icinvComplete w pb) s = .next t ∧ t.waves = s.waves ∧ t.mem = s.mem ∧ (getCore t c.core).icinv = more ∧
        (c.core < 256 → (getCore t c.core).icache = []) ∧
        (∀ d, d < 256 → d ≠ c.core →
          (coreInPart (getPart s part) d = true → IcinvCovers sc c.core d → (getCore t d).icache = []) ∧
          (coreInPart (getPart s part) d = false ∨ ¬IcinvCovers sc c.core d → getCore t d = getCore s d))) ∧
    (∀ e pre post, c.path.wait = .spawn → c.wave.spawns.find? (fun x => x.depth = c.wave.stack.length) = some e →
      isSpawnOf c e = true → e.left = pre ++ post → (pre.map (·.1)).Nodup →
      (∀ b ∈ pre, (getCore s b.1).spawnq.length + b.2.length ≤ 64) →
      (∀ b, post.head? = some b → b.1 ∉ pre.map (·.1) ∧ 64 < (getCore s b.1).spawnq.length + b.2.length) →
      ∃ t v, exec (.spawnEnqueue w pb) s = .next t ∧ t.mem = s.mem ∧ getWave t w = some v ∧
        (∀ b ∈ pre, (getCore t b.1).spawnq = (getCore s b.1).spawnq ++ b.2) ∧
        (∀ k, k ∉ pre.map (·.1) → (getCore t k).spawnq = (getCore s k).spawnq) ∧
        (post ≠ [] → StaysAt t c .spawn ∧
          v.spawns = { e with left := post } :: c.wave.spawns.filter (fun x => !isSpawnOf c x)) ∧
        (post = [] → WentOn t c 1 [] ∧ v.spawns = c.wave.spawns.filter (fun x => !isSpawnOf c x)))

/-- At the start of a clause the header and the words that it counts are read from the translated addresses; a page that
cannot be fetched takes PAGE_FAULT, poison in its words or page tables ECC (log entry 28), a bad clause ILLEGAL_CLAUSE;
otherwise the path holds the clause and stands behind its header, or waits for the header's counters, and goes on when they
are met. Registers and memory stay. (R96, R97, R206, R209, R210, R213.) -/
def Obligations.ClausesAreFetched : Prop :=
  ∀ (s : State) (c : Ctx), Issues s c →
    (AtClause c → ∀ a, fetchClause s c.g.part c.core c.path.pc = .error a →
      exec .clauseFetch s = .next (takeTrap s c.w c.pb (pageFault a 3 c.mask) c.path.pc)) ∧
    (AtClause c → ∀ h ws, fetchClause s c.g.part c.core c.path.pc = .ok (h, ws) →
      let bad := codePoison s c.g.part c.core c.path.pc (ws.length + 1)
      ws.length = headCount h ∧ (s.dev.serr = [] → bad = none) ∧
      (s.choice.oldCode = 0 → ∀ i, i ≤ ws.length → ∃ l, translate s c.g.part c.core 3 (c.path.pc + 4 * i) = .ok l ∧
        (h :: ws)[i]? = some (codeWord s c.core l)) ∧
      (∀ st a, bad = some (st, a) →
        exec .clauseFetch s = .next (takeTrap s c.w c.pb (eccTrap st a c.mask) c.path.pc)) ∧
      (∀ i, bad = none → clauseBad h ws = some i →
        exec .clauseFetch s = .next (takeTrap s c.w c.pb (illegalClause (h.toNat + i * 2 ^ 32) c.mask) c.path.pc)) ∧
      (bad = none → clauseBad h ws = none →
        ∃ t v, exec .clauseFetch s = .next t ∧ FetchFrame s t c ∧ getWave t c.w = some v ∧ SameRegs c.wave v ∧
          v.csr = c.wave.csr ∧
          (waitsMet c.wave (headCpy h) (headMtx h) (headGth h) (headDsh h) = true →
            PathWaits c { c.path with code := some ⟨c.path.pc, h, ws⟩, pc := c.path.pc + 4 } v) ∧
          (waitsMet c.wave (headCpy h) (headMtx h) (headGth h) (headDsh h) = false →
            PathWaits c { c.path with code := some ⟨c.path.pc, h, ws⟩, wait := headerWaits h } v))) ∧
    (∀ a b d e, c.path.wait = .counters true a b d e →
      (waitsMet c.wave a b d e = false → exec .clauseFetch s = .next s) ∧
      (waitsMet c.wave a b d e = true →
        ∃ t v, exec .clauseFetch s = .next t ∧ OnlyWave s t c.w ∧ getWave t c.w = some v ∧ SameRegs c.wave v ∧
          PathWaits c { c.path with pc := c.path.pc + 4, wait := .ready, resume := none } v))

/-- At a boundary outside trap mode the first pending event is taken, in the order completion faults, WATCH, STEP, save trap;
the others stay, except STEP, which is dropped. The save trap waits until the outstanding counters are zero. In trap mode,
for a halted, frozen or ended wave, for one that is asked to freeze, away from a boundary, or with nothing pending, nothing
happens. TFMASK of STEP and of the save trap is 0 by the model's choice (log entry 50). (R67, R287, R292, R46, R153, R381.)
-/
def Obligations.PendingTrapsAreTaken : Prop :=
  ∀ (s : State) (v : Wave) (g : Wg), getWave s s.cur = some v → getWg s v.wg = some g →
    (wTrap v = true ∨ v.halted = true ∨ v.frozen = true ∨ v.freezing = true ∨ atBoundary v = false ∨ liveMask v = 0 →
      exec .pendingTrap s = .next s) ∧
    (wTrap v = false → v.halted = false → v.frozen = false → v.freezing = false → atBoundary v = true → liveMask v ≠ 0 →
      (v.faults = [] → v.watch = none → v.step = none → v.save = false ∨ countersZero v = false →
        exec .pendingTrap s = .next s) ∧
      (∀ p pb pc, FirstPending v p pb → (v.faults = [] → v.watch = none → v.step = none → countersZero v = true) →
        vectorEntry s s.cur g.part v p.cls = some pc →
        ∃ t u, exec .pendingTrap s = .next t ∧ getWave t s.cur = some u ∧ u.csr = trapCsrs v pb p (nextPc v pb) ∧
          SameRegs v u ∧ u.stack = [] ∧ u.base.pc = pc ∧ activeMask u u.base = liveMask v ∧ u.step = none ∧
          u.faults = v.faults.tail ∧ u.watch = (if v.faults = [] then none else v.watch) ∧
          (v.faults ≠ [] ∨ v.watch.isSome = true ∨ v.step.isSome = true → u.save = v.save) ∧
          (∀ a, memByte t.mem a = memByte s.mem a) ∧ ∀ x, x ≠ s.cur → getWave t x = getWave s x))

/-- An open collection closes once one of its waves has been parked for 256 cycles, and not before. Repacking a closed
collection whose counters are zero sorts its threads by key, stably, and deals them to its waves in ascending wave number:
each thread keeps its registers, a wave takes s registers and CSRs from the wave of its first thread, goes on after the
REORD, and a wave without a thread ends. Nothing happens while a participant is asked to freeze (R43). (R33, R34, R35, R43,
R367.) -/
def Obligations.ThreadsAreReordered : Prop :=
  ∀ (wg i : Nat) (s : State),
    (∀ v, getWave s i = some v → i ∈ (openAt s wg v.base.pc).map (·.1) →
      ((∀ e ∈ openAt s wg v.base.pc, s.dev.cycle < e.2.parkedAt + 256) → exec (.reordTimeout wg i) s = .next s) ∧
      ((∃ e ∈ openAt s wg v.base.pc, e.2.parkedAt + 256 ≤ s.dev.cycle) → InOrder s →
        ∃ t, exec (.reordTimeout wg i) s = .next t ∧ t.mem = s.mem ∧
          (∀ e ∈ openAt s wg v.base.pc, ∃ u, getWave t e.1 = some u ∧ setOf u = some s.nextId ∧ SameRegs e.2 u) ∧
          ∀ x, x ∉ (openAt s wg v.base.pc).map (·.1) → getWave t x = getWave s x)) ∧
    (∀ p l, p = collection s wg i → l = movers s p →
      l.Pairwise (fun a b => a.key ≤ b.key) ∧
      (∀ k, l.filter (fun m => m.key = k) = (threadsHeld s p).filter (fun m => m.key = k)) ∧
      ((p = [] ∨ ∃ e ∈ p, countersZero e.2 = false ∨ e.2.freezing = true) → exec (.reordRepack wg i) s = .next s) ∧
      (p ≠ [] → (∀ e ∈ p, countersZero e.2 = true ∧ e.2.freezing = false) → InOrder s →
        ∀ width, (∀ e ∈ p, e.2.threads.length = width) →
          ∃ t, exec (.reordRepack wg i) s = .next t ∧ (∀ a, memByte t.mem a = memByte s.mem a) ∧
            ∀ (n w : Nat) (v : Wave), p[n]? = some (w, v) →
              (l.length ≤ n * width → getWave t w = none) ∧
              (n * width < l.length →
                ∃ u, getWave t w = some u ∧ u.base.pc = v.base.pc + 4 ∧ u.base.wait = .ready ∧
                  (∀ q, q < width → ∀ m, l[n * width + q]? = some m → threadAt u q = some m.t) ∧
                  (∀ q, q < width → l[n * width + q]? = none → (threadAt u q).map (·.live) = some false) ∧
                  (∀ m src, l[n * width]? = some m → (m.src, src) ∈ p →
                    u.s = src.s ∧ u.hfOpen = src.hfOpen ∧ u.csr = movedCsrs v.csr src.csr u.csr.resmask) ∧
                  (∀ q, q < width → q < 64 → u.csr.resmask.getLsbD q = ((l[n * width + q]?).map (·.res)).getD false))))

/-- What fits is as many free slots of the core as waves and scratch granules that no other workgroup holds. The head of a
spawn queue, and the task that R108 and R109 choose, are placed with waves at ENTRY, registers unwritten or 0, table CSRs of
the kernel entry, zero scratch and tiles; a task's tiles become WRITING with their storage. Nothing else happens where
nothing fits, and no child is placed while the pacer is evicted. (R21, R39, R40, R41, R47, R62, R105, R106, R111, R135,
R156.) -/
def Obligations.WorkgroupsArePlaced : Prop :=
  (∀ (s : State) (part core : Nat) (e : KEnt) (pacer : Bool) (slots : List Nat) (scr : Nat),
    fits s part core e pacer = some (slots, scr) →
      slots.Nodup ∧ slots.length = e.waves ∧ scr + e.scratch ≤ 48 ∧
      (∀ w ∈ slots, getWave s w = none ∧ coreOf w = core) ∧
      (∀ x ∈ wgsOn s core, x.2.ent.scratch = 0 ∨ e.scratch = 0 ∨ scr + e.scratch ≤ x.2.scr ∨ x.2.scr + x.2.ent.scratch ≤ scr) ∧
      (e.dash = true → (getDash s (clusterOf core)).holder = none)) ∧
  (∀ (core : Nat) (s : State),
    (childFit s core = none → exec (.childPlace core) s = .next s) ∧
    (∀ ch, (getCore s core).spawnq.head? = some ch → pacerEvicted (getPart s ch.part) = true →
      exec (.childPlace core) s = .next s) ∧
    (∀ ch k slots scr, childFit s core = some (ch, k, slots, scr) →
      ∃ t, exec (.childPlace core) s = .next t ∧
        PlacedWg s t ch.part k (.child ch.g ch.p ch.k) ch.ent slots scr ∧
        (getCore t core).spawnq = (getCore s core).spawnq.tail ∧ (getCore s core).spawnq.head? = some ch ∧
        ∃ x, getWg t s.nextId = some x ∧ x.arg0 = ch.arg0 ∧ x.arg1 = ch.arg1 ∧ x.depth = ch.depth ∧ x.tilex = ch.tilex ∧
          x.tiley = ch.tiley ∧ x.home = core)) ∧
  (∀ (part : Nat) (s : State), (getPart s part).evicted = [] →
    (places (getPart s part) = false ∨ choose s part (candidates s part) true [] = none →
      exec (.workgroupPlace part) s = .next s) ∧
    (∀ g p k core slots scr gr e, places (getPart s part) = true →
      choose s part (candidates s part) true [] = some (g, p, core, slots, scr) → getGraph s part g = some gr →
      nextTask gr p = some k → gr.image.passes[p]? = some e → e.writes.Nodup →
      ∃ t gr', exec (.workgroupPlace part) s = .next t ∧ PlacedWg s t part core (.task g p k) e.ent slots scr ∧
        getGraph t part g = some gr' ∧ (∃ tk, taskOf gr' p k = some tk ∧ tk.st = .placed s.nextId) ∧
        (∃ x, getWg t s.nextId = some x ∧ x.tilex = k % e.gw ∧ x.tiley = k / e.gw ∧ x.depth = 0) ∧
        ∀ r ∈ e.writes, ∀ u, tileOf gr r k = some u → ∃ u', tileOf gr' r k = some u' ∧ u'.st = .writing ∧ u'.store = resStore gr r))

/-- A task retires only when nothing of it runs (for an EARLY pass, with its covered tiles RETIRED) and no task of its core
that may retire ended before it. In the graph that the event leaves the task has retired, and every tile is as R107 leaves
it: a WRITING tile of its own RETIRED(n) or FREED, each covered tile one reader less, every other tile as before, but for
tiles that the placement round has granted to tasks placed in it. With no evicted workgroup to resume, a live graph whose
passes are all done is COMPLETED, its slot free and its timeline signalled with the larger of CVAL and its value; one with
passes left stays live and no timeline changes; a stopping graph ends when nothing is in flight. A queued pass takes the
level that its time in the queue gives. In a teardown that a pass fault began, a retirement owed from before it leaves the
phase, and the slot and the timelines while some task is in flight and a pass is not done. PWRBUD takes the value of R164
once for each multiple of 10 us after the partition's creation. (R103, R107, R108, R155, R156, R157, R162, R164, R365.) -/
def Obligations.TasksRetire : Prop :=
  (∀ (part g p k : Nat) (s : State) (gr : Graph), getGraph s part g = some gr →
    (mayRetire s part g p k gr = false ∨ retireTurn s part g p k = false ∨
        (gr.phase ≠ .live ∧ gr.phase ≠ .stopping ∧ gr.tearAt = none) →
      exec (.taskRetire part g p k) s = .next s) ∧
    (∀ e, gr.image.passes[p]? = some e → mayRetire s part g p k gr = true → retireTurn s part g p k = true →
      ∃ t gr' tk, exec (.taskRetire part g p k) s = .next t ∧ getGraph t part g = some gr' ∧ taskOf gr' p k = some tk ∧
        tk.st = .retired ∧ gr'.image = gr.image ∧
        (∀ r i u, tileOf gr r i = some u → ∃ u', tileOf gr' r i = some u' ∧
          (u' = tileAfter gr p k r i u ∨ (u'.st = .writing ∧ NewlyPlaced gr gr' r i))) ∧
        ((getPart s part).evicted = [] →
        (gr.phase = .live → donePasses gr' = gr.image.passes.length →
          gr'.phase = .completed ∧ gr'.live = false ∧
          tlGet (getPart t part) gr.image.ctl = maxU (tlGet (getPart s part) gr.image.ctl) gr.image.cval) ∧
        (gr.phase = .live → donePasses gr' ≠ gr.image.passes.length →
          gr'.phase = .live ∧ gr'.live = gr.live ∧ ∀ x, tlGet (getPart t part) x = tlGet (getPart s part) x) ∧
        (gr.phase = .stopping → gr'.phase = (if noFlight gr' then .torn else .stopping)) ∧
        (∀ n, gr.phase = .teardown n → gr'.phase = gr.phase ∧
          (donePasses gr' ≠ gr.image.passes.length → noFlight gr' = false → gr'.live = gr.live ∧
            ∀ x, tlGet (getPart t part) x = tlGet (getPart s part) x))))) ∧
  (∀ (part g p : Nat) (s : State) (gr : Graph) (ps : PassSt), getGraph s part g = some gr → gr.passes[p]? = some ps →
    ∃ t gr' ps', exec (.passAgeing part g p) s = .next t ∧ Untouched s t ∧ getGraph t part g = some gr' ∧
      gr'.passes[p]? = some ps' ∧ ps'.queued = ps.queued ∧
      (ps.queued = none ∨ (getPart s part).state = .evicted → ps' = ps) ∧
      (∀ q, ps.queued = some q → (getPart s part).state ≠ .evicted →
        ps' = { ps with level := Nat.min 7 (prioOf gr p + (s.dev.time - q) / us50) })) ∧
  (∀ (part : Nat) (s : State),
    ((getPart s part).state = .free ∨ (getPart s part).budgetAt = s.dev.time / us10 →
      exec (.pwrbudRefresh part) s = .next s) ∧
    ((getPart s part).state ≠ .free → (getPart s part).budgetAt ≠ s.dev.time / us10 →
      let a := (getPart s part).allot.toNat % 1024
      let p := Config.sensorPower part (s.dev.time / us10)
      ∃ t, exec (.pwrbudRefresh part) s = .next t ∧ Untouched s t ∧
        getPart t part = { getPart s part with
          budgetAt := s.dev.time / us10
          pwrbud := BitVec.ofNat 4 (if p < a then Nat.min 15 (16 * (a - p) / a) else 0) }))

/-- Teardown asks the graph's waves to freeze and removes its children; once they stand still, and no retirement of R157 is
owed, they end, the reservation returns and the event waits; the oldest waiting message enters mailbox 15 when there is room,
and an event of a graph frees its slot. Other waves and partitions stay. (R101, R103, R113, R114, R157, R319.) -/
def Obligations.GraphsAreTornDown : Prop :=
  (∀ (part g : Nat) (s : State) (gr : Graph), getGraph s part g = some gr →
    ((∀ k, gr.phase ≠ .teardown k) → exec (.graphTeardown part g) s = .next s) ∧
    (∀ k, gr.phase = .teardown k →
      (allStill s (graphWave s part g) = false ∨ tearOwed (freezeGraph s part g) part gr = true → InOrder s →
        ∃ t, exec (.graphTeardown part g) s = .next t ∧ t.mem = s.mem ∧ t.parts = s.parts ∧
          (∀ w v, getWave s w = some v → getWave t w =
            some (if graphWave s part g v then { v with freezing := true } else v)) ∧
          (∀ c, (getCore t c).spawnq = (getCore s c).spawnq.filter (fun ch => !(ch.part = part && ch.g = g)))) ∧
      (allStill s (graphWave s part g) = true → tearOwed (freezeGraph s part g) part gr = false →
        ∃ t gr', exec (.graphTeardown part g) s = .next t ∧ getGraph t part g = some gr' ∧ gr'.phase = .torn ∧
          gr'.live = (!gr.faultMsg.isEmpty) ∧
          (getPart t part).events = (getPart s part).events ++ (if gr.faultMsg = [] then [] else [(.graph g, gr.faultMsg)]) ∧
          ∀ w v, getWave s w = some v → graphWave s part g v = true → getWave t w = none))) ∧
  (∀ (part : Nat) (s : State),
    ((getPart s part).events = [] ∨ 64 ≤ (tabGet [] (getPart s part).mbox 15).length →
      exec (.eventEnqueue part) s = .next s) ∧
    (∀ e m more, (getPart s part).events = (e, m) :: more → (tabGet [] (getPart s part).mbox 15).length < 64 →
      ∃ t, exec (.eventEnqueue part) s = .next t ∧ Untouched s t ∧ (getPart t part).events = more ∧
        tabGet [] (getPart t part).mbox 15 = tabGet [] (getPart s part).mbox 15 ++ [m] ∧
        (∀ g gr, getGraph s part g = some gr → getGraph t part g = some (if e = .graph g then { gr with live := false } else gr))))

/-- A wave asked to freeze does so unless one of its atomics is half done, with its traces set aside, its paths before what
they waited in and no filling Baton tile left on its core; with nothing in the store queues, or no such tile, its registers,
other waves and memory stay as they were. Once the partition's waves are frozen and its counters zero the save trap is due,
and threads that hold their miss-status entries replay first. ERET from the save handler evicts the wave with its registers
and trap CSRs; that it stalls until its own engine work is done, and the further details of the save phase, are the model's
reading (log entry 24, DEDUCED). ERET from the restore handler resumes the saved paths at TEPC, and stalls while a TRACE that
it issues again would; the first of a workgroup that held the Dash array takes the grant, with W, the outputs, the winners,
the launch's mode and window, the replay list, LOADED and MAX as they were saved. That the others find it done is the model's
reading (log entry 23). (R43, R45, R46, R47, R119, R286, R293, R324, R337, R356.) -/
def Obligations.WavesFreezeAndAreEvicted : Prop :=
  (∀ (w : Nat) (s : State) (v : Wave) (g : Wg), getWave s w = some v → getWg s v.wg = some g →
    (v.freezing = false ∨ v.halted = true ∨ liveMask v = 0 → exec (.waveFreeze w) s = .next s) ∧
    (v.freezing = true → v.halted = false → liveMask v ≠ 0 → v.frozen = false →
      (canFreeze v = false → exec (.waveFreeze w) s = .next s) ∧
      (canFreeze v = true →
        ∃ t u, exec (.waveFreeze w) s = .next t ∧ getWave t w = some u ∧ u.frozen = true ∧
          (∀ o ∈ t.ops, o.wave = w → isTrace o = false) ∧ (∀ b ∈ t.btiles, b.core = coreOf w → b.dispatched = true) ∧
          (NothingQueued s ∨ (∀ b ∈ s.btiles, b.core = coreOf w → b.dispatched = true) →
            t.mem = s.mem ∧ SameRegs v u ∧ u.csr = v.csr ∧ allPaths u = (allPaths v).map unwait ∧
            u.abandoned = v.abandoned ++ s.ops.filter (fun o => o.wave = w && isTrace o) ∧
            ∀ x, x ≠ w → getWave t x = getWave s x))) ∧
    (v.freezing = true → v.halted = false → liveMask v ≠ 0 → v.frozen = true → tearing s g.part g.kind = false →
      (getPart s g.part).state = .preempting → countersZero v = true → allFrozen s g.part = true →
      ∃ t, exec (.waveFreeze w) s = .next t ∧
        t = replayHead (setWave s w { v with frozen := false, freezing := false, save := true }) (coreOf w) ∧
        ((getCore s (coreOf w)).mwait = [] →
          t = setWave s w { v with frozen := false, freezing := false, save := true }))) ∧
  (∀ (s : State) (c : Ctx) (sv : Saved), Issues s c → wTrap c.wave = true → c.wave.stack = [] →
    c.wave.saved = some sv → sv.code = 0x15 → (∀ p ∈ c.wave.faults, p.handler = false) →
    (sv.restore = false → countersZero c.wave = false → ∃ t, exec .eret s = .next t ∧ Held s t c .stall) ∧
    (sv.restore = false → countersZero c.wave = true → c.wave.sq = [] →
      ∃ t e v, exec .eret s = .next t ∧ getWave t c.w = none ∧ e ∈ (getPart t c.g.part).evicted ∧ e.id = c.wave.wg ∧
        (c.w, v) ∈ e.waves ∧ SameRegs c.wave v ∧ v.csr = c.wave.csr ∧ v.saved = some sv ∧
        ∀ a, memByte t.mem a = memByte s.mem a) ∧
    (∀ o more, sv.restore = true → c.wave.dashSave = none → c.wave.abandoned = o :: more → reissueStalls s c o = true →
      ∃ t, exec .eret s = .next t ∧ Held s t c .stall) ∧
    (∀ old, sv.restore = true → c.wave.dashSave = some old → c.wave.sq = [] →
      ∃ t, exec .eret s = .next t ∧
        (let d := getDash t (clusterOf c.core)
         d.holder = some c.wave.wg ∧ d.reserved = false ∧ d.w = old.w ∧ d.out = old.out ∧ d.win = old.win ∧ d.maxMode = old.maxMode ∧
           d.lwin = old.lwin ∧ d.replay = old.replay ∧ d.loaded = old.loaded ∧ d.max = old.max ∧
           (old.replay = [] → ∀ r j, dashCell d r j = never)) ∧
        ∀ w ∈ c.g.slots, ∀ v, getWave t w = some v → v.dashSave = none) ∧
    (sv.restore = true → c.wave.dashSave = none → c.wave.abandoned = [] →
      ∃ t v, exec .eret s = .next t ∧ OnlyWave s t c.w ∧ getWave t c.w = some v ∧ SameRegs c.wave v ∧ v.saved = none ∧
        v.span = false ∧ v.csr = { c.wave.csr with wctl := c.wave.csr.wctl &&& ~~~16#64 } ∧
        v.faults = c.wave.drainFaults ++ c.wave.faults ∧ v.stack.length = sv.stack.length ∧
        (sv.stack = [] → v.base.mask = sv.base.mask ∧ v.base.pc = c.wave.csr.tepc.toNat)))

/-- CREATE clears the partition's scratchpads and GDDR7 shares and leaves it with no pacer, or reports as ERR the first check
of R373 that fails; START PACER places the pacer; PREEMPT asks every wave to freeze; RESUME runs an evicted partition again,
in STATE 2 when its pacer has ended or halted; DESTROY and RESET end a partition whose waves stand still. Each gives ERR 1 in
another state. That a command acts only with the link up, the firmware in STATE 1 and no destruction of the partition under
way is the model's reading (log entry 5, DEDUCED). (R99, R164, R372, R373, R374, R375.) -/
def Obligations.PartitionCommands : Prop :=
  ∀ (n : Nat) (s : State),
    (¬Commanded s n → ∀ i ∈ [Instr.pcmdCreate n, .pcmdStartPacer n, .pcmdPreempt n, .pcmdResume n], exec i s = .next s) ∧
    (Commanded s n →
      (∀ e, createErr s n = some e → ∃ t, exec (.pcmdCreate n) s = .next t ∧ Refused s t n e) ∧
      (createErr s n = none →
        ∃ t, exec (.pcmdCreate n) s = .next t ∧ t.waves = s.waves ∧
          getPart t n = { bareBlock (getPart s n) with
            state := .noPacer, pacerGone := true, budgetAt := s.dev.time / us10 } ∧
          (∀ m, m ≠ n → getPart t m = getPart s m) ∧ t.dev.msix = s.dev.msix ++ [(0, 3)] ∧
          (∀ a, (getPart s n).gdsh.getLsbD (a / 2 ^ 30) = true → a < 2 ^ 36 → memByte t.mem a = 0) ∧
          (∀ k a, k ∈ maskCores (getPart s n).clmask → locScr k 0 ≤ a → a < locScr (k + 1) 0 → memByte t.mem a = 0)) ∧
      ((getPart s n).state ≠ .noPacer → ∃ t, exec (.pcmdStartPacer n) s = .next t ∧ Refused s t n 1) ∧
      ((getPart s n).state = .noPacer → pacerEnt s n = none →
        ∃ t, exec (.pcmdStartPacer n) s = .next t ∧ Refused s t n 7) ∧
      (∀ e slots scr, (getPart s n).state = .noPacer → pacerEnt s n = some e →
        fits s n (pacerCore (getPart s n)) e true = some (slots, scr) →
        ∃ t, exec (.pcmdStartPacer n) s = .next t ∧ PlacedWg s t n (pacerCore (getPart s n)) .pacer e slots scr ∧
          getPart t n = { getPart s n with state := .running, ktab := (getPart s n).ktabBlk, pacerGone := false }) ∧
      ((getPart s n).state ≠ .running → (getPart s n).state ≠ .noPacer →
        ∃ t, exec (.pcmdPreempt n) s = .next t ∧ Refused s t n 1) ∧
      ((getPart s n).state = .running ∨ (getPart s n).state = .noPacer → (∃ u v, getWave s u = some v ∧ v.halted = false ∧
          partWave s n v = true) →
        ∃ t, exec (.pcmdPreempt n) s = .next t ∧ t.mem = s.mem ∧ getPart t n = { getPart s n with state := .preempting } ∧
          ∀ u v, getWave s u = some v → getWave t u = some (if partWave s n v then { v with freezing := true } else v)) ∧
      ((getPart s n).state ≠ .evicted → ∃ t, exec (.pcmdResume n) s = .next t ∧ Refused s t n 1) ∧
      ((getPart s n).state = .evicted →
        ∃ t, exec (.pcmdResume n) s = .next t ∧ Untouched s t ∧
          (getPart t n).state = (if pacerOut s n then .noPacer else .running) ∧
          t.dev.msix = s.dev.msix ++ (if pacerOut s n then [(0, 3)] else []) ∧
          (getPart t n).evicted = (getPart s n).evicted ∧ (getPart t n).mbox = (getPart s n).mbox ∧
          (getPart t n).timelines = (getPart s n).timelines) ∧
      (∀ i ∈ [Instr.pcmdDestroy n, .pcmdPartitionReset n], (getPart s n).state = .free ∨ (getPart s n).state = .preempting →
        ∃ t, exec i s = .next t ∧ Refused s t n 1) ∧
      ((getPart s n).state = .running ∨ (getPart s n).state = .noPacer ∨ (getPart s n).state = .evicted → NoWave s n →
        (∃ t, exec (.pcmdDestroy n) s = .next t ∧ getPart t n = bareBlock (getPart s n) ∧
          ∀ k l a, k ∈ maskCores (getPart s n).clmask → l < 4 → (cellAt t (viewAt k l) a).dirty = 0) ∧
        (∃ t, exec (.pcmdPartitionReset n) s = .next t ∧
          ((getPart t n).state = .running ∨ (getPart t n).state = .noPacer) ∧ (getPart t n).timelines = [] ∧ (getPart t n).mbox = [] ∧
          (getPart t n).clmask = (getPart s n).clmask)))

/-- An aligned write of the PF sets the named bits of one register of a block (offsets 0x10 to 0x48) while STATE is 0 and is
ignored otherwise and at every other offset; PCMD, whose writes are events of their own, is not among them; it sets bytes of
the nonce. A misaligned write, or one of a VF, is ignored. MBIN stages bytes and posts the message with its last byte or
counts a drop; MBPOP removes an outbound entry; DBGDATA takes a debug word; BAR2 writes and reads the bytes of the
partition's shares, and by the PF the recovery window; TLBINV runs and ends with no entry of the partition in any TLB. An
unbound VF reads 0 and writes nothing, and with the link down nothing happens. The model's choices: reserved bits are not
kept (log entry 42), VF number 128 stands for the PF's window and reads return its bytes (log entry 36), no access arrives
while the link is down (log entry 5). (R371, R372, R377, R379, R380, R382, R384, R385.) -/
def Obligations.HostPort : Prop :=
  ∀ (s : State) (vf n : Nat) (v : DWord) (off : Nat) (data : List Byte),
    (s.dev.linkUp = true → off % 8 = 0 →
      (∀ k r, k < 20 → 0 < r → r < 0x100 → off = 0x10000 + 0x100 * k + r →
        ∃ t, exec (.registerWrite 0 off v) s = .next t ∧ Untouched s t ∧ t.dev = s.dev ∧
          (∀ m, m ≠ k → getPart t m = getPart s m) ∧
          (0x10 ≤ r → r ≤ 0x48 → (getPart s k).state = .free → (getPart s k).ending = .none →
            getPart t k = { getPart s k with
              clmask := if r = 0x10 then v else (getPart s k).clmask
              hwsh := if r = 0x18 then v else (getPart s k).hwsh
              gdsh := if r = 0x20 then v else (getPart s k).gdsh
              ptroot := if r = 0x28 then v &&& ~~~0x1FFF#64 else (getPart s k).ptroot
              ktabBlk := if r = 0x30 then v &&& 0x01FFFFFFFFFFFFFF#64 else (getPart s k).ktabBlk
              allot := if r = 0x38 then v &&& 0x3FF#64 else (getPart s k).allot
              vf0 := if r = 0x40 then v else (getPart s k).vf0
              vf1 := if r = 0x48 then v else (getPart s k).vf1 }) ∧
          ((getPart s k).state ≠ .free ∨ r < 0x10 ∨ 0x48 < r → getPart t k = getPart s k)) ∧
      (0x200 ≤ off → off < 0x220 → ∃ t, exec (.registerWrite 0 off v) s = .next t ∧ Untouched s t ∧
        (∀ k, k < 8 → tabGet 0 t.dev.attnonce (off - 0x200 + k) = v.extractLsb' (8 * k) 8))) ∧
    (∀ fn, fn ≠ 0 ∨ off % 8 ≠ 0 → exec (.registerWrite fn off v) s = .next s) ∧
    (s.dev.linkUp = true →
      (∃ t, exec (.hostBar2Write 128 off data) s = .next t ∧ Untouched s t ∧ t.parts = s.parts ∧
        ∀ i, tabGet 0 t.dev.window i =
          if off ≤ i ∧ i < 2 ^ 26 then (data[i - off]?).getD (tabGet 0 s.dev.window i) else tabGet 0 s.dev.window i) ∧
      (∃ t, exec (.hostBar2Read 128 off n) s = .next t ∧ Untouched s t ∧ t.parts = s.parts ∧
        t.dev.hostData = (List.range n).map (fun i => if off + i < 2 ^ 26 then tabGet 0 s.dev.window (off + i) else 0))) ∧
    (Reaches s vf n →
      (∀ m o, m < 12 → o + data.length ≤ 64 → data ≠ [] →
        ∃ t, exec (.mbin vf m o data) s = .next t ∧ Untouched s t ∧
          (∀ k, k < 64 → tabGet 0 t.dev.staging (stageKey vf m k) =
            if o ≤ k then (data[k - o]?).getD (tabGet 0 s.dev.staging (stageKey vf m k))
            else tabGet 0 s.dev.staging (stageKey vf m k)) ∧
          (o + data.length < 64 → getPart t n = getPart s n) ∧
          (o + data.length = 64 → (tabGet [] (getPart s n).mbox m).length < 64 →
            tabGet [] (getPart t n).mbox m = tabGet [] (getPart s n).mbox m ++
              [(List.range 64).map (fun k => tabGet 0 t.dev.staging (stageKey vf m k))]) ∧
          (o + data.length = 64 → 64 ≤ (tabGet [] (getPart s n).mbox m).length →
            getPart t n = { getPart s n with mbdrop := Nat.min 4294967295 ((getPart s n).mbdrop + 1) })) ∧
      (∃ t, exec (.mbpop vf v) s = .next t ∧ Untouched s t ∧
        ∀ k, tabGet [] (getPart t n).mbox k =
          if k = v.toNat ∧ 12 ≤ k ∧ k ≤ 14 then (tabGet [] (getPart s n).mbox k).tail else tabGet [] (getPart s n).mbox k) ∧
      ((getPart s n).dbg = [] → ∃ t, exec (.dbgdata vf) s = .next t ∧ Untouched s t ∧ t.parts = s.parts ∧
        t.dev.hostData = bytesOf 8 0) ∧
      (∀ d more, (getPart s n).dbg = d :: more → ∃ t, exec (.dbgdata vf) s = .next t ∧ Untouched s t ∧
        (getPart t n).dbg = more ∧ t.dev.hostData = bytesOf 8 (2 ^ 63 + d.toNat)) ∧
      (v = 1 → ∃ t, exec (.tlbinv vf v) s = .next t ∧ Untouched s t ∧ (getPart t n).tlbinv = true) ∧
      (v ≠ 1 → exec (.tlbinv vf v) s = .next s) ∧
      (∀ a, vf ≠ 128 → s.dev.serr = [] → ∃ t, exec (.hostBar2Write vf a data) s = .next t ∧ t.waves = s.waves ∧ t.parts = s.parts ∧
        (∀ i l, bar2Loc (getPart s n) (a + i) = some l → ∀ b, data[i]? = some b →
          (∀ j l', i < j → bar2Loc (getPart s n) (a + j) = some l' → l' ≠ l) → memByte t.mem l = b) ∧
        (∀ l, (∀ i, i < data.length → bar2Loc (getPart s n) (a + i) ≠ some l) →
          memByte t.mem l = memByte s.mem l ∧ (InOrder s → ∀ u, cellAt t u l = cellAt s u l))) ∧
      (∀ a k, ∃ t, exec (.hostBar2Read vf a k) s = .next t ∧ Untouched s t ∧ t.parts = s.parts ∧
        t.dev.hostData = (List.range k).map (fun i =>
          match bar2Loc (getPart s n) (a + i) with | some l => memByte s.mem l | none => 0))) ∧
    ((getPart s n).tlbinv = false → exec (.tlbinvComplete n) s = .next s) ∧
    ((getPart s n).tlbinv = true → ∃ t, exec (.tlbinvComplete n) s = .next t ∧ Untouched s t ∧
      (getPart t n).tlbinv = false ∧ ∀ e ∈ t.tlbs, ∀ x ∈ e.2, x.1 / 2 ^ 40 ≠ n) ∧
    (s.dev.linkUp = true → partOfVf s vf = none → vf ≠ 128 →
      (∀ i ∈ [Instr.mbin vf n off data, .mbpop vf v, .tlbinv vf v, .hostBar2Write vf off data], exec i s = .next s) ∧
      (∃ t, exec (.hostBar2Read vf off n) s = .next t ∧ Untouched s t ∧ t.dev.hostData = List.replicate n 0) ∧
      (∃ t, exec (.dbgdata vf) s = .next t ∧ Untouched s t ∧ t.parts = s.parts ∧ t.dev.hostData = bytesOf 8 0)) ∧
    (s.dev.linkUp = false →
      ∀ i ∈ [Instr.registerWrite 0 off v, .mbin vf n off data, .mbpop vf v, .dbgdata vf, .tlbinv vf v,
        .hostBar2Write vf off data, .hostBar2Read vf off n], exec i s = .next s)

/-- FWCMD 1 and 2 act only with a valid image and in their states (which states those are, and that they do nothing in
others: log entry 7); ATTGO takes the nonce and does nothing while a report is being built (log entry 44), and the report
holds it with the device id, TIMEBASE and the digests of the running image and the partition table, which are free functions
of them (log entry 9). A write to an error count clears it. Patrol corrects single-bit errors and counts them, and reports an
uncorrectable one in ERRUE. An uncorrectable soft error poisons its 64 bits, or the copies of its line in Heartwood, and no
other byte of memory or copy; the form of the event and its counts are the model's (log entry 29). With the link down no host
command arrives (log entry 5). (R97, R382, R384, R385, R387.) -/
def Obligations.FirmwareAndErrorLog : Prop :=
  (∀ (s : State),
     (s.dev.linkUp = true → s.dev.stat = .recovery → Config.imageValid s.dev.window = true →
       ∃ t, exec .fwcmdRecovery s = .next t ∧ Untouched s t ∧ t.dev.stat = .ready ∧ t.dev.flash = s.dev.window ∧
         t.dev.running = s.dev.window ∧ t.dev.msix = s.dev.msix ++ [(0, 1)]) ∧
     (s.dev.linkUp = false ∨ s.dev.stat ≠ .recovery ∨ Config.imageValid s.dev.window = false →
       exec .fwcmdRecovery s = .next s) ∧
     (s.dev.linkUp = true → (s.dev.stat = .ready ∨ s.dev.stat = .recovery) → Config.imageValid s.dev.window = true →
       exec .fwcmdUpdate s = .next { s with dev := { s.dev with flash := s.dev.window } }) ∧
     (s.dev.linkUp = false ∨ (s.dev.stat ≠ .ready ∧ s.dev.stat ≠ .recovery) ∨ Config.imageValid s.dev.window = false →
       exec .fwcmdUpdate s = .next s) ∧
     (s.dev.linkUp = true → s.dev.stat = .ready → s.dev.attBusy = false →
       exec .attgo s = .next { s with dev := { s.dev with attBusy := true, attUse := s.dev.attnonce } }) ∧
     (s.dev.attBusy = true → exec .attgo s = .next s ∧
       ∃ t, exec .attestReportReady s = .next t ∧ Untouched s t ∧ t.dev.attBusy = false ∧
         t.dev.msix = s.dev.msix ++ [(0, 2)] ∧
         (∀ k, k < 4 → tabGet 0 t.dev.attrep k = if k = 0 then 1 else 0) ∧
         (∀ k, k < 4 → tabGet 0 t.dev.attrep (4 + k) = ((0x9240 : BitVec 32).extractLsb' (8 * k) 8)) ∧
         (∀ k, k < 48 → tabGet 0 t.dev.attrep (8 + k) = Config.imageDigest s.dev.running k ∧
           tabGet 0 t.dev.attrep (56 + k) = Config.tableDigest (partTable s) k) ∧
         (∀ k, k < 32 → tabGet 0 t.dev.attrep (104 + k) = tabGet 0 s.dev.attUse k) ∧
         (∀ k, k < 8 → tabGet 0 t.dev.attrep (136 + k) = (BitVec.ofNat 64 (timeNs s)).extractLsb' (8 * k) 8) ∧
         (∀ k, k < 16 → tabGet 0 t.dev.attrep (240 + k) = 0)) ∧
     (s.dev.attBusy = false → exec .attestReportReady s = .next s)) ∧
  (∀ (s : State),
     (s.dev.linkUp = true →
       exec .errgd s = .next { s with dev := { s.dev with errgd := 0 } } ∧
       exec .errhw s = .next { s with dev := { s.dev with errhw := 0 } } ∧
       exec .errsp s = .next { s with dev := { s.dev with errsp := 0 } } ∧
       exec .errpar s = .next { s with dev := { s.dev with errpar := 0 } }) ∧
     (s.dev.linkUp = false → ∀ i ∈ [Instr.errgd, .errhw, .errsp, .errpar], exec i s = .next s) ∧
     (∀ hw loc, ∃ t, exec (.patrolScrub hw loc) s = .next t ∧ Untouched s t ∧
       (let here (e : SErr) : Bool := e.strct = (if hw then 1 else 0) && e.loc / (if hw then 128 else 8) = loc / (if hw then 128 else 8)
        let fixed := (s.dev.serr.filter (fun e => here e && e.single)).length
        t.dev.serr = s.dev.serr.filter (fun e => !(here e && e.single)) ∧
        (hw = false → s.dev.errgd ≤ 4294967295 → t.dev.errgd = Nat.min 4294967295 (s.dev.errgd + fixed) ∧ t.dev.errhw = s.dev.errhw) ∧
        (hw = true → s.dev.errhw ≤ 4294967295 → t.dev.errhw = Nat.min 4294967295 (s.dev.errhw + fixed) ∧ t.dev.errgd = s.dev.errgd) ∧
        ((∀ e ∈ s.dev.serr, here e = true → e.single = true) → t.dev.errue = s.dev.errue) ∧
        (∀ e, s.dev.serr.find? (fun e => here e && !e.single) = some e →
          t.dev.errue = BitVec.ofNat 64 ((if hw then 1 else 0) * 2 ^ 60 + e.loc % 2 ^ 57)))) ∧
     (∀ strct loc, strct ≤ 2 → exec (.softError strct loc true) s =
       .next { s with dev := { s.dev with serr := s.dev.serr ++ [⟨strct, loc, true, storeView⟩] } }) ∧
     (∀ strct loc, strct ≤ 2 → ∃ t, exec (.softError strct loc false) s = .next t ∧ t.waves = s.waves ∧ t.parts = s.parts ∧
       t.dev.serr = s.dev.serr ++ (struckBlocks s strct loc).map (fun e => ⟨strct, 8 * e.2, false, e.1⟩) ∧
       (strct ≠ 1 → struckBlocks s strct loc = [(storeView, loc / 8)]) ∧
       (strct = 1 → ∀ e ∈ struckBlocks s strct loc, 8 * e.2 / 128 = loc / 128) ∧
       (∀ a, (storeView, a / 8) ∉ struckBlocks s strct loc → memByte t.mem a = memByte s.mem a) ∧
       (InOrder s → ∀ u a, (u, a / 8) ∉ struckBlocks s strct loc → cellAt t u a = cellAt s u a)) ∧
     (∀ w q r v, q < 64 → r < 0x40 → getWave s w = some v → q < v.threads.length →
       ∃ t u, exec (.softError 3 ((w * 64 + q) * 128 + r) false) s = .next t ∧ getWave t w = some u ∧
         (∃ x, threadAt u q = some x ∧ r ∈ x.bad) ∧ (∀ k j, vReg u k j = vReg v k j) ∧ u.s = v.s) ∧
     (∀ loc b, ∃ t, exec (.softError 5 loc b) s = .next t ∧ Untouched s t ∧
       t.dev.errpar = Nat.min 4294967295 (s.dev.errpar + 1)))

/-- A replayed flit changes nothing; a failed retraining or thermal limit makes STATE 3 and fires its vector; throttling and
restoring move the clock one step; LINK_DOWN leaves no HOST access in any store queue and puts the graphs that touched HOST
pages into teardown with event 3; re-enumeration, which comes only with the link down, empties the queues and keeps
partitions and timelines, and messages of a stalled RESREQ stay (log entry 58); device reset destroys every partition and
clears CLK, TIMEBASE, views and scratchpads; a VF reset clears its staging bytes. Which steps and reset contents these are
beyond the rules' words is the model's (log entries 35, 37 and 39). (R163, R378, R381, R382, R383, R386, R388.) -/
def Obligations.LinkClocksAndReset : Prop :=
  ∀ (s : State),
    exec .flitReplay s = .next s ∧
    (∀ i ∈ [Instr.linkRetrainFail, .thermalFatal],
      (s.dev.stat = .fatal → exec i s = .next s) ∧
      (s.dev.stat ≠ .fatal → exec i s = .next { s with dev := { s.dev with stat := .fatal, msix := s.dev.msix ++ [(0, 1)] } })) ∧
    exec .clockThrottle s = .next { s with dev := { s.dev with clock := Nat.max 10 (s.dev.clock - 1) } } ∧
    exec .clockRestore s = .next { s with dev := { s.dev with clock := Nat.min 19 (s.dev.clock + 1) } } ∧
    (s.dev.linkUp = false → exec .linkDown s = .next s) ∧
    (s.dev.linkUp = true → ∃ t, exec .linkDown s = .next t ∧ t.dev.linkUp = false ∧
      (NothingQueued s → (∀ b ∈ s.btiles, b.dispatched = true) → t.dev = { s.dev with linkUp := false } ∧ t.mem = s.mem) ∧
      (∀ w core wg sq, sqOf t w = some (core, wg, sq) → ∀ e ∈ sq, ∀ b ∈ e.bytes, isHostLoc b.1 = false) ∧
      (∀ n g gr, InOrder s → getGraph s n g = some gr →
        (gr.host = false ∨ gr.live = false ∨ (gr.phase ≠ .live ∧ gr.phase ≠ .stopping) → getGraph t n g = some gr) ∧
        (gr.host = true → gr.live = true →
          gr.phase = .live ∨ gr.phase = .stopping →
          ∃ gr', getGraph t n g = some gr' ∧ gr'.phase = .teardown 3 ∧ gr'.faultMsg = endMessage s 3 g ∧ gr'.image = gr.image))) ∧
    (s.dev.linkUp = true → exec .reenumeration s = .next s) ∧
    (s.dev.linkUp = false → ∃ t, exec .reenumeration s = .next t ∧ t.dev.linkUp = true ∧ t.dev.staging = [] ∧
      (NothingQueued s → Untouched s t ∧ t.dev = { s.dev with linkUp := true, staging := [] }) ∧
      (∀ n, (getPart t n).mbox = [] ∧ (getPart t n).dbg = [] ∧ (getPart t n).mbdrop = 0 ∧
        (getPart t n).events = (getPart s n).events.filter isResMsg ∧
        (getPart t n).state = (getPart s n).state ∧ (getPart t n).timelines = (getPart s n).timelines)) ∧
    (∃ t, exec .deviceReset s = .next t ∧ (∀ n, getPart t n = Part.init) ∧ (∀ vf, partOfVf t vf = none) ∧
      (∀ w, getWave t w = none) ∧ t.dev.cycle = 0 ∧ timeNs t = 0 ∧ t.dev.stat = .boot ∧ (∀ u a, cellAt t u a = noCell) ∧
      (∀ k off, memByte t.mem (locScr k off) = 0)) ∧
    (∀ vf, ∃ t, exec (.vfReset vf) s = .next t ∧ Untouched s t ∧ t.parts = s.parts ∧
      (∀ m k, m < 12 → k < 64 → tabGet 0 t.dev.staging (stageKey vf m k) = 0) ∧
      (∀ u m k, u ≠ vf → m < 12 → k < 64 → tabGet 0 t.dev.staging (stageKey u m k) = tabGet 0 s.dev.staging (stageKey u m k)))
end

