-- ==== Sys2Proof/Laws/Tab.lean ====
section
/-! SUPPORT. Sparse arrays: reading after a write, and the canonical form kept by every operation on memory. -/

namespace Sys2Proof.Machine

/-! Reading after a change. -/

theorem tabGet?_tabPut {α : Type} (t : Tab α) (k j : Nat) (v : α) :
    tabGet? (tabPut t k v) j = if j = k then some v else tabGet? t j := by
  induction t with
  | nil => simp [tabPut, tabGet?]
  | cons e t ih =>
    obtain ⟨i, u⟩ := e
    simp only [tabPut]
    split
    · subst_vars; simp only [tabGet?]; split <;> simp_all
    · split
      · simp only [tabGet?]
      · simp only [tabGet?, ih]
        split <;> split <;> simp_all

theorem tabGet?_tabDel {α : Type} (t : Tab α) (k j : Nat) :
    tabGet? (tabDel t k) j = if j = k then none else tabGet? t j := by
  induction t with
  | nil => simp [tabDel, tabGet?]
  | cons e t ih =>
    obtain ⟨i, u⟩ := e
    simp only [tabDel]
    split
    · next h => subst h; rw [ih]; simp only [tabGet?]; split <;> simp_all
    · simp only [tabGet?, ih]; split <;> split <;> simp_all

@[simp] theorem tabGet?_tabPut_self {α : Type} (t : Tab α) (k : Nat) (v : α) : tabGet? (tabPut t k v) k = some v := by
  simp [tabGet?_tabPut]

theorem tabGet?_tabPut_ne {α : Type} (t : Tab α) (k j : Nat) (v : α) (h : j ≠ k) :
    tabGet? (tabPut t k v) j = tabGet? t j := by simp [tabGet?_tabPut, h]

theorem tabGet?_tabMod {α : Type} (t : Tab α) (k j : Nat) (f : α → α) :
    tabGet? (tabMod t k f) j = if j = k then (tabGet? t j).map f else tabGet? t j := by
  unfold tabMod
  split
  · next h => rw [tabGet?_tabPut]; split
              · next e => subst e; simp [h]
              · rfl
  · next h => split
              · next e => subst e; simp [h]
              · rfl

/-! The canonical form. -/

/-- Keys strictly rise. -/
def Rising {α : Type} (t : Tab α) : Prop := (t.map (·.1)).Pairwise (· < ·)

theorem tabRising_some {α : Type} (b : Nat) (t : Tab α) :
    tabRising (some b) t = true ↔ (∀ e ∈ t, b < e.1) ∧ Rising t := by
  induction t generalizing b with
  | nil => simp [tabRising, Rising]
  | cons e t ih =>
    obtain ⟨j, u⟩ := e
    simp only [tabRising, Bool.and_eq_true, decide_eq_true_eq, ih, Rising, List.map_cons, List.pairwise_cons, List.mem_map,
      forall_exists_index, and_imp, forall_apply_eq_imp_iff₂, List.mem_cons, forall_eq_or_imp]
    constructor
    · rintro ⟨h1, h2, h3⟩
      exact ⟨⟨h1, fun e he => Nat.lt_trans h1 (h2 e he)⟩, h2, h3⟩
    · rintro ⟨⟨h1, _⟩, h2, h3⟩
      exact ⟨h1, h2, h3⟩

theorem tabRising_none {α : Type} (t : Tab α) : tabRising none t = true ↔ Rising t := by
  cases t with
  | nil => simp [tabRising, Rising]
  | cons e t =>
    obtain ⟨j, u⟩ := e
    simp only [tabRising, Bool.true_and, tabRising_some, Rising, List.map_cons, List.pairwise_cons, List.mem_map,
      forall_exists_index, and_imp, forall_apply_eq_imp_iff₂]

theorem tabWf_iff {α : Type} [DecidableEq α] (d : α) (t : Tab α) :
    tabWf d t = true ↔ Rising t ∧ ∀ e ∈ t, e.2 ≠ d := by
  simp [tabWf, tabRising_none, List.all_eq_true]

theorem mem_tabPut {α : Type} (t : Tab α) (k : Nat) (v : α) (e : Nat × α) :
    e ∈ tabPut t k v → e = (k, v) ∨ e ∈ t := by
  induction t with
  | nil => simp [tabPut]
  | cons x t ih =>
    obtain ⟨j, u⟩ := x
    simp only [tabPut]
    grind

theorem rising_tabPut {α : Type} (t : Tab α) (k : Nat) (v : α) (h : Rising t) : Rising (tabPut t k v) := by
  induction t with
  | nil => simp [tabPut, Rising]
  | cons x t ih =>
    obtain ⟨j, u⟩ := x
    simp only [Rising, List.map_cons, List.pairwise_cons, List.mem_map, forall_exists_index, and_imp,
      forall_apply_eq_imp_iff₂] at h
    obtain ⟨h1, h2⟩ := h
    simp only [tabPut]
    split
    · next e => subst e; simp only [Rising, List.map_cons, List.pairwise_cons, List.mem_map, forall_exists_index, and_imp,
        forall_apply_eq_imp_iff₂]; exact ⟨h1, h2⟩
    · split
      · next hlt =>
        simp only [Rising, List.map_cons, List.pairwise_cons, List.mem_map, forall_exists_index, and_imp,
          forall_apply_eq_imp_iff₂, List.mem_cons, forall_eq_or_imp]
        exact ⟨⟨hlt, fun e he => Nat.lt_trans hlt (h1 e he)⟩, h1, h2⟩
      · next hne hnlt =>
        have hr := ih h2
        simp only [Rising, List.map_cons, List.pairwise_cons, List.mem_map, forall_exists_index, and_imp,
          forall_apply_eq_imp_iff₂]
        refine ⟨fun e he => ?_, hr⟩
        rcases mem_tabPut t k v e he with h | h
        · subst h; show j < k; omega
        · exact h1 e h

theorem tabDel_sublist {α : Type} (t : Tab α) (k : Nat) : (tabDel t k).Sublist t := by
  induction t with
  | nil => simp [tabDel]
  | cons x t ih =>
    obtain ⟨j, u⟩ := x
    simp only [tabDel]
    split
    · exact ih.cons _
    · exact ih.cons_cons _

theorem rising_sublist {α : Type} {t u : Tab α} (h : u.Sublist t) (ht : Rising t) : Rising u :=
  List.Pairwise.sublist (h.map _) ht

theorem tabWf_sublist {α : Type} [DecidableEq α] {d : α} {t u : Tab α} (h : u.Sublist t) (ht : tabWf d t = true) :
    tabWf d u = true := by
  rw [tabWf_iff] at *
  exact ⟨rising_sublist h ht.1, fun e he => ht.2 e (h.subset he)⟩

theorem tabWf_tabSet {α : Type} [DecidableEq α] (d : α) (t : Tab α) (k : Nat) (v : α) (h : tabWf d t = true) :
    tabWf d (tabSet d t k v) = true := by
  unfold tabSet
  split
  · exact tabWf_sublist (tabDel_sublist t k) h
  · next hv =>
    rw [tabWf_iff] at *
    refine ⟨rising_tabPut t k v h.1, fun e he => ?_⟩
    rcases mem_tabPut t k v e he with h' | h'
    · subst h'; exact hv
    · exact h.2 e h'

/-! Reading after tabSet. -/

theorem tabGet_tabSet {α : Type} [DecidableEq α] (d : α) (t : Tab α) (k j : Nat) (v : α) :
    tabGet d (tabSet d t k v) j = if j = k then v else tabGet d t j := by
  unfold tabSet tabGet
  split
  · rw [tabGet?_tabDel]; split <;> simp_all
  · rw [tabGet?_tabPut]; split <;> simp

/-! The memory of the SYSTEM view. -/

/-- A write of one byte keeps the canonical form. -/
theorem memoryWf_memPut (m : Memory) (a : Nat) (v : Byte) (h : memoryWf m = true) : memoryWf (memPut m a v) = true :=
  tabWf_tabSet _ _ _ _ h

/-- Clearing a range keeps the canonical form. -/
theorem memoryWf_memClear (m : Memory) (lo hi : Nat) (h : memoryWf m = true) : memoryWf (memClear m lo hi) = true :=
  tabWf_sublist List.filter_sublist h

/-- A filter keeps the canonical form. -/
theorem memoryWf_filter (m : Memory) (p : Host.Cell → Bool) (h : memoryWf m = true) : memoryWf (m.filter p) = true :=
  tabWf_sublist List.filter_sublist h

/-- A byte reads as it was last written, and a write leaves every other byte alone. -/
theorem memByte_memPut (m : Memory) (a b : Nat) (v : Byte) : memByte (memPut m a v) b = if b = a then v else memByte m b :=
  tabGet_tabSet _ _ _ _ _

end Sys2Proof.Machine
end

