-- ==== Sys2Proof/Laws/Memory.lean ====
section
/-! SUPPORT. Every operation that writes the memory of the SYSTEM view keeps its canonical form; what each leaves in a
byte. -/

namespace Sys2Proof.Machine

/-- A byte of a memory that a range has been cleared from. -/
theorem memByte_memClear (m : Memory) (lo hi a : Nat) :
    memByte (memClear m lo hi) a = if lo ≤ a ∧ a < hi then unlistedByte else memByte m a := by
  induction m with
  | nil => simp [memClear, memByte, tabGet, tabGet?]
  | cons e t ih =>
    obtain ⟨k, v⟩ := e
    simp only [memClear, memByte, tabGet, List.filter_cons] at *
    split <;> rename_i hk
    · simp only [tabGet?]
      split
      · subst_vars; simp at hk; split <;> first | rfl | omega
      · exact ih
    · rw [ih]
      simp only [tabGet?]
      split
      · rfl
      · split
        · subst_vars; simp at hk; omega
        · rfl

/-! The fields that the operations over views leave alone. -/

@[simp] theorem putCell_mem (s : State) (view loc : Nat) (c : VCell) : (putCell s view loc c).mem = s.mem := rfl
@[simp] theorem moveAllToks_mem (s : State) (view : Nat) (l : List Nat) : (moveAllToks s view l).mem = s.mem := rfl
@[simp] theorem pruneErr_mem (s : State) : (pruneErr s).mem = s.mem := by unfold pruneErr; split <;> rfl
@[simp] theorem moveErr_mem (s : State) (view : Nat) (l : List Nat) : (moveErr s view l).mem = s.mem := by
  simp only [moveErr]; split <;> rfl
@[simp] theorem liftAllToks_mem (s : State) (core level loc : Nat) : (liftAllToks s core level loc).mem = s.mem := rfl
@[simp] theorem clearViews_mem (s : State) (lo hi : Nat) : (clearViews s lo hi).mem = s.mem := rfl
@[simp] theorem healRange_mem (s : State) (lo hi : Nat) : (healRange s lo hi).mem = s.mem := rfl
@[simp] theorem zeroRange_mem (s : State) (lo hi : Nat) : (zeroRange s lo hi).mem = memClear s.mem lo hi := rfl
theorem memBits_mem (s : State) (loc : Nat) (m v : Byte) :
    (memBits s loc m v).mem = if loc = locNone then s.mem else memPut s.mem loc (mergeBits (memByte s.mem loc) v m) := by
  unfold memBits
  split <;> rfl

/-- The bits under the mask are written, the others and every other byte keep their values; at no location nothing is
written. -/
theorem memByte_memBits (s : State) (loc a : Nat) (m v : Byte) :
    memByte (memBits s loc m v).mem a =
      if a = loc ∧ loc ≠ locNone then mergeBits (memByte s.mem loc) v m else memByte s.mem a := by
  rw [memBits_mem]
  split
  · simp [*]
  · rw [memByte_memPut]; simp [*]

/-! The canonical form. -/

theorem memoryWf_memBits (s : State) (loc : Nat) (m v : Byte) (h : memoryWf s.mem = true) :
    memoryWf (memBits s loc m v).mem = true := by
  rw [memBits_mem]
  split
  · exact h
  · exact memoryWf_memPut _ _ _ h

theorem memoryWf_zeroRange (s : State) (lo hi : Nat) (h : memoryWf s.mem = true) : memoryWf (zeroRange s lo hi).mem = true :=
  memoryWf_memClear _ _ _ h

/-- A fold keeps the form where each of its steps does. -/
theorem memoryWf_foldl {α : Type} (f : State → α → State) (hf : ∀ s x, memoryWf s.mem = true → memoryWf (f s x).mem = true)
    (l : List α) (s : State) (h : memoryWf s.mem = true) : memoryWf (l.foldl f s).mem = true := by
  induction l generalizing s with
  | nil => exact h
  | cons x t ih => exact ih _ (hf s x h)

theorem memoryWf_lowWrite (s : State) (core loc : Nat) (m v : Byte) (h : memoryWf s.mem = true) :
    memoryWf (lowWrite s core loc m v).mem = true := by
  unfold lowWrite
  split
  · exact memoryWf_memBits _ _ _ _ h
  · exact h

theorem memoryWf_propByte (s : State) (view loc : Nat) (h : memoryWf s.mem = true) :
    memoryWf (propByte s view loc).mem = true := by
  simp only [propByte]
  split
  · exact h
  · split
    · exact memoryWf_memBits _ _ _ _ h
    · exact h

theorem memoryWf_propLocs (s : State) (view : Nat) (l : List Nat) (h : memoryWf s.mem = true) :
    memoryWf (propLocs s view l).mem = true := by
  unfold propLocs
  rw [moveAllToks_mem]
  exact memoryWf_foldl _ (fun s l => memoryWf_propByte s view l) _ _ (by rw [moveErr_mem]; exact h)

theorem memoryWf_propBlock (s : State) (view blk : Nat) (h : memoryWf s.mem = true) :
    memoryWf (propBlock s view blk).mem = true := by
  exact memoryWf_propLocs s view _ h

theorem memoryWf_propView (s : State) (view : Nat) (h : memoryWf s.mem = true) : memoryWf (propView s view).mem = true := by
  exact memoryWf_propLocs s view _ h

theorem memoryWf_propPath (s : State) (core level : Nat) (h : memoryWf s.mem = true) :
    memoryWf (propPath s core level).mem = true := by
  unfold propPath
  exact memoryWf_foldl _ (fun s l => memoryWf_propView s (viewAt core l)) _ _ h

theorem dropLocs_mem (s : State) (view : Nat) (l : List Nat) : (dropLocs s view l).mem = s.mem := by
  unfold dropLocs
  rw [pruneErr_mem]
  induction l generalizing s with
  | nil => rfl
  | cons x t ih =>
    rw [List.foldl_cons, ih]
    simp only
    split <;> rfl

theorem dropBlock_mem (s : State) (view blk : Nat) : (dropBlock s view blk).mem = s.mem := dropLocs_mem s view _

theorem acquire_mem (s : State) (core level : Nat) : (acquire s core level).mem = s.mem := by
  unfold acquire
  rw [pruneErr_mem]
  generalize (List.range 4).filter (· < level) = l
  induction l generalizing s with
  | nil => rfl
  | cons x t ih => rw [List.foldl_cons, ih]

theorem fillBits_mem (s : State) (loc : Nat) (val : Byte) (levels : BitVec 4) (l : List Nat) (need : Byte) :
    (fillBits s loc val levels l need).mem = s.mem := by
  induction l generalizing s need with
  | nil => rfl
  | cons v t ih =>
    simp only [fillBits, ih]
    split <;> rfl

theorem memoryWf_pushByte (s : State) (core level loc : Nat) (h : memoryWf s.mem = true) :
    memoryWf (pushByte s core level loc).mem = true := by
  unfold pushByte
  split
  · exact h
  · refine memoryWf_foldl _ (fun s l h => ?_) _ _ h
    exact memoryWf_propLocs s (viewAt core l) [loc] h

theorem memoryWf_highWrite (s : State) (core level loc : Nat) (m v : Byte) (h : memoryWf s.mem = true) :
    memoryWf (highWrite s core level loc m v).mem = true := by
  simp only [highWrite]
  split
  · exact memoryWf_memBits _ _ _ _ h
  · rw [liftAllToks_mem]
    refine memoryWf_foldl _ (fun s l h => by rw [putCell_mem]; exact h) _ _ ?_
    split
    · exact memoryWf_memBits _ _ _ _ h
    · exact h

theorem memoryWf_highBytes (s : State) (core level loc : Nat) (bs : List Byte) (h : memoryWf s.mem = true) :
    memoryWf (highBytes s core level loc bs).mem = true := by
  unfold highBytes
  exact memoryWf_foldl _ (fun s (e : Byte × Nat) h => memoryWf_highWrite s core level (loc + e.2) 0xFF e.1 h) _ _ h

theorem memoryWf_memBytes (s : State) (loc : Nat) (bs : List Byte) (h : memoryWf s.mem = true) :
    memoryWf (memBytes s loc bs).mem = true := by
  unfold memBytes
  exact memoryWf_foldl _ (fun s (e : Byte × Nat) h => memoryWf_memBits s (loc + e.2) 0xFF e.1 h) _ _ h

theorem memoryWf_hostWriteByte (s : State) (loc : Nat) (v : Byte) (h : memoryWf s.mem = true) :
    memoryWf (hostWriteByte s loc v).mem = true := by
  simp only [hostWriteByte, pruneErr_mem]
  exact memoryWf_memBits s loc 0xFF v h

theorem memoryWf_strike (s : State) (strct loc : Nat) (h : memoryWf s.mem = true) :
    memoryWf (strike s strct loc).mem = true := by
  refine memoryWf_foldl _ (fun s e h => memoryWf_foldl _ (fun s l h => ?_) _ _ h) _ _ h
  simp only [strikeByte]
  split
  · exact memoryWf_memPut _ _ _ h
  · exact h

theorem memoryWf_deviceReset (s t : State) (h : memoryWf s.mem = true) (hs : execDeviceReset s = .next t) :
    memoryWf t.mem = true := by
  cases hs
  exact memoryWf_filter _ _ h

end Sys2Proof.Machine
end

