-- ==== Sys2Proof/Laws/Blocks.lean ====
section
/-! SUPPORT. The moves of whole blocks: what pushes, carries and fills leave alone, and when an engine's release does
nothing. -/

namespace Sys2Proof.Machine

theorem memoryWf_pushBlocks (s : State) (core level : Nat) (locs : List Nat) (h : memoryWf s.mem = true) :
    memoryWf (pushBlocks s core level locs).mem = true :=
  memoryWf_foldl _ (fun _ l h => memoryWf_foldl _ (fun s b => memoryWf_propBlock s (viewAt core l) b) _ _ h) _ _ h

theorem memoryWf_carryToks (toks : State → List (Nat × Nat)) (s : State) (h : memoryWf s.mem = true) :
    memoryWf (carryToks toks s).mem = true :=
  memoryWf_foldl _ (fun _ _ h => memoryWf_foldl _ (fun s (t : Nat × Nat) => memoryWf_propBlock s t.1 (t.2 / 8)) _ _ h) _ _ h

/-- A fold of steps that each keep the memory. -/
theorem foldl_mem {α : Type} (f : State → α → State) (hf : ∀ s x, (f s x).mem = s.mem) (l : List α) (s : State) :
    (l.foldl f s).mem = s.mem := by
  induction l generalizing s with
  | nil => rfl
  | cons x t ih => rw [List.foldl_cons, ih, hf]

theorem fillByte_mem (s : State) (sq : List SqEntry) (core loc : Nat) : (fillByte s sq core loc).mem = s.mem := by
  simp only [fillByte]
  split
  · rfl
  · exact fillBits_mem _ _ _ _ _ _

/-- A fill writes no byte of the SYSTEM view. -/
theorem fillRead_mem (s : State) (sq : List SqEntry) (core : Nat) (locs : List Nat) : (fillRead s sq core locs).mem = s.mem := by
  unfold fillRead
  split
  · rfl
  · exact foldl_mem _ (fun s l => fillByte_mem s sq core l) _ _

/-- Below level 0 there is nothing to push. -/
theorem pushBlocks_zero (s : State) (core : Nat) (locs : List Nat) : pushBlocks s core 0 locs = s := rfl

/-- Where nothing is left to carry, nothing moves. -/
theorem carryToks_nil (toks : State → List (Nat × Nat)) (s : State) (h : toks s = []) : carryToks toks s = s := by
  unfold carryToks
  induction List.range 4 with
  | nil => rfl
  | cons l t ih => rw [List.foldl_cons, h]; exact ih

/-- An operation at WG scope has no copy to carry. -/
theorem opToks_wg (s : State) (o : EngOp) (h : opLevel o = 0) : opToks s o = [] := by
  simp [opToks, h]

/-- An operation at WG scope of a wave whose store queue is empty has nothing to release. -/
theorem engRelease_wg (s : State) (o : EngOp) (core wg : Nat) (hsq : sqOf s o.wave = some (core, wg, [])) (h : opLevel o = 0) :
    engRelease s o = s := by
  unfold engRelease
  rw [hsq]
  simp only
  split
  · exact carryToks_nil _ _ (opToks_wg s o h)
  · rfl

end Sys2Proof.Machine
end

