-- ==== Sys2Proof/Laws/Encode.lean ====
section
/-! SUPPORT. The encoder against the decoder: the fields of a word of each format read back, and a lemma for each format
that reduces "decoding the encoded instruction gives it back" to facts that hold by rfl. -/

namespace Sys2Proof.Laws.Encode

/-! Slices of a word put together from fields. -/

theorem low {n m : Nat} (x : BitVec n) (y : BitVec m) (k len : Nat) (h : k + len ≤ m) :
    (x ++ y).extractLsb' k len = y.extractLsb' k len := by
  ext i hi
  simp only [BitVec.getElem_extractLsb', BitVec.getLsbD_append]
  rw [if_pos (by omega)]

theorem high {n m : Nat} (x : BitVec n) (y : BitVec m) (k len : Nat) (h : m ≤ k) :
    (x ++ y).extractLsb' k len = x.extractLsb' (k - m) len := by
  ext i hi
  simp only [BitVec.getElem_extractLsb', BitVec.getLsbD_append]
  rw [if_neg (by omega)]
  congr 1
  omega

theorem bitHigh {n m : Nat} (x : BitVec n) (y : BitVec m) (k : Nat) (h : m ≤ k) :
    (x ++ y).getLsbD k = x.getLsbD (k - m) := by
  rw [BitVec.getLsbD_append, if_neg (by omega)]

theorem bitLow {n m : Nat} (x : BitVec n) (y : BitVec m) (k : Nat) (h : k < m) :
    (x ++ y).getLsbD k = y.getLsbD k := by
  rw [BitVec.getLsbD_append, if_pos (by omega)]

theorem whole {n : Nat} (x : BitVec n) : x.extractLsb' 0 n = x := by simp

theorem bit_bit1 (b : Bool) : (bit1 b).getLsbD 0 = b := by cases b <;> rfl

/-! The fields of each format. -/

theorem f3_fields (o : BitVec 8) (x : F3) : fldOp (x.word o) = o ∧
    fldD (x.word o) = x.d ∧
    fldA (x.word o) = x.a ∧
    fldB (x.word o) = x.b ∧
    bitAt (x.word o) 29 = x.la ∧
    bitAt (x.word o) 30 = x.lb ∧
    bitAt (x.word o) 31 = x.m :=
  ⟨(low (bit1 x.m ++ bit1 x.lb ++ bit1 x.la ++ x.b ++ x.a ++ x.d) o 0 8 (by decide)).trans (whole _),
   (high (bit1 x.m ++ bit1 x.lb ++ bit1 x.la ++ x.b ++ x.a ++ x.d) o 8 7 (by decide)).trans ((low _ _ _ _ (by decide)).trans (whole _)),
   (high (bit1 x.m ++ bit1 x.lb ++ bit1 x.la ++ x.b ++ x.a ++ x.d) o 15 7 (by decide)).trans ((high _ _ _ _ (by decide)).trans ((low _ _ _ _ (by decide)).trans (whole _))),
   (high (bit1 x.m ++ bit1 x.lb ++ bit1 x.la ++ x.b ++ x.a ++ x.d) o 22 7 (by decide)).trans ((high _ _ _ _ (by decide)).trans ((high _ _ _ _ (by decide)).trans ((low _ _ _ _ (by decide)).trans (whole _)))),
   (bitHigh (bit1 x.m ++ bit1 x.lb ++ bit1 x.la ++ x.b ++ x.a ++ x.d) o 29 (by decide)).trans ((bitHigh _ _ _ (by decide)).trans ((bitHigh _ _ _ (by decide)).trans ((bitHigh _ _ _ (by decide)).trans ((bitLow _ _ _ (by decide)).trans (bit_bit1 _))))),
   (bitHigh (bit1 x.m ++ bit1 x.lb ++ bit1 x.la ++ x.b ++ x.a ++ x.d) o 30 (by decide)).trans ((bitHigh _ _ _ (by decide)).trans ((bitHigh _ _ _ (by decide)).trans ((bitHigh _ _ _ (by decide)).trans ((bitHigh _ _ _ (by decide)).trans ((bitLow _ _ _ (by decide)).trans (bit_bit1 _)))))),
   (bitHigh (bit1 x.m ++ bit1 x.lb ++ bit1 x.la ++ x.b ++ x.a ++ x.d) o 31 (by decide)).trans ((bitHigh _ _ _ (by decide)).trans ((bitHigh _ _ _ (by decide)).trans ((bitHigh _ _ _ (by decide)).trans ((bitHigh _ _ _ (by decide)).trans ((bitHigh _ _ _ (by decide)).trans (bit_bit1 _))))))⟩

theorem fi_fields (o : BitVec 8) (x : FI) : fldOp (x.word o) = o ∧
    fldD (x.word o) = x.d ∧
    fldA (x.word o) = x.a ∧
    (x.word o).extractLsb' 22 9 = x.imm ∧
    bitAt (x.word o) 31 = x.la :=
  ⟨(low (bit1 x.la ++ x.imm ++ x.a ++ x.d) o 0 8 (by decide)).trans (whole _),
   (high (bit1 x.la ++ x.imm ++ x.a ++ x.d) o 8 7 (by decide)).trans ((low _ _ _ _ (by decide)).trans (whole _)),
   (high (bit1 x.la ++ x.imm ++ x.a ++ x.d) o 15 7 (by decide)).trans ((high _ _ _ _ (by decide)).trans ((low _ _ _ _ (by decide)).trans (whole _))),
   (high (bit1 x.la ++ x.imm ++ x.a ++ x.d) o 22 9 (by decide)).trans ((high _ _ _ _ (by decide)).trans ((high _ _ _ _ (by decide)).trans ((low _ _ _ _ (by decide)).trans (whole _)))),
   (bitHigh (bit1 x.la ++ x.imm ++ x.a ++ x.d) o 31 (by decide)).trans ((bitHigh _ _ _ (by decide)).trans ((bitHigh _ _ _ (by decide)).trans ((bitHigh _ _ _ (by decide)).trans (bit_bit1 _))))⟩

theorem fp_fields (o : BitVec 8) (x : FP) : fldOp (x.word o) = o ∧
    fldD (x.word o) = x.d ∧
    fldA (x.word o) = x.a ∧
    fldB (x.word o) = x.b ∧
    (x.word o).extractLsb' 29 3 = x.p :=
  ⟨(low (x.p ++ x.b ++ x.a ++ x.d) o 0 8 (by decide)).trans (whole _),
   (high (x.p ++ x.b ++ x.a ++ x.d) o 8 7 (by decide)).trans ((low _ _ _ _ (by decide)).trans (whole _)),
   (high (x.p ++ x.b ++ x.a ++ x.d) o 15 7 (by decide)).trans ((high _ _ _ _ (by decide)).trans ((low _ _ _ _ (by decide)).trans (whole _))),
   (high (x.p ++ x.b ++ x.a ++ x.d) o 22 7 (by decide)).trans ((high _ _ _ _ (by decide)).trans ((high _ _ _ _ (by decide)).trans ((low _ _ _ _ (by decide)).trans (whole _)))),
   (high (x.p ++ x.b ++ x.a ++ x.d) o 29 3 (by decide)).trans ((high _ _ _ _ (by decide)).trans ((high _ _ _ _ (by decide)).trans ((high _ _ _ _ (by decide)).trans (whole _))))⟩

theorem fm_fields (o : BitVec 8) (x : FM) : fldOp (x.word o) = o ∧
    fldD (x.word o) = x.t ∧
    fldA (x.word o) = x.a ∧
    (x.word o).extractLsb' 22 3 = x.space ∧
    (x.word o).extractLsb' 25 2 = x.ord ∧
    (x.word o).extractLsb' 27 3 = x.scope ∧
    bitAt (x.word o) 30 = x.l ∧
    bitAt (x.word o) 31 = x.x :=
  ⟨(low (bit1 x.x ++ bit1 x.l ++ x.scope ++ x.ord ++ x.space ++ x.a ++ x.t) o 0 8 (by decide)).trans (whole _),
   (high (bit1 x.x ++ bit1 x.l ++ x.scope ++ x.ord ++ x.space ++ x.a ++ x.t) o 8 7 (by decide)).trans ((low _ _ _ _ (by decide)).trans (whole _)),
   (high (bit1 x.x ++ bit1 x.l ++ x.scope ++ x.ord ++ x.space ++ x.a ++ x.t) o 15 7 (by decide)).trans ((high _ _ _ _ (by decide)).trans ((low _ _ _ _ (by decide)).trans (whole _))),
   (high (bit1 x.x ++ bit1 x.l ++ x.scope ++ x.ord ++ x.space ++ x.a ++ x.t) o 22 3 (by decide)).trans ((high _ _ _ _ (by decide)).trans ((high _ _ _ _ (by decide)).trans ((low _ _ _ _ (by decide)).trans (whole _)))),
   (high (bit1 x.x ++ bit1 x.l ++ x.scope ++ x.ord ++ x.space ++ x.a ++ x.t) o 25 2 (by decide)).trans ((high _ _ _ _ (by decide)).trans ((high _ _ _ _ (by decide)).trans ((high _ _ _ _ (by decide)).trans ((low _ _ _ _ (by decide)).trans (whole _))))),
   (high (bit1 x.x ++ bit1 x.l ++ x.scope ++ x.ord ++ x.space ++ x.a ++ x.t) o 27 3 (by decide)).trans ((high _ _ _ _ (by decide)).trans ((high _ _ _ _ (by decide)).trans ((high _ _ _ _ (by decide)).trans ((high _ _ _ _ (by decide)).trans ((low _ _ _ _ (by decide)).trans (whole _)))))),
   (bitHigh (bit1 x.x ++ bit1 x.l ++ x.scope ++ x.ord ++ x.space ++ x.a ++ x.t) o 30 (by decide)).trans ((bitHigh _ _ _ (by decide)).trans ((bitHigh _ _ _ (by decide)).trans ((bitHigh _ _ _ (by decide)).trans ((bitHigh _ _ _ (by decide)).trans ((bitHigh _ _ _ (by decide)).trans ((bitLow _ _ _ (by decide)).trans (bit_bit1 _))))))),
   (bitHigh (bit1 x.x ++ bit1 x.l ++ x.scope ++ x.ord ++ x.space ++ x.a ++ x.t) o 31 (by decide)).trans ((bitHigh _ _ _ (by decide)).trans ((bitHigh _ _ _ (by decide)).trans ((bitHigh _ _ _ (by decide)).trans ((bitHigh _ _ _ (by decide)).trans ((bitHigh _ _ _ (by decide)).trans ((bitHigh _ _ _ (by decide)).trans (bit_bit1 _)))))))⟩

theorem fb_fields (o : BitVec 8) (x : FB) : fldOp (x.word o) = o ∧
    (x.word o).extractLsb' 8 3 = x.p ∧
    bitAt (x.word o) 11 = x.n ∧
    (x.word o).extractLsb' 12 10 = x.tgt ∧
    (x.word o).extractLsb' 22 10 = x.join :=
  ⟨(low (x.join ++ x.tgt ++ bit1 x.n ++ x.p) o 0 8 (by decide)).trans (whole _),
   (high (x.join ++ x.tgt ++ bit1 x.n ++ x.p) o 8 3 (by decide)).trans ((low _ _ _ _ (by decide)).trans (whole _)),
   (bitHigh (x.join ++ x.tgt ++ bit1 x.n ++ x.p) o 11 (by decide)).trans ((bitHigh _ _ _ (by decide)).trans ((bitLow _ _ _ (by decide)).trans (bit_bit1 _))),
   (high (x.join ++ x.tgt ++ bit1 x.n ++ x.p) o 12 10 (by decide)).trans ((high _ _ _ _ (by decide)).trans ((high _ _ _ _ (by decide)).trans ((low _ _ _ _ (by decide)).trans (whole _)))),
   (high (x.join ++ x.tgt ++ bit1 x.n ++ x.p) o 22 10 (by decide)).trans ((high _ _ _ _ (by decide)).trans ((high _ _ _ _ (by decide)).trans ((high _ _ _ _ (by decide)).trans (whole _))))⟩

theorem fbl_fields (o : BitVec 8) (x : FBL) : fldOp (x.word o) = o ∧
    (x.word o).extractLsb' 8 24 = x.tgt :=
  ⟨(low (x.tgt) o 0 8 (by decide)).trans (whole _),
   (high (x.tgt) o 8 24 (by decide)).trans (whole _)⟩

theorem fe_fields (o : BitVec 8) (x : FE) : fldOp (x.word o) = o ∧
    fldD (x.word o) = x.d ∧
    fldA (x.word o) = x.a ∧
    fldB (x.word o) = x.b ∧
    (x.word o).extractLsb' 29 3 = x.f :=
  ⟨(low (x.f ++ x.b ++ x.a ++ x.d) o 0 8 (by decide)).trans (whole _),
   (high (x.f ++ x.b ++ x.a ++ x.d) o 8 7 (by decide)).trans ((low _ _ _ _ (by decide)).trans (whole _)),
   (high (x.f ++ x.b ++ x.a ++ x.d) o 15 7 (by decide)).trans ((high _ _ _ _ (by decide)).trans ((low _ _ _ _ (by decide)).trans (whole _))),
   (high (x.f ++ x.b ++ x.a ++ x.d) o 22 7 (by decide)).trans ((high _ _ _ _ (by decide)).trans ((high _ _ _ _ (by decide)).trans ((low _ _ _ _ (by decide)).trans (whole _)))),
   (high (x.f ++ x.b ++ x.a ++ x.d) o 29 3 (by decide)).trans ((high _ _ _ _ (by decide)).trans ((high _ _ _ _ (by decide)).trans ((high _ _ _ _ (by decide)).trans (whole _))))⟩

/-! Reading a word back. -/

theorem f3_of (o : BitVec 8) (lit : Word) (x : F3) :
    F3.of (x.word o) lit = { x with lit := if x.b = 0x7F then lit else 0 } := by
  obtain ⟨-, h1, h2, h3, h4, h5, h6⟩ := f3_fields o x
  unfold F3.of
  rw [h1, h2, h3, h4, h5, h6]

theorem fi_of (o : BitVec 8) (x : FI) : FI.of (x.word o) = x := by
  obtain ⟨-, h1, h2, h3, h4⟩ := fi_fields o x
  unfold FI.of
  rw [h1, h2, h3, h4]

theorem fp_of (o : BitVec 8) (lit : Word) (x : FP) :
    FP.of (x.word o) lit = { x with lit := if x.b = 0x7F then lit else 0 } := by
  obtain ⟨-, h1, h2, h3, h4⟩ := fp_fields o x
  unfold FP.of
  rw [h1, h2, h3, h4]

theorem fm_of (o : BitVec 8) (ext : Word) (x : FM) :
    FM.of (x.word o) ext = { x with ext := if x.x then ext else 0 } := by
  obtain ⟨-, h1, h2, h3, h4, h5, h6, h7⟩ := fm_fields o x
  unfold FM.of
  rw [h1, h2, h3, h4, h5, h6, h7]

theorem fb_of (o : BitVec 8) (x : FB) : FB.of (x.word o) = x := by
  obtain ⟨-, h1, h2, h3, h4⟩ := fb_fields o x
  unfold FB.of
  rw [h1, h2, h3, h4]

theorem fbl_of (o : BitVec 8) (x : FBL) : FBL.of (x.word o) = x := by
  obtain ⟨-, h1⟩ := fbl_fields o x
  unfold FBL.of
  rw [h1]

theorem fe_of (o : BitVec 8) (ext lit : Word) (x : FE) :
    FE.of (x.word o) ext lit = { x with ext := ext, lit := if x.b = 0x7F then lit else 0 } := by
  obtain ⟨-, h1, h2, h3, h4⟩ := fe_fields o x
  unfold FE.of
  rw [h1, h2, h3, h4]

/-! Decoding what was encoded. -/

theorem wf_fixed {i : Instr} (h : i.wf = true) : fixedOk i (headWord i) = true ∧ unusedWords i = 0 := by
  simp only [Instr.wf, Bool.and_eq_true, beq_iff_eq] at h
  exact ⟨h.1.1, h.1.2⟩

theorem decode_encode (cls : Nat) (i : Instr) (w : Word) (tail rest : List Word) (hw : encode i = w :: tail)
    (hs : sizeOf cls w = 1 + tail.length)
    (hb : buildInstr cls w ((tail ++ rest).headD 0) (((tail ++ rest).drop 1).headD 0) = some i)
    (hf : fixedOk i w = true) : decodeWords cls (encode i ++ rest) = .ok (i, rest) := by
  rw [hw]
  unfold decodeWords
  simp only [List.cons_append]
  rw [if_neg (by simp [hs]; omega), hb]
  simp only [hf, if_true, hs]
  rw [Nat.add_comm, List.drop_succ_cons, List.drop_left]

/-- Class VEC, format F3. -/
theorem f3_decodes (mk : F3 → Instr) (o : BitVec 8) (x : F3) (rest : List Word) (h : (mk x).wf = true)
    (hc : classOf (mk x) = some 0) (he : extWord (mk x) = none)
    (hlit : litWord (mk x) = if x.b = 0x7F then some x.lit else none) (hh : headWord (mk x) = x.word o)
    (hu : unusedWords (mk x) = if x.b = 0x7F then 0 else x.lit) (hl : vecHasLit o.toNat = true)
    (hb : ∀ w lit, buildVec o.toNat w lit = some (mk (F3.of w lit))) :
    decodeWords 0 (encode (mk x) ++ rest) = .ok (mk x, rest) := by
  have hw : encode (mk x) = x.word o :: (if x.b = 0x7F then [x.lit] else []) := by
    simp only [encode, hc, he, hlit, hh]
    split <;> rfl
  obtain ⟨h1, h2⟩ := wf_fixed h
  obtain ⟨h0, -, -, h3, -⟩ := f3_fields o x
  rw [hh] at h1
  rw [hu] at h2
  refine decode_encode 0 (mk x) (x.word o) _ rest hw ?_ ?_ h1
  · simp only [sizeOf, h0, h3, hl, if_true]
    split <;> rfl
  · simp only [buildInstr, h0, hb, f3_of]
    obtain ⟨d, a, b, la, lb, m, l⟩ := x
    simp only at h2 ⊢
    by_cases hb : b = 0x7F
    · simp [hb]
    · rw [if_neg hb] at h2
      simp only [if_neg hb, h2]

/-- Class VEC, format FI. -/
theorem fi_decodes (mk : FI → Instr) (o : BitVec 8) (x : FI) (rest : List Word) (h : (mk x).wf = true)
    (hc : classOf (mk x) = some 0)
    (he : extWord (mk x) = none) (hlit : litWord (mk x) = none) (hh : headWord (mk x) = x.word o) (hl : vecHasLit o.toNat = false)
    (hb : ∀ w lit, buildVec o.toNat w lit = some (mk (FI.of w))) :
    decodeWords 0 (encode (mk x) ++ rest) = .ok (mk x, rest) := by
  have hw : encode (mk x) = [x.word o] := by
    simp only [encode, hc, he, hlit, hh]
    rfl
  obtain ⟨h1, -⟩ := wf_fixed h
  obtain ⟨h0, -⟩ := fi_fields o x
  rw [hh] at h1
  refine decode_encode 0 (mk x) (x.word o) [] rest hw ?_ ?_ h1
  · simp only [sizeOf, h0, hl]
    rfl
  · simp only [buildInstr, h0, hb, fi_of]

/-- Class VEC, format FP. -/
theorem fp_decodes (mk : FP → Instr) (o : BitVec 8) (x : FP) (rest : List Word) (h : (mk x).wf = true)
    (hc : classOf (mk x) = some 0) (he : extWord (mk x) = none)
    (hlit : litWord (mk x) = if x.b = 0x7F then some x.lit else none) (hh : headWord (mk x) = x.word o)
    (hu : unusedWords (mk x) = if x.b = 0x7F then 0 else x.lit) (hl : vecHasLit o.toNat = true)
    (hb : ∀ w lit, buildVec o.toNat w lit = some (mk (FP.of w lit))) :
    decodeWords 0 (encode (mk x) ++ rest) = .ok (mk x, rest) := by
  have hw : encode (mk x) = x.word o :: (if x.b = 0x7F then [x.lit] else []) := by
    simp only [encode, hc, he, hlit, hh]
    split <;> rfl
  obtain ⟨h1, h2⟩ := wf_fixed h
  obtain ⟨h0, -, -, h3, -⟩ := fp_fields o x
  rw [hh] at h1
  rw [hu] at h2
  refine decode_encode 0 (mk x) (x.word o) _ rest hw ?_ ?_ h1
  · simp only [sizeOf, h0, h3, hl, if_true]
    split <;> rfl
  · simp only [buildInstr, h0, hb, fp_of]
    obtain ⟨d, a, b, p, l⟩ := x
    simp only at h2 ⊢
    by_cases hb : b = 0x7F
    · simp [hb]
    · rw [if_neg hb] at h2
      simp only [if_neg hb, h2]

/-- Class MEM. -/
theorem fm_decodes (mk : FM → Instr) (o : BitVec 8) (x : FM) (rest : List Word) (h : (mk x).wf = true)
    (hc : classOf (mk x) = some 1)
    (he : extWord (mk x) = if x.x then some x.ext else none) (hlit : litWord (mk x) = none) (hh : headWord (mk x) = x.word o)
    (hu : unusedWords (mk x) = if x.x then 0 else x.ext)
    (hb : ∀ w ext, buildMem o.toNat w ext = some (mk (FM.of w ext))) :
    decodeWords 1 (encode (mk x) ++ rest) = .ok (mk x, rest) := by
  have hw : encode (mk x) = x.word o :: (if x.x then [x.ext] else []) := by
    simp only [encode, hc, he, hlit, hh]
    split <;> rfl
  obtain ⟨h1, h2⟩ := wf_fixed h
  obtain ⟨h0, -, -, -, -, -, -, h3⟩ := fm_fields o x
  rw [hh] at h1
  rw [hu] at h2
  refine decode_encode 1 (mk x) (x.word o) _ rest hw ?_ ?_ h1
  · simp only [sizeOf, h0, h3, hb, Option.isSome_some, Bool.true_and]
    split <;> rfl
  · simp only [buildInstr, h0, hb, fm_of]
    obtain ⟨t, a, sp, od, sc, l, k, e⟩ := x
    simp only at h2 ⊢
    cases k
    · simp at h2
      simp [h2]
    · simp

/-- Class CTL, formats FB, FB long and the rest: one word. -/
theorem ctl_decodes (i : Instr) (o : BitVec 8) (w : Word) (rest : List Word) (h : i.wf = true) (hc : classOf i = some 2)
    (he : extWord i = none) (hlit : litWord i = none)
    (hh : headWord i = w) (h0 : fldOp w = o) (hb : buildCtl o.toNat w = some i) :
    decodeWords 2 (encode i ++ rest) = .ok (i, rest) := by
  have hw : encode i = [w] := by
    simp only [encode, hc, he, hlit, hh]
    rfl
  obtain ⟨h1, -⟩ := wf_fixed h
  rw [hh] at h1
  refine decode_encode 2 i w [] rest hw rfl ?_ h1
  simp only [buildInstr, h0, hb]

/-- Class ENG, without an extension word. -/
theorem fe_decodes (mk : FE → Instr) (o : BitVec 8) (x : FE) (rest : List Word) (h : (mk x).wf = true)
    (hc : classOf (mk x) = some 3) (he : extWord (mk x) = none)
    (hlit : litWord (mk x) = if x.b = 0x7F then some x.lit else none) (hh : headWord (mk x) = x.word o)
    (hu : unusedWords (mk x) = x.ext ||| (if x.b = 0x7F then 0 else x.lit)) (hx : engExt o.toNat = 0)
    (hs : ([0, 1, 2, 3, 16, 17, 18, 19, 20, 21, 22, 23, 24, 25, 32, 33, 34, 40, 41, 42, 43, 44, 45, 46, 47, 48, 49, 56, 57, 58, 59,
      60, 61, 62] : List Nat).contains o.toNat = true)
    (hb : ∀ w ext lit, buildEng o.toNat w ext lit = some (mk (FE.of w ext lit))) :
    decodeWords 3 (encode (mk x) ++ rest) = .ok (mk x, rest) := by
  have hw : encode (mk x) = x.word o :: (if x.b = 0x7F then [x.lit] else []) := by
    simp only [encode, hc, he, hlit, hh]
    split <;> rfl
  obtain ⟨h1, h2⟩ := wf_fixed h
  obtain ⟨h0, -, -, h3, -⟩ := fe_fields o x
  rw [hh] at h1
  rw [hu] at h2
  refine decode_encode 3 (mk x) (x.word o) _ rest hw ?_ ?_ h1
  · simp only [sizeOf, h0, h3, hx, hs, if_true]; split <;> rfl
  · simp only [buildInstr, h0, hx, hb, fe_of]
    obtain ⟨d, a, b, f, e, l⟩ := x
    simp only at h2 ⊢
    have h4 : e = 0 := (BitVec.or_eq_zero_iff.1 h2).1
    subst h4
    by_cases hb : b = 0x7F
    · simp [hb]
    · rw [if_neg hb] at h2
      simp only [if_neg hb, (BitVec.or_eq_zero_iff.1 h2).2]
      rfl

/-- Class ENG, with an extension word. -/
theorem fe_ext_decodes (mk : FE → Instr) (o : BitVec 8) (x : FE) (rest : List Word) (h : (mk x).wf = true)
    (hc : classOf (mk x) = some 3) (he : extWord (mk x) = some x.ext)
    (hlit : litWord (mk x) = if x.b = 0x7F then some x.lit else none) (hh : headWord (mk x) = x.word o)
    (hu : unusedWords (mk x) = if x.b = 0x7F then 0 else x.lit) (hx : engExt o.toNat = 1)
    (hs : ([0, 1, 2, 3, 16, 17, 18, 19, 20, 21, 22, 23, 24, 25, 32, 33, 34, 40, 41, 42, 43, 44, 45, 46, 47, 48, 49, 56, 57, 58, 59,
      60, 61, 62] : List Nat).contains o.toNat = true)
    (hb : ∀ w ext lit, buildEng o.toNat w ext lit = some (mk (FE.of w ext lit))) :
    decodeWords 3 (encode (mk x) ++ rest) = .ok (mk x, rest) := by
  have hw : encode (mk x) = x.word o :: x.ext :: (if x.b = 0x7F then [x.lit] else []) := by
    simp only [encode, hc, he, hlit, hh]
    split <;> rfl
  obtain ⟨h1, h2⟩ := wf_fixed h
  obtain ⟨h0, -, -, h3, -⟩ := fe_fields o x
  rw [hh] at h1
  rw [hu] at h2
  refine decode_encode 3 (mk x) (x.word o) _ rest hw ?_ ?_ h1
  · simp only [sizeOf, h0, h3, hx, hs, if_true]; split <;> rfl
  · simp only [buildInstr, h0, hx, hb, fe_of, if_true]
    obtain ⟨d, a, b, f, e, l⟩ := x
    simp only at h2 ⊢
    by_cases hb : b = 0x7F
    · simp [hb]
    · rw [if_neg hb] at h2
      simp only [if_neg hb, h2]
      rfl

/-- Class GRF. -/
theorem grf_decodes (mk : FE → Instr) (o : BitVec 8) (x : FE) (rest : List Word) (h : (mk x).wf = true)
    (hc : classOf (mk x) = some 4) (he : extWord (mk x) = none)
    (hlit : litWord (mk x) = if x.b = 0x7F then some x.lit else none) (hh : headWord (mk x) = x.word o)
    (hu : unusedWords (mk x) = x.ext ||| (if x.b = 0x7F then 0 else x.lit)) (ho : o.toNat < 14)
    (hb : ∀ w ext lit, buildGrf o.toNat w ext lit = some (mk (FE.of w ext lit))) :
    decodeWords 4 (encode (mk x) ++ rest) = .ok (mk x, rest) := by
  have hw : encode (mk x) = x.word o :: (if x.b = 0x7F then [x.lit] else []) := by
    simp only [encode, hc, he, hlit, hh]
    split <;> rfl
  obtain ⟨h1, h2⟩ := wf_fixed h
  obtain ⟨h0, -, -, h3, -⟩ := fe_fields o x
  rw [hh] at h1
  rw [hu] at h2
  refine decode_encode 4 (mk x) (x.word o) _ rest hw ?_ ?_ h1
  · simp only [sizeOf, h0, h3, ho, if_true]; split <;> rfl
  · simp only [buildInstr, h0, hb, fe_of]
    obtain ⟨d, a, b, f, e, l⟩ := x
    simp only at h2 ⊢
    have h4 : e = 0 := (BitVec.or_eq_zero_iff.1 h2).1
    subst h4
    by_cases hb : b = 0x7F
    · simp [hb]
    · rw [if_neg hb] at h2
      simp only [if_neg hb, (BitVec.or_eq_zero_iff.1 h2).2]
      rfl

/-! Class CTL, the words with fields of their own. -/

theorem wordA_fields (o : BitVec 8) (a : Reg) : fldOp (wordA o a) = o ∧ fldA (wordA o a) = a :=
  ⟨(low (0#10 ++ a ++ 0#7) o 0 8 (by decide)).trans (whole _),
   (high (0#10 ++ a ++ 0#7) o 15 7 (by decide)).trans ((high _ _ _ _ (by decide)).trans ((low _ _ _ _ (by decide)).trans (whole _)))⟩

theorem wordReord_fields (o : BitVec 8) (k : BitVec 4) (key : Reg) :
    fldOp (wordReord o k key) = o ∧ fldD (wordReord o k key) = key ∧ (wordReord o k key).extractLsb' 15 4 = k :=
  ⟨(low (0#13 ++ k ++ key) o 0 8 (by decide)).trans (whole _),
   (high (0#13 ++ k ++ key) o 8 7 (by decide)).trans ((low _ _ _ _ (by decide)).trans (whole _)),
   (high (0#13 ++ k ++ key) o 15 4 (by decide)).trans ((high _ _ _ _ (by decide)).trans ((low _ _ _ _ (by decide)).trans (whole _)))⟩

theorem wordSpawn_fields (o : BitVec 8) (k : BitVec 10) (a1 a0 : Reg) :
    fldOp (wordSpawn o k a1 a0) = o ∧ fldD (wordSpawn o k a1 a0) = a0 ∧ fldA (wordSpawn o k a1 a0) = a1 ∧
      (wordSpawn o k a1 a0).extractLsb' 22 10 = k :=
  ⟨(low (k ++ a1 ++ a0) o 0 8 (by decide)).trans (whole _),
   (high (k ++ a1 ++ a0) o 8 7 (by decide)).trans ((low _ _ _ _ (by decide)).trans (whole _)),
   (high (k ++ a1 ++ a0) o 15 7 (by decide)).trans ((high _ _ _ _ (by decide)).trans ((low _ _ _ _ (by decide)).trans (whole _))),
   (high (k ++ a1 ++ a0) o 22 10 (by decide)).trans ((high _ _ _ _ (by decide)).trans ((high _ _ _ _ (by decide)).trans (whole _)))⟩

theorem wordCode_fields (o : BitVec 8) (code : BitVec 24) :
    fldOp (wordCode o code) = o ∧ (wordCode o code).extractLsb' 8 24 = code :=
  ⟨(low code o 0 8 (by decide)).trans (whole _), (high code o 8 24 (by decide)).trans (whole _)⟩

theorem wordScope_fields (o : BitVec 8) (k : BitVec 3) :
    fldOp (wordScope o k) = o ∧ (wordScope o k).extractLsb' 8 3 = k :=
  ⟨(low (0#21 ++ k) o 0 8 (by decide)).trans (whole _),
   (high (0#21 ++ k) o 8 3 (by decide)).trans ((low _ _ _ _ (by decide)).trans (whole _))⟩

theorem wordCsr_fields (o : BitVec 8) (n : BitVec 12) (r : Reg) :
    fldOp (wordCsr o n r) = o ∧ fldD (wordCsr o n r) = r ∧ (wordCsr o n r).extractLsb' 20 12 = n :=
  ⟨(low (n ++ 0#5 ++ r) o 0 8 (by decide)).trans (whole _),
   (high (n ++ 0#5 ++ r) o 8 7 (by decide)).trans ((low _ _ _ _ (by decide)).trans (whole _)),
   (high (n ++ 0#5 ++ r) o 20 12 (by decide)).trans ((high _ _ _ _ (by decide)).trans ((high _ _ _ _ (by decide)).trans (whole _)))⟩

end Sys2Proof.Laws.Encode
end

