-- ==== Sys2Proof/Laws/State.lean ====
section
/-! SUPPORT. What each update of State leaves as it was, one lemma per field. -/

namespace Sys2Proof.Machine

@[simp] theorem setWave_mem (s : State) (w : Nat) (v : Wave) : (setWave s w v).mem = s.mem := rfl
@[simp] theorem setWave_views (s : State) (w : Nat) (v : Wave) : (setWave s w v).views = s.views := rfl
@[simp] theorem setWave_tlbs (s : State) (w : Nat) (v : Wave) : (setWave s w v).tlbs = s.tlbs := rfl
@[simp] theorem setWave_orph (s : State) (w : Nat) (v : Wave) : (setWave s w v).orph = s.orph := rfl
@[simp] theorem setWave_wgs (s : State) (w : Nat) (v : Wave) : (setWave s w v).wgs = s.wgs := rfl
@[simp] theorem setWave_cores (s : State) (w : Nat) (v : Wave) : (setWave s w v).cores = s.cores := rfl
@[simp] theorem setWave_dash (s : State) (w : Nat) (v : Wave) : (setWave s w v).dash = s.dash := rfl
@[simp] theorem setWave_parts (s : State) (w : Nat) (v : Wave) : (setWave s w v).parts = s.parts := rfl
@[simp] theorem setWave_ops (s : State) (w : Nat) (v : Wave) : (setWave s w v).ops = s.ops := rfl
@[simp] theorem setWave_btiles (s : State) (w : Nat) (v : Wave) : (setWave s w v).btiles = s.btiles := rfl
@[simp] theorem setWave_bres (s : State) (w : Nat) (v : Wave) : (setWave s w v).bres = s.bres := rfl
@[simp] theorem setWave_dev (s : State) (w : Nat) (v : Wave) : (setWave s w v).dev = s.dev := rfl
@[simp] theorem setWave_nextId (s : State) (w : Nat) (v : Wave) : (setWave s w v).nextId = s.nextId := rfl
@[simp] theorem setWave_cur (s : State) (w : Nat) (v : Wave) : (setWave s w v).cur = s.cur := rfl
@[simp] theorem setWave_curB (s : State) (w : Nat) (v : Wave) : (setWave s w v).curB = s.curB := rfl
@[simp] theorem setWave_choice (s : State) (w : Nat) (v : Wave) : (setWave s w v).choice = s.choice := rfl
@[simp] theorem setWave_agenda (s : State) (w : Nat) (v : Wave) : (setWave s w v).agenda = s.agenda := rfl
@[simp] theorem setWave_fresh (s : State) (w : Nat) (v : Wave) : (setWave s w v).fresh = s.fresh := rfl
@[simp] theorem setWave_seq (s : State) (w : Nat) (v : Wave) : (setWave s w v).seq = s.seq := rfl
@[simp] theorem setWave_epoch (s : State) (w : Nat) (v : Wave) : (setWave s w v).epoch = s.epoch := rfl

@[simp] theorem updWave_mem (s : State) (w : Nat) (f : Wave → Wave) : (updWave s w f).mem = s.mem := rfl
@[simp] theorem updWave_views (s : State) (w : Nat) (f : Wave → Wave) : (updWave s w f).views = s.views := rfl
@[simp] theorem updWave_tlbs (s : State) (w : Nat) (f : Wave → Wave) : (updWave s w f).tlbs = s.tlbs := rfl
@[simp] theorem updWave_orph (s : State) (w : Nat) (f : Wave → Wave) : (updWave s w f).orph = s.orph := rfl
@[simp] theorem updWave_wgs (s : State) (w : Nat) (f : Wave → Wave) : (updWave s w f).wgs = s.wgs := rfl
@[simp] theorem updWave_cores (s : State) (w : Nat) (f : Wave → Wave) : (updWave s w f).cores = s.cores := rfl
@[simp] theorem updWave_dash (s : State) (w : Nat) (f : Wave → Wave) : (updWave s w f).dash = s.dash := rfl
@[simp] theorem updWave_parts (s : State) (w : Nat) (f : Wave → Wave) : (updWave s w f).parts = s.parts := rfl
@[simp] theorem updWave_ops (s : State) (w : Nat) (f : Wave → Wave) : (updWave s w f).ops = s.ops := rfl
@[simp] theorem updWave_btiles (s : State) (w : Nat) (f : Wave → Wave) : (updWave s w f).btiles = s.btiles := rfl
@[simp] theorem updWave_bres (s : State) (w : Nat) (f : Wave → Wave) : (updWave s w f).bres = s.bres := rfl
@[simp] theorem updWave_dev (s : State) (w : Nat) (f : Wave → Wave) : (updWave s w f).dev = s.dev := rfl
@[simp] theorem updWave_nextId (s : State) (w : Nat) (f : Wave → Wave) : (updWave s w f).nextId = s.nextId := rfl
@[simp] theorem updWave_cur (s : State) (w : Nat) (f : Wave → Wave) : (updWave s w f).cur = s.cur := rfl
@[simp] theorem updWave_curB (s : State) (w : Nat) (f : Wave → Wave) : (updWave s w f).curB = s.curB := rfl
@[simp] theorem updWave_choice (s : State) (w : Nat) (f : Wave → Wave) : (updWave s w f).choice = s.choice := rfl
@[simp] theorem updWave_agenda (s : State) (w : Nat) (f : Wave → Wave) : (updWave s w f).agenda = s.agenda := rfl
@[simp] theorem updWave_fresh (s : State) (w : Nat) (f : Wave → Wave) : (updWave s w f).fresh = s.fresh := rfl
@[simp] theorem updWave_seq (s : State) (w : Nat) (f : Wave → Wave) : (updWave s w f).seq = s.seq := rfl
@[simp] theorem updWave_epoch (s : State) (w : Nat) (f : Wave → Wave) : (updWave s w f).epoch = s.epoch := rfl

@[simp] theorem updWg_mem (s : State) (g : Nat) (f : Wg → Wg) : (updWg s g f).mem = s.mem := rfl
@[simp] theorem updWg_views (s : State) (g : Nat) (f : Wg → Wg) : (updWg s g f).views = s.views := rfl
@[simp] theorem updWg_tlbs (s : State) (g : Nat) (f : Wg → Wg) : (updWg s g f).tlbs = s.tlbs := rfl
@[simp] theorem updWg_waves (s : State) (g : Nat) (f : Wg → Wg) : (updWg s g f).waves = s.waves := rfl
@[simp] theorem updWg_orph (s : State) (g : Nat) (f : Wg → Wg) : (updWg s g f).orph = s.orph := rfl
@[simp] theorem updWg_cores (s : State) (g : Nat) (f : Wg → Wg) : (updWg s g f).cores = s.cores := rfl
@[simp] theorem updWg_dash (s : State) (g : Nat) (f : Wg → Wg) : (updWg s g f).dash = s.dash := rfl
@[simp] theorem updWg_parts (s : State) (g : Nat) (f : Wg → Wg) : (updWg s g f).parts = s.parts := rfl
@[simp] theorem updWg_ops (s : State) (g : Nat) (f : Wg → Wg) : (updWg s g f).ops = s.ops := rfl
@[simp] theorem updWg_btiles (s : State) (g : Nat) (f : Wg → Wg) : (updWg s g f).btiles = s.btiles := rfl
@[simp] theorem updWg_bres (s : State) (g : Nat) (f : Wg → Wg) : (updWg s g f).bres = s.bres := rfl
@[simp] theorem updWg_dev (s : State) (g : Nat) (f : Wg → Wg) : (updWg s g f).dev = s.dev := rfl
@[simp] theorem updWg_nextId (s : State) (g : Nat) (f : Wg → Wg) : (updWg s g f).nextId = s.nextId := rfl
@[simp] theorem updWg_cur (s : State) (g : Nat) (f : Wg → Wg) : (updWg s g f).cur = s.cur := rfl
@[simp] theorem updWg_curB (s : State) (g : Nat) (f : Wg → Wg) : (updWg s g f).curB = s.curB := rfl
@[simp] theorem updWg_choice (s : State) (g : Nat) (f : Wg → Wg) : (updWg s g f).choice = s.choice := rfl
@[simp] theorem updWg_agenda (s : State) (g : Nat) (f : Wg → Wg) : (updWg s g f).agenda = s.agenda := rfl
@[simp] theorem updWg_fresh (s : State) (g : Nat) (f : Wg → Wg) : (updWg s g f).fresh = s.fresh := rfl
@[simp] theorem updWg_seq (s : State) (g : Nat) (f : Wg → Wg) : (updWg s g f).seq = s.seq := rfl
@[simp] theorem updWg_epoch (s : State) (g : Nat) (f : Wg → Wg) : (updWg s g f).epoch = s.epoch := rfl

@[simp] theorem setCore_mem (s : State) (k : Nat) (x : Core) : (setCore s k x).mem = s.mem := rfl
@[simp] theorem setCore_views (s : State) (k : Nat) (x : Core) : (setCore s k x).views = s.views := rfl
@[simp] theorem setCore_tlbs (s : State) (k : Nat) (x : Core) : (setCore s k x).tlbs = s.tlbs := rfl
@[simp] theorem setCore_waves (s : State) (k : Nat) (x : Core) : (setCore s k x).waves = s.waves := rfl
@[simp] theorem setCore_orph (s : State) (k : Nat) (x : Core) : (setCore s k x).orph = s.orph := rfl
@[simp] theorem setCore_wgs (s : State) (k : Nat) (x : Core) : (setCore s k x).wgs = s.wgs := rfl
@[simp] theorem setCore_dash (s : State) (k : Nat) (x : Core) : (setCore s k x).dash = s.dash := rfl
@[simp] theorem setCore_parts (s : State) (k : Nat) (x : Core) : (setCore s k x).parts = s.parts := rfl
@[simp] theorem setCore_ops (s : State) (k : Nat) (x : Core) : (setCore s k x).ops = s.ops := rfl
@[simp] theorem setCore_btiles (s : State) (k : Nat) (x : Core) : (setCore s k x).btiles = s.btiles := rfl
@[simp] theorem setCore_bres (s : State) (k : Nat) (x : Core) : (setCore s k x).bres = s.bres := rfl
@[simp] theorem setCore_dev (s : State) (k : Nat) (x : Core) : (setCore s k x).dev = s.dev := rfl
@[simp] theorem setCore_nextId (s : State) (k : Nat) (x : Core) : (setCore s k x).nextId = s.nextId := rfl
@[simp] theorem setCore_cur (s : State) (k : Nat) (x : Core) : (setCore s k x).cur = s.cur := rfl
@[simp] theorem setCore_curB (s : State) (k : Nat) (x : Core) : (setCore s k x).curB = s.curB := rfl
@[simp] theorem setCore_choice (s : State) (k : Nat) (x : Core) : (setCore s k x).choice = s.choice := rfl
@[simp] theorem setCore_agenda (s : State) (k : Nat) (x : Core) : (setCore s k x).agenda = s.agenda := rfl
@[simp] theorem setCore_fresh (s : State) (k : Nat) (x : Core) : (setCore s k x).fresh = s.fresh := rfl
@[simp] theorem setCore_seq (s : State) (k : Nat) (x : Core) : (setCore s k x).seq = s.seq := rfl
@[simp] theorem setCore_epoch (s : State) (k : Nat) (x : Core) : (setCore s k x).epoch = s.epoch := rfl

@[simp] theorem setDash_mem (s : State) (k : Nat) (x : Dash) : (setDash s k x).mem = s.mem := rfl
@[simp] theorem setDash_views (s : State) (k : Nat) (x : Dash) : (setDash s k x).views = s.views := rfl
@[simp] theorem setDash_tlbs (s : State) (k : Nat) (x : Dash) : (setDash s k x).tlbs = s.tlbs := rfl
@[simp] theorem setDash_waves (s : State) (k : Nat) (x : Dash) : (setDash s k x).waves = s.waves := rfl
@[simp] theorem setDash_orph (s : State) (k : Nat) (x : Dash) : (setDash s k x).orph = s.orph := rfl
@[simp] theorem setDash_wgs (s : State) (k : Nat) (x : Dash) : (setDash s k x).wgs = s.wgs := rfl
@[simp] theorem setDash_cores (s : State) (k : Nat) (x : Dash) : (setDash s k x).cores = s.cores := rfl
@[simp] theorem setDash_parts (s : State) (k : Nat) (x : Dash) : (setDash s k x).parts = s.parts := rfl
@[simp] theorem setDash_ops (s : State) (k : Nat) (x : Dash) : (setDash s k x).ops = s.ops := rfl
@[simp] theorem setDash_btiles (s : State) (k : Nat) (x : Dash) : (setDash s k x).btiles = s.btiles := rfl
@[simp] theorem setDash_bres (s : State) (k : Nat) (x : Dash) : (setDash s k x).bres = s.bres := rfl
@[simp] theorem setDash_dev (s : State) (k : Nat) (x : Dash) : (setDash s k x).dev = s.dev := rfl
@[simp] theorem setDash_nextId (s : State) (k : Nat) (x : Dash) : (setDash s k x).nextId = s.nextId := rfl
@[simp] theorem setDash_cur (s : State) (k : Nat) (x : Dash) : (setDash s k x).cur = s.cur := rfl
@[simp] theorem setDash_curB (s : State) (k : Nat) (x : Dash) : (setDash s k x).curB = s.curB := rfl
@[simp] theorem setDash_choice (s : State) (k : Nat) (x : Dash) : (setDash s k x).choice = s.choice := rfl
@[simp] theorem setDash_agenda (s : State) (k : Nat) (x : Dash) : (setDash s k x).agenda = s.agenda := rfl
@[simp] theorem setDash_fresh (s : State) (k : Nat) (x : Dash) : (setDash s k x).fresh = s.fresh := rfl
@[simp] theorem setDash_seq (s : State) (k : Nat) (x : Dash) : (setDash s k x).seq = s.seq := rfl
@[simp] theorem setDash_epoch (s : State) (k : Nat) (x : Dash) : (setDash s k x).epoch = s.epoch := rfl

@[simp] theorem setPart_mem (s : State) (n : Nat) (x : Part) : (setPart s n x).mem = s.mem := rfl
@[simp] theorem setPart_views (s : State) (n : Nat) (x : Part) : (setPart s n x).views = s.views := rfl
@[simp] theorem setPart_tlbs (s : State) (n : Nat) (x : Part) : (setPart s n x).tlbs = s.tlbs := rfl
@[simp] theorem setPart_waves (s : State) (n : Nat) (x : Part) : (setPart s n x).waves = s.waves := rfl
@[simp] theorem setPart_orph (s : State) (n : Nat) (x : Part) : (setPart s n x).orph = s.orph := rfl
@[simp] theorem setPart_wgs (s : State) (n : Nat) (x : Part) : (setPart s n x).wgs = s.wgs := rfl
@[simp] theorem setPart_cores (s : State) (n : Nat) (x : Part) : (setPart s n x).cores = s.cores := rfl
@[simp] theorem setPart_dash (s : State) (n : Nat) (x : Part) : (setPart s n x).dash = s.dash := rfl
@[simp] theorem setPart_ops (s : State) (n : Nat) (x : Part) : (setPart s n x).ops = s.ops := rfl
@[simp] theorem setPart_btiles (s : State) (n : Nat) (x : Part) : (setPart s n x).btiles = s.btiles := rfl
@[simp] theorem setPart_bres (s : State) (n : Nat) (x : Part) : (setPart s n x).bres = s.bres := rfl
@[simp] theorem setPart_dev (s : State) (n : Nat) (x : Part) : (setPart s n x).dev = s.dev := rfl
@[simp] theorem setPart_nextId (s : State) (n : Nat) (x : Part) : (setPart s n x).nextId = s.nextId := rfl
@[simp] theorem setPart_cur (s : State) (n : Nat) (x : Part) : (setPart s n x).cur = s.cur := rfl
@[simp] theorem setPart_curB (s : State) (n : Nat) (x : Part) : (setPart s n x).curB = s.curB := rfl
@[simp] theorem setPart_choice (s : State) (n : Nat) (x : Part) : (setPart s n x).choice = s.choice := rfl
@[simp] theorem setPart_agenda (s : State) (n : Nat) (x : Part) : (setPart s n x).agenda = s.agenda := rfl
@[simp] theorem setPart_fresh (s : State) (n : Nat) (x : Part) : (setPart s n x).fresh = s.fresh := rfl
@[simp] theorem setPart_seq (s : State) (n : Nat) (x : Part) : (setPart s n x).seq = s.seq := rfl
@[simp] theorem setPart_epoch (s : State) (n : Nat) (x : Part) : (setPart s n x).epoch = s.epoch := rfl

@[simp] theorem updPart_mem (s : State) (n : Nat) (f : Part → Part) : (updPart s n f).mem = s.mem := rfl
@[simp] theorem updPart_views (s : State) (n : Nat) (f : Part → Part) : (updPart s n f).views = s.views := rfl
@[simp] theorem updPart_tlbs (s : State) (n : Nat) (f : Part → Part) : (updPart s n f).tlbs = s.tlbs := rfl
@[simp] theorem updPart_waves (s : State) (n : Nat) (f : Part → Part) : (updPart s n f).waves = s.waves := rfl
@[simp] theorem updPart_orph (s : State) (n : Nat) (f : Part → Part) : (updPart s n f).orph = s.orph := rfl
@[simp] theorem updPart_wgs (s : State) (n : Nat) (f : Part → Part) : (updPart s n f).wgs = s.wgs := rfl
@[simp] theorem updPart_cores (s : State) (n : Nat) (f : Part → Part) : (updPart s n f).cores = s.cores := rfl
@[simp] theorem updPart_dash (s : State) (n : Nat) (f : Part → Part) : (updPart s n f).dash = s.dash := rfl
@[simp] theorem updPart_ops (s : State) (n : Nat) (f : Part → Part) : (updPart s n f).ops = s.ops := rfl
@[simp] theorem updPart_btiles (s : State) (n : Nat) (f : Part → Part) : (updPart s n f).btiles = s.btiles := rfl
@[simp] theorem updPart_bres (s : State) (n : Nat) (f : Part → Part) : (updPart s n f).bres = s.bres := rfl
@[simp] theorem updPart_dev (s : State) (n : Nat) (f : Part → Part) : (updPart s n f).dev = s.dev := rfl
@[simp] theorem updPart_nextId (s : State) (n : Nat) (f : Part → Part) : (updPart s n f).nextId = s.nextId := rfl
@[simp] theorem updPart_cur (s : State) (n : Nat) (f : Part → Part) : (updPart s n f).cur = s.cur := rfl
@[simp] theorem updPart_curB (s : State) (n : Nat) (f : Part → Part) : (updPart s n f).curB = s.curB := rfl
@[simp] theorem updPart_choice (s : State) (n : Nat) (f : Part → Part) : (updPart s n f).choice = s.choice := rfl
@[simp] theorem updPart_agenda (s : State) (n : Nat) (f : Part → Part) : (updPart s n f).agenda = s.agenda := rfl
@[simp] theorem updPart_fresh (s : State) (n : Nat) (f : Part → Part) : (updPart s n f).fresh = s.fresh := rfl
@[simp] theorem updPart_seq (s : State) (n : Nat) (f : Part → Part) : (updPart s n f).seq = s.seq := rfl
@[simp] theorem updPart_epoch (s : State) (n : Nat) (f : Part → Part) : (updPart s n f).epoch = s.epoch := rfl

@[simp] theorem updGraph_mem (s : State) (n g : Nat) (f : Graph → Graph) : (updGraph s n g f).mem = s.mem := rfl
@[simp] theorem updGraph_views (s : State) (n g : Nat) (f : Graph → Graph) : (updGraph s n g f).views = s.views := rfl
@[simp] theorem updGraph_tlbs (s : State) (n g : Nat) (f : Graph → Graph) : (updGraph s n g f).tlbs = s.tlbs := rfl
@[simp] theorem updGraph_waves (s : State) (n g : Nat) (f : Graph → Graph) : (updGraph s n g f).waves = s.waves := rfl
@[simp] theorem updGraph_orph (s : State) (n g : Nat) (f : Graph → Graph) : (updGraph s n g f).orph = s.orph := rfl
@[simp] theorem updGraph_wgs (s : State) (n g : Nat) (f : Graph → Graph) : (updGraph s n g f).wgs = s.wgs := rfl
@[simp] theorem updGraph_cores (s : State) (n g : Nat) (f : Graph → Graph) : (updGraph s n g f).cores = s.cores := rfl
@[simp] theorem updGraph_dash (s : State) (n g : Nat) (f : Graph → Graph) : (updGraph s n g f).dash = s.dash := rfl
@[simp] theorem updGraph_ops (s : State) (n g : Nat) (f : Graph → Graph) : (updGraph s n g f).ops = s.ops := rfl
@[simp] theorem updGraph_btiles (s : State) (n g : Nat) (f : Graph → Graph) : (updGraph s n g f).btiles = s.btiles := rfl
@[simp] theorem updGraph_bres (s : State) (n g : Nat) (f : Graph → Graph) : (updGraph s n g f).bres = s.bres := rfl
@[simp] theorem updGraph_dev (s : State) (n g : Nat) (f : Graph → Graph) : (updGraph s n g f).dev = s.dev := rfl
@[simp] theorem updGraph_nextId (s : State) (n g : Nat) (f : Graph → Graph) : (updGraph s n g f).nextId = s.nextId := rfl
@[simp] theorem updGraph_cur (s : State) (n g : Nat) (f : Graph → Graph) : (updGraph s n g f).cur = s.cur := rfl
@[simp] theorem updGraph_curB (s : State) (n g : Nat) (f : Graph → Graph) : (updGraph s n g f).curB = s.curB := rfl
@[simp] theorem updGraph_choice (s : State) (n g : Nat) (f : Graph → Graph) : (updGraph s n g f).choice = s.choice := rfl
@[simp] theorem updGraph_agenda (s : State) (n g : Nat) (f : Graph → Graph) : (updGraph s n g f).agenda = s.agenda := rfl
@[simp] theorem updGraph_fresh (s : State) (n g : Nat) (f : Graph → Graph) : (updGraph s n g f).fresh = s.fresh := rfl
@[simp] theorem updGraph_seq (s : State) (n g : Nat) (f : Graph → Graph) : (updGraph s n g f).seq = s.seq := rfl
@[simp] theorem updGraph_epoch (s : State) (n g : Nat) (f : Graph → Graph) : (updGraph s n g f).epoch = s.epoch := rfl

@[simp] theorem msix_mem (s : State) (fn vec : Nat) : (msix s fn vec).mem = s.mem := rfl
@[simp] theorem msix_views (s : State) (fn vec : Nat) : (msix s fn vec).views = s.views := rfl
@[simp] theorem msix_tlbs (s : State) (fn vec : Nat) : (msix s fn vec).tlbs = s.tlbs := rfl
@[simp] theorem msix_waves (s : State) (fn vec : Nat) : (msix s fn vec).waves = s.waves := rfl
@[simp] theorem msix_orph (s : State) (fn vec : Nat) : (msix s fn vec).orph = s.orph := rfl
@[simp] theorem msix_wgs (s : State) (fn vec : Nat) : (msix s fn vec).wgs = s.wgs := rfl
@[simp] theorem msix_cores (s : State) (fn vec : Nat) : (msix s fn vec).cores = s.cores := rfl
@[simp] theorem msix_dash (s : State) (fn vec : Nat) : (msix s fn vec).dash = s.dash := rfl
@[simp] theorem msix_parts (s : State) (fn vec : Nat) : (msix s fn vec).parts = s.parts := rfl
@[simp] theorem msix_ops (s : State) (fn vec : Nat) : (msix s fn vec).ops = s.ops := rfl
@[simp] theorem msix_btiles (s : State) (fn vec : Nat) : (msix s fn vec).btiles = s.btiles := rfl
@[simp] theorem msix_bres (s : State) (fn vec : Nat) : (msix s fn vec).bres = s.bres := rfl
@[simp] theorem msix_nextId (s : State) (fn vec : Nat) : (msix s fn vec).nextId = s.nextId := rfl
@[simp] theorem msix_cur (s : State) (fn vec : Nat) : (msix s fn vec).cur = s.cur := rfl
@[simp] theorem msix_curB (s : State) (fn vec : Nat) : (msix s fn vec).curB = s.curB := rfl
@[simp] theorem msix_choice (s : State) (fn vec : Nat) : (msix s fn vec).choice = s.choice := rfl
@[simp] theorem msix_agenda (s : State) (fn vec : Nat) : (msix s fn vec).agenda = s.agenda := rfl
@[simp] theorem msix_fresh (s : State) (fn vec : Nat) : (msix s fn vec).fresh = s.fresh := rfl
@[simp] theorem msix_seq (s : State) (fn vec : Nat) : (msix s fn vec).seq = s.seq := rfl
@[simp] theorem msix_epoch (s : State) (fn vec : Nat) : (msix s fn vec).epoch = s.epoch := rfl

@[simp] theorem putDev_mem (s : State) (f : Dev → Dev) : (putDev s f).mem = s.mem := rfl
@[simp] theorem putDev_views (s : State) (f : Dev → Dev) : (putDev s f).views = s.views := rfl
@[simp] theorem putDev_tlbs (s : State) (f : Dev → Dev) : (putDev s f).tlbs = s.tlbs := rfl
@[simp] theorem putDev_waves (s : State) (f : Dev → Dev) : (putDev s f).waves = s.waves := rfl
@[simp] theorem putDev_orph (s : State) (f : Dev → Dev) : (putDev s f).orph = s.orph := rfl
@[simp] theorem putDev_wgs (s : State) (f : Dev → Dev) : (putDev s f).wgs = s.wgs := rfl
@[simp] theorem putDev_cores (s : State) (f : Dev → Dev) : (putDev s f).cores = s.cores := rfl
@[simp] theorem putDev_dash (s : State) (f : Dev → Dev) : (putDev s f).dash = s.dash := rfl
@[simp] theorem putDev_parts (s : State) (f : Dev → Dev) : (putDev s f).parts = s.parts := rfl
@[simp] theorem putDev_ops (s : State) (f : Dev → Dev) : (putDev s f).ops = s.ops := rfl
@[simp] theorem putDev_btiles (s : State) (f : Dev → Dev) : (putDev s f).btiles = s.btiles := rfl
@[simp] theorem putDev_bres (s : State) (f : Dev → Dev) : (putDev s f).bres = s.bres := rfl
@[simp] theorem putDev_nextId (s : State) (f : Dev → Dev) : (putDev s f).nextId = s.nextId := rfl
@[simp] theorem putDev_cur (s : State) (f : Dev → Dev) : (putDev s f).cur = s.cur := rfl
@[simp] theorem putDev_curB (s : State) (f : Dev → Dev) : (putDev s f).curB = s.curB := rfl
@[simp] theorem putDev_choice (s : State) (f : Dev → Dev) : (putDev s f).choice = s.choice := rfl
@[simp] theorem putDev_agenda (s : State) (f : Dev → Dev) : (putDev s f).agenda = s.agenda := rfl
@[simp] theorem putDev_fresh (s : State) (f : Dev → Dev) : (putDev s f).fresh = s.fresh := rfl
@[simp] theorem putDev_seq (s : State) (f : Dev → Dev) : (putDev s f).seq = s.seq := rfl
@[simp] theorem putDev_epoch (s : State) (f : Dev → Dev) : (putDev s f).epoch = s.epoch := rfl

@[simp] theorem atPath_mem (s : State) (w : Nat) (pb : Bool) : (atPath s w pb).mem = s.mem := rfl
@[simp] theorem atPath_views (s : State) (w : Nat) (pb : Bool) : (atPath s w pb).views = s.views := rfl
@[simp] theorem atPath_tlbs (s : State) (w : Nat) (pb : Bool) : (atPath s w pb).tlbs = s.tlbs := rfl
@[simp] theorem atPath_waves (s : State) (w : Nat) (pb : Bool) : (atPath s w pb).waves = s.waves := rfl
@[simp] theorem atPath_orph (s : State) (w : Nat) (pb : Bool) : (atPath s w pb).orph = s.orph := rfl
@[simp] theorem atPath_wgs (s : State) (w : Nat) (pb : Bool) : (atPath s w pb).wgs = s.wgs := rfl
@[simp] theorem atPath_cores (s : State) (w : Nat) (pb : Bool) : (atPath s w pb).cores = s.cores := rfl
@[simp] theorem atPath_dash (s : State) (w : Nat) (pb : Bool) : (atPath s w pb).dash = s.dash := rfl
@[simp] theorem atPath_parts (s : State) (w : Nat) (pb : Bool) : (atPath s w pb).parts = s.parts := rfl
@[simp] theorem atPath_ops (s : State) (w : Nat) (pb : Bool) : (atPath s w pb).ops = s.ops := rfl
@[simp] theorem atPath_btiles (s : State) (w : Nat) (pb : Bool) : (atPath s w pb).btiles = s.btiles := rfl
@[simp] theorem atPath_bres (s : State) (w : Nat) (pb : Bool) : (atPath s w pb).bres = s.bres := rfl
@[simp] theorem atPath_dev (s : State) (w : Nat) (pb : Bool) : (atPath s w pb).dev = s.dev := rfl
@[simp] theorem atPath_nextId (s : State) (w : Nat) (pb : Bool) : (atPath s w pb).nextId = s.nextId := rfl
@[simp] theorem atPath_choice (s : State) (w : Nat) (pb : Bool) : (atPath s w pb).choice = s.choice := rfl
@[simp] theorem atPath_agenda (s : State) (w : Nat) (pb : Bool) : (atPath s w pb).agenda = s.agenda := rfl
@[simp] theorem atPath_fresh (s : State) (w : Nat) (pb : Bool) : (atPath s w pb).fresh = s.fresh := rfl
@[simp] theorem atPath_seq (s : State) (w : Nat) (pb : Bool) : (atPath s w pb).seq = s.seq := rfl
@[simp] theorem atPath_epoch (s : State) (w : Nat) (pb : Bool) : (atPath s w pb).epoch = s.epoch := rfl

@[simp] theorem perfAdd_mem (s : State) (k ev n : Nat) : (perfAdd s k ev n).mem = s.mem := rfl
@[simp] theorem perfAdd_views (s : State) (k ev n : Nat) : (perfAdd s k ev n).views = s.views := rfl
@[simp] theorem perfAdd_tlbs (s : State) (k ev n : Nat) : (perfAdd s k ev n).tlbs = s.tlbs := rfl
@[simp] theorem perfAdd_waves (s : State) (k ev n : Nat) : (perfAdd s k ev n).waves = s.waves := rfl
@[simp] theorem perfAdd_orph (s : State) (k ev n : Nat) : (perfAdd s k ev n).orph = s.orph := rfl
@[simp] theorem perfAdd_wgs (s : State) (k ev n : Nat) : (perfAdd s k ev n).wgs = s.wgs := rfl
@[simp] theorem perfAdd_dash (s : State) (k ev n : Nat) : (perfAdd s k ev n).dash = s.dash := rfl
@[simp] theorem perfAdd_parts (s : State) (k ev n : Nat) : (perfAdd s k ev n).parts = s.parts := rfl
@[simp] theorem perfAdd_ops (s : State) (k ev n : Nat) : (perfAdd s k ev n).ops = s.ops := rfl
@[simp] theorem perfAdd_btiles (s : State) (k ev n : Nat) : (perfAdd s k ev n).btiles = s.btiles := rfl
@[simp] theorem perfAdd_bres (s : State) (k ev n : Nat) : (perfAdd s k ev n).bres = s.bres := rfl
@[simp] theorem perfAdd_dev (s : State) (k ev n : Nat) : (perfAdd s k ev n).dev = s.dev := rfl
@[simp] theorem perfAdd_nextId (s : State) (k ev n : Nat) : (perfAdd s k ev n).nextId = s.nextId := rfl
@[simp] theorem perfAdd_cur (s : State) (k ev n : Nat) : (perfAdd s k ev n).cur = s.cur := rfl
@[simp] theorem perfAdd_curB (s : State) (k ev n : Nat) : (perfAdd s k ev n).curB = s.curB := rfl
@[simp] theorem perfAdd_choice (s : State) (k ev n : Nat) : (perfAdd s k ev n).choice = s.choice := rfl
@[simp] theorem perfAdd_agenda (s : State) (k ev n : Nat) : (perfAdd s k ev n).agenda = s.agenda := rfl
@[simp] theorem perfAdd_fresh (s : State) (k ev n : Nat) : (perfAdd s k ev n).fresh = s.fresh := rfl
@[simp] theorem perfAdd_seq (s : State) (k ev n : Nat) : (perfAdd s k ev n).seq = s.seq := rfl
@[simp] theorem perfAdd_epoch (s : State) (k ev n : Nat) : (perfAdd s k ev n).epoch = s.epoch := rfl

@[simp] theorem finish_mem (s : State) (c : Ctx) (n : Nat) : (finish s c n).mem = s.mem := rfl
@[simp] theorem finish_views (s : State) (c : Ctx) (n : Nat) : (finish s c n).views = s.views := rfl
@[simp] theorem finish_tlbs (s : State) (c : Ctx) (n : Nat) : (finish s c n).tlbs = s.tlbs := rfl
@[simp] theorem finish_orph (s : State) (c : Ctx) (n : Nat) : (finish s c n).orph = s.orph := rfl
@[simp] theorem finish_wgs (s : State) (c : Ctx) (n : Nat) : (finish s c n).wgs = s.wgs := rfl
@[simp] theorem finish_cores (s : State) (c : Ctx) (n : Nat) : (finish s c n).cores = s.cores := rfl
@[simp] theorem finish_dash (s : State) (c : Ctx) (n : Nat) : (finish s c n).dash = s.dash := rfl
@[simp] theorem finish_parts (s : State) (c : Ctx) (n : Nat) : (finish s c n).parts = s.parts := rfl
@[simp] theorem finish_ops (s : State) (c : Ctx) (n : Nat) : (finish s c n).ops = s.ops := rfl
@[simp] theorem finish_btiles (s : State) (c : Ctx) (n : Nat) : (finish s c n).btiles = s.btiles := rfl
@[simp] theorem finish_bres (s : State) (c : Ctx) (n : Nat) : (finish s c n).bres = s.bres := rfl
@[simp] theorem finish_dev (s : State) (c : Ctx) (n : Nat) : (finish s c n).dev = s.dev := rfl
@[simp] theorem finish_nextId (s : State) (c : Ctx) (n : Nat) : (finish s c n).nextId = s.nextId := rfl
@[simp] theorem finish_cur (s : State) (c : Ctx) (n : Nat) : (finish s c n).cur = s.cur := rfl
@[simp] theorem finish_curB (s : State) (c : Ctx) (n : Nat) : (finish s c n).curB = s.curB := rfl
@[simp] theorem finish_choice (s : State) (c : Ctx) (n : Nat) : (finish s c n).choice = s.choice := rfl
@[simp] theorem finish_agenda (s : State) (c : Ctx) (n : Nat) : (finish s c n).agenda = s.agenda := rfl
@[simp] theorem finish_fresh (s : State) (c : Ctx) (n : Nat) : (finish s c n).fresh = s.fresh := rfl
@[simp] theorem finish_seq (s : State) (c : Ctx) (n : Nat) : (finish s c n).seq = s.seq := rfl
@[simp] theorem finish_epoch (s : State) (c : Ctx) (n : Nat) : (finish s c n).epoch = s.epoch := rfl

@[simp] theorem hold_mem (s : State) (c : Ctx) (wt : Wait) : (hold s c wt).mem = s.mem := rfl
@[simp] theorem hold_views (s : State) (c : Ctx) (wt : Wait) : (hold s c wt).views = s.views := rfl
@[simp] theorem hold_tlbs (s : State) (c : Ctx) (wt : Wait) : (hold s c wt).tlbs = s.tlbs := rfl
@[simp] theorem hold_orph (s : State) (c : Ctx) (wt : Wait) : (hold s c wt).orph = s.orph := rfl
@[simp] theorem hold_wgs (s : State) (c : Ctx) (wt : Wait) : (hold s c wt).wgs = s.wgs := rfl
@[simp] theorem hold_cores (s : State) (c : Ctx) (wt : Wait) : (hold s c wt).cores = s.cores := rfl
@[simp] theorem hold_dash (s : State) (c : Ctx) (wt : Wait) : (hold s c wt).dash = s.dash := rfl
@[simp] theorem hold_parts (s : State) (c : Ctx) (wt : Wait) : (hold s c wt).parts = s.parts := rfl
@[simp] theorem hold_ops (s : State) (c : Ctx) (wt : Wait) : (hold s c wt).ops = s.ops := rfl
@[simp] theorem hold_btiles (s : State) (c : Ctx) (wt : Wait) : (hold s c wt).btiles = s.btiles := rfl
@[simp] theorem hold_bres (s : State) (c : Ctx) (wt : Wait) : (hold s c wt).bres = s.bres := rfl
@[simp] theorem hold_dev (s : State) (c : Ctx) (wt : Wait) : (hold s c wt).dev = s.dev := rfl
@[simp] theorem hold_nextId (s : State) (c : Ctx) (wt : Wait) : (hold s c wt).nextId = s.nextId := rfl
@[simp] theorem hold_cur (s : State) (c : Ctx) (wt : Wait) : (hold s c wt).cur = s.cur := rfl
@[simp] theorem hold_curB (s : State) (c : Ctx) (wt : Wait) : (hold s c wt).curB = s.curB := rfl
@[simp] theorem hold_choice (s : State) (c : Ctx) (wt : Wait) : (hold s c wt).choice = s.choice := rfl
@[simp] theorem hold_agenda (s : State) (c : Ctx) (wt : Wait) : (hold s c wt).agenda = s.agenda := rfl
@[simp] theorem hold_fresh (s : State) (c : Ctx) (wt : Wait) : (hold s c wt).fresh = s.fresh := rfl
@[simp] theorem hold_seq (s : State) (c : Ctx) (wt : Wait) : (hold s c wt).seq = s.seq := rfl
@[simp] theorem hold_epoch (s : State) (c : Ctx) (wt : Wait) : (hold s c wt).epoch = s.epoch := rfl

end Sys2Proof.Machine
end

