-- ==== Sys2Proof/Laws/Waves.lean ====
section
/-! SUPPORT. Waves and registers: reading after a write. -/

namespace Sys2Proof.Machine

/-! Slots. -/

theorem getWave_setWave (s : State) (w u : Nat) (v : Wave) : getWave (setWave s w v) u = if u = w then some v else getWave s u := by
  simp [getWave, setWave, tabGet?_tabPut]

theorem getWave_updWave (s : State) (w u : Nat) (f : Wave → Wave) :
    getWave (updWave s w f) u = if u = w then (getWave s u).map f else getWave s u := by
  simp [getWave, updWave, tabGet?_tabMod]

@[simp] theorem getWave_setWave_self (s : State) (w : Nat) (v : Wave) : getWave (setWave s w v) w = some v := by
  simp [getWave_setWave]

theorem onlyWave_setWave (s : State) (w : Nat) (v : Wave) : OnlyWave s (setWave s w v) w :=
  ⟨rfl, fun u h => by simp [getWave_setWave, h], fun _ => rfl⟩

/-! Threads. -/

theorem getElem?_listMod {α : Type} (l : List α) (i j : Nat) (f : α → α) :
    (listMod l i f)[j]? = if j = i then l[j]?.map f else l[j]? := by
  induction l generalizing i j with
  | nil => simp [listMod]
  | cons x t ih =>
    cases i with
    | zero => cases j <;> simp [listMod]
    | succ i =>
      cases j with
      | zero => simp [listMod]
      | succ j => simp [listMod, ih]

@[simp] theorem length_listMod {α : Type} (l : List α) (i : Nat) (f : α → α) : (listMod l i f).length = l.length := by
  induction l generalizing i with
  | nil => simp [listMod]
  | cons x t ih => cases i <;> simp [listMod, ih]

/-- A change of one thread's registers leaves names and life of every thread. -/
theorem tidAt_mod (v : Wave) (q p : Nat) (f : Thread → Thread) (h : ∀ t, (f t).tid = t.tid) :
    tidAt { v with threads := listMod v.threads q f } p = tidAt v p := by
  simp only [tidAt, threadAt, getElem?_listMod]
  split
  · cases v.threads[p]? <;> simp [h]
  · rfl

theorem liveMask_mod (v : Wave) (q : Nat) (f : Thread → Thread) (h : ∀ t, (f t).live = t.live) :
    liveMask { v with threads := listMod v.threads q f } = liveMask v := by
  simp only [liveMask, length_listMod]
  congr 1
  apply List.filter_congr
  intro p _
  simp only [getElem?_listMod]
  split
  · cases v.threads[p]? <;> simp [h]
  · rfl

/-- What one write of a v register changes. -/
theorem vReg_setVReg (v : Wave) (q r p k : Nat) (x : Word) :
    vReg (setVReg v q r x) p k = if p = q ∧ k = r ∧ (threadAt v q).isSome then some x else vReg v p k := by
  simp only [vReg, setVReg, threadAt, getElem?_listMod]
  by_cases hp : p = q
  · subst hp
    simp only [if_true, true_and]
    cases v.threads[p]? with
    | none => simp
    | some t => simp [tabGet?_tabPut]
  · simp [hp]

/-- The fields of a wave other than its threads. -/
structure SameButThreads (v u : Wave) : Prop where
  rest : u = { v with threads := u.threads }
  tids : ∀ q, tidAt u q = tidAt v q
  live : liveMask u = liveMask v
  len : u.threads.length = v.threads.length

theorem SameButThreads.refl (v : Wave) : SameButThreads v v := ⟨rfl, fun _ => rfl, rfl, rfl⟩

theorem SameButThreads.trans {v u w : Wave} (h : SameButThreads v u) (k : SameButThreads u w) : SameButThreads v w := by
  refine ⟨?_, fun q => (k.tids q).trans (h.tids q), k.live.trans h.live, k.len.trans h.len⟩
  have h1 := h.rest; have k1 := k.rest
  rw [h1] at k1
  exact k1

theorem same_setVReg (v : Wave) (q r : Nat) (x : Word) : SameButThreads v (setVReg v q r x) :=
  ⟨rfl, fun p => tidAt_mod v q p _ (fun _ => rfl), liveMask_mod v q _ (fun _ => rfl), by simp [setVReg]⟩

theorem same_dropVReg (v : Wave) (q r : Nat) : SameButThreads v (dropVReg v q r) :=
  ⟨rfl, fun p => tidAt_mod v q p _ (fun _ => rfl), liveMask_mod v q _ (fun _ => rfl), by simp [dropVReg]⟩

theorem same_setPred (v : Wave) (q k : Nat) (b : Bool) : SameButThreads v (setPred v q k b) := by
  unfold setPred
  split
  · exact .refl v
  · exact ⟨rfl, fun p => tidAt_mod v q p _ (fun _ => rfl), liveMask_mod v q _ (fun _ => rfl), by simp⟩

@[simp] theorem predReg_setVReg (v : Wave) (q r p k : Nat) (x : Word) : predReg (setVReg v q r x) p k = predReg v p k := by
  simp only [predReg, threadAt, setVReg, getElem?_listMod]
  split
  · rfl
  · split
    · cases v.threads[p]? <;> simp
    · rfl

@[simp] theorem predReg_dropVReg (v : Wave) (q r p k : Nat) : predReg (dropVReg v q r) p k = predReg v p k := by
  simp only [predReg, threadAt, dropVReg, getElem?_listMod]
  split
  · rfl
  · split
    · cases v.threads[p]? <;> simp
    · rfl

@[simp] theorem vReg_setPred (v : Wave) (q r p k : Nat) (b : Bool) : vReg (setPred v q k b) p r = vReg v p r := by
  unfold setPred
  split
  · rfl
  · simp only [vReg, threadAt, getElem?_listMod]
    by_cases h : p = q
    · subst h
      cases v.threads[p]? <;> simp
    · simp [h]

theorem threadAt_isSome {v u : Wave} (h : SameButThreads v u) (q : Nat) : (threadAt u q).isSome = (threadAt v q).isSome := by
  have := h.len
  rw [Bool.eq_iff_iff]
  simp [threadAt, this]

/-! Folds over positions. -/

theorem same_fold {α : Type} (f : Wave → α → Wave) (h : ∀ v a, SameButThreads v (f v a)) (l : List α) (v : Wave) :
    SameButThreads v (l.foldl f v) := by
  induction l generalizing v with
  | nil => exact .refl v
  | cons a t ih => exact (h v a).trans (ih _)

theorem vReg_fold_set (l : List Nat) (r : Nat) (f : Nat → Word) (v : Wave) (p k : Nat) :
    vReg (l.foldl (fun v q => setVReg v q r (f q)) v) p k =
      if p ∈ l ∧ k = r ∧ (threadAt v p).isSome then some (f p) else vReg v p k := by
  induction l generalizing v with
  | nil => simp
  | cons q t ih =>
    rw [List.foldl_cons, ih, vReg_setVReg, threadAt_isSome (same_setVReg v q r (f q))]
    by_cases h : p = q
    · subst h; by_cases hp : p ∈ t <;> grind
    · simp [h]

theorem predReg_fold_set (l : List Nat) (r : Nat) (f : Nat → Word) (v : Wave) (p k : Nat) :
    predReg (l.foldl (fun v q => setVReg v q r (f q)) v) p k = predReg v p k := by
  induction l generalizing v with
  | nil => rfl
  | cons q t ih => rw [List.foldl_cons, ih, predReg_setVReg]

theorem vReg_dropVReg (v : Wave) (q r p k : Nat) :
    vReg (dropVReg v q r) p k = if p = q ∧ k = r then none else vReg v p k := by
  simp only [vReg, dropVReg, threadAt, getElem?_listMod]
  by_cases hp : p = q
  · subst hp
    simp only [if_true, true_and]
    cases v.threads[p]? with
    | none => simp
    | some t => simp [tabGet?_tabDel]
  · simp [hp]

/-- Releasing a list of positions and registers. -/
theorem vReg_fold_drop {α : Type} (g : Wave → α → Wave) (hit : α → Nat → Nat → Prop) [∀ a p k, Decidable (hit a p k)]
    (h : ∀ v a p k, vReg (g v a) p k = if hit a p k then none else vReg v p k) (l : List α) (v : Wave) (p k : Nat) :
    vReg (l.foldl g v) p k = if ∃ a ∈ l, hit a p k then none else vReg v p k := by
  induction l generalizing v with
  | nil => simp
  | cons a t ih =>
    rw [List.foldl_cons, ih, h]
    by_cases h1 : hit a p k <;> by_cases h2 : ∃ a ∈ t, hit a p k <;> simp [h1, h2]

/-- What releasing the marked sources changes (R51). -/
theorem vReg_releaseSrcs (c : Ctx) (srcs : List Src) (v : Wave) (p k : Nat) :
    vReg (releaseSrcs c srcs v) p k = if p ∈ positions c.mask ∧ k ∈ releasedBy srcs then none else vReg v p k := by
  unfold releaseSrcs
  rw [vReg_fold_drop (hit := fun x p k => p ∈ positions c.mask ∧ k ∈ releasedBy [x])]
  · congr 1
    simp only [releasedBy, List.flatMap_cons, List.flatMap_nil, List.append_nil, List.mem_flatMap]
    grind
  · intro v x p k
    simp only [releasedBy, List.flatMap_cons, List.flatMap_nil, List.append_nil]
    by_cases hl : x.last
    · simp only [hl, if_true]
      split
      · next n hn =>
        rw [vReg_fold_drop (hit := fun q p k => p = q ∧ k ∈ (List.range x.regs).map (n + ·))]
        · congr 1; grind
        · intro v q p k
          rw [vReg_fold_drop (hit := fun i p k => p = q ∧ k = n + i)]
          · congr 1; grind
          · intro v i p k; exact vReg_dropVReg v q (n + i) p k
      · simp
    · simp [hl]

theorem same_releaseSrcs (c : Ctx) (srcs : List Src) (v : Wave) : SameButThreads v (releaseSrcs c srcs v) := by
  apply same_fold
  intro v x
  split
  · split
    · exact same_fold _ (fun v q => same_fold _ (fun v i => same_dropVReg v q _) _ v) _ v
    · exact .refl v
  · exact .refl v

theorem predReg_releaseSrcs (c : Ctx) (srcs : List Src) (v : Wave) (p k : Nat) :
    predReg (releaseSrcs c srcs v) p k = predReg v p k := by
  have hf : ∀ {α : Type} (g : Wave → α → Wave), (∀ v a, predReg (g v a) p k = predReg v p k) →
      ∀ (l : List α) (v : Wave), predReg (l.foldl g v) p k = predReg v p k := by
    intro α g h l
    induction l with
    | nil => intro v; rfl
    | cons a t ih => intro v; rw [List.foldl_cons, ih, h]
  unfold releaseSrcs
  apply hf
  intro v x
  split
  · split
    · apply hf; intro v q; apply hf; intro v i; simp
    · rfl
  · rfl

/-! Predicates and scalar registers. -/

theorem predReg_setPred (v : Wave) (q k p j : Nat) (b : Bool) (hk : k < 8) :
    predReg (setPred v q k b) p j = if k ≠ 0 ∧ p = q ∧ j = k ∧ (threadAt v q).isSome then b else predReg v p j := by
  unfold setPred
  by_cases h0 : k = 0
  · simp [h0]
  · simp only [h0, if_false, predReg, threadAt, getElem?_listMod]
    by_cases hp : p = q
    · subst hp
      simp only [if_true, true_and]
      cases v.threads[p]? with
      | none => simp
      | some t =>
        by_cases hj : j = 0
        · subst hj; simp; omega
        · by_cases hjk : j = k
          · subst hjk; cases b <;> simp [hj, hk]
          · have h8 : (1#8 <<< k).getLsbD j = false := by
              simp only [BitVec.getLsbD_shiftLeft, BitVec.getLsbD_one]; grind
            cases b <;> simp [hj, hjk, h8] <;> grind
    · simp [hp]

theorem predReg_fold_set_pred (l : List Nat) (k : Nat) (hk : k < 8) (f : Nat → Bool) (v : Wave) (p j : Nat) :
    predReg (l.foldl (fun v q => setPred v q k (f q)) v) p j =
      if k ≠ 0 ∧ p ∈ l ∧ j = k ∧ (threadAt v p).isSome then f p else predReg v p j := by
  induction l generalizing v with
  | nil => simp
  | cons q t ih =>
    rw [List.foldl_cons, ih, predReg_setPred _ _ _ _ _ _ hk, threadAt_isSome (same_setPred v q k (f q))]
    by_cases h : p = q
    · subst h; by_cases hp : p ∈ t <;> grind
    · simp [h]

theorem vReg_fold_set_pred (l : List Nat) (k : Nat) (f : Nat → Bool) (v : Wave) (p r : Nat) :
    vReg (l.foldl (fun v q => setPred v q k (f q)) v) p r = vReg v p r := by
  induction l generalizing v with
  | nil => rfl
  | cons q t ih => rw [List.foldl_cons, ih, vReg_setPred]

theorem sReg_setSReg (v : Wave) (n m : Nat) (x : Word) : sReg (setSReg v n x) m = if m = n then x else sReg v m := by
  simp only [sReg, setSReg, tabGet_tabSet]

theorem sReg_setSPair (v : Wave) (n m : Nat) (x : DWord) :
    sReg (setSPair v n x) m = if m = n + 1 then hiWord x else if m = n then loWord x else sReg v m := by
  simp only [setSPair, sReg_setSReg]

/-! Masks. -/

theorem getLsbD_posBit (q k : Nat) (h : k < 64) : (posBit q).getLsbD k = decide (k = q) := by
  simp only [posBit, BitVec.getLsbD_shiftLeft, BitVec.getLsbD_one]
  grind

theorem getLsbD_maskOf (l : List Nat) (k : Nat) (h : k < 64) : (maskOf l).getLsbD k = decide (k ∈ l) := by
  have : ∀ (m : Mask), (l.foldl (fun m q => m ||| posBit q) m).getLsbD k = (m.getLsbD k || decide (k ∈ l)) := by
    induction l with
    | nil => simp
    | cons a t ih => intro m; rw [List.foldl_cons, ih]; simp [getLsbD_posBit _ _ h]; grind
  simpa [maskOf] using this 0

theorem mem_positions (m : Mask) (q : Nat) : q ∈ positions m ↔ m.getLsbD q = true := by
  simp only [positions, List.mem_filter, List.mem_range]
  constructor
  · exact fun h => h.2
  · intro h
    refine ⟨?_, h⟩
    by_cases hq : q < 64
    · exact hq
    · simp [BitVec.getLsbD_of_ge _ _ (Nat.le_of_not_lt hq)] at h

theorem live_of_liveMask (v : Wave) (q : Nat) (h : (liveMask v).getLsbD q = true) : (threadAt v q).isSome = true := by
  have hq : q < 64 := by
    by_cases hq : q < 64
    · exact hq
    · simp [BitVec.getLsbD_of_ge _ _ (Nat.le_of_not_lt hq)] at h
  rw [liveMask, getLsbD_maskOf _ _ hq] at h
  simp only [List.mem_filter, List.mem_range, decide_eq_true_eq] at h
  simp [threadAt, h.1]

/-! The issuing path. -/

theorem ctxAt_eq {s : State} {w : Nat} {pb : Bool} {c : Ctx} (h : ctxAt s w pb = some c) :
    c.w = w ∧ c.pb = pb ∧ getWave s w = some c.wave ∧ getWg s c.wave.wg = some c.g ∧ pathOf c.wave pb = some c.path ∧
      c.mask = activeMask c.wave c.path ∧ c.wave.halted = false ∧ c.wave.frozen = false ∧ c.mask ≠ 0 := by
  unfold ctxAt at h
  split at h
  · cases h
  · next v hv =>
    split at h
    · next g x hg hx =>
      split at h
      · cases h
      · next hn =>
        simp only [Bool.or_eq_true, beq_iff_eq, not_or, Bool.not_eq_true] at hn
        cases h
        exact ⟨rfl, rfl, hv, hg, hx, rfl, hn.1.1, hn.1.2, hn.2⟩
    · cases h

theorem active_isSome {s : State} {w : Nat} {pb : Bool} {c : Ctx} (h : ctxAt s w pb = some c) (q : Nat)
    (hq : c.mask.getLsbD q = true) : (threadAt c.wave q).isSome = true := by
  obtain ⟨-, -, -, -, -, hm, -⟩ := ctxAt_eq h
  rw [hm, activeMask, BitVec.getLsbD_and, Bool.and_eq_true] at hq
  exact live_of_liveMask _ _ hq.2

end Sys2Proof.Machine
end

