-- ==== Sys2Proof/Laws/Ops.lean ====
section
/-! SUPPORT. What the shared operations do: issue, going on, reading sources, writing destinations. -/

namespace Sys2Proof.Machine

/-! Issue. -/

/-- An instruction issues: it completes, or takes the trap that its checks find. -/
theorem issue_of {s : State} {c : Ctx} (h : Issues s c) (f : Ctx → Except Trap State) :
    issue s f = match f c with
      | .ok t => .next t
      | .error t => .next (takeTrap s c.w c.pb t c.path.pc) := by
  cases hf : f c <;> simp [issue, h.1, h.2, hf]

theorem issue_ok {s t : State} {c : Ctx} (h : Issues s c) {f : Ctx → Except Trap State} (hf : f c = .ok t) :
    issue s f = .next t := by simp [issue_of h, hf]

theorem issue_error {s : State} {c : Ctx} {t : Trap} (h : Issues s c) {f : Ctx → Except Trap State} (hf : f c = .error t) :
    issue s f = .next (takeTrap s c.w c.pb t c.path.pc) := by simp [issue_of h, hf]

/-- Whatever an issue answers: a fault only where no path may issue, never a refusal. -/
theorem issue_cases (s : State) (f : Ctx → Except Trap State) :
    (s.dev.stat = .fatal ∧ issue s f = .fault .deviceFatal) ∨
    (s.dev.stat ≠ .fatal ∧ ctxAt s s.cur s.curB = none ∧ issue s f = .fault .noIssuer) ∨
    (∃ c, Issues s c ∧ ∃ t, issue s f = .next t ∧ (f c = .ok t ∨ ∃ e, f c = .error e ∧ t = takeTrap s c.w c.pb e c.path.pc)) := by
  by_cases hf : s.dev.stat = .fatal
  · exact .inl ⟨hf, by simp [issue, hf]⟩
  · cases hc : ctxAt s s.cur s.curB with
    | none => exact .inr (.inl ⟨hf, rfl, by simp [issue, hf, hc]⟩)
    | some c =>
      refine .inr (.inr ⟨c, ⟨hf, hc⟩, ?_⟩)
      cases hx : f c with
      | ok t => exact ⟨t, issue_ok ⟨hf, hc⟩ hx, .inl rfl⟩
      | error e => exact ⟨_, issue_error ⟨hf, hc⟩ hx, .inr ⟨e, rfl, rfl⟩⟩

/-! The path goes on. -/

theorem setPath_fields (v : Wave) (pb : Bool) (x : Path) :
    setPath v pb x = { v with base := (setPath v pb x).base, stack := (setPath v pb x).stack } := by
  unfold setPath
  split
  · rfl
  · split <;> rfl

theorem stepPend_fields (a : Bool) (pb : Bool) (v : Wave) : stepPend a pb v = { v with step := (stepPend a pb v).step } := by
  unfold stepPend
  split <;> rfl

/-- The wave of the issuing path with its registers changed, after the path has gone on to x. -/
theorem goes_on {c : Ctx} {x : Writes} {u : Wave} (p : Path)
    (hu : RegsAfter c x u) (hb : u.base = c.wave.base) (hs : u.stack = c.wave.stack) (ht : u.step = c.wave.step) :
    RegsAfter c x (stepPend (stepArmed c.wave) c.pb (setPath u c.pb p)) ∧
      PathAfter c p (stepPend (stepArmed c.wave) c.pb (setPath u c.pb p)) := by
  have e1 : setPath u c.pb p = { u with base := (setPath c.wave c.pb p).base, stack := (setPath c.wave c.pb p).stack } := by
    unfold setPath
    rw [hs]
    split
    · next h0 => simp [h0]
    · split <;> simp [hb]
  rw [e1, stepPend_fields]
  generalize hT : (stepPend (stepArmed c.wave) c.pb
    { u with base := (setPath c.wave c.pb p).base, stack := (setPath c.wave c.pb p).stack }).step = T
  refine ⟨⟨hu.vregs, hu.sregs, hu.preds, hu.csrs, hu.tids, hu.live, ?_⟩, ⟨rfl, rfl, ?_⟩⟩
  · exact congrArg (fun z : Wave => { z with base := (setPath c.wave c.pb p).base, stack := (setPath c.wave c.pb p).stack,
                                             step := T }) hu.rest
  · rw [← hT]
    unfold stepPend
    simp only [ht]
    split <;> simp

theorem pathOf_of {s : State} {c : Ctx} (h : Issues s c) : pathOf c.wave c.pb = some c.path := by
  obtain ⟨-, hp, -, -, hx, -⟩ := ctxAt_eq h.2
  rw [hp]; exact hx

/-- A path that changes registers only and goes on n words. -/
theorem regEffect_advance {s : State} {c : Ctx} (h : Issues s c) {x : Writes} {u : Wave} (n : Nat)
    (hu : RegsAfter c x u) (hb : u.base = c.wave.base) (hs : u.stack = c.wave.stack) (ht : u.step = c.wave.step) :
    RegEffect s (setWave s c.w (advance c n u)) c n x := by
  refine ⟨onlyWave_setWave _ _ _, _, getWave_setWave_self _ _ _, ?_⟩
  have hp : pathOf u c.pb = some c.path := by
    have := pathOf_of h
    unfold pathOf at *
    rw [hs, hb]; exact this
  simp only [advance, hp]
  exact goes_on _ hu hb hs ht

/-! Sources. -/

theorem srcsOk_of {c : Ctx} {once : Bool} {srcs : List Src} (h : ∀ x ∈ srcs, srcOk c.g once x = true) :
    srcsOk c once srcs = .ok () := by
  unfold srcsOk
  have : srcs.find? (fun x => !srcOk c.g once x) = none := by
    rw [List.find?_eq_none]; intro x hx; simp [h x hx]
  rw [this]

theorem parityCheck_of {c : Ctx} {srcs : List Src} (h : ∀ x ∈ srcs, ∀ q ∈ positions c.mask, srcBad c q x = false) :
    parityCheck c srcs = .ok () := by
  unfold parityCheck
  have : srcs.find? (fun x => (positions c.mask).any (fun q => srcBad c q x)) = none := by
    rw [List.find?_eq_none]; intro x hx
    simp only [List.any_eq_true, not_exists, not_and]
    intro q hq; simp [h x hx q hq]
  rw [this]

theorem parityFrom_of {c : Ctx} {qs : List Nat} {srcs : List (Src × (Nat → Nat))}
    (h : ∀ x ∈ srcs, ∀ q ∈ qs, srcBad c (x.2 q) x.1 = false) : parityFrom c qs srcs = .ok () := by
  unfold parityFrom
  have : srcs.find? (fun x => qs.any (fun q => srcBad c (x.2 q) x.1)) = none := by
    rw [List.find?_eq_none]; intro x hx
    simp only [List.any_eq_true, not_exists, not_and]
    intro q hq; simp [h x hx q hq]
  rw [this]

theorem unwrittenCheck_of {c : Ctx} {srcs : List Src}
    (h : unwMask c srcs = 0 ∨ wStrict c.wave = false ∨ wTrap c.wave = true) :
    unwrittenCheck c srcs = .ok (setStatIf c.wave (unwMask c srcs != 0) 0) := by
  unfold unwrittenCheck
  by_cases h0 : unwMask c srcs = 0
  · simp [h0, setStatIf]
  · simp only [h0, if_false]
    have : (wStrict c.wave && !wTrap c.wave) = false := by grind
    have h1 : (unwMask c srcs != 0) = true := by simpa using h0
    rw [h1]
    simp [this, setStatIf]

/-- Sources that can be read are read, and the marked ones released. -/
theorem readSrcs_of {c : Ctx} {once : Bool} {srcs : List Src} (h : SourcesRead c once srcs) :
    readSrcs c once srcs = .ok (releaseSrcs c srcs (setStatIf c.wave (unwMask c srcs != 0) 0)) := by
  simp [readSrcs, srcsOk_of h.1, parityCheck_of h.2.1, unwrittenCheck_of h.2.2, Except.map]

theorem setStatIf_fields (v : Wave) (b : Bool) (k : Nat) : setStatIf v b k = { v with csr := (setStatIf v b k).csr } := by
  unfold setStatIf setStat
  split <;> rfl

/-- The registers after the sources are read: only releases and WSTAT.UR. -/
theorem regs_after_read (c : Ctx) (srcs : List Src) (b : Bool) :
    RegsAfter c { released := releasedBy srcs, ur := b }
      (releaseSrcs c srcs (setStatIf c.wave b 0)) := by
  have hs := same_releaseSrcs c srcs (setStatIf c.wave b 0)
  have hf := setStatIf_fields c.wave (b) 0
  generalize hv : setStatIf c.wave b 0 = v0 at *
  have e := hs.rest
  generalize hr : releaseSrcs c srcs v0 = v1 at *
  refine ⟨?_, ?_, ?_, ?_, ?_, ?_, ?_⟩
  · intro q r
    have h0 : vReg v0 q r = vReg c.wave q r := by rw [hf]; rfl
    rw [← hr, vReg_releaseSrcs, h0]
    simp only [mem_positions, Writes.vAt, List.lookup_nil]
    by_cases hq : c.mask.getLsbD q = true <;> by_cases hm : r ∈ releasedBy srcs <;> simp only [hq, hm] <;> rfl
  · intro n
    have h0 : sReg v0 n = sReg c.wave n := by rw [hf]; rfl
    rw [e]; simp only [List.lookup_nil, Option.getD_none]; exact h0
  · intro q k
    have h0 : predReg v0 q k = predReg c.wave q k := by rw [hf]; rfl
    rw [← hr, predReg_releaseSrcs, h0]
    simp [Writes.pAt]
  · have h1 : v1.csr = v0.csr := by rw [e]
    rw [h1, ← hv]
  · intro q; rw [hs.tids, hf]; rfl
  · rw [hs.live, hf]; rfl
  · have e2 : v1 = { v0 with threads := v1.threads } := e
    have e3 := congrArg (fun z : Wave => { z with threads := v1.threads }) hf
    have e4 := e2.trans e3
    have ec : v1.csr = v0.csr := by rw [e2]
    have es : v1.s = c.wave.s := by rw [e4]
    have ebd : v1.sbad = c.wave.sbad := by rw [e4]
    have efm : v1.forms = c.wave.forms := by rw [e4]
    have eb : v1.base = c.wave.base := by rw [e4]
    have et : v1.stack = c.wave.stack := by rw [e4]
    have ep : v1.step = c.wave.step := by rw [e4]
    rw [ec, es, ebd, efm, eb, et, ep]
    exact e4

theorem pathFields_read (c : Ctx) (srcs : List Src) (v : Wave) :
    (releaseSrcs c srcs v).base = v.base ∧ (releaseSrcs c srcs v).stack = v.stack ∧ (releaseSrcs c srcs v).step = v.step := by
  rw [(same_releaseSrcs c srcs v).rest]; exact ⟨rfl, rfl, rfl⟩

end Sys2Proof.Machine
end

