-- ==== Sys2Proof/Laws/Operands.lean ====
section
/-! SUPPORT. What the operand forms do: writes of destinations, and the whole effect of a VEC instruction of each form. -/

namespace Sys2Proof.Machine

/-! Writes. -/

/-- A write of one v register for the active threads. -/
theorem regs_writeV {s : State} {c : Ctx} (h : Issues s c) {x : Writes} {u : Wave} (hu : RegsAfter c x u) (r : Nat)
    (form : Option Form) (f : Nat → Word) :
    RegsAfter c { x with v := (r, f) :: x.v } (writeV c u r form f) ∧
      (writeV c u r form f).base = u.base ∧ (writeV c u r form f).stack = u.stack ∧ (writeV c u r form f).step = u.step := by
  generalize hw : (positions c.mask).foldl (fun v q => setVReg v q r (f q)) u = w
  have hs : SameButThreads u w := hw ▸ same_fold _ (fun v q => same_setVReg v q r (f q)) _ u
  have e1 : writeV c u r form f = { w with forms := (writeV c u r form f).forms } := by
    unfold writeV; rw [hw]; unfold setForm; cases form <;> rfl
  have er := hs.rest
  have hv : ∀ q k, vReg w q k = if q ∈ positions c.mask ∧ k = r ∧ (threadAt u q).isSome then some (f q) else vReg u q k := by
    intro q k; rw [← hw]; exact vReg_fold_set _ r f u q k
  have hp : ∀ q k, predReg w q k = predReg u q k := by
    intro q k; rw [← hw]; exact predReg_fold_set _ r f u q k
  have hsome : ∀ q, c.mask.getLsbD q = true → (threadAt u q).isSome = true := by
    intro q hq
    have hl : (liveMask u).getLsbD q = true := by
      rw [hu.live]
      obtain ⟨-, -, -, -, -, hm, -⟩ := ctxAt_eq h.2
      rw [hm, activeMask, BitVec.getLsbD_and, Bool.and_eq_true] at hq
      exact hq.2
    exact live_of_liveMask _ _ hl
  generalize hF : (writeV c u r form f).forms = F at e1
  rw [e1]
  refine ⟨⟨?_, ?_, ?_, ?_, ?_, ?_, ?_⟩, ?_, ?_, ?_⟩
  · intro q k
    have h1 : vReg { w with forms := F } q k = vReg w q k := rfl
    rw [h1, hv, hu.vregs]
    by_cases hq : c.mask.getLsbD q = true
    · have := hsome q hq
      simp only [mem_positions, hq, this, true_and, and_true, if_true, Writes.vAt, List.lookup_cons]
      by_cases hk : k = r
      · subst hk; simp
      · have : (k == r) = false := by simpa using hk
        simp [hk, this]
    · simp [mem_positions, hq]
  · intro n
    have h1 : sReg { w with forms := F } n = sReg u n := by rw [er]; rfl
    rw [h1, hu.sregs]
  · intro q k
    have h1 : predReg { w with forms := F } q k = predReg w q k := rfl
    rw [h1, hp, hu.preds]; rfl
  · have h1 : w.csr = u.csr := by rw [er]
    show w.csr = _
    rw [h1, hu.csrs]
  · intro q
    show tidAt w q = _
    rw [hs.tids, hu.tids]
  · show liveMask w = _
    rw [hs.live, hu.live]
  · have e2 : w = { c.wave with threads := w.threads, s := u.s, sbad := u.sbad, forms := u.forms, csr := u.csr,
                                base := u.base, stack := u.stack, step := u.step } :=
      er.trans (congrArg (fun z : Wave => { z with threads := w.threads }) hu.rest)
    have f1 : w.s = u.s := by rw [er]
    have f2 : w.sbad = u.sbad := by rw [er]
    have f3 : w.csr = u.csr := by rw [er]
    have f4 : w.base = u.base := by rw [er]
    have f5 : w.stack = u.stack := by rw [er]
    have f6 : w.step = u.step := by rw [er]
    have e3 := congrArg (fun z : Wave => { z with forms := F }) e2
    refine Eq.trans e3 ?_
    simp only [f1, f2, f3, f4, f5, f6]
  · show w.base = u.base; rw [er]
  · show w.stack = u.stack; rw [er]
  · show w.step = u.step; rw [er]

/-- A write of one s register. -/
theorem regs_setSReg {c : Ctx} {x : Writes} {u : Wave} (hu : RegsAfter c x u) (n : Nat) (a : Word) :
    RegsAfter c { x with s := (n, a) :: x.s } (setSReg u n a) := by
  refine ⟨hu.vregs, ?_, hu.preds, hu.csrs, hu.tids, hu.live, ?_⟩
  · intro m
    rw [sReg_setSReg, hu.sregs]
    simp only [List.lookup_cons]
    by_cases hm : m = n
    · subst hm; simp
    · have : (m == n) = false := by simpa using hm
      simp [hm, this]
  · exact congrArg (fun z : Wave => setSReg { z with s := u.s, sbad := u.sbad } n a) hu.rest

/-- A write of a destination. -/
theorem regs_writeDst {s : State} {c : Ctx} (h : Issues s c) {srcs : List Src} {u : Wave} {m : Mask}
    (hu : RegsAfter c { released := releasedBy srcs, ur := m != 0 } u) (d : Reg) (wide : Bool)
    (form : Option Form) (f : Nat → DWord) :
    RegsAfter c (destWrites c d wide srcs m f) (writeDst c u d wide form f) ∧
      (writeDst c u d wide form f).base = u.base ∧ (writeDst c u d wide form f).stack = u.stack ∧
      (writeDst c u d wide form f).step = u.step := by
  unfold writeDst destWrites
  cases specOf d with
  | v r =>
    cases wide with
    | false =>
      simp only [Bool.false_eq_true, if_false]
      exact regs_writeV h hu r form _
    | true =>
      simp only [if_true]
      obtain ⟨h1, b1, b2, b3⟩ := regs_writeV h hu r form (fun q => loWord (f q))
      obtain ⟨h2, d1, d2, d3⟩ := regs_writeV h h1 (r + 1) form (fun q => hiWord (f q))
      exact ⟨h2, d1.trans b1, d2.trans b2, d3.trans b3⟩
  | s r =>
    cases wide with
    | false => exact ⟨regs_setSReg hu r _, rfl, rfl, rfl⟩
    | true => exact ⟨regs_setSReg (regs_setSReg hu r _) (r + 1) _, rfl, rfl, rfl⟩
  | p n => exact ⟨hu, rfl, rfl, rfl⟩
  | sp n => exact ⟨hu, rfl, rfl, rfl⟩
  | k n => exact ⟨hu, rfl, rfl, rfl⟩
  | lit => exact ⟨hu, rfl, rfl, rfl⟩

/-- A write of a predicate. -/
theorem regs_writeP {s : State} {c : Ctx} (h : Issues s c) {x : Writes} {u : Wave}
    (hu : RegsAfter c x u) (hx : x.p = []) (d : Reg) (hd : predOk d = true) (f : Nat → Bool) :
    RegsAfter c { x with p := [(predNum d, f)] } (writeP c u d f) ∧
      (writeP c u d f).base = u.base ∧ (writeP c u d f).stack = u.stack ∧ (writeP c u d f).step = u.step := by
  have hk : predNum d < 8 := by
    unfold predOk specOf at hd
    unfold predNum
    grind
  generalize hw : writeP c u d f = w
  have hs : SameButThreads u w := hw ▸ same_fold _ (fun v q => same_setPred v q _ (f q)) _ u
  have er := hs.rest
  have hsome : ∀ q, c.mask.getLsbD q = true → (threadAt u q).isSome = true := by
    intro q hq
    have hl : (liveMask u).getLsbD q = true := by
      rw [hu.live]
      obtain ⟨-, -, -, -, -, hm, -⟩ := ctxAt_eq h.2
      rw [hm, activeMask, BitVec.getLsbD_and, Bool.and_eq_true] at hq
      exact hq.2
    exact live_of_liveMask _ _ hl
  refine ⟨⟨?_, ?_, ?_, ?_, ?_, ?_, ?_⟩, ?_, ?_, ?_⟩
  · intro q k
    have h1 : vReg w q k = vReg u q k := by rw [← hw]; exact vReg_fold_set_pred _ _ f u q k
    rw [h1, hu.vregs]; rfl
  · intro n
    have h1 : sReg w n = sReg u n := by rw [er]; rfl
    rw [h1, hu.sregs]
  · intro q k
    have h1 := predReg_fold_set_pred (positions c.mask) (predNum d) hk f u q k
    rw [← hw]
    refine h1.trans ?_
    rw [hu.preds]
    by_cases hq : c.mask.getLsbD q = true
    · have := hsome q hq
      simp only [mem_positions, hq, this, true_and, and_true, if_true, Writes.pAt, List.lookup_cons, List.lookup_nil, hx]
      by_cases hk : k = predNum d
      · subst hk
        by_cases h0 : predNum d = 0 <;> simp [h0, predReg]
      · have : (k == predNum d) = false := by simpa using hk
        simp [hk, this]
    · simp [mem_positions, hq]
  · have h1 : w.csr = u.csr := by rw [er]
    rw [h1, hu.csrs]
  · intro q; rw [hs.tids, hu.tids]
  · rw [hs.live, hu.live]
  · have e2 : w = { c.wave with threads := w.threads, s := u.s, sbad := u.sbad, forms := u.forms, csr := u.csr,
                                base := u.base, stack := u.stack, step := u.step } :=
      er.trans (congrArg (fun z : Wave => { z with threads := w.threads }) hu.rest)
    have f1 : w.s = u.s := by rw [er]
    have f2 : w.sbad = u.sbad := by rw [er]
    have f3 : w.csr = u.csr := by rw [er]
    have f4 : w.base = u.base := by rw [er]
    have f5 : w.stack = u.stack := by rw [er]
    have f6 : w.step = u.step := by rw [er]
    have f7 : w.forms = u.forms := by rw [er]
    refine Eq.trans e2 ?_
    simp only [f1, f2, f3, f4, f5, f6, f7]
  · rw [er]
  · rw [er]
  · rw [er]

/-! The wave after the sources are read stands where it stood. -/

theorem read_path (c : Ctx) (srcs : List Src) (b : Bool) :
    (releaseSrcs c srcs (setStatIf c.wave b 0)).base = c.wave.base ∧
      (releaseSrcs c srcs (setStatIf c.wave b 0)).stack = c.wave.stack ∧
      (releaseSrcs c srcs (setStatIf c.wave b 0)).step = c.wave.step := by
  obtain ⟨h1, h2, h3⟩ := pathFields_read c srcs (setStatIf c.wave b 0)
  rw [h1, h2, h3, setStatIf_fields]
  exact ⟨rfl, rfl, rfl⟩

/-! Forms. -/

/-- A VEC instruction with a register destination, its operands legal and readable. -/
theorem vecDst_effect {s : State} {c : Ctx} (h : Issues s c) {d : Reg} {wide : Bool} (n : Nat) {srcs : List Src}
    (form : Ctx → Option Form) (f : Ctx → Nat → DWord) (hd : dstOk c.g d wide = true)
    (hr : SourcesRead c (isSSpec d) srcs) :
    ∃ t, vecDst s d wide n srcs form f = .next t ∧ RegEffect s t c n (destWrites c d wide srcs (unwMask c srcs) (f c)) := by
  have hreg := regs_after_read c srcs (unwMask c srcs != 0)
  obtain ⟨b1, b2, b3⟩ := read_path c srcs (unwMask c srcs != 0)
  obtain ⟨r1, e1, e2, e3⟩ := regs_writeDst h hreg d wide (form c) (f c)
  refine ⟨_, ?_, regEffect_advance h n r1 (e1.trans b1) (e2.trans b2) (e3.trans b3)⟩
  unfold vecDst
  apply issue_ok h
  simp only [needSpec, hd, if_true, readSrcs_of hr]

/-- A VEC instruction with a predicate destination. -/
theorem vecPred_effect {s : State} {c : Ctx} (h : Issues s c) {d : Reg} (n : Nat) {srcs : List Src}
    (f : Ctx → Nat → Bool) (hd : predOk d = true) (hr : SourcesRead c false srcs) :
    ∃ t, vecPred s d n srcs f = .next t ∧ RegEffect s t c n (predWrites d srcs (unwMask c srcs) (f c)) := by
  have hreg := regs_after_read c srcs (unwMask c srcs != 0)
  obtain ⟨b1, b2, b3⟩ := read_path c srcs (unwMask c srcs != 0)
  obtain ⟨r1, e1, e2, e3⟩ := regs_writeP h hreg rfl d hd (f c)
  refine ⟨_, ?_, regEffect_advance h n r1 (e1.trans b1) (e2.trans b2) (e3.trans b3)⟩
  unfold vecPred
  apply issue_ok h
  simp only [needSpec, hd, if_true, readSrcs_of hr]

/-- An illegal destination of a VEC instruction. -/
theorem vecDst_illegal {s : State} {c : Ctx} (h : Issues s c) {d : Reg} {wide : Bool} (n : Nat) (srcs : List Src)
    (form : Ctx → Option Form) (f : Ctx → Nat → DWord) (hd : dstOk c.g d wide = false) :
    vecDst s d wide n srcs form f = .next (takeTrap s c.w c.pb (illegalOperand d.toNat c.mask) c.path.pc) := by
  unfold vecDst
  apply issue_error h
  simp [needSpec, hd]

/-- An illegal destination of a VEC instruction that writes a predicate. -/
theorem vecPred_illegal {s : State} {c : Ctx} (h : Issues s c) {d : Reg} (n : Nat) (srcs : List Src)
    (f : Ctx → Nat → Bool) (hd : predOk d = false) :
    vecPred s d n srcs f = .next (takeTrap s c.w c.pb (illegalOperand d.toNat c.mask) c.path.pc) := by
  unfold vecPred
  apply issue_error h
  simp [needSpec, hd]

theorem parityCheck_ownReads {c : Ctx} {srcs : List Src} (h : ∀ e ∈ ownReads c srcs, srcBad c e.pos e.src = false) :
    parityCheck c srcs = .ok () :=
  parityCheck_of (fun x hx q hq => h ⟨x, q, q⟩ (by simp only [ownReads, List.mem_flatMap, List.mem_map]; exact ⟨x, hx, q, hq, rfl⟩))

theorem lane_ok {c : Ctx} {srcs : List Src} {reads : List LaneSrc} {m : Mask} (hr : LaneRead c srcs reads m) :
    (m != 0 && wStrict c.wave && !wTrap c.wave) = false := by
  rcases hr.2.2 with h | h | h <;> simp [h]

/-- A lane instruction with a register destination. -/
theorem laneDst_effect {s : State} {c : Ctx} (h : Issues s c) {d : Reg} {dOk : Ctx → Bool} {wide : Bool} (n : Nat)
    {srcs : List Src} {reads : List LaneSrc} {par : Ctx → Except Trap Unit} (hp : par c = .ok ()) (unw : Ctx → Reg × Mask)
    (form : Ctx → Option Form) (f : Ctx → Nat → DWord) (hd : dOk c = true) (hr : LaneRead c srcs reads (unw c).2) :
    ∃ t, laneOp s d dOk n srcs par unw (fun c v => writeDst c v d wide (form c) (f c)) = .next t ∧
      RegEffect s t c n (destWrites c d wide srcs (unw c).2 (f c)) := by
  have hreg := regs_after_read c srcs ((unw c).2 != 0)
  obtain ⟨b1, b2, b3⟩ := read_path c srcs ((unw c).2 != 0)
  obtain ⟨r1, e1, e2, e3⟩ := regs_writeDst h hreg d wide (form c) (f c)
  refine ⟨_, ?_, regEffect_advance h n r1 (e1.trans b1) (e2.trans b2) (e3.trans b3)⟩
  unfold laneOp
  apply issue_ok h
  simp only [needSpec, hd, if_true, srcsOk_of hr.1, hp, lane_ok hr, Bool.false_eq_true, if_false]

/-- A lane instruction with a predicate destination. -/
theorem lanePred_effect {s : State} {c : Ctx} (h : Issues s c) {d : Reg} (n : Nat)
    {srcs : List Src} {reads : List LaneSrc} {par : Ctx → Except Trap Unit} (hp : par c = .ok ()) (unw : Ctx → Reg × Mask)
    (f : Ctx → Nat → Bool) (hd : predOk d = true) (hr : LaneRead c srcs reads (unw c).2) :
    ∃ t, laneOp s d (fun _ => predOk d) n srcs par unw (fun c v => writeP c v d (f c)) = .next t ∧
      RegEffect s t c n (predWrites d srcs (unw c).2 (f c)) := by
  have hreg := regs_after_read c srcs ((unw c).2 != 0)
  obtain ⟨b1, b2, b3⟩ := read_path c srcs ((unw c).2 != 0)
  obtain ⟨r1, e1, e2, e3⟩ := regs_writeP h hreg rfl d hd (f c)
  refine ⟨_, ?_, regEffect_advance h n r1 (e1.trans b1) (e2.trans b2) (e3.trans b3)⟩
  unfold laneOp
  apply issue_ok h
  simp only [needSpec, hd, if_true, srcsOk_of hr.1, hp, lane_ok hr, Bool.false_eq_true, if_false]

/-! Completion, one lemma per shape: it asks only what the instruction's meaning is. -/

theorem regOp_completes (o : RegOp) (form : Ctx → Option Form)
    (he : ∀ s, exec o.instr s = vecDst s o.d o.wide o.words o.srcs form o.value) : o.Completes := by
  intro s c h hd hr
  rw [he]
  exact vecDst_effect h _ _ _ hd hr

theorem twoOp_completes {i : F3 → Instr} {f : Word → Word → Word} {x : F3} (he : ∀ s, exec (i x) s = vec2 s x f) :
    (twoOp i f x).Completes := regOp_completes _ _ he

theorem oneOp_completes {i : F3 → Instr} {f : Word → Word} {x : F3} (he : ∀ s, exec (i x) s = vec1 s x f) :
    (oneOp i f x).Completes := regOp_completes _ _ he

theorem accOp_completes {i : F3 → Instr} {f : Word → Word → Word → Word} {x : F3} (he : ∀ s, exec (i x) s = vec3 s x f) :
    (accOp i f x).Completes := regOp_completes _ _ he

theorem immOp_completes {i : FI → Instr} {f : BitVec 9 → Word → Word} {x : FI} (he : ∀ s, exec (i x) s = vecI s x (f x.imm)) :
    (immOp i f x).Completes := regOp_completes _ _ he

theorem predOp_completes (o : PredOp) (he : ∀ s, exec o.instr s = vecPred s o.d o.words o.srcs o.value) : o.Completes := by
  intro s c h hd hr
  rw [he]
  exact vecPred_effect h _ _ hd hr

theorem cmpOp_completes {i : F3 → Instr} {f : Word → Word → Bool} {x : F3} (he : ∀ s, exec (i x) s = vecCmp s x f) :
    (cmpOp i f x).Completes := predOp_completes _ he

theorem laneOp_completes (o : LaneOp) (par : Ctx → Except Trap Unit)
    (hp : ∀ c, (∀ e ∈ o.reads c, srcBad c e.pos e.src = false) → par c = .ok ()) (unw : Ctx → Reg × Mask) (form : Ctx → Option Form) (hm : ∀ c, (unw c).2 = o.m c)
    (he : ∀ s, exec o.instr s = laneOp s o.d o.dOk o.words o.srcs par unw (fun c v => writeDst c v o.d o.wide (form c) (o.value c))) :
    o.Completes := by
  intro s c h hd hr
  rw [he]
  rw [← hm] at hr ⊢
  exact laneDst_effect h _ (hp c hr.2.1) unw form o.value hd hr

theorem lanePredOp_completes (o : LanePredOp) (par : Ctx → Except Trap Unit)
    (hp : ∀ c, (∀ e ∈ o.reads c, srcBad c e.pos e.src = false) → par c = .ok ()) (unw : Ctx → Reg × Mask) (hm : ∀ c, (unw c).2 = o.m c)
    (he : ∀ s, exec o.instr s = laneOp s o.d (fun _ => predOk o.d) 1 o.srcs par unw (fun c v => writeP c v o.d (o.value c))) :
    o.Completes := by
  intro s c h hd hr
  rw [he]
  rw [← hm] at hr ⊢
  exact lanePred_effect h _ (hp c hr.2.1) unw o.value hd hr

end Sys2Proof.Machine
end

