-- ==== Sys2Proof/Tests/Slice0.lean ====
section
/-! SUPPORT. The author's tests: ill-formed terms, words of each class, single steps on small states, and for each
statement with hypotheses a state that meets them. -/

namespace Sys2Proof.Machine

set_option Elab.async false

/-! Terms. -/

def tF3 (d a b : Reg) : F3 := ⟨d, a, b, false, false, false, 0⟩
def tFI (d a : Reg) (imm : BitVec 9) : FI := ⟨d, a, imm, false⟩
def tFM (t a : Reg) (space : BitVec 3) : FM := ⟨t, a, space, 0, 0, false, false, 0⟩
def tFE (d a b : Reg) : FE := ⟨d, a, b, 0, 0, 0⟩

/-! Well-formed terms, and an ill-formed one for each check (R215 to R217, R221; ranges of R10, R101, R372, R377). -/

theorem test_wellFormed : ∀ i ∈ [Instr.iadd (tF3 3 1 0x40), .ldW (tFM 1 2 0), .trap 1, .mzero (tFE 0x78 0x78 0x78), .sqDrain 5 0,
    .mbin 127 11 0 (List.replicate 64 0), .softError 7 0 true], i.wf = true := by decide

theorem test_illFormed_fixedField : ∀ i ∈ [Instr.iadd { tF3 3 1 0x40 with m := true }, .iabs (tF3 1 2 3), .brcAny ⟨1, false, 4, 1⟩,
    .mzero (tFE 0 0x78 0x78), .ghint (tFE 0x78 0x78 0)], i.wf = false := by decide

theorem test_illFormed_entry : ∀ i ∈ [Instr.warv { tFM 0x78 1 0 with x := true }, .depo { tFM 0x78 1 0 with x := true }],
    i.wf = false := by decide

theorem test_illFormed_unusedWord : ∀ i ∈ [Instr.ldW { tFM 1 2 0 with ext := 4 }, .iadd { tF3 3 1 0x40 with lit := 9 },
    .gqry { tFE 0x41 0x42 0x43 with lit := 1 }], i.wf = false := by decide

theorem test_illFormed_waveEvents : ∀ i ∈ [Instr.sqDrain (2 ^ 32) 0, .depoDeliver (2 ^ 32) 0, .heldDepositDeliver 24576, .warvPass 24576 false,
    .waitaTest 24576 false, .wsleepExpiry 24576 true, .icinvComplete 24576 false, .spawnEnqueue 24576 false, .tileClosure 24576 false,
    .gsubAccept 24576 false, .mbrecvDequeue 24576 false, .mbsendEnqueue 24576 false, .dbgsendAppend 24576 false, .waveFreeze 24576],
    i.wf = false := by decide

theorem test_illFormed_coreEvents : ∀ i ∈ [Instr.propagate 323 0, .propagate 0 (2 ^ 64), .drop 323 0, .drop 0 (2 ^ 64), .mshrRelease 256 0,
    .mshrRelease 0 64, .batonTimeout 256 0, .childPlace 256], i.wf = false := by decide

theorem test_illFormed_partEvents : ∀ i ∈ [Instr.workgroupPlace 20, .taskRetire 20 0 0 0, .taskRetire 0 4 0 0, .taskRetire 0 0 64 0,
    .taskRetire 0 0 0 65536, .passAgeing 20 0 0, .passAgeing 0 4 0, .passAgeing 0 0 64, .pwrbudRefresh 20, .graphTeardown 20 0,
    .graphTeardown 0 4, .eventEnqueue 20, .pcmdCreate 20, .pcmdDestroy 20, .pcmdStartPacer 20, .pcmdPartitionReset 20, .pcmdPreempt 20,
    .pcmdResume 20, .tlbinvComplete 20], i.wf = false := by decide

theorem test_illFormed_hostEvents : ∀ i ∈ [Instr.registerWrite 129 0 0, .mbin 128 0 0 [], .mbin 0 12 0 [], .mbin 0 0 1 (List.replicate 64 0),
    .mbpop 128 0, .dbgdata 128, .tlbinv 128 1, .hostBar2Write 129 0 [], .hostBar2Read 128 0 0, .vfReset 128, .softError 8 0 true],
    i.wf = false := by decide

/-! Words of each class, written out field by field from R215 to R217 and the entries. -/

theorem test_decode_int : decodeWords 0 [(0#1 ++ 0#1 ++ 1#1 ++ 0x40#7 ++ 0x01#7 ++ 0x03#7 ++ 0x00#8 : BitVec 32)] =
    .ok (.iadd { tF3 3 1 0x40 with la := true }, []) := rfl
theorem test_decode_bitfield : decodeWords 0 [(0#1 ++ 0x07A#9 ++ 0x02#7 ++ 0x05#7 ++ 0x2A#8 : BitVec 32)] =
    .ok (.bfeu (tFI 5 2 0x07A), []) := rfl
theorem test_decode_float : decodeWords 0 [(0#3 ++ 0x02#7 ++ 0x01#7 ++ 0x04#7 ++ 0x77#8 : BitVec 32)] =
    .ok (.fclass (tF3 4 1 2), []) := rfl
theorem test_decode_branch : decodeWords 2 [(0x010#10 ++ 0x008#10 ++ 0#1 ++ 1#3 ++ 0x02#8 : BitVec 32)] =
    .ok (.brc ⟨1, false, 8, 16⟩, []) := rfl
theorem test_decode_spawn : decodeWords 2 [(3#10 ++ 0x68#7 ++ 0x02#7 ++ 0x0D#8 : BitVec 32)] = .ok (.spawn 3 0x68 2, []) := rfl
theorem test_decode_branchBack : decodeWords 2 [0x043FC102#32] = .ok (.brc ⟨1, false, 0x3FC, 16⟩, []) := rfl
theorem test_decode_lane : decodeWords 0 [(0#1 ++ 0#1 ++ 0#1 ++ 0#7 ++ 0x61#7 ++ 0x04#7 ++ 0x48#8 : BitVec 32)] =
    .ok (.ballot (tF3 4 0x61 0), []) := rfl
theorem test_decode_transcendental : decodeWords 0 [(0#3 ++ 0#7 ++ 0x01#7 ++ 0x02#7 ++ 0x8D#8 : BitVec 32)] =
    .ok (.fsin (tF3 2 1 0), []) := rfl
theorem test_decode_select : decodeWords 0 [(2#3 ++ 0x7F#7 ++ 0x01#7 ++ 0x06#7 ++ 0x31#8 : BitVec 32), 0] =
    .ok (.sel ⟨6, 1, 0x7F, 2, 0⟩, []) := rfl
theorem test_decode_load : decodeWords 1 [(1#1 ++ 1#1 ++ 5#3 ++ 1#2 ++ 0#3 ++ 0x02#7 ++ 0x01#7 ++ 0x04#8 : BitVec 32), 0x80] =
    .ok (.ldW ⟨1, 2, 0, 1, 5, true, true, 0x80⟩, []) := rfl
theorem test_decode_atomic : decodeWords 1 [(1#1 ++ 0#1 ++ 3#3 ++ 3#2 ++ 0#3 ++ 0x02#7 ++ 0x01#7 ++ 0x20#8 : BitVec 32), 3] =
    .ok (.atomAdd ⟨1, 2, 0, 3, 3, false, true, 3⟩, []) := rfl
theorem test_decode_copy : decodeWords 3 [(0#3 ++ 0x42#7 ++ 0x40#7 ++ 0x78#7 ++ 0x02#8 : BitVec 32), 0x00000040] =
    .ok (.copySs ⟨0x78, 0x40, 0x42, 0, 0x40, 0⟩, []) := rfl
theorem test_decode_matrix : decodeWords 3 [(3#3 ++ 0x78#7 ++ 0x78#7 ++ 0x78#7 ++ 0x13#8 : BitVec 32)] =
    .ok (.mzero ⟨0x78, 0x78, 0x78, 3, 0, 0⟩, []) := rfl
theorem test_decode_baton : decodeWords 3 [(0#3 ++ 0x02#7 ++ 0x01#7 ++ 0x04#7 ++ 0x20#8 : BitVec 32), 0x11] =
    .ok (.neval ⟨4, 1, 2, 0, 0x11, 0⟩, []) := rfl
theorem test_decode_texture : decodeWords 3 [(0#3 ++ 0x78#7 ++ 0x01#7 ++ 0x04#7 ++ 0x28#8 : BitVec 32), 0x25] =
    .ok (.tex ⟨4, 1, 0x78, 0, 0x25, 0⟩, []) := rfl
theorem test_decode_trace : decodeWords 3 [(0#3 ++ 0x78#7 ++ 0x08#7 ++ 0x04#7 ++ 0x30#8 : BitVec 32), 0x101] =
    .ok (.trace ⟨4, 8, 0x78, 0, 0x101, 0⟩, []) := rfl
theorem test_decode_dash : decodeWords 3 [(0#3 ++ 0x78#7 ++ 0x41#7 ++ 0x78#7 ++ 0x39#8 : BitVec 32)] =
    .ok (.dwin ⟨0x78, 0x41, 0x78, 0, 0, 0⟩, []) := rfl
theorem test_decode_graph : decodeWords 4 [(0#3 ++ 0x7F#7 ++ 0x42#7 ++ 0x78#7 ++ 0x07#8 : BitVec 32), 5] =
    .ok (.tlsig ⟨0x78, 0x42, 0x7F, 0, 0, 5⟩, []) := rfl
theorem test_decode_reserved : decodeWords 0 [(1#1 ++ 0#31 : BitVec 32)] = .error .fixedField ∧ decodeWords 4 [0x000000FF] =
    .error .unassigned ∧ decodeWords 1 [0x80000004] = .error .short := ⟨rfl, rfl, rfl⟩

/-! Small states: wave 0 on core 0, of workgroup 0 in partition 0, with two threads. -/

def tEnt : KEnt :=
  { entry := 4096, psz := 0, strict := false, dash := false, waves := 1, tiles := 1, scratch := 1, vregs8 := 8, widthCode := 0
    brtab := 0, whtab := 0, smtab := 0, tvec := 0, privBase := 0 }

/-- Two threads: v1 is 5 and 6, v2 is 64 and 128, s0 is 7, s2:s3 is 4096; thread 0 has p1. -/
def tWave : Wave :=
  { newWave 0 0 0 tEnt 0 with
    threads := [⟨0, true, [(1, 5), (2, 64)], 2, []⟩, ⟨1, true, [(1, 6), (2, 128)], 0, []⟩]
    s := [(0, 7), (2, 4096)]
    base := { mask := 3, pc := 8192, code := none, wait := .ready, resume := none } }

def tWg (k : WgKind) : Wg :=
  { part := 0, core := 0, kind := k, ent := tEnt, kbase := 0, kidx := 0, frame := 0, depth := 0, tilex := 0, tiley := 0, arg0 := 0
    arg1 := 0, scr := 0, tiles := [], tbad := [], slots := [0], age := 0, home := 0 }

def tPart : Part := { Part.init with state := .running, clmask := 1, hwsh := 3, gdsh := 1 }

abbrev tT : WgKind := .task 0 0 0

def tS (v : Wave) (k : WgKind) : State :=
  { State.reset with dev := { Dev.init with stat := .ready }, waves := [(0, v)], wgs := [(0, tWg k)], parts := [(0, tPart)], nextId := 1 }

def tC (v : Wave) (k : WgKind) : Ctx :=
  { w := 0, wave := v, g := tWg k, pb := false, path := v.base, mask := activeMask v v.base }

/-- The same with one page of memory mapped: VA 0 to 0x1FFFF lies at PA 0x20000, VA 0x20000 to 0x3FFFF is sparse, the rest absent
(R147, R148); l lists the bytes that are not zero from PA 0x20000 on. -/
def tMem (l : Memory) : Memory :=
  [(0x2000, 1), (0x2001, 0x40), (0x4000, 1), (0x4001, 0x60), (0x6000, 1), (0x6001, 0x80), (0x8000, 0x0F), (0x8002, 2), (0x8008, 0x10)] ++ l

def tM (v : Wave) (k : WgKind) (l : Memory) : State :=
  { tS v k with mem := tMem l, parts := [(0, { tPart with ptroot := 0x2000 })] }

/-- The same with the two pages in the TLB of core 0, and a choice that uses them. -/
def tL (v : Wave) (k : WgKind) (l : Memory) : State :=
  { tM v k l with tlbs := [(0, [(0, 0x2000F), (1, 0x10)])], choice := { Choice.init with oldTlb := true } }

theorem tIssuesAt (s : State) (v : Wave) (k : WgKind) (h1 : s.waves = [(0, v)]) (h2 : s.wgs = [(0, tWg k)]) (h3 : s.dev.stat = .ready)
    (h4 : s.cur = 0) (h5 : s.curB = false) (hg : v.wg = 0) (hs : v.stack = []) (hh : v.halted = false) (hf : v.frozen = false)
    (hm : activeMask v v.base ≠ 0) : Issues s (tC v k) := by
  refine ⟨by simp [h3], ?_⟩
  simp [ctxAt, tC, getWave, getWg, tabGet?, h1, h2, h4, h5, hg, hh, hf, pathOf, hs]
  exact hm

theorem tIssues (v : Wave) (k : WgKind) (hg : v.wg = 0) (hs : v.stack = []) (hh : v.halted = false) (hf : v.frozen = false)
    (hm : activeMask v v.base ≠ 0) : Issues (tS v k) (tC v k) := tIssuesAt _ _ _ rfl rfl rfl rfl rfl hg hs hh hf hm

theorem tIssuesM (v : Wave) (k : WgKind) (l : Memory) (hg : v.wg = 0) (hs : v.stack = []) (hh : v.halted = false)
    (hf : v.frozen = false) (hm : activeMask v v.base ≠ 0) : Issues (tM v k l) (tC v k) :=
  tIssuesAt _ _ _ rfl rfl rfl rfl rfl hg hs hh hf hm

theorem tIssuesL (v : Wave) (k : WgKind) (l : Memory) (hg : v.wg = 0) (hs : v.stack = []) (hh : v.halted = false)
    (hf : v.frozen = false) (hm : activeMask v v.base ≠ 0) : Issues (tL v k l) (tC v k) :=
  tIssuesAt _ _ _ rfl rfl rfl rfl rfl hg hs hh hf hm

theorem tOk : Issues (tS tWave (.task 0 0 0)) (tC tWave (.task 0 0 0)) := tIssues _ _ rfl rfl rfl rfl (by decide)
theorem tPacerOk : Issues (tS tWave .pacer) (tC tWave .pacer) := tIssues _ _ rfl rfl rfl rfl (by decide)

/-! Single steps, their results computed by hand from the entries. -/

/-- The word that a register of a position holds after an instruction. -/
def after (i : Instr) (v : Wave) (q r : Nat) : Option Word :=
  match exec i (tS v (.task 0 0 0)) with
  | .next t => (getWave t 0).bind (fun u => vReg u q r)
  | _ => none

theorem test_iadd : after (.iadd (tF3 3 1 0x40)) tWave 0 3 = some 12 ∧ after (.iadd (tF3 3 1 0x40)) tWave 1 3 = some 13 := by decide +kernel
theorem test_isub_wraps : after (.isub (tF3 3 1 0x40)) tWave 0 3 = some 0xFFFFFFFE := by decide +kernel
theorem test_sar_byWidth : after (.sar { tF3 3 0x7E 0x7F with lit := 32 }) tWave 0 3 ≠ none := by decide +kernel

/-! A word of every encoded instruction of the table: the fixed bits of its row, the other fields placed as R215 to R217
place them, an extension or literal word where R208 gives one. -/

/-- Words of a class, each with the instruction it stands for. -/
abbrev TableWords := List (List Word × Instr)

noncomputable def tWords_vec0 : TableWords := [
  ([0x20808400], .iadd ⟨4, 1, 2, true, false, false, 0⟩), ([0x20808401], .isub ⟨4, 1, 2, true, false, false, 0⟩),
  ([0x20808402], .imul ⟨4, 1, 2, true, false, false, 0⟩), ([0x20808403], .imulh ⟨4, 1, 2, true, false, false, 0⟩),
  ([0x20808404], .imulhu ⟨4, 1, 2, true, false, false, 0⟩), ([0x20808405], .imad ⟨4, 1, 2, true, false, false, 0⟩),
  ([0x20808406], .imin ⟨4, 1, 2, true, false, false, 0⟩), ([0x20808407], .imax ⟨4, 1, 2, true, false, false, 0⟩),
  ([0x20808408], .umin ⟨4, 1, 2, true, false, false, 0⟩), ([0x20808409], .umax ⟨4, 1, 2, true, false, false, 0⟩),
  ([0x2000840A], .iabs ⟨4, 1, 0, true, false, false, 0⟩), ([0x2080840B], .iadds ⟨4, 1, 2, true, false, false, 0⟩),
  ([0x2080840C], .isubs ⟨4, 1, 2, true, false, false, 0⟩), ([0x2080840D], .sad ⟨4, 1, 2, true, false, false, 0⟩),
  ([0x2080840E], .imin3 ⟨4, 1, 2, true, false, false, 0⟩), ([0x2080840F], .imax3 ⟨4, 1, 2, true, false, false, 0⟩),
  ([0x20808410], .minadd ⟨4, 1, 2, true, false, false, 0⟩), ([0x20808411], .minaddU ⟨4, 1, 2, true, false, false, 0⟩),
  ([0x20808412], .idp4 ⟨4, 1, 2, true, false, false, 0⟩), ([0x20808413], .idp4u ⟨4, 1, 2, true, false, false, 0⟩),
  ([0x20808414], .iadd2 ⟨4, 1, 2, true, false, false, 0⟩), ([0x20808415], .isub2 ⟨4, 1, 2, true, false, false, 0⟩),
  ([0x20808416], .imin2 ⟨4, 1, 2, true, false, false, 0⟩), ([0x20808417], .imax2 ⟨4, 1, 2, true, false, false, 0⟩),
  ([0x20808418], .iadd64 ⟨4, 1, 2, true, false, false, 0⟩), ([0x20808419], .isub64 ⟨4, 1, 2, true, false, false, 0⟩),
  ([0x2080841A], .imulWide ⟨4, 1, 2, true, false, false, 0⟩), ([0x2080841B], .imadWide ⟨4, 1, 2, true, false, false, 0⟩),
  ([0x2080841C], .shl64 ⟨4, 1, 2, true, false, false, 0⟩), ([0x2080841D], .shr64 ⟨4, 1, 2, true, false, false, 0⟩),
  ([0x9040841E], .lea ⟨4, 1, 65, true⟩), ([0x2080841F], .iadd3 ⟨4, 1, 2, true, false, false, 0⟩),
  ([0x20808420], .and ⟨4, 1, 2, true, false, false, 0⟩), ([0x20808421], .or ⟨4, 1, 2, true, false, false, 0⟩),
  ([0x20808422], .xor ⟨4, 1, 2, true, false, false, 0⟩), ([0x20808423], .andn ⟨4, 1, 2, true, false, false, 0⟩),
  ([0x3FC08424, 0x18269], .lop3 ⟨4, 1, 127, true, false, false, 98921⟩), ([0x20808425], .shl ⟨4, 1, 2, true, false, false, 0⟩),
  ([0x20808426], .shr ⟨4, 1, 2, true, false, false, 0⟩), ([0x20808427], .sar ⟨4, 1, 2, true, false, false, 0⟩)]

theorem test_decode_vec0 : tWords_vec0.all (fun e => (decodeWords 0 e.1).toOption == some (e.2, [])) = true := by decide +kernel

noncomputable def tWords_vec1 : TableWords := [
  ([0x20808428], .rotl ⟨4, 1, 2, true, false, false, 0⟩), ([0x90408429], .bfe ⟨4, 1, 65, true⟩),
  ([0x9040842A], .bfeu ⟨4, 1, 65, true⟩), ([0x9040842B], .bfi ⟨4, 1, 65, true⟩),
  ([0x2000842C], .popc ⟨4, 1, 0, true, false, false, 0⟩), ([0x2000842D], .clz ⟨4, 1, 0, true, false, false, 0⟩),
  ([0x2000842E], .brev ⟨4, 1, 0, true, false, false, 0⟩), ([0x9040842F], .prmt ⟨4, 1, 65, true⟩),
  ([0x20008430], .mov ⟨4, 1, 0, true, false, false, 0⟩), ([0xA0808431], .sel ⟨4, 1, 2, 5, 0⟩),
  ([0x80408432], .plane ⟨4, 1, 1, true⟩), ([0x80408433], .unplane ⟨4, 1, 1, true⟩),
  ([0x20808438], .icmpEq ⟨4, 1, 2, true, false, false, 0⟩), ([0x20808439], .icmpNe ⟨4, 1, 2, true, false, false, 0⟩),
  ([0x2080843A], .icmpLt ⟨4, 1, 2, true, false, false, 0⟩), ([0x2080843B], .icmpLe ⟨4, 1, 2, true, false, false, 0⟩),
  ([0x2080843C], .icmpGt ⟨4, 1, 2, true, false, false, 0⟩), ([0x2080843D], .icmpGe ⟨4, 1, 2, true, false, false, 0⟩),
  ([0x2080843E], .icmpUlt ⟨4, 1, 2, true, false, false, 0⟩), ([0x2080843F], .icmpUle ⟨4, 1, 2, true, false, false, 0⟩),
  ([0x20808440], .icmpUgt ⟨4, 1, 2, true, false, false, 0⟩), ([0x20808441], .icmpUge ⟨4, 1, 2, true, false, false, 0⟩),
  ([0x20808444], .pand ⟨4, 1, 2, true, false, false, 0⟩), ([0x20808445], .por ⟨4, 1, 2, true, false, false, 0⟩),
  ([0x20808446], .pxor ⟨4, 1, 2, true, false, false, 0⟩), ([0x20008447], .pnot ⟨4, 1, 0, true, false, false, 0⟩),
  ([0x20008448], .ballot ⟨4, 1, 0, true, false, false, 0⟩), ([0x20008449], .vany ⟨4, 1, 0, true, false, false, 0⟩),
  ([0x2000844A], .vall ⟨4, 1, 0, true, false, false, 0⟩), ([0x2000844B], .matchOp ⟨4, 1, 0, true, false, false, 0⟩),
  ([0x2000844C], .first ⟨4, 1, 0, true, false, false, 0⟩), ([0x2000844D], .bcast ⟨4, 1, 0, true, false, false, 0⟩),
  ([0x2080844E], .shflIdx ⟨4, 1, 2, true, false, false, 0⟩), ([0x8040844F], .shflUp ⟨4, 1, 1, true⟩),
  ([0x80408450], .shflDn ⟨4, 1, 1, true⟩), ([0x80408451], .shflXor ⟨4, 1, 1, true⟩), ([0x80408452], .shflRot ⟨4, 1, 1, true⟩),
  ([0x20008453], .redadd ⟨4, 1, 0, true, false, false, 0⟩), ([0x20008454], .redmin ⟨4, 1, 0, true, false, false, 0⟩),
  ([0x20008455], .redmax ⟨4, 1, 0, true, false, false, 0⟩)]

theorem test_decode_vec1 : tWords_vec1.all (fun e => (decodeWords 0 e.1).toOption == some (e.2, [])) = true := by decide +kernel

noncomputable def tWords_vec2 : TableWords := [
  ([0x20008456], .redumin ⟨4, 1, 0, true, false, false, 0⟩), ([0x20008457], .redumax ⟨4, 1, 0, true, false, false, 0⟩),
  ([0x20008458], .redand ⟨4, 1, 0, true, false, false, 0⟩), ([0x20008459], .redor ⟨4, 1, 0, true, false, false, 0⟩),
  ([0x2000845A], .redxor ⟨4, 1, 0, true, false, false, 0⟩), ([0x2000845B], .redfadd ⟨4, 1, 0, true, false, false, 0⟩),
  ([0x20808460], .fadd ⟨4, 1, 2, true, false, false, 0⟩), ([0x20808461], .faddRz ⟨4, 1, 2, true, false, false, 0⟩),
  ([0x20808462], .faddRd ⟨4, 1, 2, true, false, false, 0⟩), ([0x20808463], .faddRu ⟨4, 1, 2, true, false, false, 0⟩),
  ([0x20808464], .fsub ⟨4, 1, 2, true, false, false, 0⟩), ([0x20808465], .fsubRz ⟨4, 1, 2, true, false, false, 0⟩),
  ([0x20808466], .fsubRd ⟨4, 1, 2, true, false, false, 0⟩), ([0x20808467], .fsubRu ⟨4, 1, 2, true, false, false, 0⟩),
  ([0x20808468], .fmul ⟨4, 1, 2, true, false, false, 0⟩), ([0x20808469], .fmulRz ⟨4, 1, 2, true, false, false, 0⟩),
  ([0x2080846A], .fmulRd ⟨4, 1, 2, true, false, false, 0⟩), ([0x2080846B], .fmulRu ⟨4, 1, 2, true, false, false, 0⟩),
  ([0x2080846C], .ffma ⟨4, 1, 2, true, false, false, 0⟩), ([0x2080846D], .ffmaRz ⟨4, 1, 2, true, false, false, 0⟩),
  ([0x2080846E], .ffmaRd ⟨4, 1, 2, true, false, false, 0⟩), ([0x2080846F], .ffmaRu ⟨4, 1, 2, true, false, false, 0⟩),
  ([0x20808470], .fmin ⟨4, 1, 2, true, false, false, 0⟩), ([0x20808471], .fmax ⟨4, 1, 2, true, false, false, 0⟩),
  ([0x20808472], .fminnan ⟨4, 1, 2, true, false, false, 0⟩), ([0x20808473], .fmaxnan ⟨4, 1, 2, true, false, false, 0⟩),
  ([0x20008474], .fabs ⟨4, 1, 0, true, false, false, 0⟩), ([0x20008475], .fneg ⟨4, 1, 0, true, false, false, 0⟩),
  ([0x20008476], .fsat ⟨4, 1, 0, true, false, false, 0⟩), ([0x20808477], .fclass ⟨4, 1, 2, true, false, false, 0⟩),
  ([0x20808478], .fldexp ⟨4, 1, 2, true, false, false, 0⟩), ([0x20008479], .frexp ⟨4, 1, 0, true, false, false, 0⟩),
  ([0x2080847A], .fdot2 ⟨4, 1, 2, true, false, false, 0⟩), ([0x2080847B], .bfdot2 ⟨4, 1, 2, true, false, false, 0⟩),
  ([0x20808480], .fcmpEq ⟨4, 1, 2, true, false, false, 0⟩), ([0x20808481], .fcmpNe ⟨4, 1, 2, true, false, false, 0⟩),
  ([0x20808482], .fcmpLt ⟨4, 1, 2, true, false, false, 0⟩), ([0x20808483], .fcmpLe ⟨4, 1, 2, true, false, false, 0⟩),
  ([0x20808484], .fcmpGt ⟨4, 1, 2, true, false, false, 0⟩), ([0x20808485], .fcmpGe ⟨4, 1, 2, true, false, false, 0⟩)]

theorem test_decode_vec2 : tWords_vec2.all (fun e => (decodeWords 0 e.1).toOption == some (e.2, [])) = true := by decide +kernel

noncomputable def tWords_vec3 : TableWords := [
  ([0x20808486], .fcmpUn ⟨4, 1, 2, true, false, false, 0⟩), ([0x20808487], .fcmpOrd ⟨4, 1, 2, true, false, false, 0⟩),
  ([0x20008488], .frcp ⟨4, 1, 0, true, false, false, 0⟩), ([0x20008489], .frsq ⟨4, 1, 0, true, false, false, 0⟩),
  ([0x2000848A], .fsqrt ⟨4, 1, 0, true, false, false, 0⟩), ([0x2000848B], .fex2 ⟨4, 1, 0, true, false, false, 0⟩),
  ([0x2000848C], .flg2 ⟨4, 1, 0, true, false, false, 0⟩), ([0x2000848D], .fsin ⟨4, 1, 0, true, false, false, 0⟩),
  ([0x2000848E], .fcos ⟨4, 1, 0, true, false, false, 0⟩), ([0x2000848F], .frndN ⟨4, 1, 0, true, false, false, 0⟩),
  ([0x20008490], .frndZ ⟨4, 1, 0, true, false, false, 0⟩), ([0x20008491], .frndD ⟨4, 1, 0, true, false, false, 0⟩),
  ([0x20008492], .frndU ⟨4, 1, 0, true, false, false, 0⟩), ([0x200084A0], .cvtF32I32 ⟨4, 1, 0, true, false, false, 0⟩),
  ([0x200084A1], .cvtF32U32 ⟨4, 1, 0, true, false, false, 0⟩), ([0x200084A2], .cvtI32F32 ⟨4, 1, 0, true, false, false, 0⟩),
  ([0x200084A3], .cvtI32F32Rz ⟨4, 1, 0, true, false, false, 0⟩), ([0x200084A4], .cvtI32F32Rd ⟨4, 1, 0, true, false, false, 0⟩),
  ([0x200084A5], .cvtI32F32Ru ⟨4, 1, 0, true, false, false, 0⟩), ([0x200084A6], .cvtU32F32 ⟨4, 1, 0, true, false, false, 0⟩),
  ([0x208084A7], .cvtF16x2F32 ⟨4, 1, 2, true, false, false, 0⟩), ([0x804084A8], .cvtF32F16 ⟨4, 1, 1, true⟩),
  ([0x208084A9], .cvtBf16x2F32 ⟨4, 1, 2, true, false, false, 0⟩), ([0x804084AA], .cvtF32Bf16 ⟨4, 1, 1, true⟩),
  ([0x208084AB], .cvtE4m3x2F32 ⟨4, 1, 2, true, false, false, 0⟩), ([0x208084AC], .cvtE5m2x2F32 ⟨4, 1, 2, true, false, false, 0⟩),
  ([0x804084AD], .cvtF32E4m3 ⟨4, 1, 1, true⟩), ([0x804084AE], .cvtF32E5m2 ⟨4, 1, 1, true⟩),
  ([0x208084AF], .cvtE2m1x2F32 ⟨4, 1, 2, true, false, false, 0⟩), ([0x804084B0], .cvtF32E2m1 ⟨4, 1, 1, true⟩),
  ([0x208084B8], .hadd2 ⟨4, 1, 2, true, false, false, 0⟩), ([0x208084B9], .hmul2 ⟨4, 1, 2, true, false, false, 0⟩),
  ([0x208084BA], .hfma2 ⟨4, 1, 2, true, false, false, 0⟩), ([0x208084BB], .hmin2 ⟨4, 1, 2, true, false, false, 0⟩),
  ([0x208084BC], .hmax2 ⟨4, 1, 2, true, false, false, 0⟩), ([0x208084BD], .badd2 ⟨4, 1, 2, true, false, false, 0⟩),
  ([0x208084BE], .bfma2 ⟨4, 1, 2, true, false, false, 0⟩), ([0x208084BF], .bmul2 ⟨4, 1, 2, true, false, false, 0⟩),
  ([0x208084C0], .bmin2 ⟨4, 1, 2, true, false, false, 0⟩), ([0x208084C1], .bmax2 ⟨4, 1, 2, true, false, false, 0⟩)]

theorem test_decode_vec3 : tWords_vec3.all (fun e => (decodeWords 0 e.1).toOption == some (e.2, [])) = true := by decide +kernel

noncomputable def tWords_mem0 : TableWords := [
  ([0x5A810400], .ldB ⟨4, 2, 2, 1, 3, true, false, 0⟩), ([0x5A810401], .ldSb ⟨4, 2, 2, 1, 3, true, false, 0⟩),
  ([0x5A810402], .ldH ⟨4, 2, 2, 1, 3, true, false, 0⟩), ([0x5A810403], .ldSh ⟨4, 2, 2, 1, 3, true, false, 0⟩),
  ([0x5A810404], .ldW ⟨4, 2, 2, 1, 3, true, false, 0⟩), ([0x5A810405], .ldD ⟨4, 2, 2, 1, 3, true, false, 0⟩),
  ([0x5A810406], .ldQ ⟨4, 2, 2, 1, 3, true, false, 0⟩), ([0xDA810407, 0x1], .ldr ⟨4, 2, 2, 1, 3, true, true, 1⟩),
  ([0xDA810408, 0x1], .ldrV4 ⟨4, 2, 2, 1, 3, true, true, 1⟩), ([0x5A810409], .ldu ⟨4, 2, 2, 1, 3, true, false, 0⟩),
  ([0x5A81040A], .lduD ⟨4, 2, 2, 1, 3, true, false, 0⟩), ([0x5A810410], .stB ⟨4, 2, 2, 1, 3, true, false, 0⟩),
  ([0x5A810411], .stH ⟨4, 2, 2, 1, 3, true, false, 0⟩), ([0x5A810412], .stW ⟨4, 2, 2, 1, 3, true, false, 0⟩),
  ([0x5A810413], .stD ⟨4, 2, 2, 1, 3, true, false, 0⟩), ([0x5A810414], .stQ ⟨4, 2, 2, 1, 3, true, false, 0⟩),
  ([0xDA810415, 0x1], .str ⟨4, 2, 2, 1, 3, true, true, 1⟩), ([0xDA810416, 0x1], .strV4 ⟨4, 2, 2, 1, 3, true, true, 1⟩),
  ([0x5A810417], .stu ⟨4, 2, 2, 1, 3, true, false, 0⟩), ([0xDA810420, 0x1], .atomAdd ⟨4, 2, 2, 1, 3, true, true, 1⟩),
  ([0xDA810421, 0x1], .atomMin ⟨4, 2, 2, 1, 3, true, true, 1⟩), ([0xDA810422, 0x1], .atomMax ⟨4, 2, 2, 1, 3, true, true, 1⟩),
  ([0xDA810423, 0x1], .atomUmin ⟨4, 2, 2, 1, 3, true, true, 1⟩), ([0xDA810424, 0x1], .atomUmax ⟨4, 2, 2, 1, 3, true, true, 1⟩),
  ([0xDA810425, 0x1], .atomAnd ⟨4, 2, 2, 1, 3, true, true, 1⟩), ([0xDA810426, 0x1], .atomOr ⟨4, 2, 2, 1, 3, true, true, 1⟩),
  ([0xDA810427, 0x1], .atomXor ⟨4, 2, 2, 1, 3, true, true, 1⟩), ([0xDA810428, 0x1], .atomXchg ⟨4, 2, 2, 1, 3, true, true, 1⟩),
  ([0xDA810429, 0x1], .atomCas ⟨4, 2, 2, 1, 3, true, true, 1⟩), ([0xDA81042A, 0x1], .atomFadd ⟨4, 2, 2, 1, 3, true, true, 1⟩),
  ([0xDA81042B, 0x1], .atomAdd64 ⟨4, 2, 2, 1, 3, true, true, 1⟩), ([0xDA81042C, 0x1], .atomXchg64 ⟨4, 2, 2, 1, 3, true, true, 1⟩),
  ([0xDA81042D, 0x1], .atomCas64 ⟨4, 2, 2, 1, 3, true, true, 1⟩), ([0xDA810030, 0x1], .redAdd ⟨0, 2, 2, 1, 3, true, true, 1⟩),
  ([0xDA810031, 0x1], .redMin ⟨0, 2, 2, 1, 3, true, true, 1⟩), ([0xDA810032, 0x1], .redMax ⟨0, 2, 2, 1, 3, true, true, 1⟩),
  ([0xDA810033, 0x1], .redUmin ⟨0, 2, 2, 1, 3, true, true, 1⟩), ([0xDA810034, 0x1], .redUmax ⟨0, 2, 2, 1, 3, true, true, 1⟩),
  ([0xDA810035, 0x1], .redAnd ⟨0, 2, 2, 1, 3, true, true, 1⟩), ([0xDA810036, 0x1], .redOr ⟨0, 2, 2, 1, 3, true, true, 1⟩)]

theorem test_decode_mem0 : tWords_mem0.all (fun e => (decodeWords 1 e.1).toOption == some (e.2, [])) = true := by decide +kernel

noncomputable def tWords_mem1 : TableWords := [
  ([0xDA810037, 0x1], .redXor ⟨0, 2, 2, 1, 3, true, true, 1⟩), ([0xDA810038, 0x1], .redFadd ⟨0, 2, 2, 1, 3, true, true, 1⟩),
  ([0x00810440], .waitc ⟨4, 2, 2, 0, 0, false, false, 0⟩), ([0x58810441], .waita ⟨4, 2, 2, 0, 3, true, false, 0⟩),
  ([0x58810442], .waitae ⟨4, 2, 2, 0, 3, true, false, 0⟩), ([0x00010043], .depo ⟨0, 2, 0, 0, 0, false, false, 0⟩),
  ([0x00010044], .warv ⟨0, 2, 0, 0, 0, false, false, 0⟩), ([0x58810445], .probe ⟨4, 2, 2, 0, 3, true, false, 0⟩),
  ([0x40810446], .resreq ⟨4, 2, 2, 0, 0, true, false, 0⟩), ([0x00810047], .pref ⟨0, 2, 2, 0, 0, false, false, 0⟩),
  ([0x00810048], .prefL2 ⟨0, 2, 2, 0, 0, false, false, 0⟩), ([0x58810049], .clwb ⟨0, 2, 2, 0, 3, true, false, 0⟩),
  ([0x5881004A], .invl ⟨0, 2, 2, 0, 3, true, false, 0⟩)]

theorem test_decode_mem1 : tWords_mem1.all (fun e => (decodeWords 1 e.1).toOption == some (e.2, [])) = true := by decide +kernel

noncomputable def tWords_ctl0 : TableWords := [
  ([0x00000000], .nop), ([0x00012301], .bra ⟨291⟩), ([0x04008902], .brc ⟨1, true, 8, 16⟩), ([0x00008903], .brcAny ⟨1, true, 8, 0⟩),
  ([0x00008904], .brcAll ⟨1, true, 8, 0⟩), ([0x00008905], .brcU ⟨1, true, 8, 0⟩), ([0x00210006], .bri 66), ([0x00000007], .join),
  ([0x00012308], .call ⟨291⟩), ([0x00210009], .calli 66), ([0x0000000A], .ret), ([0x0000000B], .exit), ([0x0003850C], .reord 7 5),
  ([0x00C1410D], .spawn 3 2 65), ([0x00C1410E], .spawnW 3 2 65), ([0x00C1410F], .spawnAt 3 2 65), ([0x00012310], .trap 291),
  ([0x00012311], .bkpt 291), ([0x00000012], .eret), ([0x00000013], .yield), ([0x00210014], .wsleep 66), ([0x00000015], .halt),
  ([0x00000416], .icinv 4), ([0x10204117], .csrr 258 65), ([0x10204118], .csrw 258 65), ([0x10204119], .csrs 258 65),
  ([0x1020411A], .csrc 258 65)]

theorem test_decode_ctl0 : tWords_ctl0.all (fun e => (decodeWords 2 e.1).toOption == some (e.2, [])) = true := by decide +kernel

noncomputable def tWords_eng0 : TableWords := [
  ([0x00A14400, 0x8000001], .copyGs ⟨68, 66, 2, 0, 0x8000001, 0⟩), ([0x00A14401, 0x8000001], .copySg ⟨68, 66, 2, 0, 0x8000001, 0⟩),
  ([0x00A14402, 0x8000001], .copySs ⟨68, 66, 2, 0, 0x8000001, 0⟩), ([0x00A14403, 0x8000001], .copyMc ⟨68, 66, 2, 0, 0x8000001, 0⟩),
  ([0x60A14410, 0x1], .mma ⟨68, 66, 2, 3, 0x1, 0⟩), ([0x60A14411, 0x1], .mmaT ⟨68, 66, 2, 3, 0x1, 0⟩),
  ([0x60A14412, 0x1], .mmaz ⟨68, 66, 2, 3, 0x1, 0⟩), ([0x7E3C7813], .mzero ⟨120, 120, 120, 3, 0x0, 0⟩),
  ([0x7E217814, 0x1], .mld ⟨120, 66, 120, 3, 0x1, 0⟩), ([0x7E217815, 0x1], .mst ⟨120, 66, 120, 3, 0x1, 0⟩),
  ([0x7E214416], .mrd ⟨68, 66, 120, 3, 0x0, 0⟩), ([0x60A17817], .mwr ⟨120, 66, 2, 3, 0x0, 0⟩),
  ([0x60A17818], .mdrain ⟨120, 66, 2, 3, 0x0, 0⟩), ([0x60A17819], .mfill ⟨120, 66, 2, 3, 0x0, 0⟩),
  ([0x00A14420, 0x1], .neval ⟨68, 66, 2, 0, 0x1, 0⟩), ([0x00A14421, 0x1], .nevalU ⟨68, 66, 2, 0, 0x1, 0⟩),
  ([0x00A14422, 0x1], .nevalF32 ⟨68, 66, 2, 0, 0x1, 0⟩), ([0x1E214428, 0x1], .tex ⟨68, 66, 120, 0, 0x1, 0⟩),
  ([0x00A14429, 0x1], .texL ⟨68, 66, 2, 0, 0x1, 0⟩), ([0x00A1442A, 0x1], .texB ⟨68, 66, 2, 0, 0x1, 0⟩),
  ([0x00A1442B, 0x1], .texD ⟨68, 66, 2, 0, 0x1, 0⟩), ([0x1E21442C, 0x1], .texG ⟨68, 66, 120, 0, 0x1, 0⟩),
  ([0x1E21442D, 0x1], .texn ⟨68, 66, 120, 0, 0x1, 0⟩), ([0x00A1442E, 0x1], .tld ⟨68, 66, 2, 0, 0x1, 0⟩),
  ([0x1E21442F, 0x1], .tqry ⟨68, 66, 120, 0, 0x1, 0⟩), ([0x1E214430, 0x1], .trace ⟨68, 66, 120, 0, 0x1, 0⟩),
  ([0x1E214431, 0x1], .traceA ⟨68, 66, 120, 0, 0x1, 0⟩), ([0x1E217838, 0x1], .dload ⟨120, 66, 120, 0, 0x1, 0⟩),
  ([0x1E217839], .dwin ⟨120, 66, 120, 0, 0x0, 0⟩), ([0x3E21783A, 0x1], .dlaunch ⟨120, 66, 120, 1, 0x1, 0⟩),
  ([0x3E21783B], .dlaunchR ⟨120, 66, 120, 1, 0x0, 0⟩), ([0x1E21783C, 0x1], .dcapt ⟨120, 66, 120, 0, 0x1, 0⟩),
  ([0x1E21783D, 0x1], .dcaptW ⟨120, 66, 120, 0, 0x1, 0⟩), ([0x1E3C783E], .dreset ⟨120, 120, 120, 0, 0x0, 0⟩)]

theorem test_decode_eng0 : tWords_eng0.all (fun e => (decodeWords 3 e.1).toOption == some (e.2, [])) = true := by decide +kernel

noncomputable def tWords_grf0 : TableWords := [
  ([0x1E214400], .gsub ⟨68, 66, 120, 0, 0x0, 0⟩), ([0x1E217801], .gabort ⟨120, 66, 120, 0, 0x0, 0⟩),
  ([0x1E217802], .gstop ⟨120, 66, 120, 0, 0x0, 0⟩), ([0x00A14403], .gqry ⟨68, 66, 2, 0, 0x0, 0⟩),
  ([0x1E3C7804], .ghint ⟨120, 120, 120, 0, 0x0, 0⟩), ([0x1E3C7805], .gwait ⟨120, 120, 120, 0, 0x0, 0⟩),
  ([0x1E3C7806], .trel ⟨120, 120, 120, 0, 0x0, 0⟩), ([0x00A17807], .tlsig ⟨120, 66, 2, 0, 0x0, 0⟩),
  ([0x00A14408], .tlwait ⟨68, 66, 2, 0, 0x0, 0⟩), ([0x00BC4409], .tlrd ⟨68, 120, 2, 0, 0x0, 0⟩),
  ([0x00A1780A], .tlset ⟨120, 66, 2, 0, 0x0, 0⟩), ([0x00A1440B], .mbrecv ⟨68, 66, 2, 0, 0x0, 0⟩),
  ([0x00A1780C], .mbsend ⟨120, 66, 2, 0, 0x0, 0⟩), ([0x1E21780D], .dbgsend ⟨120, 66, 120, 0, 0x0, 0⟩)]

theorem test_decode_grf0 : tWords_grf0.all (fun e => (decodeWords 4 e.1).toOption == some (e.2, [])) = true := by decide +kernel

theorem test_popc : after (.popc (tF3 3 1 0)) tWave 1 3 = some 2 := by decide +kernel
theorem test_bfeu : after (.bfeu (tFI 3 2 6)) tWave 0 3 = some 1 := by decide +kernel
theorem test_ballot : after (.ballot (tF3 4 0x61 0)) tWave 1 4 = some 1 := by decide +kernel
theorem test_sel : after (.sel ⟨6, 1, 0x7F, 1, 9⟩) tWave 0 6 = some 5 ∧ after (.sel ⟨6, 1, 0x7F, 1, 9⟩) tWave 1 6 = some 9 := by
  decide +kernel
theorem test_shflRot : after (.shflRot (tFI 4 1 1)) tWave 0 4 = some 6 := by decide +kernel
theorem test_fadd : after (.fadd { tF3 3 1 0x7F with lit := 0x3F800000 })
    { tWave with threads := [⟨0, true, [(1, 0x3F800000)], 2, []⟩] } 0 3 = some 0x40000000 := by decide +kernel
theorem test_fmul_rounds : after (.fmul { tF3 3 1 0x7F with lit := 0x3F800001 })
    { tWave with threads := [⟨0, true, [(1, 0x3F800001)], 2, []⟩] } 0 3 = some 0x3F800002 := by decide +kernel

/-- A word of the window reaches the registers of the threads that load it (R301). -/
theorem test_ldW : (match exec (.ldW (tFM 3 2 2)) { tS tWave (.task 0 0 0) with mem := [(locScr 0 64, 7), (locScr 0 129, 1)] } with
    | .next t => (getWave t 0).map (fun u => (vReg u 0 3, vReg u 1 3)) | _ => none) = some (some 7, some 256) := by decide +kernel

/-- The entry of a trap: CODE and CLASS, the instruction's own address, the operand, the mode, the handler (R65, R287, R289). -/
theorem test_trap : (match exec (.trap 0x15) (tM { tWave with csr := { tWave.csr with tvec := 0x1000 } } (.task 0 0 0)
      [(0x21001, 0x30), (0x21009, 0x30), (0x21011, 0x30), (0x21019, 0x30), (0x21021, 0x30), (0x21029, 0x30), (0x21031, 0x30), (0x21039, 0x30)]) with
    | .next t => (getWave t 0).map (fun u => (u.csr.tepc, u.csr.tfmask, wTrap u, u.base.pc)) | _ => none) =
    some (8192, 3, true, 0x3000) := by decide +kernel

/-- EXIT of the last threads ends the wave; a halted one ends once its counters are zero (R20, R295). -/
theorem test_exit : (match exec .exit (tS tWave (.task 0 0 0)) with | .next t => (getWave t 0).isSome | _ => true) = false := by decide +kernel
theorem test_halt : (match exec .halt (tS { tWave with cpy := 1 } (.task 0 0 0)) with | .next t => (getWave t 0).map (·.halted) | _ => none) = some true := by
  decide +kernel

/-! What the hypotheses of the statements ask for is met: the machine. -/

/-- A wave with one instruction, IADD v3, v1, s0, as the body of its clause. -/
def tClause : Wave :=
  { tWave with base := { mask := 3, pc := 8196, code := some ⟨8192, 0xA0FFF001, [0x10008300#32]⟩, wait := .ready, resume := none } }

/-- A sampler operation of wave 0 that will write v3 to v6. -/
def tTexOp : EngOp :=
  { id := 0, wave := 0, core := 0, op := 0x28, x := tFE 3 1 0x78, mask := 3, started := true, seq := 0, a := 0, b := 0, d := 0
    vals := [(0, [0, 0, 0, 0])], recd := [], toks := [] }

theorem test_meets_ResetAndBoot : State.reset.agenda = [] ∧ State.reset.dev.stat = .boot ∧
    (Config.imageValid State.reset.dev.flash = true ∨ Config.imageValid State.reset.dev.flash = false) :=
  ⟨rfl, rfl, by cases Config.imageValid State.reset.dev.flash <;> simp⟩

theorem test_meets_StepKeeps : memoryWf State.reset.mem = true ∧ InOrder State.reset ∧
    ∃ t, step { State.reset with agenda := [.tick 1] } = .next t :=
  ⟨rfl, by constructor <;> simp [State.reset, tabRising], _, rfl⟩

theorem tClauseAt : InstrAt tClause.base (.iadd (tF3 3 1 0x40)) [] := ⟨_, rfl, by decide, by decide, show decodeWords 0 [0x10008300#32] = _ from rfl⟩

theorem test_meets_StepRuns : ctxAt (tS tClause (.task 0 0 0)) 0 false = some (tC tClause (.task 0 0 0)) ∧ NoTrapDue tClause ∧
    InstrAt tClause.base (.iadd (tF3 3 1 0x40)) [] ∧
    heldBack (tS tClause (.task 0 0 0)) (tC tClause (.task 0 0 0)) (.iadd (tF3 3 1 0x40)) = false ∧
    heldBack { tS tClause (.task 0 0 0) with ops := [tTexOp] } (tC tClause (.task 0 0 0)) (.iadd (tF3 3 1 0x40)) = true :=
  ⟨(tIssues tClause _ rfl rfl rfl rfl (by decide)).2, .inr ⟨rfl, rfl, rfl, rfl⟩, tClauseAt, by decide +kernel, by decide +kernel⟩

/-- Two ready waves of slice 0: the one in slot 1 is older; the same with wave 1 having yielded when it was served last. -/
def tSlice (yield : Nat) : State :=
  { tS tWave tT with waves := [(0, { tWave with age := 9 }), (1, { tWave with age := 4, yieldAt := yield })]
                     cores := [(0, { Core.init with last := [(0, 2)] })] }

theorem test_meets_SlicesSelectTheOldest : selected (tSlice 0) 0 = some 1 ∧ selected (tSlice 7) 0 = some 0 ∧
    mayMove (tSlice 0) 1 false = true ∧ yielded (tSlice 7) (1, { tWave with age := 4, yieldAt := 7 }) = true ∧
    selected { tSlice 0 with waves := [(0, tWave), (1, tWave)], cores := [(0, { Core.init with last := [(0, 1)] })] } 0 = some 1 ∧
    lastServed (tSlice 0) 0 = 2 ∧ tabRising none (tSlice 0).waves = true ∧ (tSlice 0).agenda = [] ∧ (tSlice 0).dev.stat = .ready ∧
    (∀ n, n ≠ 0 → selected (tSlice 0) n = none) := by
  refine ⟨by decide +kernel, by decide +kernel, by decide +kernel, by decide +kernel, by decide +kernel, by decide +kernel, by decide +kernel,
    rfl, rfl, ?_⟩
  intro n hn
  have : offered (tSlice 0) n = [] := by
    simp only [offered, tSlice, sliceOf, List.filter_cons, List.filter_nil]
    have h0 : ¬ (0 = n) := fun h => hn h.symm
    simp [h0]
  simp [selected, this]

theorem test_meets_agendaTurn : agendaTurn (tS { tWave with base := { tWave.base with wait := .warv 2 } } tT) 0 false = false ∧
    agendaTurn (tSlice 7) 1 false = false ∧ MayIssue (tC tClause tT) ∧
    mayMove (tS { tClause with freeAt := 1 } tT) 0 false = false ∧ mayMove (tS tClause tT) 0 false = true ∧
    selected (tS tClause tT) 0 = some 0 := by
  exact ⟨by decide +kernel, by decide +kernel, ⟨.inr ⟨rfl, rfl, rfl, rfl⟩, rfl, rfl, rfl⟩, by decide +kernel, by decide +kernel,
    by decide +kernel⟩

theorem test_meets_EncodedInstructionsDecode : (Instr.iadd (tF3 3 1 0x40)).wf = true ∧ classOf (.iadd (tF3 3 1 0x40)) = some 0 := by decide

/-! Vector instructions. -/

/-- Both operands read, into a v and into an s register. -/
theorem test_meets_RegisterResults : Issues (tS tWave (.task 0 0 0)) (tC tWave (.task 0 0 0)) ∧
    dstOk (tWg (.task 0 0 0)) 3 false = true ∧ dstOk (tWg (.task 0 0 0)) 0x5F false = true ∧ dstOk (tWg (.task 0 0 0)) 6 true = true ∧
    SourcesRead (tC tWave (.task 0 0 0)) false [srcA (tF3 3 1 0x40), srcB (tF3 3 1 0x40)] ∧
    SourcesRead (tC tWave (.task 0 0 0)) true [srcA (tF3 3 0x40 0x42), srcB (tF3 3 0x40 0x42)] ∧
    planeK (tFI 3 1 1) = some 1 ∧ planeK (tFI 3 1 8) = some 8 := by
  refine ⟨tOk, by decide, by decide, by decide, ?_, ?_, by decide, by decide⟩ <;> exact ⟨by decide, by decide, by decide⟩

theorem test_meets_PredicateResults : predOk 0x61 = true ∧ predOk 0x60 = true ∧
    SourcesRead (tC tWave (.task 0 0 0)) false (predSrcs (tF3 0x61 0x61 0x67)) := by
  refine ⟨by decide, by decide, by decide, by decide, by decide⟩

theorem test_meets_LaneResults : LaneRead (tC tWave (.task 0 0 0)) [srcA (tF3 3 1 0)] (ownReads (tC tWave (.task 0 0 0)) [srcA (tF3 3 1 0)])
      (unwrittenOf (tC tWave (.task 0 0 0)) 1) ∧
    (∀ o ∈ voteOps (tF3 4 0x61 0), o.dOk (tC tWave (.task 0 0 0)) = true) ∧ predOk 0x67 = true := by
  refine ⟨⟨by decide, by decide, by decide⟩, ?_, by decide⟩
  intro o ho
  simp only [voteOps, redOp, List.mem_cons, List.not_mem_nil, or_false] at ho
  rcases ho with rfl | rfl | rfl | rfl | rfl | rfl | rfl | rfl | rfl | rfl | rfl | rfl <;> decide

/-- A wave under STRICT that reads the unwritten v9, and one whose v1 fails its parity in thread 1. -/
def tStrict : Wave := { tWave with csr := { tWave.csr with wctl := 5 } }
def tBad : Wave := { tWave with threads := [⟨0, true, [(1, 5)], 2, []⟩, ⟨1, true, [(1, 6)], 0, [1]⟩] }

theorem test_meets_OperandFaults : dstOk (tWg (.task 0 0 0)) 0x61 false = false ∧
    ([srcA (tF3 3 0x7F 9), srcB (tF3 3 1 9)].find? (fun y => !srcOk (tWg (.task 0 0 0)) (isSSpec 3) y)).isSome = true ∧
    firstBad (tC tBad (.task 0 0 0)) [srcA (tF3 3 1 0x40)] = some (srcA (tF3 3 1 0x40)) ∧
    Issues (tS tStrict (.task 0 0 0)) (tC tStrict (.task 0 0 0)) ∧ Issues (tS tBad (.task 0 0 0)) (tC tBad (.task 0 0 0)) ∧
    firstBad (tC tStrict (.task 0 0 0)) [srcA (tF3 3 9 0x40)] = none ∧ wStrict tStrict = true ∧ wTrap tStrict = false ∧
    firstUnwritten (tC tStrict (.task 0 0 0)) [srcA (tF3 3 9 0x40)] = some (srcA (tF3 3 9 0x40)) ∧
    isSSpec 0x40 = true ∧ planeK (tFI 3 1 0) = none ∧ planeK (tFI 3 1 9) = none ∧ predOk 0x68 = false ∧
    lopOk { tF3 3 1 0x7F with lit := 0x01000000 } = false ∧ lopOk { tF3 3 1 0x7F with lit := 0x00FF00CA } = true ∧
    srcOk (tWg (.task 0 0 0)) false ⟨0x7F, .value, false, false⟩ = false :=
  ⟨by decide, by decide, by decide, tIssues _ _ rfl rfl rfl rfl (by decide), tIssues _ _ rfl rfl rfl rfl (by decide), by decide, by decide,
   by decide, by decide, by decide, by decide, by decide, by decide, by decide, by decide, by decide⟩

/-- Faults of the lane and predicate instructions: an illegal destination, an illegal source, an unwritten copy under STRICT. -/
theorem test_meets_LaneAndPredicateFaults :
    (redOp .redadd (fun _ => foldWith (· + ·)) (tF3 0x61 1 0)).dOk (tC tStrict tT) = false ∧
    (redOp .redadd (fun _ => foldWith (· + ·)) (tF3 3 9 0)).dOk (tC tStrict tT) = true ∧
    (redOp .redadd (fun _ => foldWith (· + ·)) (tF3 3 9 0)).m (tC tStrict tT) ≠ 0 ∧
    (redOp .redadd (fun _ => foldWith (· + ·)) (tF3 3 9 0)).srcs.all (srcOk (tWg tT) false) = true ∧
    firstBad (tC tStrict tT) [srcA (tF3 3 9 0)] = none ∧
    ([srcA (tF3 3 0x7F 0)].find? (fun y => !srcOk (tWg tT) false y)).isSome = true ∧
    (voteOps (tF3 3 9 0)).any (fun o => o.d == 3) = true ∧ predOk 0x61 = true ∧ predOk 0x68 = false ∧
    (predSrcs (tF3 0x61 0x68 0x67)).any (fun y => !srcOk (tWg tT) false y) = true ∧
    firstUnwritten (tC tStrict tT) [srcA (tF3 0x61 9 1), srcB (tF3 0x61 9 1)] = some (srcA (tF3 0x61 9 1)) ∧
    unwrittenOf (tC tStrict tT) 9 ≠ 0 ∧
    ((redOp .redadd (fun _ => foldWith (· + ·)) (tF3 3 1 0)).reads (tC tBad tT)).map (fun e => (e.reader, e.pos)) = [(0, 0), (1, 1)] ∧
    srcBad (tC tBad tT) 1 (srcA (tF3 3 1 0)) = true ∧ srcBad (tC tBad tT) 0 (srcA (tF3 3 1 0)) = false := by
  refine ⟨?_, ?_, ?_, ?_, ?_, ?_, ?_, ?_, ?_, ?_, ?_, ?_, ?_, ?_, ?_⟩ <;> decide

/-! Control. -/

/-- A path of both threads at an address. -/
def tPath (pc : Nat) : Path := { mask := 3, pc := pc, code := none, wait := .ready, resume := none }

/-- A wave split at 8192: thread 0 on path A, thread 1 on path B, both at 0x2104 behind the header of their join point's clause. -/
def tPair (arrB : Bool) : Pair :=
  { join := 0x2100, a := { tPath 0x2104 with mask := 1, code := some ⟨0x2100, 0xA0FFF021, [0x00000007#32]⟩ }
    b := { tPath 0x2104 with mask := 2 }, arrA := false, arrB := arrB, fromB := false }
def tSplit (arrB : Bool) (more : List Pair) : Wave := { tWave with stack := tPair arrB :: more }

def tSplitC (v : Wave) (k : WgKind) : Ctx :=
  { w := 0, wave := v, g := tWg k, pb := false, path := (tPair false).a, mask := activeMask v (tPair false).a }

theorem tSplitOk (b : Bool) (more : List Pair) : Issues (tS (tSplit b more) tT) (tSplitC (tSplit b more) tT) := by
  refine ⟨by simp [tS], ?_⟩
  show (if false || false || (activeMask (tSplit b more) (tPair b).a == 0) then none else some (tSplitC (tSplit b more) tT)) = _
  rw [show (activeMask (tSplit b more) (tPair b).a == 0) = false from
    show (activeMask tWave { tPath 0 with mask := 1 } == 0) = false by decide]
  rfl

/-- Headers at 0x2020 and 0x2040, the target and the join point of a BRC at 0x2000. -/
def tHeads : Memory :=
  [(0x22020, 0x01), (0x22021, 0xF0), (0x22022, 0xFF), (0x22023, 0xA0), (0x22040, 0x01), (0x22041, 0xF0), (0x22042, 0xFF), (0x22043, 0xA0),
   (0x22060, 1)]

/-- A branch on p0 or its complement goes as one, one on p1 splits; the join fails where the word is no header or JOIN is 0. -/
theorem test_meets_BranchesDivergeAndJoin :
    Issues (tM tWave tT tHeads) (tC tWave tT) ∧
    targetOk (tM tWave tT tHeads) 0 0 (branchTarget (tC tWave tT) ⟨1, false, 8, 16⟩) 0 = true ∧
    targetOk (tM tWave tT tHeads) 0 0 (branchJoin (tC tWave tT) ⟨1, false, 8, 24⟩) 1 = false ∧
    targetOk (tM tWave tT tHeads) 0 0 (branchJoin (tC tWave tT) ⟨1, false, 8, 16⟩) 1 = true ∧
    (∀ q ∈ positions (tC tWave tT).mask, branchTrue (tC tWave tT) ⟨0, false, 8, 16⟩ q = true) ∧
    (∀ q ∈ positions (tC tWave tT).mask, branchTrue (tC tWave tT) ⟨0, true, 8, 16⟩ q = false) ∧
    (∃ q ∈ positions (tC tWave tT).mask, branchTrue (tC tWave tT) ⟨1, false, 8, 16⟩ q = true) ∧
    (∃ q ∈ positions (tC tWave tT).mask, branchTrue (tC tWave tT) ⟨1, false, 8, 16⟩ q = false) ∧
    tWave.stack.length < 16 ∧
    Issues (tS (tSplit false (List.replicate 15 (tPair true))) tT) (tSplitC (tSplit false (List.replicate 15 (tPair true))) tT) ∧
    16 ≤ (tSplit false (List.replicate 15 (tPair true))).stack.length :=
  ⟨tIssuesM _ _ _ rfl rfl rfl rfl (by decide), by decide +kernel, by decide +kernel, by decide +kernel, by decide, by decide, by decide,
   by decide, by decide, tSplitOk _ _, by decide⟩

theorem test_meets_Joins : Issues (tS (tSplit false []) tT) (tSplitC (tSplit false []) tT) ∧ joinActs (tSplitC (tSplit false []) tT) = true ∧
    joinActs (tSplitC (tSplit true []) tT) = true ∧ (tPair true).arrB = true ∧
    Issues (tS (tSplit true [tPair false]) tT) (tSplitC (tSplit true [tPair false]) tT) ∧ (tPair false).arrA = false :=
  ⟨tSplitOk _ _, by decide, by decide, rfl, tSplitOk _ _, rfl⟩

/-- Trap mode, and copies outstanding. -/
def tTrap : Wave :=
  { tWave with csr := { tWave.csr with wctl := 20, tepc := 0x2000 },
               saved := some { base := tPath 0x2000, stack := [], code := 0x14, pathB := false, restore := false } }
def tBusy : Wave := { tWave with cpy := 1 }
def tOne : Wave := { tWave with threads := [⟨0, true, [(1, 5), (2, 64)], 2, []⟩, ⟨1, false, [], 0, []⟩] }

theorem tTrapOk : Issues (tS tTrap tT) (tC tTrap tT) := tIssues _ _ rfl rfl rfl rfl (by decide)
theorem tBusyOk : Issues (tS tBusy tT) (tC tBusy tT) := tIssues _ _ rfl rfl rfl rfl (by decide)

theorem test_meets_ExitEndsThreads : wTrap tTrap = true ∧ wTrap tWave = false ∧
    liveMask tWave &&& ~~~(tC tWave tT).mask = 0 ∧ countersZero tWave = true ∧ countersZero tBusy = false ∧
    liveMask (tSplit false []) &&& ~~~(tSplitC (tSplit false []) tT).mask ≠ 0 := by decide

/-- The partner has not arrived; it has, and the stack holds one pair or two. -/
theorem test_meets_ExitLeavesThePartner :
    Issues (tS (tSplit true [tPair false]) tT) (tSplitC (tSplit true [tPair false]) tT) ∧ (tPair false).arrB = false ∧
    (tPair true).arrB = true ∧ (tPair true).b.mask &&& (liveMask (tSplit true []) &&& ~~~(tSplitC (tSplit true []) tT).mask) ≠ 0 ∧
    (tPair false).arrA = false ∧ isParked (tSplit true []) = false ∧ wTrap (tSplit true []) = false ∧
    liveMask (tSplit true []) &&& ~~~(tSplitC (tSplit true []) tT).mask ≠ 0 :=
  ⟨tSplitOk _ _, rfl, rfl, by decide, rfl, by decide, by decide, by decide⟩

theorem test_meets_ReordParks : wTrap tTrap = true ∧ (tSplit false []).stack ≠ [] ∧ tWave.stack = [] ∧
    SourcesRead (tC tWave tT) false [⟨5, .value, false, false⟩] :=
  ⟨by decide, by decide, rfl, by decide, by decide, by decide⟩

/-- Vector entries of every class at VA 0x1000: the handler is at 0x3000. -/
def tVec : Memory :=
  [(0x21001, 0x30), (0x21009, 0x30), (0x21011, 0x30), (0x21019, 0x30), (0x21021, 0x30), (0x21029, 0x30), (0x21031, 0x30), (0x21039, 0x30)]
def tVecWave : Wave := { tWave with csr := { tWave.csr with tvec := 0x1000 } }

theorem test_meets_Traps : Issues (tM tVecWave tT tVec) (tC tVecWave tT) ∧ wBken tVecWave = true ∧ wTrap tVecWave = false ∧
    (∀ p ∈ allPaths tVecWave, midInstr p = false) ∧ vectorEntry (tM tVecWave tT tVec) 0 0 tVecWave 5 = some 0x3000 ∧
    vectorEntry (tM tVecWave tT tVec) 0 0 tVecWave 7 = some 0x3000 ∧ vectorEntry (tS tWave tT) 0 0 tWave 5 = none ∧
    Issues (tS tTrap tT) (tC tTrap tT) ∧ (∀ p ∈ allPaths tTrap, midInstr p = false) ∧
    Issues (tS tBusy tT) (tC tBusy tT) ∧ tBusy.cpy ≠ 0 ∧ wBken { tWave with csr := { tWave.csr with wctl := 0 } } = false :=
  ⟨tIssuesM _ _ _ rfl rfl rfl rfl (by decide), by decide, by decide, by decide, by decide +kernel, by decide +kernel, by decide +kernel,
   tTrapOk, by decide, tBusyOk, by decide, by decide⟩

/-- HALT of a task of a graph that runs, without and with outstanding copies. -/
theorem test_meets_HaltStopsTheWave : tWave.cpy = 0 ∧ tWave.mtx = 0 ∧ tWave.gth ≤ (tracesOf (tS tWave tT) 0).length ∧ tWave.dsh = 0 ∧
    tBusy.cpy ≠ 0 ∧ rootGraph (tWg tT).kind = some 0 ∧ (tracesOf (tS { tWave with gth := 1 } tT) 0).length < 1 := by decide

/-- ERET: outside trap mode, with a split handler, from a handler that halts, and returns with an empty and a split stack. -/
def tReturn (code : Nat) (st : List Pair) : Wave :=
  { tTrap with saved := some { base := tPath 0x2000, stack := st, code := code, pathB := false, restore := false } }

theorem test_meets_EretReturns : wTrap tWave = false ∧ haltsAtEret 0x17 = true ∧ haltsAtEret 0x12 = false ∧
    Issues (tS (tReturn 0x17 []) tT) (tC (tReturn 0x17 []) tT) ∧ Issues (tS (tReturn 0x12 [tPair true]) tT) (tC (tReturn 0x12 [tPair true]) tT) ∧
    wTrap { tSplit false [] with csr := { tWave.csr with wctl := 20 } } = true :=
  ⟨by decide, by decide, by decide, tIssues _ _ rfl rfl rfl rfl (by decide), tIssues _ _ rfl rfl rfl rfl (by decide), by decide⟩

/-- A split handler whose path B issues the ERET: PATHB of its DOUBLE is 1 (R65). -/
def tSplitB : Wave := { tSplit false [] with csr := { tWave.csr with wctl := 20 }, cpy := 1 }
def tSplitBC : Ctx :=
  { w := 0, wave := tSplitB, g := tWg tT, pb := true, path := (tPair false).b, mask := activeMask tSplitB (tPair false).b }

theorem test_meets_EretReturns_pathB : Issues { tS tSplitB tT with curB := true } tSplitBC ∧ wTrap tSplitBC.wave = true ∧
    tSplitBC.wave.stack ≠ [] ∧ tSplitBC.pb = true ∧
    (match exec .eret { tS tSplitB tT with curB := true } with
      | .next t => (getWave t 0).map (fun u => (u.halted, u.csr.tcause)) | _ => none) = some (true, 0x1018) := by
  refine ⟨⟨by decide, ?_⟩, by decide, by decide, rfl, by decide +kernel⟩
  show (if false || false || (activeMask tSplitB (tPair false).b == 0) then none else some tSplitBC) = _
  rw [show (activeMask tSplitB (tPair false).b == 0) = false from
    show (activeMask tWave { tPath 0 with mask := 2 } == 0) = false by decide]
  rfl

theorem test_meets_ControlGoesOn : (∃ o ∈ goOnOps 0, o.2 (tC tWave tT)) ∧ (∀ o ∈ yieldOps 0x41, o.2 (tC tWave tT)) ∧ sleepOk 0x61 = false ∧ sleepOk 0x40 = true ∧
    (∀ q ∈ positions (tC tWave tT).mask, srcBad (tC tWave tT) q ⟨0x40, .value, false, false⟩ = false) ∧ rdSpec (tC tWave tT) 0 0x40 0 = 7 ∧
    joinActs (tC tWave tT) = false ∧ sleepOk 0x41 = true ∧ rdSpec (tC tWave tT) 0 0x41 0 = 0 :=
  ⟨⟨_, List.mem_cons_self, trivial⟩, by simp only [yieldOps, List.forall_mem_cons]; exact ⟨trivial, by decide, by simp⟩,
   by decide, by decide, by decide, by decide, by decide, by decide, by decide⟩

theorem test_meets_WholePathTransfers : PairReads 0x42 (tC tWave tT) ∧ PairReads 0x5E (tC tWave tT) ∧
    targetOk (tM tWave tT tHeads) 0 0 (wordsAway (tC tWave tT) 8) 0 = true ∧
    targetOk (tM tWave tT tHeads) 0 0 (wordsAway (tC tWave tT) 24) 0 = false ∧
    targetOk (tM tWave tT tHeads) 0 0 (2 ^ 57) 0 = false ∧ targetOk (tM tWave tT tHeads) 0 0 0x2022 0 = false ∧
    (∀ r ∈ [0x43#7, 0x03#7, 0x5F#7], ∀ n, specOf r = .s n → n % 2 = 1) := by
  refine ⟨⟨⟨2, rfl, rfl⟩, by decide⟩, ⟨⟨30, rfl, rfl⟩, by decide⟩, by decide +kernel, by decide +kernel, by decide +kernel, by decide +kernel, ?_⟩
  intro r hr n hn
  simp only [List.mem_cons, List.not_mem_nil, or_false] at hr
  rcases hr with rfl | rfl | rfl <;> cases hn <;> rfl

theorem test_meets_CsrAccess : specOf 0x42 = .s 2 ∧ specOf 0x43 = .s 3 ∧ specOf 0x03 = .v 3 ∧
    csrGet (tS tWave tT) 0 tWave (tWg tT) 0xFFF = none ∧ (csrGet (tS tWave tT) 0 tWave (tWg tT) 0x001).isSome = true ∧
    (tWg tT).kind ≠ .pacer ∧ (tWg .pacer).kind = .pacer ∧ (csrGet (tS tWave .pacer) 0 tWave (tWg .pacer) 0x303).isSome = true ∧
    ({ tWave with hfOpen := true } : Wave).hfOpen = true ∧ ({ Choice.init with oldFlag := true } : Choice).oldFlag = true ∧
    (csrGet (tS tWave tT) 0 tWave (tWg tT) 0x102).isSome = true ∧ (csrGet (tS tWave tT) 0 tWave (tWg tT) 0x105).isSome = true := by
  refine ⟨rfl, rfl, rfl, ?_, ?_, ?_, rfl, ?_, rfl, rfl, ?_, ?_⟩ <;> decide +kernel

/-! Memory. -/

/-- An answer that satisfies a test. -/
theorem tMeets {α β : Type} {P : α → Prop} [DecidablePred P] (r : Except β α)
    (h : (match r with | .ok a => decide (P a) | .error _ => false) = true) : ∃ a, r = .ok a ∧ P a := by
  cases r with
  | error e => exact absurd h (by simp)
  | ok a => exact ⟨a, rfl, of_decide_eq_true h⟩

/-- An answer that is a trap. -/
theorem tFails {α β : Type} (r : Except β α) (h : (match r with | .ok _ => false | .error _ => true) = true) : ∃ t, r = .error t := by
  cases r with
  | error e => exact ⟨e, rfl⟩
  | ok a => exact absurd h (by simp)

/-- A buffer record at VA 0x5000: 64 words of one byte from VA 0x6000 (R124). -/
def tRec : Memory :=
  [(0x25001, 0x60), (0x25008, 0x40), (0x2500C, 1), (0x25010, 0x40), (0x2501A, 0x80), (0x2501B, 0x3F), (0x2501E, 0x80), (0x2501F, 0x3F)]
def tRecWave : Wave := { tWave with csr := { tWave.csr with brtab := 0x5001 } }

/-- An atomic of the wave that is still in its queue, to scratch bytes 64 to 67. -/
def tAtom : SqEntry :=
  { seq := 0, grp := 0, kind := .atom 0x20 false 1 0 (some (9, 0)), bytes := (List.range 4).map (fun k => (locScr 0 (64 + k), 0xFF, 0))
    scope := 2, rel := false, acq := false, toks := [], va := 64 }
def tAtomWave : Wave := { tWave with sq := [tAtom] }

/-- A word from scratch, a word through a record, a word from GLOBAL for the wave. -/
theorem test_meets_LoadsComplete :
    memCtx (tC tWave tT) = some (tC tWave tT) ∧
    (∃ a, loadCheck (tS tWave tT) (tC tWave tT) (tFM 3 2 2) 4 1 = .ok a ∧
      ((∀ p ∈ a.2, readsAtom tWave p = false) ∧ rejectedOf (tS tWave tT) (tC tWave tT) (loadMiss (tS tWave tT) tWave 0) a.2 = [] ∧
        ∃ p ∈ a.2, readsAtom tAtomWave p = true)) ∧
    Issues (tL tRecWave tT tRec) (tC tRecWave tT) ∧
    (∃ a, recCheck (tL tRecWave tT tRec) (tC tRecWave tT) { tFM 3 1 5 with x := true } 1 = .ok a ∧ ∀ p ∈ a.2.2, readsAtom tWave p.1 = false) ∧
    (∃ a, loadOnceCheck (tM tWave tT []) (tC tWave tT) (tFM 0x44 0x42 0) 4 false = .ok a ∧
      ((∀ p ∈ a.2, readsAtom tWave p = false) ∧ rejectedOf (tM tWave tT []) (tC tWave tT) (loadMiss (tM tWave tT []) tWave 0) a.2 = [])) ∧
    (∃ a, loadOnceCheck (tM tWave tT []) (tC tWave tT) (tFM 0x44 0x42 0) 8 true = .ok a ∧ ∀ p ∈ a.2, readsAtom tWave p = false) ∧
    Issues (tS tAtomWave tT) (tC tAtomWave tT) ∧
    (∃ a, loadCheck (tS tAtomWave tT) (tC tAtomWave tT) (tFM 3 2 2) 4 1 = .ok a ∧ ∃ p ∈ a.2, readsAtom tAtomWave p = true) :=
  ⟨rfl, tMeets _ (by decide +kernel), tIssuesL _ _ _ rfl rfl rfl rfl (by decide), tMeets _ (by decide +kernel), tMeets _ (by decide +kernel),
   tMeets _ (by decide +kernel), tIssues _ _ rfl rfl rfl rfl (by decide), tMeets _ (by decide +kernel)⟩

theorem test_meets_Granted : replayWaits tWave.base = false ∧ Granted (tS tWave tT) (tC tWave tT) (fun _ => true) [] := ⟨rfl, rfl⟩

theorem test_meets_StoresComplete :
    (∃ a, storeCheck (tS tWave tT) (tC tWave tT) (tFM 1 2 2) 4 = .ok a ∧ rejectedOf (tS tWave tT) (tC tWave tT) (fun _ => true) a.2 = []) ∧
    (∃ a, recStoreCheck (tL tRecWave tT tRec) (tC tRecWave tT) { tFM 1 1 5 with x := true } false = .ok a ∧ a.2.2.length = 2) ∧
    (∃ a, stuCheck (tM tWave tT []) (tC tWave tT) (tFM 0x40 0x42 0) = .ok a ∧
      rejectedOf (tM tWave tT []) (tC tWave tT) (fun _ => true) a.2 = []) :=
  ⟨tMeets _ (by decide +kernel), tMeets _ (by decide +kernel), tMeets _ (by decide +kernel)⟩

theorem test_meets_AtomicsEnterTheQueue :
    (∃ a, atomCheck (tS tWave tT) (tC tWave tT) { tFM 3 2 2 with x := true, ext := 0x00000081 } false true false = .ok a ∧
      rejectedOf (tS tWave tT) (tC tWave tT) (fun _ => true) a.2 = []) ∧
    isAcq { tFM 3 2 2 with ord := 1 } = true ∧ isAcq (tFM 3 2 2) = false ∧
    (AtomOp.mk (.atomAdd (tFM 3 2 2)) 0x20 false true false).entries (tS tWave tT) (tC tWave tT) (tFM 3 2 2) [] = [] :=
  ⟨tMeets _ (by decide +kernel), by decide, by decide, by decide +kernel⟩

/-- Poison in one block of GDDR7: in the page table's leaf at PA 0x8000, or in the page it maps. -/
def tPoison (loc : Nat) : State :=
  { tM tWave tT [] with dev := { Dev.init with stat := .ready, serr := [⟨0, loc, false, storeView⟩] } }

/-- Scratch addresses 64 and 128; an odd address; one outside under STRICT; an absent, a sparse and a mapped page. -/
theorem test_meets_AccessChecks :
    (∃ a, planSpace (tS tWave tT) (tC tWave tT) 2 4 0 true false (fun q => 64 * q) = .ok a ∧ a.length = 2) ∧
    (0 ∈ byTid tWave (tC tWave tT).mask ∧ (65 % 4 != 0) = true) ∧
    (wStrict tStrict = true ∧ wTrap tStrict = false ∧ outsideWin (tS tStrict tT) (tC tStrict tT) 2 4093 4 = true ∧
      outsideWin (tS tStrict tT) (tC tStrict tT) 2 4092 4 = false) ∧
    translate (tM tWave tT []) 0 0 0 0x40000 = .fault ∧ translate (tM tWave tT []) 0 0 0 0x3FFFF = .sparse ∧
    translate (tM tWave tT []) 0 0 0 0x1FFFF = .ok 0x3FFFF ∧
    (∃ t, loadCheck (tS tWave tT) (tC tWave tT) (tFM 3 1 2) 4 1 = .error t) ∧
    (∃ t, waitCheck (tS tWave tT) (tC tWave tT) (tFM 3 1 2) = .error t) ∧
    (walkEcc (tPoison 0x8000) (tC tWave tT) [0x1000]).isSome = true ∧ walkEcc (tPoison 0x20000) (tC tWave tT) [0x1000] = none :=
  ⟨tMeets _ (by decide +kernel), by decide +kernel, by decide +kernel, by decide +kernel, by decide +kernel, by decide +kernel,
   tFails _ (by decide +kernel), tFails _ (by decide +kernel), by decide +kernel, by decide +kernel⟩

theorem test_meets_LoadChecksPass : loadDst (tC tWave tT) 3 1 = true ∧ addrOk (tC tWave tT) 2 2 = true ∧
    (∀ q ∈ positions (tC tWave tT).mask, srcBad (tC tWave tT) q (addrSrc 2 2 false) = false) ∧
    unwMask (tC tWave tT) [addrSrc 2 2 false] = 0 ∧
    (∀ q ∈ positions (tC tWave tT).mask, formAddr (tC tWave tT) 2 2 0 q (tidAt tWave q) % 4 = 0) ∧ (tS tWave tT).dev.serr = [] := by
  refine ⟨by decide, by decide, by decide, by decide, by decide +kernel, rfl⟩

/-- Core 0 with all of its miss-status entries taken, and a wave that waits for some. -/
def tFull (v : Wave) (need : Nat) : State :=
  { tM v tT [] with cores := [(0, { Core.init with mshr := List.replicate 64 (5, 0), mwait := [⟨0, need⟩] })] }

/-- The access of thread 1 to a word of its scratch window, as a load or as a store left it to be replayed. -/
def tTodo (q : Nat) : Access :=
  { plan := { q := q, acc := .mem (wholeBytes (locScr 0 64) 4), space := 2, addr := 64, spans := [(64, 4)], oob := false }, elems := [], offs := []
    data := [[(locScr 0 64, 0xFF, 7)]], b := 0, c := 0 }
def tWaiter (act : MemAct) : Wave := { tWave with base := { tPath 8192 with wait := .mshr act (tFM 3 2 2) 0 [tTodo 1] } }

theorem test_meets_RejectedAccessesWait :
    (∃ a, loadCheck (tFull tWave 1) (tC tWave tT) (tFM 4 2 0) 4 1 = .ok a ∧
      ((∀ p ∈ a.2, readsAtom tWave p = false) ∧
        rejectedOf (tFull tWave 1) (tC tWave tT) (loadMiss (tFull tWave 1) tWave 0) a.2 ≠ [] ∧
        rejectedOf (tFull tWave 1) (tC tWave tT) (fun _ => true) a.2 ≠ [])) ∧
    Issues (tFull tWave 1) (tC tWave tT) := ⟨tMeets _ (by decide +kernel), tIssuesAt _ _ _ rfl rfl rfl rfl rfl rfl rfl rfl rfl (by decide)⟩

/-- No wave listed; a wave listed that needs one entry or two, frozen or not; an entry that a listed wave holds. -/
theorem test_meets_MissEntriesAreGranted :
    (getCore { tM tWave tT [] with cores := [(0, { Core.init with mshr := [(5, 0)] })] } 0).mwait = [] ∧
    (getCore (tFull (tWaiter (.load 1 0)) 1) 0).mshr[3]? = some (5, 0) ∧ (5, 0).2 ≠ heldLine ∧
    (∀ act, getWave (tFull (tWaiter act) 1) 0 = some (tWaiter act) ∧ (tWaiter act).stack = [] ∧ (tWaiter act).frozen = false ∧
      (getWg (tFull (tWaiter act) 1) (tWaiter act).wg).isSome = true ∧ (tWaiter act).base.wait = .mshr act (tFM 3 2 2) 0 [tTodo 1]) ∧
    readsAtom (tWaiter (.load 1 0)) (tTodo 1).plan = false ∧ readsAtom (tWaiter (.store false)) (tTodo 1).plan = false ∧
    (threadAt (tWaiter (.load 1 0)) 1).isSome = true ∧ isAcq (tFM 3 2 2) = false ∧ (getCore (tFull tWave 2) 0).mwait = [⟨0, 2⟩] ∧
    (getCore { tM tWave tT [] with cores := [(0, { Core.init with mshr := [(0, heldLine)], mwait := [⟨0, 1⟩] })] } 0).mshr[0]? =
      some (0, heldLine) ∧ (∃ n ∈ [MWait.mk 0 1], n.wave = 0) := by
  refine ⟨rfl, rfl, by decide, fun act => ⟨rfl, rfl, rfl, rfl, rfl⟩, by decide +kernel, by decide +kernel, by decide, by decide, rfl, rfl, ?_⟩
  exact ⟨_, List.mem_cons_self, rfl⟩

/-- A wave that waits for 2 arrivals, with 1 and with 2 of them. -/
def tArv (n : Nat) : Wave := { tWave with acnt := n, base := { tPath 8192 with wait := .warv 2 } }

theorem test_meets_CounterAndArrivalWaits :
    waitsMet tWave 0 0 0 0 = true ∧ waitsMet tBusy 0 15 15 15 = false ∧
    (∃ t, depoArg (tC tWave tT) (tFM 0x78 1 0) = .error t) ∧ (∃ a, depoArg (tC tWave tT) (tFM 0x78 0x40 0) = .ok a ∧ True) ∧
    65535 < depoVal (tC { tWave with s := [(0, 65536)] } tT) (tFM 0x78 0x40 0) ∧ depoVal (tC tWave tT) (tFM 0x78 0x41 0) = 0 ∧
    depoVal (tC { tWave with s := [(0, 65535)] } tT) (tFM 0x78 0x40 0) ≤ 65535 ∧
    targetLegal (tWg tT) 1 = false ∧ targetLegal (tWg tT) 0 = true ∧ targetLegal (tWg tT) (0x8000 + 4 * 95) = true ∧
    targetLegal (tWg tT) (0x8000 + 4 * 96) = false ∧ hasHeld (tS tWave tT) 0 = false ∧
    hasHeld (tS { tWave with heldDeps := [0] } tT) 0 = true ∧
    (ctxAt (tS (tArv 1) tT) 0 false).isSome = true ∧ (tArv 1).acnt < 2 ∧ 2 ≤ (tArv 2).acnt ∧ (tC (tArv 2) tT).pb = false :=
  ⟨by decide, by decide, tFails _ (by decide), tMeets _ (by decide), by decide, by decide, by decide, by decide, by decide, by decide,
   by decide, by decide, by decide, by decide, by decide, by decide, rfl⟩

/-- Path B of a pair, ready or waiting for 2 arrivals like path A, which goes first with n of them once n is 2. -/
def tArvPair (n : Nat) (wt : Wait) : Wave :=
  { tWave with acnt := n, stack := [{ tPair false with a := { (tPair false).a with wait := .warv 2 }, b := { (tPair false).b with wait := wt } }] }
def tArvB (n : Nat) (wt : Wait) : State := { tS (tArvPair n wt) tT with curB := true }

theorem test_meets_ArrivalsPass_pair :
    (∃ c, ctxAt (tArvB 2 .ready) 0 true = some c ∧ PathAFirst c ∧ 1 ≤ c.wave.acnt) ∧
    (∃ c, ctxAt (tArvB 2 (.warv 1)) 0 true = some c ∧ c.path.wait = .warv 1 ∧ PathAFirst c) ∧
    (∃ c, ctxAt (tArvB 1 (.warv 1)) 0 true = some c ∧ c.path.wait = .warv 1 ∧ 1 ≤ c.wave.acnt ∧
      c.wave.stack.head?.map (fun p => p.a.wait) = some (.warv 2)) := by
  refine ⟨⟨_, rfl, ⟨rfl, _, _, rfl, rfl, ?_⟩, ?_⟩, ⟨_, rfl, rfl, rfl, _, _, rfl, rfl, ?_⟩, ⟨_, rfl, rfl, ?_, rfl⟩⟩ <;> decide

/-- Waits on scratch words: met with 0, not met with 1. -/
def tWaits (loc : Nat) (ref : Word) : Wave :=
  { tWave with base := { tPath 8192 with wait := .waita true 0 [1] [(0, 64, some loc, ref), (1, 128, none, 0)] [] } }

/-- The words to be met are sound; one lies in HOST memory and the link is down; one is poisoned. -/
theorem test_meets_WordWaits :
    (∃ a, waitCheck (tS tWave tT) (tC tWave tT) (tFM 1 2 2) = .ok a ∧ a.2.length = 2) ∧
    (ctxAt (tS (tWaits (locScr 0 64) 0) tT) 0 false).isSome = true ∧ atomAhead (tWaits (locScr 0 64) 0).sq (locScr 0 64) = false ∧
    testMet true (testVal (tS (tWaits (locScr 0 64) 0) tT) (tC (tWaits (locScr 0 64) 0) tT) (some (locScr 0 64))) 0 = true ∧
    testMet true (testVal (tS (tWaits (locScr 0 64) 1) tT) (tC (tWaits (locScr 0 64) 1) tT) (some (locScr 0 64))) 1 = false ∧
    poisonIn (tS tWave tT) [] 0 0 (wholeBytes (locScr 0 64) 4) = none ∧ isHostLoc (locHost 64) = true ∧ lostPending tWave = false ∧
    testsLeft true 0 (tC (tWaits (locScr 0 64) 0) tT) (tS (tWaits (locScr 0 64) 0) tT) [(0, 64, some (locScr 0 64), 0)] = [] ∧
    (poisonIn { tS tWave tT with dev := { (tS tWave tT).dev with serr := [⟨2, locScr 0 64, false, storeView⟩] } } [] 0 0
      (wholeBytes (locScr 0 64) 4)).isSome = true ∧
    poisonIn { tS tWave tT with dev := { (tS tWave tT).dev with linkUp := false } } [] 0 0 (wholeBytes (locHost 64) 4) = none :=
  ⟨tMeets _ (by decide +kernel), by decide, by decide, by decide +kernel, by decide +kernel, by decide +kernel, by decide, by decide,
   by decide +kernel, by decide +kernel, by decide +kernel⟩

/-- A test whose word a queued atomic will write, seen at a byte under a younger store; one whose line gets no entry. -/
theorem test_meets_WordWaits_held :
    (let young : SqEntry := { tAtom with kind := .store, bytes := [(locScr 0 64, 0xFF, 7)] }
     atomAhead [tAtom, young] (locScr 0 64) = false ∧ atomAhead [tAtom, young] (locScr 0 (64 + 3)) = true) ∧
    (rejectedOf (tFull (tWaits 0x20040 0) 1) (tC (tWaits 0x20040 0) tT) (loadMiss (tFull (tWaits 0x20040 0) 1) (tWaits 0x20040 0) 0)
      ([(0, 64, some 0x20040, 0)].map testPlan)).map (·.q) = [0] ∧
    rejectedOf (tS (tWaits (locScr 0 64) 0) tT) (tC (tWaits (locScr 0 64) 0) tT) (fun _ => true)
      ([(0, 64, some (locScr 0 64), 0), (1, 128, none, 0)].map testPlan) = [] := by
  refine ⟨?_, ?_, ?_⟩ <;> decide +kernel

/-- Mailbox 15 with room for no message, and the message of a page. -/
theorem test_meets_HintsAndLines :
    (∃ a, probeCheck (tC tWave tT) (tFM 0x61 2 0) = .ok a ∧ True) ∧ (∃ a, prefCheck (tC tWave tT) (tFM 0x78 2 0) = .ok a ∧ True) ∧
    (∃ a, resCheck (tC tWave tT) (tFM 1 2 0) = .ok a ∧ True) ∧
    (resMessages (tM tWave tT []) (tC tWave tT) (fun _ => 0) (fun q => 0x1FFFF + q)).length = 1 ∧
    mboxRoom { tPart with mbox := [(15, List.replicate 64 [])] } 15 = 0 ∧
    (Issues (tS { tWave with base := { tPath 8192 with wait := .resreq 4 } } tT) (tC { tWave with base := { tPath 8192 with wait := .resreq 4 } } tT) ∧
      resWaits { tPart with events := [(.resreq 4, [])] } 4 = true ∧ resWaits tPart 4 = false) ∧
    (∀ line ∈ namedLines (tM tWave tT []) (tC tWave tT) (tFM 0x78 0x42 0) 0, line < 2 ^ 56) ∧
    singleCopy (locScr 0 0) = true ∧ scopeLevel 6 = 4 ∧ scopeLevel 2 < 4 ∧
    (∃ a, lineCheck (tM tWave tT []) (tC tWave tT) (tFM 0x78 0x42 0) = .ok a ∧ a.2 ≠ []) :=
  ⟨tMeets _ (by decide +kernel), tMeets _ (by decide +kernel), tMeets _ (by decide +kernel), by decide +kernel, by decide +kernel,
   ⟨tIssues _ _ rfl rfl rfl rfl (by decide), by decide, by decide⟩, by decide +kernel, by decide, by decide, by decide,
   tMeets _ (by decide +kernel)⟩

/-- No store queue of the small state holds an entry. -/
theorem tNothing : NothingQueued (tS tWave tT) := by
  refine ⟨fun w core wg sq h => ?_, by intro o h; cases h⟩
  by_cases hw : w = 0
  · subst hw
    have : sqOf (tS tWave tT) 0 = some (0, 0, []) := rfl
    rw [this] at h
    cases h; rfl
  · have : sqOf (tS tWave tT) w = none := by
      simp [sqOf, getWave, tS, tabGet?, State.reset, hw]
    rw [this] at h; cases h

/-- A wave parked in REORD. -/
def tPark (n : Nat) : Wave := { tWave with base := { tPath 8192 with wait := .reord 32 1 n }, parkedAt := 0 }

/-- Stores that may and may not drain, an atomic on scratch, a deposit. -/
def tStore (loc : Nat) (rel : Bool) : SqEntry :=
  { seq := 0, grp := 0, kind := .store, bytes := [(loc, 0xFF, 7), (loc + 1, 0xFF, 8)], scope := 4, rel := rel, acq := false
    toks := if rel then [(0, 9)] else [], va := 0 }
def tDepo (n : Nat) : SqEntry :=
  { seq := 0, grp := 0, kind := .depo n, bytes := [], scope := 3, rel := true, acq := false, toks := [], va := 0 }
def tSq (e : SqEntry) : State := tM { tWave with sq := [e] } tT []

theorem test_meets_QueuedAccesses :
    sqOf (tSq (tStore 100 false)) 0 = some (0, 0, [tStore 100 false]) ∧ ((tStore 100 false).bytes.map (·.1)).Nodup ∧
    drainOk [tStore 100 false] 0 = true ∧ drainOk [tStore 100 true] 0 = false ∧ singleCopy 100 = false ∧ singleCopy (locScr 0 0) = true ∧
    isHostLoc (locHost 5) = true ∧ isHostLoc (locScr 0 0) = false ∧
    (drainOk [tAtom] 0 = true ∧ tAtom.bytes.map (·.1) = (List.range 4).map (locScr 0 64 + ·) ∧
      (∀ k, k < 8 → singleCopy (locScr 0 64 + k) = singleCopy (locScr 0 64)) ∧ (tidPlace (tSq tAtom) 0 0).isSome = true) := by
  refine ⟨rfl, ?_, ?_, ?_, ?_, ?_, ?_, ?_, ?_, ?_, ?_, ?_⟩ <;> decide +kernel

theorem test_meets_DepositsAreDelivered : sqOf (tSq (tDepo 0)) 0 = some (0, 0, [tDepo 0]) ∧ drainOk [tDepo 0] 0 = true ∧
    waveNumbered (putSq (tSq (tDepo 0)) 0 []) 0 0 = some 0 ∧ (0x8000 : Nat) / 2 ^ 15 % 2 = 1 ∧
    (getWave (tS { tWave with heldDeps := [3], acnt := 65534 } tT) 0).isSome = true ∧ (65535 : Nat) ≤ 65535 :=
  ⟨rfl, by decide, by decide, by decide, by decide, by decide⟩

theorem test_meets_HeldDeposits : hasHeld (tSq (tDepo 0)) 0 = false ∧
    (let v : Wave := { tWave with heldDeps := [0], acnt := 65535, sq := [tDepo 0] }
     hasHeld (tS v tT) 0 = true ∧ v.acnt = 65535) ∧ isParked (tPark 0) = true := by decide

/-- Copies of byte 100: dirty in WG, clean in CLUSTER. -/
def tViews : State := { tM tWave tT [] with views := [(0, [(100, ⟨7, 0xFF, 0xFF⟩)]), (256, [(100, ⟨6, 0xFF, 0⟩)])] }

theorem test_meets_CopiesPropagate : (cellAt tViews 0 100).dirty ≠ 0 ∧ (cellAt tViews 256 100).dirty = 0 ∧ (cellAt tViews 256 100).has ≠ 0 ∧
    parentOf 0 = some 256 ∧ parentOf 322 = none ∧
    (∀ k, k < 8 → wideTile tViews (8 * 12 + k) = none) ∧
    (∀ e ∈ ([] : List SqEntry), touches e 100 = false) ∧ (cellAt tViews (viewAt 4 0) 100).has = 0 ∧
    (tStore 100 false).bytes.find? (fun b => b.1 = 100) = some (100, 0xFF, 7) := by
  refine ⟨?_, ?_, ?_, ?_, ?_, ?_, ?_, ?_, ?_⟩ <;> decide +kernel

/-! Engines. -/

/-- Register fields: handle in v1, inputs from v2, results from v4; A and B the s register that is 0. -/
def tNv : FE := ⟨4, 1, 2, 0, 0x11, 0⟩
def tSs : FE := ⟨0x78, 0x41, 0x7F, 0, 0x40, 64⟩
def tOnce (ext : Word) : FE := ⟨0x78, 0x41, 0x78, 0, ext, 0⟩

/-- A record of a kind at VA 0x5000, sampler 0 at VA 0x7000 that names it; in s4 is the mask of one core. -/
def tKind (k : Byte) : Memory :=
  [(0x25001, 0x60), (0x25008, 0x40), (0x2500C, 1), (0x25010, 0x40), (0x25015, k), (0x2501A, 0x80), (0x2501B, 0x3F), (0x2501E, 0x80),
   (0x2501F, 0x3F)]
def tEngWave : Wave :=
  { tWave with csr := { tWave.csr with brtab := 0x5001, smtab := 0x7001 }, s := [(0, 7), (2, 4096), (4, 0x10000000)] }

/-- Workgroup 0 holds the Dash array of cluster 0. -/
def tDash (v : Wave) : State := { tS v tT with dash := [(0, { Dash.init with holder := some 0 })] }

/-- An operation of wave 0. -/
def tEop (id op : Nat) (x : FE) (started : Bool) : EngOp :=
  { id := id, wave := 0, core := 0, op := op, x := x, mask := 3, started := started, seq := 0, a := 64, b := 64, d := 0
    vals := [(0, [5, 6]), (1, [6, 7])], recd := [], toks := [] }
def tOps (l : List EngOp) : State := { tS { tWave with cpy := 1, mtx := 1, gth := 1, dsh := 1 } tT with ops := l }

/-- The checks pass in each family of engines; a full counter and an earlier product hold an instruction. -/
theorem test_meets_EngineInstructionsQueue :
    Issues (tL tEngWave tT (tKind 0)) (tC tEngWave tT) ∧
    (∃ a, copyCheck (tL tEngWave tT tRec) 0 ⟨0x78, 0x41, 0x41, 0, 0x300, 0⟩ false false (tC tEngWave tT) = .ok a ∧ True) ∧
    (∃ a, copyCheck (tL tEngWave tT tRec) 3 ⟨0x78, 0x44, 0x41, 0, 0x300, 0⟩ false true (tC tEngWave tT) = .ok a ∧ True) ∧
    (∃ a, copySsCheck tSs (tC tWave tT) = .ok a ∧ True) ∧
    (∃ a, mmaCheck 0x10 ⟨0x46, 0x41, 0x41, 0, 0, 0⟩ (tC tWave tT) = .ok a ∧ True) ∧ (∃ a, mzeroCheck ⟨0x78, 0x78, 0x78, 0, 0, 0⟩ (tC tWave tT) = .ok a ∧ True) ∧
    (∃ a, tileMoveCheck 0x14 (tOnce 0) (tC tWave tT) = .ok a ∧ True) ∧ (∃ a, mrdCheck ⟨4, 1, 0x78, 0, 0, 0⟩ (tC tWave tT) = .ok a ∧ True) ∧
    (∃ a, mwrCheck ⟨0x78, 1, 2, 0, 0, 0⟩ (tC tWave tT) = .ok a ∧ True) ∧
    (∃ a, tileSaveCheck (tS tWave tT) 0x18 ⟨0x78, 0x42, 0x41, 0, 0, 0⟩ (tC tWave tT) = .ok a ∧ True) ∧
    (∃ a, texQueueCheck (tL tEngWave tT (tKind 1)) 0x28 ⟨4, 1, 0x78, 0, 0, 0⟩ (tC tEngWave tT) = .ok a ∧ True) ∧
    (∃ a, traceCheck (tL tEngWave tT (tKind 3)) 0x30 ⟨12, 1, 0x78, 0, 0, 0⟩ (tC tEngWave tT) = .ok a ∧ True) ∧
    (∃ a, dwinCheck (tDash tWave) (tOnce 0 |> fun x => { x with a := 0x40 }) (tC tWave tT) = .ok a ∧ True) ∧
    (∃ a, dresetCheck (tDash tWave) ⟨0x78, 0x78, 0x78, 0, 0, 0⟩ (tC tWave tT) = .ok a ∧ True) :=
  ⟨tIssuesL _ _ _ rfl rfl rfl rfl (by decide), tMeets _ (by decide +kernel), tMeets _ (by decide +kernel), tMeets _ (by decide +kernel),
   tMeets _ (by decide +kernel), tMeets _ (by decide +kernel), tMeets _ (by decide +kernel), tMeets _ (by decide +kernel),
   tMeets _ (by decide +kernel), tMeets _ (by decide +kernel), tMeets _ (by decide +kernel), tMeets _ (by decide +kernel),
   tMeets _ (by decide +kernel), tMeets _ (by decide +kernel)⟩

theorem test_meets_EngineStalls :
    engStall (tS { tWave with mtx := 255 } tT) (tC { tWave with mtx := 255 } tT) 0x13 = true ∧ engStall (tS tWave tT) (tC tWave tT) 0x13 = false ∧
    tileBusy (tOps [tEop 0 0x10 (tOnce 0) true]) (tOnce 0) (tC tWave tT) = true ∧ tileBusy (tS tWave tT) (tOnce 0) (tC tWave tT) = false ∧
    engStall (tOps [tEop 0 0x39 (tOnce 0) false]) (tC tWave tT) 0x39 = true := by
  refine ⟨?_, ?_, ?_, ?_, ?_⟩ <;> decide +kernel

/-- A D* without the array, results past the declared registers, a sampler without a table, and a tile past the declared ones. -/
theorem test_meets_EngineChecksTrap :
    (∃ t, dresetCheck (tS tWave tT) ⟨0x78, 0x78, 0x78, 0, 0, 0⟩ (tC tWave tT) = .error t) ∧ (tC tWave tT).path.wait = .ready ∧
    (∃ t, nevalCheck 0x20 { tNv with d := 0x3F, ext := 0x71 } false false (tC tWave tT) = .error t) ∧
    (∃ t, texCheck (tS tWave tT) (tC tWave tT) 0x2D ⟨4, 1, 0x78, 0, 0, 0⟩ = .error t) ∧
    (∃ t, mzeroCheck ⟨0x78, 0x78, 0x78, 1, 0, 0⟩ (tC tWave tT) = .error t) :=
  ⟨tFails _ (by decide +kernel), rfl, tFails _ (by decide +kernel), tFails _ (by decide +kernel), tFails _ (by decide +kernel)⟩

/-- A filling tile, and 8 of them. -/
def tTile (id h : Nat) (d : Bool) (rows : List Row) : BTile :=
  { id := id, core := 0, whtab := 0, handle := h, rows := rows, openedAt := 0, dispatched := d
    outs := if d then rows.map (fun _ => (true, [0x3F800000])) else [], fault := none }
def tTiles : State := { tS tWave tT with btiles := (List.range 8).map (fun i => tTile i (100 + i) false []), nextId := 9 }
def tQueue (n : Nat) : State :=
  { tL tEngWave tT (tKind 4) with ops := (List.range n).map (fun i => tEop i 0x28 (tOnce 0) false), nextId := 100 }

theorem test_meets_BatonTakesOperations :
    (∃ v, nevalCheck 0x20 tNv false false (tC tWave tT) = .ok v ∧ True) ∧
    (∃ v, nevalCheck 0x21 { tNv with a := 0x40 } true false (tC tWave tT) = .ok v ∧ True) ∧
    (∃ v, nevalCheck 0x22 tNv false true (tC tWave tT) = .ok v ∧ True) ∧
    engStall (tS { tWave with gth := 255 } tT) (tC { tWave with gth := 255 } tT) 0x20 = true ∧ engStall (tS tWave tT) (tC tWave tT) 0x20 = false ∧
    keyRoom tTiles 0 0 5 = false ∧ keyRoom tTiles 0 0 100 = true ∧ keyRoom (tS tWave tT) 0 0 5 = true ∧
    (∃ a, texCheck (tQueue 63) (tC tEngWave tT) 0x2D ⟨4, 1, 0x78, 0, 0, 0⟩ = .ok a ∧
      keyRoom (tQueue 63) 0 0 a.2.1.handle = true) ∧ engStall (tQueue 63) (tC tEngWave tT) 0x2D = false ∧
    (inQueue (tQueue 63) .sampler 0).length = 63 ∧ (inQueue (tQueue 64) .sampler 0).length = 64 ∧
    Issues (tQueue 64) (tC tEngWave tT) :=
  ⟨tMeets _ (by decide +kernel), tMeets _ (by decide +kernel), tMeets _ (by decide +kernel), by decide, by decide, by decide +kernel,
   by decide +kernel, by decide, tMeets _ (by decide +kernel), by decide +kernel, by decide +kernel, by decide +kernel,
   tIssuesAt _ _ _ rfl rfl rfl rfl rfl rfl rfl rfl rfl (by decide)⟩

/-- Two copies wait in a queue; a Dash operation waits behind one that runs. -/
theorem test_meets_EnginesStartInOrder :
    let s := tOps [tEop 0 2 tSs false, tEop 1 2 tSs false, tEop 2 0x39 (tOnce 0) true, tEop 3 0x39 (tOnce 0) false]
    (getOp s 0).isSome = true ∧ (getOp s 1).isSome = true ∧ (getOp s 3).isSome = true ∧ (inQueue s .copy 0).head?.map (·.id) = some 0 ∧
    (inQueue s .dash 0).head?.map (·.id) = some 3 ∧
    (s.ops.any (fun x => x.started && engOfOp x.op = .dash && sameQueue .dash 0 x.core)) = true := by decide

theorem test_meets_EngineCompletions : ∀ e ∈ [(2, Eng.copy), (0x10, .matrix), (0x13, .matrix), (0x14, .matrix), (0x15, .matrix), (0x16, .matrix),
    (0x17, .matrix), (0x28, .sampler), (0x30, .trace), (0x38, .dash), (0x39, .dash), (0x3A, .dash), (0x3C, .dash), (0x3E, .dash)],
    runningOp (tOps [tEop 0 e.1 (tOnce 0) true]) e.2 0 = some (tEop 0 e.1 (tOnce 0) true) ∧
    (opCtx (tOps [tEop 0 e.1 (tOnce 0) true]) (tEop 0 e.1 (tOnce 0) true)).isSome = true ∧
    (∀ p ∈ (tOps [tEop 0 e.1 (tOnce 0) true]).ops, ¬p.id < 0) ∧ ((tEop 0 e.1 (tOnce 0) true).vals.map (·.1)).Nodup ∧
    cpScope (tOnce 0) ≤ 5 ∧ cpWord (tOnce 0) = false ∧ (tOps [tEop 0 e.1 (tOnce 0) true]).dev.serr = [] ∧
    liveMask tWave ≠ 0 ∧ tWave.halted = false ∧ tWave.sq = [] ∧ (liveMask tWave).getLsbD 0 = true := by decide

def tFw (st : DevState) : Dev := { Dev.init with stat := st, linkUp := true }

/-- A buffer record of bytes at VA 0x6000, and the first element that a COPY.GS or COPY.SG of tCopyX moves. -/
def tCopyR : Rec := { parseRec 0 [0, 0, 0, 0, 0] with width := 64, height := 1, base := 0x6000 }
def tCopyX : FE := ⟨0x78, 0x41, 0x41, 0, 0x300, 0⟩
def tCopyOp (op : Nat) : EngOp := { tEop 0 op tCopyX true with a := 64, b := 0 }

theorem test_meets_CopiedElements :
    let s := tM tWave tT []
    let at_ := cpXY tCopyX tCopyR 0 0
    let l := locate s (tWg tT) tCopyR tCopyR.c 0 0
    0 ∈ cpSteps tCopyX ∧ getWave s 0 = some tWave ∧ s.dev.serr = [] ∧ (tFw .ready).linkUp = true ∧
    whereElem tCopyR false at_.1 at_.2 = .elem 0 0 false ∧ whereElem tCopyR true at_.1 at_.2 = .elem 0 0 false ∧
    (∀ va, l.va = some va → faultIn s (engCtx (tCopyOp 0) tWave (tWg tT)) 0 va l.bytes = none) ∧
    (engineAcc s (engCtx (tCopyOp 0) tWave (tWg tT)) 0 l == .mem ((List.range 4).map (fun k => (0x26000 + k, 0xFF)))) = true ∧
    [locScr 0 64].Pairwise (fun a b => a + cpExtent tCopyX tCopyR ≤ b ∨ b + cpExtent tCopyX tCopyR ≤ a) ∧
    (∀ a ∈ [locScr 0 64], a + cpExtent tCopyX tCopyR ≤ locNone) ∧ locNone ∉ (List.range 4).map (0x26000 + ·) ∧ tWave.sq = [] ∧ cpWord tCopyX = false ∧
    runningOp (tOps [tCopyOp 0]) .copy 0 = some (tCopyOp 0) ∧ (opCtx (tOps [tCopyOp 0]) (tCopyOp 0)).isSome = true := by
  refine ⟨?_, ?_, ?_, ?_, ?_, ?_, ?_, ?_, ?_, ?_, ?_, ?_, ?_, ?_, ?_⟩ <;> decide +kernel

/-- MDRAIN and MFILL of a tile in the window and in memory. -/
theorem test_meets_TilesAreSavedAndRestored :
    (let s := tOps [tEop 0 0x18 (tOnce 0) true]
     runningOp s .matrix 0 = some (tEop 0 0x18 (tOnce 0) true) ∧ (∀ p ∈ s.ops, ¬p.id < 0) ∧ s.dev.serr = []) ∧
    (let o : EngOp := { tEop 0 0x18 (tOnce 0) true with a := 0, b := 2 }
     extentOk (tWg tT) false 0 4096 = true ∧
     (∀ i, drainWord (tS tWave tT) o (tWg tT) 1 i = .ok (extentLoc 0 (tWg tT) false (0 + 4 * i))) ∧
     (∀ i, i < 1024 → extentLoc 0 (tWg tT) false (0 + 4 * i) + 4 ≤ locNone) ∧ isHostLoc (extentLoc 0 (tWg tT) false 64) = false) ∧
    (drainWord (tM tWave tT []) { tEop 0 0x19 (tOnce 0) true with a := 0, b := 0 } (tWg tT) 0 1023 == .ok 0x20FFC) = true := by
  refine ⟨⟨by decide, by decide, rfl⟩, ⟨by decide, fun i => rfl, ?_, by decide⟩, by decide +kernel⟩
  intro i hi
  have : extentLoc 0 (tWg tT) false (0 + 4 * i) = locScr 0 (0 * 4096 + (0 + 4 * i)) := rfl
  rw [this]; simp only [locScr, locNone]; omega

/-- A ray in an empty record misses; one whose root lies on an absent page faults. -/
def tRay : List Word := [0, 0, 0, 0x3F800000, 0x3F800000, 0x3F800000, 0, 0x3F800000]
def tTree (w : Nat) : Tree :=
  { part := 0, core := 0, r := { parseRec 0 [0, 0, 0, 0, 0] with width := w, kind := 3, base := 0x40000 }, any := false, young := [] }

theorem test_meets_GatherResults : (traceRay (tS tWave tT) (tTree 0) (rayOf tRay)).1.fault = none ∧
    (traceRay (tM tWave tT []) (tTree 1) (rayOf tRay)).1.fault ≠ none := by
  refine ⟨?_, ?_⟩ <;> decide +kernel

/-- A tile of one row opened in cycle 0. -/
def tGather (cycle : Nat) : State :=
  { tS tWave tT with dev := { Dev.init with stat := .ready, cycle := cycle }, ops := [tEop 0 0x20 tNv true], nextId := 6
                     btiles := [tTile 5 3 false [⟨0, 0, []⟩]] }

theorem test_meets_BatonTilesDispatch :
    ((tGather 63).btiles.find? (fun t => t.id = 5 && t.core = 0 && !t.dispatched)) = some (tTile 5 3 false [⟨0, 0, []⟩]) ∧
    InOrder (tGather 64) := by
  refine ⟨by decide, ?_⟩
  constructor <;> decide

theorem test_meets_BatonResults :
    let rows : List Row := [⟨0, 0, []⟩, ⟨0, 1, []⟩]
    let r : BRes := { op := 0, whtab := 0, outs := [], left := 2, waiting := [], fault := [], invalid := [] }
    let s : State := { tOps [tEop 0 0x20 tNv true] with btiles := [tTile 5 3 true rows], bres := [r], nextId := 6 }
    s.btiles.find? (fun t => t.id = 5 && t.dispatched) = some (tTile 5 3 true rows) ∧ (tTile 5 3 true rows).outs.length = rows.length ∧
    (rows.map (·.pos)).Nodup ∧ getOp s 0 = some (tEop 0 0x20 tNv true) ∧ (opCtx s (tEop 0 0x20 tNv true)).isSome = true ∧
    cntOfOp 0x20 = .gth ∧ (∀ p ∈ s.ops, ¬p.id < 0) ∧ (∀ x ∈ rows, x.op = 0) := by decide

/-! Spawns, graphs, timelines, mailboxes. -/

/-- The checks of an instruction pass, evaluated. -/
theorem tPasses (l : List (Instr × (Ctx → Except Trap Unit))) (i : Instr) (c : Ctx)
    (h : l.all (fun o => o.1 != i || (match o.2 c with | .ok _ => true | .error _ => false)) = true) : Passes l i c := by
  intro o ho hi
  have h1 := List.all_eq_true.mp h o ho
  rw [hi] at h1
  simp only [bne_self_eq_false, Bool.false_or] at h1
  split at h1
  · assumption
  · exact absurd h1 (by simp)

/-- An entry that satisfies a test. -/
theorem tReads {P : KEnt → Prop} [DecidablePred P] (r : KRead) (h : (match r with | .ok e => decide (P e) | _ => false) = true) :
    ∃ e, r = .ok e ∧ P e := by
  cases r with
  | ok e => exact ⟨e, rfl, of_decide_eq_true h⟩
  | bad => exact absurd h (by simp)
  | page a => exact absurd h (by simp)
  | ecc st a => exact absurd h (by simp)
  | lost a => exact absurd h (by simp)

/-- Kernel table at VA 0x9000: one entry with one wave and 8 v registers, or with 2 waves. -/
def tKernels (waves : Byte) : Memory := [(0x29009, 1), (0x2900A, waves)]
def tSpawn (waves : Byte) : State :=
  { tL tWave tT (tKernels waves) with parts := [(0, { tPart with ptroot := 0x2000, ktab := 0x9001 })] }
def tDeep : Ctx := { tC tWave tT with g := { tWg tT with depth := 4 } }

theorem test_meets_SpawnsEnterQueues : rootTask (tWg .pacer).kind = none ∧ rootTask (tWg tT).kind = some (0, 0, 0) ∧ wTrap tTrap = true ∧
    Issues (tSpawn 0x40) (tC tWave tT) ∧ valueOk (tWg tT) 1 false = true ∧ valueOk (tWg tT) 0x40 false = true ∧
    (readKEnt (tSpawn 0x40) 0 0 0x40001 0 == .page 0x40000) = true ∧
    (readKEnt { tSpawn 0x40 with dev := (tPoison 0x29008).dev } 0 0 0x9001 0 == .ecc 0 0x9008) = true ∧ (readKEnt (tSpawn 0x40) 0 0 0x9001 200 == .bad) = true ∧
    tWave.spawns = [] ∧ (∃ e, readKEnt (tSpawn 0x40) 0 0 0x9001 0 = .ok e ∧ e.waves = 1) ∧ (∃ e, readKEnt (tSpawn 0x80) 0 0 0x9001 0 = .ok e ∧ e.waves ≠ 1) ∧
    (tWg tT).depth < 4 ∧ 4 ≤ tDeep.g.depth ∧
    SourcesRead (tC tWave tT) false [⟨0x40, .value, false, false⟩, ⟨1, .value, false, false⟩] ∧
    (∀ d, (getCore (tSpawn 0x40) d).spawnq.length + (childrenAt (tSpawn 0x40) (tC tWave tT) tEnt (0, 0, 0) 0 1 0x40 false false d).length ≤ 64) := by
  refine ⟨rfl, rfl, rfl, tIssuesAt _ _ _ rfl rfl rfl rfl rfl rfl rfl rfl rfl (by decide), by decide, by decide, by decide +kernel,
    by decide +kernel, by decide +kernel, rfl, tReads _ (by decide +kernel), tReads _ (by decide +kernel), by decide, by decide, ⟨by decide, by decide, by decide⟩, ?_⟩
  · intro d
    have h1 : (getCore (tSpawn 0x40) d).spawnq = [] := by
      simp [getCore, tSpawn, tL, tM, tS, State.reset, tabGet, tabGet?, Core.init]
    have h2 : (childrenAt (tSpawn 0x40) (tC tWave tT) tEnt (0, 0, 0) 0 1 0x40 false false d).length ≤ 2 := by
      rw [childrenAt, List.length_map]
      exact Nat.le_trans (List.length_filter_le _ _) (by decide)
    rw [h1]; simpa using Nat.le_trans h2 (by decide)

/-- A GRF instruction outside its place traps: a pacer's from a task, a task's from the pacer, a D that is a v register. -/
theorem test_meets_GraphChecksTrap : (∃ t, pacerOnly (tC tWave tT) 0x00 (tFE 0x44 0x42 0x78) = .error t) ∧
    (∃ t, taskOnly (tC tWave .pacer) 0x04 (tFE 0x78 0x78 0x78) = .error t) ∧
    (∃ t, evenS (tC tWave tT) 3 = .error t) ∧ (∃ t, oncePair (tC tWave tT) 1 = .error t) ∧
    (∃ t, timelineArg (tC tWave tT) { tFE 0x78 0x42 0x7F with lit := 64 } = .error t) ∧
    (∃ t, mailArg (tC tWave .pacer) 0x0B { tFE 0x44 0x41 0x7F with lit := 13 } [0, 1, 15] = .error t) ∧
    (∃ t, onceVal (tC tWave tT) 1 false = .error t) :=
  ⟨tFails _ (by decide), tFails _ (by decide), tFails _ (by decide), tFails _ (by decide), tFails _ (by decide), tFails _ (by decide),
   tFails _ (by decide)⟩

/-- Graph images at VA 0x8000: one pass, its kernel, an arena of some shares. The pacer submits with the address in s2:s3. -/
def tImage (np share : Byte) : Memory := [(0x28000, np), (0x2800C, share), (0x28048, 1), (0x29009, 1), (0x2900A, 0x40)]
def tPacer (addr : Word) : Wave := { tWave with s := [(2, addr)] }
def tGsub (addr : Word) (l : Memory) (ktab : DWord) : State :=
  { tL (tPacer addr) .pacer l with parts := [(0, { tPart with ptroot := 0x2000, ktab := ktab })] }

/-- A graph: pass 0 writes resource 0, of one tile, and pass 1 reads it; one task of pass 0 is in flight. -/
def tPass (w : List Nat) : PassEnt :=
  { ent := tEnt, kidx := 0, cost := 0, maxInfl := 0, defer := false, early := false, prio := 0, gh := 1, gw := 1, cmask := 1, stl := 0
    sthr := 0, writes := w }
def tRes : ResEnt :=
  { height := 8, width := 8, home := 0, lth := 3, ltw := 3, enc := 0, recidx := 0, ovtiles := 0, slots := 1, tileBytes := 256, chn := 1
    ilv := 0, ovOff := 0 }
def tIm (share : Nat) : Image :=
  { ashare := share, dsext := 0, ovbase := 0, ctl := 1, cval := 1, passes := [tPass [0], tPass []], ress := [tRes]
    stens := [⟨1, 0, 0, 0⟩], kbase := 0 }
def tGraph (st : TileState) (ph : GPhase) (lv : Bool) : Graph :=
  { image := tIm 1, phase := ph, live := lv, host := false, faultMsg := [], tearAt := none
    passes := [{ started := true, queued := none, level := 0, lastCore := none, tasks := [(0, { newTask with st := .placed 0 })] },
               { started := true, queued := none, level := 0, lastCore := none, tasks := [] }]
    ress := [{ tiles := [{ st := st, count := 1, store := some (false, 0) }], stalls := 0 }] }
/-- The same with no task placed yet. -/
def tReady : Graph :=
  { tGraph .empty .live true with
    passes := [{ started := true, queued := some 0, level := 0, lastCore := none, tasks := [] },
               { started := true, queued := none, level := 0, lastCore := none, tasks := [] }] }

def tG (v : Wave) (k : WgKind) (g : Graph) : State := { tS v k with parts := [(0, { tPart with graphs := [(0, g)] })] }
theorem tGi (v : Wave) (k : WgKind) (g : Graph) (hg : v.wg = 0) (hs : v.stack = []) (hh : v.halted = false) (hf : v.frozen = false)
    (hm : activeMask v v.base ≠ 0) : Issues (tG v k g) (tC v k) := tIssuesAt _ _ _ rfl rfl rfl rfl rfl hg hs hh hf hm

/-- Tiles in slot 1 of a ring: eight planes with a bit for each of 1 or 3 channels; 16 elements of 32 bytes. -/
def tWide (e : ResEnt) : Graph := { tGraph .writing .live true with image := { tIm 1 with ress := [e] } }

theorem test_meets_CopiesPropagate_wide :
    wideTile (tG tWave tT (tWide { tRes with ilv := 2, tileBytes := 512 })) (locRing 0 0 0 520) = some (⟨8, 64, 8⟩, [(locRing 0 0 0 512, 512)]) ∧
    wideTile (tG tWave tT (tWide { tRes with ilv := 2, chn := 3, tileBytes := 192 })) (locRing 0 0 0 200) = some (⟨8, 24, 24⟩, [(locRing 0 0 0 192, 192)]) ∧
    (8 * 64 = 512 ∧ 64 % 8 = 0 ∧ 8 % 8 = 0 ∧ 512 ≤ 520 ∧ 520 < 512 + 512) ∧
    (wideTile (tG tWave tT (tWide { tRes with ltw := 2, lth := 2, tileBytes := 512 })) (locRing 0 0 0 520)).map (·.1) = some ⟨1, 512, 32⟩ ∧
    NoWideTiles (tM tWave tT []) := by
  refine ⟨?_, ?_, ?_, ?_, ?_⟩ <;> first | decide +kernel | (intro p hp g hg; revert p hp g hg; decide)

/-- How an image reads and is built: the kind of answer. -/
def tBuilt (s : State) (addr : Nat) (ktab : DWord) : Option Nat :=
  match readImage (releaseNow s 0 3) 0 0 addr with
  | .error _ => none
  | .ok raw =>
    match buildImage (releaseNow s 0 3) 0 0 ktab raw with
    | .bad _ => some 1000
    | .malformed => some 1001
    | .ok im => some im.ashare

theorem test_meets_GraphSubmission :
    Issues (tGsub 0x8000 (tImage 1 1) 0x9001) (tC (tPacer 0x8000) .pacer) ∧
    Passes (grfOps (tFE 0x44 0x42 0x78)) (.gsub (tFE 0x44 0x42 0x78)) (tC (tPacer 0x8000) .pacer) ∧
    (sPair (tPacer 0x8000) 2).toNat = 0x8000 ∧ freeGraph (getPart (tGsub 0x8000 (tImage 1 1) 0x9001) 0) = some 0 ∧
    freeGraph { tPart with graphs := (List.range 4).map (fun g => (g, tGraph .empty .live true)) } = none ∧
    tBuilt (tGsub 0x8000 (tImage 1 1) 0x9001) 0x8000 0x9001 = some 1 ∧ tBuilt (tGsub 0x8000 (tImage 1 2) 0x9001) 0x8000 0x9001 = some 2 ∧
    tBuilt (tGsub 0x8000 (tImage 0 1) 0x9001) 0x8000 0x9001 = some 1001 ∧ tBuilt (tGsub 0x8000 (tImage 1 1) 0x40001) 0x8000 0x40001 = some 1000 ∧
    tBuilt (tGsub 0x40000 [] 0x9001) 0x40000 0x9001 = none ∧
    needFits (shareCount tPart) { tIm 1 with ress := [] } = true ∧ needFits (shareCount tPart) (tIm 2) = false ∧
    1 ≤ shareCount tPart - sharesHeld tPart - 1 ∧
    shareCount tPart - sharesHeld { tPart with graphs := [(0, tGraph .empty .live true)] } - 1 < 1 ∧
    (let v : Wave := { tPacer 0x8000 with base := { tPath 8192 with wait := .gsub 0x8000 4 0x9001 } }
     ctxAt (tS v .pacer) 0 false = some (tC v .pacer)) := by
  refine ⟨tIssuesAt _ _ _ rfl rfl rfl rfl rfl rfl rfl rfl rfl (by decide), tPasses _ _ _ (by decide +kernel), ?_, ?_, ?_, ?_, ?_, ?_, ?_, ?_,
    ?_, ?_, ?_, ?_, ?_⟩
  all_goals first | decide +kernel | rfl

theorem test_meets_GraphAbortAndStop : Issues (tG tWave .pacer (tGraph .writing .live true)) (tC tWave .pacer) ∧
    Passes (grfOps (tFE 0x78 0x41 0x78)) (.gabort (tFE 0x78 0x41 0x78)) (tC tWave .pacer) ∧
    Passes (grfOps (tFE 0x78 0x41 0x78)) (.gstop (tFE 0x78 0x41 0x78)) (tC tWave .pacer) ∧
    getGraph (tG tWave .pacer (tGraph .writing .live true)) 0 0 = some (tGraph .writing .live true) ∧
    noFlight (tGraph .writing .live true) = false ∧ (tGraph .writing .completed false).live = false ∧ getGraph (tS tWave .pacer) 0 0 = none ∧
    noFlight tReady = true ∧ tReady.live = true ∧ tReady.phase = .live ∧
    (∀ e ∈ (tG tWave .pacer tReady).waves, graphWave (tG tWave .pacer tReady) 0 0 e.2 = false) ∧ (tG tWave .pacer tReady).orph = [] ∧
    owed (tG tWave .pacer (tGraph .writing .live true)) 0 0 1 = [] ∧
    (∀ p ∈ allPaths tWave, ∀ h d, p.wait ≠ .tlwait 1 h d) := by
  refine ⟨tGi _ _ _ rfl rfl rfl rfl (by decide), tPasses _ _ _ (by decide +kernel), tPasses _ _ _ (by decide +kernel), by decide, by decide,
    rfl, by decide, by decide, rfl, rfl, by decide, rfl, by decide, ?_⟩
  intro p hp h d
  simp only [allPaths, tWave, newWave, List.mem_cons, List.not_mem_nil, or_false] at hp
  subst hp
  simp

theorem test_meets_GraphQueries :
    Passes (grfOps { tFE 0x44 0x41 0x7F with lit := 0x200 }) (.gqry { tFE 0x44 0x41 0x7F with lit := 0x200 }) (tC tWave tT) ∧
    gqryWord { tPart with graphs := [(0, tGraph .writing .live true)] } 0 0x400 = none ∧ (gqryWord tPart 0 0x200).isSome = true ∧
    gqryWord tPart 0 0 = none ∧ (gqryWord { tPart with graphs := [(0, tGraph .writing .live true)] } 0 1).isSome = true ∧
    (gqryWord { tPart with graphs := [(0, tGraph .writing .live true)] } 0 0x1C0).isSome = true :=
  ⟨tPasses _ _ _ (by decide +kernel), by decide, by decide, by decide, by decide +kernel, by decide +kernel⟩

/-- The task of pass 0 writes; the one of pass 1 writes nothing and waits for a tile that is WRITING, not for one RETIRED. -/
theorem test_meets_GraphTasks : Issues (tG tWave tT (tGraph .writing .live true)) (tC tWave tT) ∧
    rootTask (tWg tT).kind = some (0, 0, 0) ∧ writesNothing (tGraph .writing .live true) 0 = false ∧
    writesNothing (tGraph .writing .live true) 1 = true ∧ taskOf (tGraph .writing .live true) 0 0 = some { newTask with st := .placed 0 } ∧
    taskOf (tGraph .writing .live true) 1 0 = none ∧
    waitOver (tG tWave (.task 0 1 0) (tGraph .writing .live true)) (tWg (.task 0 1 0)) = false ∧
    waitOver (tG tWave (.task 0 1 0) (tGraph .retired .live true)) (tWg (.task 0 1 0)) = true ∧
    (let v : Wave := { tWave with base := { tPath 8192 with wait := .trel } }
     ctxAt (tG v tT (tGraph .writing .live true)) 0 false = some (tC v tT) ∧
     closeAhead (tG v tT (tGraph .writing .live true)) (tC v tT) 0 0 0 = false ∧
     owed (tG v tT (tGraph .writing .live true)) 0 0 1 = []) ∧ (tGraph .writing .completed false).phase ≠ .live ∧
    (∃ u, tileOf (tGraph .writing .live true) 0 0 = some u ∧ u.st = .writing) :=
  ⟨tGi _ _ _ rfl rfl rfl rfl (by decide), rfl, by decide, by decide, rfl, rfl, by decide, by decide,
   ⟨rfl, by decide +kernel, by decide +kernel⟩, by decide, ⟨_, rfl, rfl⟩⟩

/-- HALT of a task of a graph that runs. -/
theorem test_meets_HaltStopsTheWave_graph : rootGraph (tWg tT).kind = some 0 ∧
    (getGraph (tG tWave tT (tGraph .writing .live true)) 0 0).map (·.phase) = some GPhase.live ∧
    Issues (tG tWave tT (tGraph .writing .live true)) (tC tWave tT) := ⟨rfl, rfl, tGi _ _ _ rfl rfl rfl rfl (by decide)⟩

/-- Timeline 5 is 0 or 8192, the operand 4096; wave 1 waits for a value of it. -/
def tTl : FE := { tFE 0x44 0x42 0x7F with lit := 5 }
def tWaitsTl (h : DWord) : Wave := { tWave with base := { tPath 8192 with wait := .tlwait 5 h 9 } }
def tTwo (h : DWord) (tl : Tab DWord) : State :=
  { tS tWave tT with waves := [(0, tWave), (1, tWaitsTl h)], wgs := [(0, { tWg tT with slots := [0, 1] })],
                     parts := [(0, { tPart with timelines := tl })] }

theorem test_meets_TimelineWrites : InOrder (tS tWave tT) ∧ InOrder (tTwo 4096 []) ∧
    Passes (grfOps { tTl with d := 0x78 }) (.tlsig { tTl with d := 0x78 }) (tC tWave tT) ∧
    Passes (grfOps { tTl with d := 0x78 }) (.tlset { tTl with d := 0x78 }) (tC tWave tT) ∧
    (∀ p ∈ allPaths tWave, p.wait = .ready) ∧ (tWaitsTl 4096).base.wait = .tlwait 5 4096 9 ∧ (tWaitsTl 4097).base.wait = .tlwait 5 4097 9 ∧
    (tWaitsTl 4096).stack = [] ∧ (tWaitsTl 4096).halted = false ∧ (tWaitsTl 4096).frozen = false ∧
    (getWg (tTwo 4096 []) (tWaitsTl 4096).wg).map (·.part) = some 0 ∧ (pairOf (tC tWave tT) tTl).toNat = 4096 := by
  refine ⟨?_, ?_, tPasses _ _ _ (by decide +kernel), tPasses _ _ _ (by decide +kernel), by decide, rfl, rfl, rfl, rfl, rfl, by decide,
    by decide⟩ <;> constructor <;> decide

theorem test_meets_TimelineReads : Passes (grfOps tTl) (.tlrd tTl) (tC tWave tT) ∧ Passes (grfOps tTl) (.tlwait tTl) (tC tWave tT) ∧
    (pairOf (tC tWave tT) tTl).toNat ≤ (tlGet { tPart with timelines := [(5, 4096)] } 5).toNat ∧
    (tlGet { tPart with timelines := [(5, 4095)] } 5).toNat < (pairOf (tC tWave tT) tTl).toNat :=
  ⟨tPasses _ _ _ (by decide +kernel), tPasses _ _ _ (by decide +kernel), by decide, by decide⟩

/-- Mailboxes with no, one and 64 messages. -/
def tBox (mb n : Nat) : Part := { tPart with mbox := [(mb, List.replicate n (List.replicate 64 7))] }
def tBlocked (wt : Wait) : Wave := { tWave with base := { tPath 8192 with wait := wt } }

theorem test_meets_Mail :
    Passes (grfOps { tFE 0x44 0x41 0x7F with lit := 15 }) (.mbrecv { tFE 0x44 0x41 0x7F with lit := 15 }) (tC tWave .pacer) ∧
    Passes (grfOps { tFE 0x78 0x41 0x7F with lit := 12 }) (.mbsend { tFE 0x78 0x41 0x7F with lit := 12 }) (tC tWave .pacer) ∧
    tabGet [] tPart.mbox 15 = [] ∧ tabGet [] (tBox 15 1).mbox 15 = [List.replicate 64 7] ∧
    (tabGet [] (tBox 12 64).mbox 12).length = 64 ∧ (tabGet [] (tBox 12 63).mbox 12).length < 64 ∧
    ctxAt (tS (tBlocked (.mbrecv 15 0 4)) .pacer) 0 false = some (tC (tBlocked (.mbrecv 15 0 4)) .pacer) ∧
    ctxAt (tS (tBlocked (.mbsend 12 0)) .pacer) 0 false = some (tC (tBlocked (.mbsend 12 0)) .pacer) ∧ Issues (tS tWave .pacer) (tC tWave .pacer) :=
  ⟨tPasses _ _ _ (by decide +kernel), tPasses _ _ _ (by decide +kernel), rfl, rfl, by decide, by decide, rfl, rfl, tPacerOk⟩

theorem test_meets_DebugWordsSent : Passes (grfOps (tFE 0x78 0x40 0x78)) (.dbgsend (tFE 0x78 0x40 0x78)) (tC tWave tT) ∧
    64 ≤ ({ tPart with dbg := List.replicate 64 0 } : Part).dbg.length ∧ tPart.dbg.length < 64 ∧
    ctxAt (tS (tBlocked (.dbgsend 7)) tT) 0 false = some (tC (tBlocked (.dbgsend 7)) tT) :=
  ⟨tPasses _ _ _ (by decide +kernel), by decide, by decide, rfl⟩

/-! Events. -/

/-- A spawn of one child that waits for room in the queue of core 0. -/
def tChild : Child :=
  { part := 0, g := 0, p := 0, k := 0, ent := tEnt, kbase := 0, kidx := 0, depth := 1, tilex := 0, tiley := 0, arg0 := 1, arg1 := 2 }
def tSpawning : Wave := { tBlocked .spawn with spawns := [{ depth := 0, pathB := false, pc := 8192, left := [(0, [tChild]), (1, [tChild])], byAddr := false }] }
def tQueued (n : Nat) : State := { tS tSpawning tT with cores := [(0, { Core.init with spawnq := List.replicate n tChild })] }

theorem test_meets_WaitingInstructionsEnd :
    ctxAt (tS (tBlocked (.sleep 10)) tT) 0 false = some (tC (tBlocked (.sleep 10)) tT) ∧ (tS tWave tT).dev.cycle < 10 ∧
    10 ≤ (tGather 10).dev.cycle ∧ ctxAt (tS (tBlocked (.icinv 4)) tT) 0 false = some (tC (tBlocked (.icinv 4)) tT) ∧
    coreInPart tPart 3 = true ∧ IcinvCovers 4 0 3 ∧ coreInPart tPart 4 = false ∧
    ctxAt (tQueued 64) 0 false = some (tC tSpawning tT) ∧ (tSpawning.spawns.find? (fun x => x.depth = 0)).isSome = true ∧
    (∀ e ∈ tSpawning.spawns, isSpawnOf (tC tSpawning tT) e = true ∧ e.left = [] ++ e.left ∧ e.left = e.left ++ [] ∧ (e.left.map (·.1)).Nodup) ∧
    (∀ d, d < 2 → (getCore (tQueued 63) d).spawnq.length + 1 ≤ 64) ∧ 64 < (getCore (tQueued 64) 0).spawnq.length + 1 ∧ (getCore (tQueued 64) 0).spawnq.length = 64 ∧
    (getCore (tQueued 63) 0).spawnq.length = 63 ∧
    (getCore { tS tWave tT with cores := [(0, { Core.init with icinv := [(0, 4)] })] } 0).icinv = (0, 4) :: [] ∧ coreInPart tPart 5 = false ∧
    ¬IcinvCovers 3 0 4 :=
  ⟨rfl, by decide, by decide, rfl, by decide, .inr (.inl ⟨rfl, by decide⟩), by decide, rfl, by decide, by decide, by decide, by decide,
   by decide, by decide, rfl, by decide, by rintro (⟨_, h⟩ | ⟨h, _⟩ | h) <;> exact absurd h (by decide)⟩

/-- At VA 0x2000 is a clause of IADD v3, v1, s0, then one whose header is 0, then one that waits for CPY = 0. -/
def tCode : Memory :=
  [(0x22000, 0x01), (0x22001, 0xFF), (0x22002, 0xFF), (0x22003, 0xA0), (0x22005, 0x83), (0x22007, 0x10),
   (0x22010, 0x01), (0x22011, 0xF0), (0x22012, 0xFF), (0x22013, 0xA0), (0x22015, 0x83), (0x22017, 0x10)]
def tAt (pc : Nat) (w : Wait) : Wave := { tWave with base := { tPath pc with wait := w } }
def tBusyAt (pc : Nat) (w : Wait) : Wave := { tBusy with base := { tPath pc with wait := w } }

/-- The answer of a fetch: the header and the word at which the clause fails. -/
def tFetch (pc : Nat) : Option (Word × Option Nat) :=
  match fetchClause (tM (tAt pc .ready) tT tCode) 0 0 pc with
  | .ok (h, ws) => some (h, clauseBad h ws)
  | .error _ => none

theorem test_meets_ClausesAreFetched : AtClause (tC (tAt 0x2000 .ready) tT) ∧ tFetch 0x2000 = some (0xA0FFFF01, none) ∧
    tFetch 0x2010 = some (0xA0FFF001, none) ∧ tFetch 0x2020 = some (0, some 0) ∧ tFetch 0x40000 = none ∧
    Issues (tM (tAt 0x2000 .ready) tT tCode) (tC (tAt 0x2000 .ready) tT) ∧ (tM tWave tT tCode).choice.oldCode = 0 ∧
    codePoison (tM tWave tT tCode) 0 0 0x2000 2 = none ∧ codePoison (tPoison 0x22000) 0 0 0x2000 2 = some (0, 0x2000) ∧
    waitsMet tWave (headCpy 0xA0FFF001) 15 15 15 = true ∧ waitsMet tBusy (headCpy 0xA0FFF001) 15 15 15 = false ∧
    Issues (tS (tBusyAt 0x2010 (.counters true 0 15 15 15)) tT) (tC (tBusyAt 0x2010 (.counters true 0 15 15 15)) tT) :=
  ⟨⟨rfl, rfl, rfl⟩, by decide +kernel, by decide +kernel, by decide +kernel, by decide +kernel, tIssuesM _ _ _ rfl rfl rfl rfl (by decide), rfl,
   by decide +kernel, by decide +kernel, by decide, by decide, tIssues _ _ rfl rfl rfl rfl (by decide)⟩

/-- Each pending event, outside and in trap mode. -/
def tPend : Pend := { code := 0x0A, cls := 5, tval := 0, fmask := 1, pathB := false }
def tDue (f : List Pend) (w st : Option Pend) (sv : Bool) : Wave := { tVecWave with faults := f, watch := w, step := st, save := sv }

theorem test_meets_PendingTrapsAreTaken :
    (∀ v ∈ [tDue [tPend] none none false, tDue [] (some tPend) none false, tDue [] none (some tPend) false, tDue [] none none true],
      wTrap v = false ∧ v.halted = false ∧ v.frozen = false ∧ atBoundary v = true ∧ liveMask v ≠ 0) ∧
    FirstPending (tDue [tPend] none none false) (pendTrap tPend) false ∧ FirstPending (tDue [] (some tPend) none false) (pendTrap tPend) false ∧
    FirstPending (tDue [] none (some tPend) false) (pendTrap tPend) false ∧ FirstPending (tDue [] none none true) (trapOf 0x15 6 0 0) false ∧
    vectorEntry (tM (tDue [tPend] none none false) tT tVec) 0 0 (tDue [tPend] none none false) 5 = some 0x3000 ∧
    vectorEntry (tM (tDue [] none none true) tT tVec) 0 0 (tDue [] none none true) 6 = some 0x3000 ∧ wTrap tTrap = true ∧
    getWave (tM (tDue [] none none true) tT tVec) 0 = some (tDue [] none none true) ∧ (getWg (tM tWave tT tVec) 0).isSome = true ∧
    countersZero (tDue [] none none true) = true ∧ countersZero { tDue [] none none true with cpy := 1 } = false ∧
    (tDue [] none none true).freezing = false :=
  ⟨by decide, .inl ⟨_, _, rfl, rfl, rfl⟩, .inr (.inl ⟨rfl, _, rfl, rfl, rfl⟩), .inr (.inr (.inl ⟨rfl, rfl, _, rfl, rfl, rfl⟩)),
   .inr (.inr (.inr ⟨rfl, rfl, rfl, rfl, rfl, rfl⟩)), by decide +kernel, by decide +kernel, by decide, rfl, by decide, by decide, by decide, rfl⟩

/-- A parked wave, in an open and in a closed collection, and another that still runs. -/
def tParked (n cycle : Nat) : State :=
  { tS (tPark n) tT with waves := [(0, tPark n), (1, tWave)], wgs := [(0, { tWg tT with slots := [0, 1] })], nextId := 9
                         dev := { Dev.init with stat := .ready, cycle := cycle } }

theorem test_meets_ThreadsAreReordered : getWave (tParked 0 255) 0 = some (tPark 0) ∧
    (openAt (tParked 0 255) 0 8192).map (·.1) = [0] ∧ (∀ e ∈ openAt (tParked 0 255) 0 8192, 255 < e.2.parkedAt + 256) ∧
    (∃ e ∈ openAt (tParked 0 256) 0 8192, e.2.parkedAt + 256 ≤ 256) ∧ InOrder (tParked 0 256) ∧ InOrder (tParked 8 0) ∧
    (collection (tParked 8 0) 0 8).map (·.1) = [0] ∧ (∀ e ∈ collection (tParked 8 0) 0 8, countersZero e.2 = true ∧ e.2.freezing = false ∧ e.2.threads.length = 2) ∧
    collection (tParked 8 0) 0 7 = [] ∧ (movers (tParked 8 0) (collection (tParked 8 0) 0 8)).length = 2 := by
  refine ⟨rfl, by decide +kernel, by decide +kernel, by decide +kernel, ?_, ?_, by decide +kernel, by decide +kernel, by decide +kernel,
    by decide +kernel⟩ <;> constructor <;> decide

/-- A machine with a child in the queue of core 1, and a graph whose task 0 can be placed. -/
def tKids : State :=
  { tG tWave tT (tGraph .writing .live true) with cores := [(1, { Core.init with spawnq := [tChild] })], nextId := 9 }

theorem test_meets_WorkgroupsArePlaced : (fits tKids 0 1 tEnt false).isSome = true ∧ (childFit tKids 1).isSome = true ∧
    childFit tKids 2 = none ∧ (getCore tKids 1).spawnq.head? = some tChild ∧
    pacerEvicted { tPart with evicted := [⟨0, tWg .pacer, []⟩] } = true ∧ (getPart (tG tWave tT tReady) 0).evicted = [] ∧ places (getPart (tG tWave tT tReady) 0) = true ∧
    places Part.init = false ∧
    ((choose (tG tWave tT tReady) 0 (candidates (tG tWave tT tReady) 0) true []).map (fun x => (x.1, x.2.1))) = some (0, 0) ∧
    nextTask tReady 0 = some 0 ∧ (tReady.image.passes[0]?) = some (tPass [0]) ∧ (tPass [0]).writes.Nodup := by
  refine ⟨?_, ?_, ?_, ?_, ?_, ?_, ?_, ?_, ?_, ?_, ?_, ?_⟩ <;> decide +kernel

/-- The task's workgroup has ended, or runs. -/
def tEnded : State := { tG tWave tT (tGraph .writing .live true) with waves := [], wgs := [] }

theorem test_meets_TasksRetire : getGraph tEnded 0 0 = some (tGraph .writing .live true) ∧
    mayRetire tEnded 0 0 0 0 (tGraph .writing .live true) = true ∧
    mayRetire (tG tWave tT (tGraph .writing .live true)) 0 0 0 0 (tGraph .writing .live true) = false ∧
    (tGraph .writing .live true).image.passes[0]? = some (tPass [0]) ∧ (tileOf (tGraph .writing .live true) 0 0).isSome = true ∧
    ((tReady.passes[0]?).map (·.queued)) = some (some 0) ∧ (getPart tEnded 0).state = .running ∧ (getPart tEnded 1).state = .free ∧
    retireTurn tEnded 0 0 0 0 = true ∧ (getPart tEnded 0).evicted = [] ∧ (getPart tEnded 0).budgetAt = tEnded.dev.time / us10 ∧
    (getPart tEnded 0).budgetAt ≠ us10 / us10 := by
  refine ⟨rfl, by decide +kernel, by decide +kernel, rfl, rfl, rfl, rfl, rfl, by decide +kernel, rfl, by decide +kernel, by decide +kernel⟩

/-- Two tasks whose workgroups have ended on core 0: the second may not retire before the first. -/
theorem test_meets_TasksRetire_turn :
    let tk (n : Nat) : Task := { newTask with st := .placed n, ended := some (0, n) }
    let gr : Graph := { tGraph .writing .live true with
      passes := [{ started := true, queued := none, level := 0, lastCore := none, tasks := [(0, tk 3)] },
                 { started := true, queued := none, level := 0, lastCore := none, tasks := [(0, tk 5)] }] }
    retireTurn { tG tWave tT gr with waves := [], wgs := [] } 0 0 1 0 = false ∧
    retireTurn { tG tWave tT gr with waves := [], wgs := [] } 0 0 0 0 = true ∧
    owed { tG tWave tT gr with waves := [], wgs := [] } 0 0 9 = [(0, 0, 0), (0, 1, 0)] ∧
    (let torn : Graph := { gr with phase := .teardown 1, tearAt := some (0, 4, false) }
     let s : State := { tG tWave tT torn with waves := [], wgs := [] }
     retireTurn s 0 0 0 0 = true ∧ retireTurn s 0 0 1 0 = false ∧ mayRetire s 0 0 0 0 torn = true ∧
     tearOwed (freezeGraph s 0 0) 0 torn = true ∧ allStill s (graphWave s 0 0) = true ∧ torn.tearAt ≠ none ∧
     (match exec (.taskRetire 0 0 0 0) s with
      | .next t => (getGraph t 0 0).map (fun x => (noFlight x, donePasses x, x.phase)) | _ => none) =
        some (false, 1, .teardown 1)) := by decide +kernel

/-- A graph in teardown, with its wave still running or none left; an event that waits, and a full mailbox 15. -/
def tTorn : Graph := { tGraph .writing (.teardown 1) true with faultMsg := [1] }

theorem test_meets_GraphsAreTornDown : getGraph (tG tWave tT tTorn) 0 0 = some tTorn ∧ InOrder (tG tWave tT tTorn) ∧
    allStill (tG tWave tT tTorn) (graphWave (tG tWave tT tTorn) 0 0) = false ∧
    (let s := tG { tWave with freezing := true, frozen := true } tT tTorn; allStill s (graphWave s 0 0) = true ∧ tearOwed (freezeGraph s 0 0) 0 tTorn = false) ∧
    tTorn.phase = .teardown 1 ∧ (tGraph .writing .live true).phase = .live ∧
    (64 ≤ (tabGet [] (tBox 15 64).mbox 15).length ∧ (tabGet [] (tBox 15 63).mbox 15).length < 64 ∧ tPart.events = [] ∧
      ({ tPart with events := [(.graph 0, [1])] } : Part).events = [(.graph 0, [1])]) := by
  refine ⟨rfl, ?_, by decide +kernel, by decide +kernel, rfl, rfl, by decide⟩
  constructor <;> decide

/-- A wave asked to freeze, one that is frozen, one mid-atomic, and the ERET of a save and of a restore handler. -/
def tFreeze (fr : Bool) (w : Wait) : Wave := { tBlocked w with freezing := true, frozen := fr }
def tHandler (restore busy : Bool) : Wave :=
  { (if busy then { tTrap with cpy := 1 } else tTrap) with
    saved := some { base := tPath 0x2000, stack := [], code := 0x15, pathB := false, restore := restore } }

theorem test_meets_WavesFreezeAndAreEvicted :
    (let s := tS (tFreeze false .ready) tT; getWave s 0 = some (tFreeze false .ready) ∧ (getWg s 0).isSome = true ∧
      atBoundary (tFreeze false .ready) = true ∧ liveMask (tFreeze false .ready) ≠ 0) ∧
    canFreeze (tFreeze false (.atom 0 0)) = false ∧ canFreeze (tFreeze false .ready) = true ∧
    (tS (tFreeze false .ready) tT).btiles = [] ∧ (getCore (tS (tFreeze true .ready) tT) 0).mwait = [] ∧
    (let s : State := { tS (tFreeze true .ready) tT with parts := [(0, { tPart with state := .preempting })] }
     tearing s 0 tT = false ∧ countersZero (tFreeze true .ready) = true ∧ allFrozen s 0 = true) ∧
    Issues (tS (tHandler false false) tT) (tC (tHandler false false) tT) ∧ Issues (tS (tHandler false true) tT) (tC (tHandler false true) tT) ∧
    Issues (tS (tHandler true false) tT) (tC (tHandler true false) tT) ∧ wTrap (tHandler true false) = true ∧
    countersZero (tHandler false true) = false ∧ countersZero (tHandler false false) = true ∧ (tHandler true false).dashSave = none ∧
    (let v : Wave := { tHandler true false with gth := 255, abandoned := [tEop 0 0x30 (tOnce 0) false] }
     Issues (tS v tT) (tC v tT) ∧ v.dashSave = none ∧ reissueStalls (tS v tT) (tC v tT) (tEop 0 0x30 (tOnce 0) false) = true) ∧
    (tHandler true false).abandoned = [] ∧ (tHandler false false).faults = [] ∧
    (let v : Wave := { tHandler true false with dashSave := some { Dash.init with loaded := true } }
     Issues (tS v tT) (tC v tT) ∧ v.dashSave = some { Dash.init with loaded := true } ∧ v.sq = [] ∧ Dash.init.replay = []) :=
  ⟨by decide, by decide, by decide, rfl, rfl, by decide, tIssues _ _ rfl rfl rfl rfl (by decide), tIssues _ _ rfl rfl rfl rfl (by decide),
   tIssues _ _ rfl rfl rfl rfl (by decide), by decide, by decide, by decide, rfl,
   ⟨tIssues _ _ rfl rfl rfl rfl (by decide), rfl, by decide⟩, rfl, rfl, tIssues _ _ rfl rfl rfl rfl (by decide), rfl, rfl, rfl⟩

/-- Partition 0 with a block that can be created; one that cannot; states in which each command acts. -/
def tBlock (st : PState) (n : DWord) : Part :=
  { Part.init with state := st, clmask := n, hwsh := 1, gdsh := 1, allot := 10, vf0 := 1, ptroot := 0x2000, ktabBlk := 0x9001 }
def tCmd (st : PState) (n : DWord) : State :=
  { State.reset with dev := { Dev.init with stat := .ready, linkUp := true }, parts := [(0, tBlock st n)], mem := tMem (tKernels 0x40) }
def tRunning (st : PState) : State := { tS tWave tT with parts := [(0, tBlock st 3)] }

theorem test_meets_PartitionCommands : Commanded (tCmd .free 3) 0 ∧ ¬Commanded { tCmd .free 3 with dev := Dev.init } 0 ∧
    createErr (tCmd .free 3) 0 = none ∧ createErr (tCmd .free 1) 0 = some 2 ∧ createErr (tCmd .running 3) 0 = some 1 ∧
    (∃ e, pacerEnt (tCmd .noPacer 3) 0 = some e ∧ (fits (tCmd .noPacer 3) 0 (pacerCore (getPart (tCmd .noPacer 3) 0)) e true).isSome = true) ∧
    pacerEnt { tCmd .noPacer 3 with mem := [] } 0 = none ∧
    (∃ u v, getWave (tRunning .running) u = some v ∧ v.halted = false ∧ partWave (tRunning .running) 0 v = true) ∧
    NoWave (tCmd .running 3) 0 ∧ NoWave (tCmd .evicted 3) 0 ∧ pacerOut (tCmd .evicted 3) 0 = false ∧
    pacerOut { tS { tWave with halted := true } .pacer with parts := [(0, tBlock .evicted 3)] } 0 = true := by
  refine ⟨⟨rfl, by decide, rfl, rfl⟩, fun h => absurd h.2.2.2 (by decide), by decide +kernel, by decide +kernel, by decide +kernel, ?_,
    by decide +kernel, ⟨0, tWave, rfl, rfl, rfl⟩, ?_, ?_, by decide +kernel, by decide +kernel⟩
  · have h : ((pacerEnt (tCmd .noPacer 3) 0).map (fun e => (fits (tCmd .noPacer 3) 0 (pacerCore (getPart (tCmd .noPacer 3) 0)) e true).isSome)) =
        some true := by decide +kernel
    obtain ⟨e, he, hf⟩ := Option.map_eq_some_iff.mp h
    exact ⟨e, he, hf⟩
  · intro e h; exact absurd h (by simp [tCmd, State.reset])
  · intro e h; exact absurd h (by simp [tCmd, State.reset])

/-- VF 0 is bound to partition 0; VF 1 to none. -/
theorem test_meets_HostPort : Reaches (tCmd .running 3) 0 0 ∧ partOfVf (tCmd .running 3) 1 = none ∧
    (0x10010 : Nat) = 0x10000 + 0x100 * 0 + 0x10 ∧ (0x10010 : Nat) % 8 = 0 ∧ (0x218 : Nat) < 0x220 ∧ (0x218 : Nat) % 8 = 0 ∧
    (getPart (tCmd .free 3) 0).state = .free ∧ (getPart (tCmd .free 3) 0).ending = .none ∧ (getPart (tCmd .running 3) 0).state ≠ .free ∧
    0x10008 % 8 = 0 ∧ 0x10050 % 8 = 0 ∧ 0x10048 % 8 = 0 ∧ (tCmd .free 3).dev.linkUp = true ∧
    (bar2Loc (tBlock .running 3) 5).isSome = true ∧ bar2Loc (tBlock .running 3) (2 ^ 30) = none ∧
    ({ tPart with tlbinv := true } : Part).tlbinv = true ∧ tPart.tlbinv = false ∧ (tCmd .running 3).dev.serr = [] ∧
    (tabGet [] (tBox 3 64).mbox 3).length = 64 ∧ (63 + [(0 : Byte)].length = 64) ∧ ({ tPart with dbg := [5] } : Part).dbg = 5 :: [] ∧
    ({ Dev.init with linkUp := false } : Dev).linkUp = false :=
  ⟨⟨rfl, by decide +kernel⟩, by decide +kernel, by decide, by decide, by decide, by decide, rfl, rfl, by decide, by decide, by decide,
   by decide, rfl, by decide, by decide, rfl, rfl, rfl, by decide, by decide, rfl, rfl⟩

/-- An image is valid or not: each side of the statement is met with the device in the state it asks for. -/
theorem test_meets_FirmwareAndAttestation :
    (Config.imageValid (tFw .recovery).window = true ∧ (tFw .recovery).linkUp = true ∧ (tFw .recovery).stat = .recovery) ∨
    (Config.imageValid (tFw .recovery).window = false ∧ (tFw .ready).linkUp = true ∧ (tFw .ready).stat = .ready ∧
      (tFw .ready).attBusy = false ∧ ({ tFw .ready with attBusy := true } : Dev).attBusy = true) := by
  cases h : Config.imageValid (tFw .recovery).window
  · exact .inr ⟨rfl, rfl, rfl, rfl, rfl⟩
  · exact .inl ⟨rfl, rfl, rfl⟩

/-- Soft errors: correctable ones, one that is not, and none. -/
def tErrs : State := { tS tWave tT with dev := { Dev.init with serr := [⟨0, 100, true, storeView⟩, ⟨0, 101, false, storeView⟩, ⟨1, 100, true, storeView⟩] } }

theorem test_meets_ErrorLog : Dev.init.errgd ≤ 4294967295 ∧ Dev.init.errhw ≤ 4294967295 ∧
    (tErrs.dev.serr.find? (fun e => e.strct = 0 && e.loc / 8 = 100 / 8 && !e.single)).isSome = true ∧
    (∀ e ∈ tErrs.dev.serr, (e.strct = 1 && e.loc / 128 = 100 / 128) = true → e.single = true) ∧ getWave tErrs 0 = some tWave ∧
    (1 : Nat) < tWave.threads.length ∧ InOrder tErrs ∧ struckBlocks tViews 1 100 = [(256, 12)] ∧
    (storeView, 100 / 8) ∉ struckBlocks tViews 1 100 ∧ (0, 100 / 8) ∉ struckBlocks tViews 1 100 := by
  refine ⟨?_, ?_, ?_, ?_, ?_, ?_, ?_, ?_, ?_, ?_⟩
  all_goals first | decide | (constructor <;> decide)

theorem test_meets_LinkClocksAndReset : ({ Dev.init with stat := .fatal } : Dev).stat = .fatal ∧ Dev.init.stat ≠ .fatal ∧
    (tFw .ready).linkUp = true ∧ InOrder (tG tWave tT { tGraph .writing .live true with host := true }) ∧
    getGraph (tG tWave tT { tGraph .writing .live true with host := true }) 0 0 = some { tGraph .writing .live true with host := true } ∧
    (tGraph .writing .live true).host = false ∧ (tS tWave tT).btiles = [] ∧ NothingQueued (tS tWave tT) ∧
    ({ tFw .ready with linkUp := false } : Dev).linkUp = false := by
  refine ⟨rfl, by decide, rfl, ?_, rfl, rfl, rfl, tNothing, rfl⟩
  constructor <;> decide

end Sys2Proof.Machine
end

section
/-! PROOF of O3 (StepKeepsTablesInOrder). For every function f of the model that answers a state there is one lemma InOrder.f: from
a state whose tables are in order, f leaves one whose tables are in order. A function's lemma is composed of those of the functions
it calls, so that most proofs read as the composition of the definition itself; the work is in the updates of State (a key put in
its place, a change of entries that leaves the keys alone, a new Baton tile under the next number) and in placing a workgroup,
whose slots are drawn from free ones that differ. -/

namespace Sys2Proof.Machine

section

variable {s t : State}

/-! Tables whose keys rise. -/

theorem tabRising_sublist {α : Type} {t u : Tab α} (hu : u.Sublist t) (h : tabRising none t = true) : tabRising none u = true :=
  (tabRising_none u).2 (rising_sublist hu ((tabRising_none t).1 h))

theorem tabRising_tabPut {α : Type} {t : Tab α} (h : tabRising none t = true) (k : Nat) (v : α) :
    tabRising none (tabPut t k v) = true :=
  (tabRising_none _).2 (rising_tabPut t k v ((tabRising_none t).1 h))

theorem tabRising_tabDel {α : Type} {t : Tab α} (h : tabRising none t = true) (k : Nat) : tabRising none (tabDel t k) = true :=
  tabRising_sublist (tabDel_sublist t k) h

theorem tabRising_tabSet {α : Type} [DecidableEq α] {t : Tab α} (h : tabRising none t = true) (d : α) (k : Nat) (v : α) :
    tabRising none (tabSet d t k v) = true := by
  unfold tabSet
  split
  · exact tabRising_tabDel h k
  · exact tabRising_tabPut h k v

theorem tabRising_tabMod {α : Type} {t : Tab α} (h : tabRising none t = true) (k : Nat) (f : α → α) :
    tabRising none (tabMod t k f) = true := by
  unfold tabMod
  split
  · exact tabRising_tabPut h k _
  · exact h

/-- A change of entries that leaves every key alone. -/
theorem tabRising_map {α β : Type} {t : Tab α} {f : Nat × α → Nat × β} (h : tabRising none t = true) (hf : ∀ e, (f e).1 = e.1) :
    tabRising none (t.map f) = true := by
  have hk : (t.map f).map (·.1) = t.map (·.1) := by simp [List.map_map, Function.comp_def, hf]
  rw [tabRising_none, Rising, hk]
  exact (tabRising_none t).1 h

/-- A change of entries that drops some and leaves the keys of the others alone. -/
theorem tabRising_filterMap {α β : Type} {t : Tab α} {f : Nat × α → Option (Nat × β)} (h : tabRising none t = true)
    (hf : ∀ e e', f e = some e' → e'.1 = e.1) : tabRising none (t.filterMap f) = true := by
  rw [tabRising_none, Rising, List.pairwise_map, List.pairwise_filterMap]
  refine (List.pairwise_map.1 ((tabRising_none t).1 h)).imp fun {a b} hab a' ha b' hb => ?_
  rw [hf a a' ha, hf b b' hb]
  exact hab

theorem mem_tabSet {α : Type} [DecidableEq α] {d : α} {t : Tab α} {k : Nat} {v : α} {e : Nat × α} (he : e ∈ tabSet d t k v) :
    e = (k, v) ∨ e ∈ t := by
  unfold tabSet at he
  split at he
  · exact .inr ((tabDel_sublist t k).subset he)
  · exact mem_tabPut t k v e he

theorem mem_of_tabGet? {α : Type} {t : Tab α} {k : Nat} {v : α} (h : tabGet? t k = some v) : (k, v) ∈ t := by
  induction t with
  | nil => simp [tabGet?] at h
  | cons e t ih =>
    simp only [tabGet?] at h
    split at h
    · next hk => subst hk; cases h; exact List.mem_cons_self
    · exact List.mem_cons_of_mem _ (ih h)

/-- What a change of one entry leaves in a table: the changed entry of one that was listed, or an entry from before. -/
theorem mem_tabMod {α : Type} {t : Tab α} {k : Nat} {f : α → α} {e : Nat × α} (he : e ∈ tabMod t k f) :
    (∃ v, (k, v) ∈ t ∧ e = (k, f v)) ∨ e ∈ t := by
  unfold tabMod at he
  split at he
  · next v hv => exact (mem_tabPut t k _ e he).imp_left fun h => ⟨v, mem_of_tabGet? hv, h⟩
  · exact .inr he

/-! The updates of State. -/

protected theorem InOrder.setWave (h : InOrder s) {w : Nat} {v : Wave} : InOrder (setWave s w v) :=
  { h with waves := tabRising_tabPut h.waves w v }

protected theorem InOrder.updWave (h : InOrder s) {w : Nat} {f : Wave → Wave} : InOrder (updWave s w f) :=
  { h with waves := tabRising_tabMod h.waves w f }

/-- A change of waves where they stand. -/
protected theorem InOrder.mapWaves (h : InOrder s) {f : Nat × Wave → Nat × Wave} (hf : ∀ e, (f e).1 = e.1 := by exact fun _ => rfl) :
    InOrder { s with waves := s.waves.map f } :=
  { h with waves := tabRising_map h.waves hf }

protected theorem InOrder.delWave (h : InOrder s) {w : Nat} : InOrder { s with waves := tabDel s.waves w } :=
  { h with waves := tabRising_tabDel h.waves w }

protected theorem InOrder.setCore (h : InOrder s) {k : Nat} {x : Core} : InOrder (setCore s k x) :=
  { h with cores := tabRising_tabSet h.cores Core.init k x }

protected theorem InOrder.setDash (h : InOrder s) {k : Nat} {x : Dash} : InOrder (setDash s k x) := { h with }

protected theorem InOrder.putDev (h : InOrder s) {f : Dev → Dev} : InOrder (putDev s f) := { h with }

protected theorem InOrder.msix (h : InOrder s) {fn vec : Nat} : InOrder (msix s fn vec) := { h with }

/-- A workgroup whose slots stand once each is listed. -/
protected theorem InOrder.putWg (h : InOrder s) {id : Nat} {g : Wg} (hg : g.slots.Nodup) :
    InOrder { s with wgs := tabPut s.wgs id g } :=
  { h with
    groups := tabRising_tabPut h.groups id g
    slots := fun e he => (mem_tabPut s.wgs id g e he).elim (fun e_eq => e_eq ▸ hg) (h.slots e) }

protected theorem InOrder.delWg (h : InOrder s) {id : Nat} : InOrder { s with wgs := tabDel s.wgs id } :=
  { h with
    groups := tabRising_tabDel h.groups id
    slots := fun e he => h.slots e ((tabDel_sublist s.wgs id).subset he) }

protected theorem InOrder.updWg (h : InOrder s) {id : Nat} {f : Wg → Wg} (hf : ∀ g, g.slots.Nodup → (f g).slots.Nodup) :
    InOrder (updWg s id f) :=
  { h with
    groups := tabRising_tabMod h.groups id f
    slots := fun e he => by
      obtain ⟨g, hg, rfl⟩ | he := mem_tabMod he
      · exact hf g (h.slots _ hg)
      · exact h.slots e he }

/-- A workgroup changes, but not its slots. -/
protected theorem InOrder.updWgSame (h : InOrder s) {id : Nat} {f : Wg → Wg}
    (hf : ∀ g, (f g).slots = g.slots := by exact fun _ => rfl) : InOrder (updWg s id f) :=
  h.updWg fun g hg => (hf g).symm ▸ hg

theorem slots_nodup_of_getWg (h : InOrder s) {id : Nat} {g : Wg} (hg : getWg s id = some g) : g.slots.Nodup :=
  h.slots _ (mem_of_tabGet? hg)

theorem graphs_rising_of_getPart (h : InOrder s) (n : Nat) : tabRising none (getPart s n).graphs = true := by
  unfold getPart tabGet
  cases hp : tabGet? s.parts n with
  | none => rfl
  | some p => exact h.graphs _ (mem_of_tabGet? hp)

/-- A partition whose graph slots rise takes its place. -/
protected theorem InOrder.setPart (h : InOrder s) {n : Nat} {p : Part} (hp : tabRising none p.graphs = true) :
    InOrder (setPart s n p) :=
  { h with
    parts := tabRising_tabSet h.parts Part.init n p
    graphs := fun e he => (mem_tabSet he).elim (fun e_eq => e_eq ▸ hp) (h.graphs e) }

/-- A partition with the graphs of the one before takes its place. -/
protected theorem InOrder.setPartSame (h : InOrder s) {n : Nat} {p : Part} (hp : p.graphs = (getPart s n).graphs := by rfl) :
    InOrder (setPart s n p) :=
  h.setPart (hp ▸ graphs_rising_of_getPart h n)

/-- A partition changes, and its graph slots rise as before. -/
protected theorem InOrder.updPartGraphs (h : InOrder s) {n : Nat} {f : Part → Part}
    (hf : ∀ p, tabRising none p.graphs = true → tabRising none (f p).graphs = true) : InOrder (updPart s n f) :=
  h.setPart (hf _ (graphs_rising_of_getPart h n))

/-- A partition changes, but not its graphs. -/
protected theorem InOrder.updPart (h : InOrder s) {n : Nat} {f : Part → Part}
    (hf : ∀ p, (f p).graphs = p.graphs := by exact fun _ => rfl) : InOrder (updPart s n f) :=
  h.updPartGraphs fun p hp => (hf p).symm ▸ hp

protected theorem InOrder.updGraph (h : InOrder s) {n g : Nat} {f : Graph → Graph} : InOrder (updGraph s n g f) :=
  h.updPartGraphs fun _ hp => tabRising_tabMod hp g f

protected theorem InOrder.updTask (h : InOrder s) {n g p k : Nat} {f : Task → Task} : InOrder (updTask s n g p k f) :=
  h.updGraph

/-- Partitions change where they stand, and their graph slots rise as before. -/
protected theorem InOrder.mapParts (h : InOrder s) {f : Nat × Part → Nat × Part} (hk : ∀ e, (f e).1 = e.1 := by exact fun _ => rfl)
    (hg : ∀ e, tabRising none e.2.graphs = true → tabRising none (f e).2.graphs = true := by exact fun _ hg => hg) :
    InOrder { s with parts := s.parts.map f } :=
  { h with
    parts := tabRising_map h.parts hk
    graphs := fun e he => by
      obtain ⟨p, hp, rfl⟩ := List.mem_map.1 he
      exact hg p (h.graphs p hp) }

/-- A number not less than the next one takes its place. -/
protected theorem InOrder.nextId (h : InOrder s) {n : Nat} (hn : s.nextId ≤ n) : InOrder { s with nextId := n } :=
  { h with tiles := ⟨h.tiles.1, fun b hb => Nat.lt_of_lt_of_le (h.tiles.2 b hb) hn⟩ }

/-- Baton's tiles change, but not their numbers. -/
protected theorem InOrder.mapTiles (h : InOrder s) {f : BTile → BTile} (hf : ∀ b ∈ s.btiles, (f b).id = b.id) :
    InOrder { s with btiles := s.btiles.map f } :=
  { h with
    tiles := by
      have hk : (s.btiles.map f).map (·.id) = s.btiles.map (·.id) := by
        rw [List.map_map]; exact List.map_congr_left hf
      refine ⟨hk ▸ h.tiles.1, fun b hb => ?_⟩
      obtain ⟨x, hx, rfl⟩ := List.mem_map.1 hb
      exact (hf x hx).symm ▸ h.tiles.2 x hx }

protected theorem InOrder.filterTiles (h : InOrder s) {p : BTile → Bool} : InOrder { s with btiles := s.btiles.filter p } :=
  { h with
    tiles := ⟨List.Pairwise.sublist (List.filter_sublist.map _) h.tiles.1, fun b hb => h.tiles.2 b (List.mem_filter.1 hb).1⟩ }

/-- A tile of the next number enters last. -/
protected theorem InOrder.addTile (h : InOrder s) {b : BTile} (hb : b.id = s.nextId) :
    InOrder { s with nextId := s.nextId + 1, btiles := s.btiles ++ [b] } :=
  { h with
    tiles := by
      refine ⟨?_, fun x hx => ?_⟩
      · rw [List.map_append, List.pairwise_append]
        refine ⟨h.tiles.1, List.pairwise_singleton _ _, fun i hi j hj => ?_⟩
        obtain ⟨x, hx, rfl⟩ := List.mem_map.1 hi
        obtain rfl : j = s.nextId := by simpa [hb] using hj
        exact h.tiles.2 x hx
      · rcases List.mem_append.1 hx with hx | hx
        · exact Nat.lt_succ_of_lt (h.tiles.2 x hx)
        · obtain rfl : x = b := by simpa using hx
          exact hb ▸ Nat.lt_succ_self _ }

/-! Folds, choices and answers. -/

/-- A fold of steps that each keep the tables in order. -/
protected theorem InOrder.foldl {α : Type} {f : State → α → State} (h : InOrder s)
    (hf : ∀ {s : State} {x : α}, InOrder s → InOrder (f s x)) {l : List α} : InOrder (l.foldl f s) :=
  List.foldlRecOn l f h fun _ h _ _ => hf h

protected theorem InOrder.ite {c : Prop} [Decidable c] (hs : InOrder s) (ht : InOrder t) : InOrder (if c then s else t) := by
  split
  · exact hs
  · exact ht

/-- A next state that an answer holds has its tables in order. -/
def NextInOrder : Answer → Prop
  | .next t => InOrder t
  | _ => True

/-- A state that a check lets through has its tables in order. -/
def OkInOrder : Except Trap State → Prop
  | .ok t => InOrder t
  | .error _ => True

/-- A state that is there has its tables in order. -/
def SomeInOrder : Option State → Prop
  | some t => InOrder t
  | none => True

theorem NextInOrder.of_eq {a : Answer} (h : NextInOrder a) (ha : a = .next t) : InOrder t := by
  subst ha; exact h

theorem SomeInOrder.of_eq {o : Option State} (h : SomeInOrder o) (ho : o = some t) : InOrder t := by
  subst ho; exact h

theorem SomeInOrder.getD {o : Option State} (h : SomeInOrder o) (hs : InOrder s) : InOrder (o.getD s) := by
  cases o with
  | none => exact hs
  | some t => exact h

theorem someInOrder_firstSome {α : Type} {f : α → Option State} (hf : ∀ x, SomeInOrder (f x)) (l : List α) :
    SomeInOrder (firstSome f l) := by
  induction l with
  | nil => trivial
  | cons x t ih =>
    unfold firstSome
    split
    · next y hy => exact (hf x).of_eq hy
    · exact ih

protected theorem InOrder.orSame (h : InOrder s) {a : Answer} (ha : NextInOrder a) : InOrder (orSame s a) := by
  unfold orSame
  split
  · exact ha
  · exact h

/-! The fields that InOrder does not name. -/

protected theorem InOrder.setDev (h : InOrder s) {d : Dev} : InOrder { s with dev := d } := { h with }

protected theorem InOrder.setFresh (h : InOrder s) {n : Nat} : InOrder { s with fresh := n } := { h with }

protected theorem InOrder.setSeq (h : InOrder s) {n : Nat} : InOrder { s with seq := n } := { h with }

protected theorem InOrder.setChoice (h : InOrder s) {c : Choice} : InOrder { s with choice := c } := { h with }

protected theorem InOrder.setOps (h : InOrder s) {l : List EngOp} : InOrder { s with ops := l } := { h with }

protected theorem InOrder.setBres (h : InOrder s) {l : List BRes} : InOrder { s with bres := l } := { h with }

protected theorem InOrder.atPath (h : InOrder s) {w : Nat} {pb : Bool} : InOrder (atPath s w pb) := { h with }

/-! The device, the error log and the TLBs: no table of InOrder is written. -/

protected theorem InOrder.setStatus (h : InOrder s) {x : DevState} : InOrder (setStatus s x) := h.putDev.msix

protected theorem InOrder.bootRom (h : InOrder s) : InOrder (bootRom s) := by
  unfold bootRom
  exact .ite (.ite h.putDev.setStatus h.setStatus) h

protected theorem InOrder.passCycles (h : InOrder s) {n : Nat} : InOrder (passCycles s n) := { h with }

protected theorem InOrder.toHost (h : InOrder s) {l : List Byte} : InOrder (toHost s l) := h.putDev

protected theorem InOrder.putErrue (h : InOrder s) {x : DWord} : InOrder (putErrue s x) := { h with }

protected theorem InOrder.noteEcc (h : InOrder s) {t : Trap} : InOrder (noteEcc s t) := .ite h.putErrue h

protected theorem InOrder.msixVfs (h : InOrder s) {n vec : Nat} : InOrder (msixVfs s n vec) := h.foldl fun h => h.msix

protected theorem InOrder.moveErr (h : InOrder s) {view : Nat} {locs : List Nat} : InOrder (moveErr s view locs) :=
  .ite h { h with }

protected theorem InOrder.pruneErr (h : InOrder s) : InOrder (pruneErr s) := .ite h { h with }

protected theorem InOrder.healBytes (h : InOrder s) {core level : Nat} {locs : List Nat} :
    InOrder (healBytes s core level locs) :=
  .ite h { h with }

protected theorem InOrder.healRange (h : InOrder s) {lo hi : Nat} : InOrder (healRange s lo hi) := { h with }

protected theorem InOrder.countFix (h : InOrder s) {strct : Nat} : InOrder (countFix s strct) := { h with }

protected theorem InOrder.fixErrs (h : InOrder s) {hit : SErr → Bool} : InOrder (fixErrs s hit) :=
  InOrder.foldl h.setDev fun h => h.countFix

protected theorem InOrder.fixBytes (h : InOrder s) {sq : List SqEntry} {core level : Nat} {locs : List Nat} :
    InOrder (fixBytes s sq core level locs) := h.fixErrs

protected theorem InOrder.fixRange (h : InOrder s) {core level loc n : Nat} : InOrder (fixRange s core level loc n) := h.fixErrs

protected theorem InOrder.fixTable (h : InOrder s) {part core va n : Nat} : InOrder (fixTable s part core va n) :=
  .ite h h.fixBytes

protected theorem InOrder.fixCode (h : InOrder s) {part core base n : Nat} : InOrder (fixCode s part core base n) :=
  .ite h h.fixBytes

protected theorem InOrder.fixReplay (h : InOrder s) {core : Nat} {g : Wg} {d : Dash} : InOrder (fixReplay s core g d) :=
  h.foldl fun h => h.fixRange

protected theorem InOrder.tlbAdd (h : InOrder s) {u k : Nat} {e : DWord} : InOrder (tlbAdd s u k e) := by
  simp only [tlbAdd]
  split
  · exact h
  · exact { h with }

protected theorem InOrder.tlbFill (h : InOrder s) {part core va : Nat} : InOrder (tlbFill s part core va) :=
  .ite h.tlbAdd.tlbAdd h

protected theorem InOrder.dropTlbs (h : InOrder s) {n : Nat} : InOrder (dropTlbs s n) := { h with }

/-! The views and the memory. -/

/-- Views whose numbers rise take the place of the others. -/
protected theorem InOrder.setViews (h : InOrder s) {v : Tab (Tab VCell)} (hv : tabRising none v = true) :
    InOrder { s with views := v } :=
  { h with views := hv }

protected theorem InOrder.memBits (h : InOrder s) {loc : Nat} {m v : Byte} : InOrder (memBits s loc m v) := .ite h { h with }

protected theorem InOrder.memBytes (h : InOrder s) {loc : Nat} {bs : List Byte} : InOrder (memBytes s loc bs) :=
  h.foldl fun h => h.memBits

protected theorem InOrder.putCell (h : InOrder s) {view loc : Nat} {c : VCell} : InOrder (putCell s view loc c) :=
  { h with views := tabRising_tabSet h.views _ _ _ }

/-- The entries of the store queues move, and nothing else of the waves and of the ended queues. -/
protected theorem InOrder.moveAllToks (h : InOrder s) {view : Nat} {locs : List Nat} : InOrder (moveAllToks s view locs) :=
  { h with waves := tabRising_map h.waves fun _ => rfl, ended := tabRising_map h.ended fun _ => rfl }

protected theorem InOrder.liftAllToks (h : InOrder s) {core level loc : Nat} : InOrder (liftAllToks s core level loc) :=
  { h with waves := tabRising_map h.waves fun _ => rfl, ended := tabRising_map h.ended fun _ => rfl }

protected theorem InOrder.propByte (h : InOrder s) {view loc : Nat} : InOrder (propByte s view loc) := by
  unfold propByte
  refine .ite h ?_
  split
  · exact h.putCell.memBits
  · exact h.putCell.putCell

protected theorem InOrder.propLocs (h : InOrder s) {view : Nat} {locs : List Nat} : InOrder (propLocs s view locs) :=
  (h.moveErr.foldl fun h => h.propByte).moveAllToks

protected theorem InOrder.propBlock (h : InOrder s) {view blk : Nat} : InOrder (propBlock s view blk) := h.propLocs

protected theorem InOrder.propView (h : InOrder s) {view : Nat} : InOrder (propView s view) := h.propLocs

protected theorem InOrder.propPath (h : InOrder s) {core level : Nat} : InOrder (propPath s core level) :=
  h.foldl fun h => h.propView

protected theorem InOrder.propRanges (h : InOrder s) {l : List (Nat × Nat)} {core : Nat} : InOrder (propRanges l s core) :=
  h.foldl fun h => h.foldl fun h => h.propBlock

protected theorem InOrder.pushByte (h : InOrder s) {core level loc : Nat} : InOrder (pushByte s core level loc) :=
  .ite h (h.foldl fun h => h.propLocs)

protected theorem InOrder.pushBlocks (h : InOrder s) {core level : Nat} {locs : List Nat} :
    InOrder (pushBlocks s core level locs) :=
  h.foldl fun h => h.foldl fun h => h.propBlock

protected theorem InOrder.carryToks (h : InOrder s) {toks : State → List (Nat × Nat)} : InOrder (carryToks toks s) :=
  h.foldl fun h => h.foldl fun h => h.propBlock

protected theorem InOrder.dropLocs (h : InOrder s) {view : Nat} {locs : List Nat} : InOrder (dropLocs s view locs) :=
  (h.foldl fun h => .ite h h.putCell).pruneErr

protected theorem InOrder.dropBlock (h : InOrder s) {view blk : Nat} : InOrder (dropBlock s view blk) := h.dropLocs

protected theorem InOrder.acquire (h : InOrder s) {core level : Nat} : InOrder (acquire s core level) :=
  (h.foldl fun h => h.setViews (tabRising_tabSet h.views _ _ _)).pruneErr

protected theorem InOrder.acquireScope (h : InOrder s) {core scope : Nat} : InOrder (acquireScope s core scope) := h.acquire

protected theorem InOrder.fillBits {loc : Nat} {val : Byte} {levels : BitVec 4} {l : List Nat} {need : Byte} (h : InOrder s) :
    InOrder (fillBits s loc val levels l need) := by
  induction l generalizing s need with
  | nil => exact h
  | cons v t ih => exact ih (.ite h.putCell h)

protected theorem InOrder.fillByte (h : InOrder s) {sq : List SqEntry} {core loc : Nat} : InOrder (fillByte s sq core loc) :=
  .ite h h.fillBits

protected theorem InOrder.fillRead (h : InOrder s) {sq : List SqEntry} {core : Nat} {locs : List Nat} :
    InOrder (fillRead s sq core locs) :=
  .ite h (h.foldl fun h => h.fillByte)

protected theorem InOrder.lowWrite (h : InOrder s) {core loc : Nat} {m v : Byte} : InOrder (lowWrite s core loc m v) :=
  .ite h.memBits h.putCell

protected theorem InOrder.highWrite (h : InOrder s) {core level loc : Nat} {m v : Byte} :
    InOrder (highWrite s core level loc m v) :=
  .ite h.memBits (InOrder.liftAllToks (.foldl (.ite h.memBits h.putCell) fun h => h.putCell))

protected theorem InOrder.highBytes (h : InOrder s) {core level loc : Nat} {bs : List Byte} :
    InOrder (highBytes s core level loc bs) :=
  h.foldl fun h => h.highWrite

protected theorem InOrder.lowCopies (h : InOrder s) {core level loc : Nat} {bs : List Byte} :
    InOrder (lowCopies s core level loc bs) :=
  .ite h (h.foldl fun h => h.foldl fun h => h.putCell)

protected theorem InOrder.engWrite (h : InOrder s) {core level loc : Nat} {m v : Byte} :
    InOrder (engWrite s core level loc m v) :=
  .ite h h.highWrite

/-- Copies of a range are dropped, and the views that hold none are not listed. -/
protected theorem InOrder.clearViews (h : InOrder s) {lo hi : Nat} : InOrder (clearViews s lo hi) :=
  { h with
    views := tabRising_filterMap h.views fun e e' he => by
      dsimp only at he
      split at he <;> cases he
      rfl }

protected theorem InOrder.zeroRange (h : InOrder s) {lo hi : Nat} : InOrder (zeroRange s lo hi) :=
  have h1 : InOrder (healRange (clearViews s lo hi) lo hi) := h.clearViews.healRange
  { h1 with }

protected theorem InOrder.zeroScratch (h : InOrder s) {core scr n : Nat} : InOrder (zeroScratch s core scr n) := h.zeroRange

protected theorem InOrder.zeroPads (h : InOrder s) {p : Part} : InOrder (zeroPads s p) := h.foldl fun h => h.zeroRange

protected theorem InOrder.zeroShares (h : InOrder s) {p : Part} : InOrder (zeroShares s p) := h.foldl fun h => h.zeroRange

protected theorem InOrder.hostWriteByte (h : InOrder s) {loc : Nat} {v : Byte} : InOrder (hostWriteByte s loc v) := by
  refine InOrder.pruneErr (h.memBits.setViews (tabRising_filterMap h.memBits.views fun e e' he => ?_))
  split at he
  · cases he; rfl
  · simp only [Option.ite_none_left_eq_some, Option.some.injEq] at he
    exact he.2 ▸ rfl

protected theorem InOrder.strikeByte (h : InOrder s) {view loc : Nat} : InOrder (strikeByte view s loc) :=
  .ite { h with } h.setFresh.putCell

protected theorem InOrder.strike (h : InOrder s) {strct loc : Nat} : InOrder (strike s strct loc) :=
  InOrder.setDev (h.foldl fun h => h.foldl fun h => h.strikeByte)

/-! Cores, tables read by a wave, and the ends of waves and workgroups (R19, R103, R149). -/

protected theorem InOrder.perfAdd (h : InOrder s) {core ev n : Nat} : InOrder (perfAdd s core ev n) := h.setCore

protected theorem InOrder.noteExpand (h : InOrder s) {w d n : Nat} : InOrder (noteExpand s w d n) := by
  unfold noteExpand
  split
  · exact h.perfAdd
  · exact h

protected theorem InOrder.markTable (h : InOrder s) {g : Wg} {core va n : Nat} : InOrder (markTable s g core va n) := by
  simp only [markTable]
  split
  · exact .ite h.tlbFill.tlbFill.fixTable.updGraph h.tlbFill.tlbFill.fixTable
  · exact h.tlbFill.tlbFill.fixTable

protected theorem InOrder.markHost (h : InOrder s) {g : Wg} {locs : List Nat} : InOrder (markHost s g locs) := by
  unfold markHost
  split
  · exact .ite h.updGraph h
  · exact h

protected theorem InOrder.markVector (h : InOrder s) {w : Nat} {v : Wave} {g : Wg} {cls : Nat} :
    InOrder (markVector s w v g cls) := by
  simp only [markVector]
  split
  · exact h
  · split
    · exact h.putErrue.markTable
    · exact h.markTable

protected theorem InOrder.pendFault (h : InOrder s) {w : Nat} {t : Trap} : InOrder (pendFault s w t) := h.updWave

protected theorem InOrder.pendEng (h : InOrder s) {w : Nat} {t : Trap} {handler : Bool} : InOrder (pendEng s w t handler) :=
  h.updWave

protected theorem InOrder.hold (h : InOrder s) {c : Ctx} {wt : Wait} : InOrder (hold s c wt) := h.updWave

protected theorem InOrder.finish (h : InOrder s) {c : Ctx} {n : Nat} : InOrder (finish s c n) := h.updWave

protected theorem InOrder.completeWith (h : InOrder s) {c : Ctx} {d : Nat} {x : Word} {n : Nat} :
    InOrder (completeWith s c d x n) := h.updWave

protected theorem InOrder.evictCheck (h : InOrder s) {n : Nat} : InOrder (evictCheck s n) :=
  .ite h.setPartSame.msix h

protected theorem InOrder.pacerEnded (h : InOrder s) {n : Nat} : InOrder (pacerEnded s n) :=
  .ite h.setPartSame.msix h.setPartSame

/-- Only the depositors' names change, in the waves and in the evicted ones. -/
protected theorem InOrder.renameDepositor (h : InOrder s) {a b : Nat} : InOrder (renameDepositor s a b) :=
  h.mapWaves.mapParts

protected theorem InOrder.saveDash (h : InOrder s) {id : Nat} {g : Wg} : InOrder (saveDash s id g) :=
  .ite (InOrder.updPart (.ite h.setDash h)) (.ite h.setDash h)

theorem saveDash_nextId (s : State) (id : Nat) (g : Wg) : (saveDash s id g).nextId = s.nextId := by
  simp only [saveDash]
  split <;> split <;> rfl

protected theorem InOrder.noteCore (h : InOrder s) {n core : Nat} {k : WgKind} : InOrder (noteCore s n core k) := by
  unfold noteCore
  split
  · exact h
  · exact h.updTask

/-- A workgroup ends: it leaves its table, and the end of a task's workgroup takes a number of its own. -/
protected theorem InOrder.endWg (h : InOrder s) {id : Nat} {g : Wg} : InOrder (endWg s id g) := by
  unfold endWg
  extract_lets cl s1 s2
  have h1 : InOrder s1 := .ite h.saveDash (.ite h.setDash h)
  have hn : s1.nextId = s.nextId := by
    simp only [s1]
    split
    · exact saveDash_nextId s id g
    · split <;> rfl
  split
  · exact h1.delWg.pacerEnded
  · exact h1.delWg.updTask.nextId (Nat.le_succ_of_le (Nat.le_of_eq hn))

/-- A wave leaves its slot; its queue stays as an ended one, and its workgroup names the slot no more. -/
protected theorem InOrder.endWave (h : InOrder s) {w : Nat} {v : Wave} : InOrder (endWave s w v) := by
  unfold endWave
  split
  · exact h.delWave
  · next g hg =>
    extract_lets s1 s2 c s3 slots s4
    have h1 : InOrder s1 := .ite h { h with ended := tabRising_tabPut h.ended _ _ }
    have h3 : InOrder s3 := h1.delWave.renameDepositor.setCore
    have h4 : InOrder s4 := h3.updWg fun _ _ => (slots_nodup_of_getWg h hg).filter _
    exact .ite h4.endWg h4

protected theorem InOrder.endIfDone (h : InOrder s) {w : Nat} : InOrder (endIfDone s w) := by
  unfold endIfDone
  split
  · exact h
  · split
    · split
      · exact h.endWave.evictCheck
      · exact h.endWave
    · exact h

/-- Marking the waves of a collection leaves the next number alone. -/
theorem foldl_markSet_nextId (l : List (Nat × Wave)) (s : State) :
    (l.foldl (fun s e => updWave s e.1 (markSet s.nextId)) s).nextId = s.nextId := by
  induction l generalizing s with
  | nil => rfl
  | cons e t ih => rw [List.foldl_cons, ih, updWave_nextId]

/-- A collection closes: its waves take its number, and the next number is one more. -/
protected theorem InOrder.closeCollection (h : InOrder s) {l : List (Nat × Wave)} :
    InOrder { l.foldl (fun s e => updWave s e.1 (markSet s.nextId)) s with nextId := s.nextId + 1 } :=
  InOrder.nextId (h.foldl fun h => h.updWave) (Nat.le_succ_of_le (Nat.le_of_eq (foldl_markSet_nextId l s)))

protected theorem InOrder.reordCheck (h : InOrder s) {wg : Nat} : InOrder (reordCheck s wg) := by
  unfold reordCheck
  split
  · exact h
  · exact .ite h.closeCollection h

protected theorem InOrder.abandonTraces (h : InOrder s) {w : Nat} : InOrder (abandonTraces s w).1 := h.setOps.updWave

protected theorem InOrder.passFault (h : InOrder s) {w : Nat} {v : Wave} {g : Wg} : InOrder (passFault s w v g) := by
  unfold passFault
  split
  · exact h
  · split
    · exact h
    · split
      · exact h.updGraph
      · exact h.updGraph
      · exact h

protected theorem InOrder.haltWave (h : InOrder s) {w : Nat} : InOrder (haltWave s w) := by
  simp only [haltWave]
  split
  · exact h.abandonTraces
  · split
    · exact h.abandonTraces.setWave
    · exact h.abandonTraces.setWave.passFault.reordCheck.endIfDone.evictCheck

/-! Traps (R65, R287). -/

protected theorem InOrder.doubleFault (h : InOrder s) {w : Nat} {pb : Bool} {t : Trap} {epc : Nat} :
    InOrder (doubleFault s w pb t epc) := h.noteEcc.updWave.haltWave

protected theorem InOrder.leaveIcinv (h : InOrder s) {w : Nat} {v : Wave} {g : Wg} : InOrder (leaveIcinv s w v g) := by
  unfold leaveIcinv
  split
  · exact h
  · exact h.setCore

protected theorem InOrder.openTrel (h : InOrder s) {v : Wave} {g : Wg} : InOrder (openTrel s v g) := by
  unfold openTrel
  split
  · split
    · exact h.updTask
    · exact h
  · exact h

protected theorem InOrder.enterTrap (h : InOrder s) {w : Nat} {pb : Bool} {t : Trap} {epc : Nat} {restore : Bool} :
    InOrder (enterTrap s w pb t epc restore) := by
  unfold enterTrap
  split
  · exact h
  · split
    · exact h
    · split
      extract_lets _ csr s0 s1
      have h1 : InOrder s1 := h.noteEcc.markVector.openTrel.leaveIcinv.perfAdd
      split
      · exact h1.setWave
      · exact h1.setWave.haltWave

protected theorem InOrder.takeTrap (h : InOrder s) {w : Nat} {pb : Bool} {t : Trap} {epc : Nat} :
    InOrder (takeTrap s w pb t epc) := by
  unfold takeTrap
  split
  · exact h
  · exact .ite h (.ite h.setWave.doubleFault h.setWave.enterTrap)

protected theorem InOrder.haltWith (h : InOrder s) {w : Nat} {p : Pend} : InOrder (haltWith s w p) := h.updWave.haltWave

/-- An instruction issues: it completes where its checks pass, and takes a trap where they do not. -/
protected theorem InOrder.issue (h : InOrder s) {f : Ctx → Except Trap State} (hf : ∀ c, OkInOrder (f c)) :
    NextInOrder (issue s f) := by
  obtain ⟨-, hi⟩ | ⟨-, -, hi⟩ | ⟨c, -, t, hi, hc | ⟨e, -, rfl⟩⟩ := issue_cases s f
  · rw [hi]; trivial
  · rw [hi]; trivial
  · rw [hi]; have := hf c; rwa [hc] at this
  · rw [hi]; exact h.takeTrap

/-! Store queues and deposits (R119, R154, R170 to R173). -/

protected theorem InOrder.putSq (h : InOrder s) {w : Nat} {sq : List SqEntry} : InOrder (putSq s w sq) :=
  .ite h.updWave (.ite { h with ended := tabRising_tabDel h.ended w } { h with ended := tabRising_tabMod h.ended w _ })

protected theorem InOrder.addToks (h : InOrder s) {w i seq core level : Nat} {locs : List Nat} :
    InOrder (addToks s w i seq core level locs) := by
  simp only [addToks]
  split
  · exact h.putSq.setOps
  · exact h.setOps

protected theorem InOrder.performStore (h : InOrder s) {core : Nat} {e : SqEntry} : InOrder (performStore s core e) :=
  (h.foldl fun h => .ite h h.lowWrite).healBytes

protected theorem InOrder.atomReturn (h : InOrder s) {wg : Nat} {dst : Option (Nat × Nat)} {n : Nat} {x : DWord} :
    InOrder (atomReturn s wg dst n x) := by
  unfold atomReturn
  split
  · exact h
  · split
    · exact h.updWave
    · exact h

protected theorem InOrder.performAtom (h : InOrder s) {w core wg : Nat} {e : SqEntry} {op : Nat} {wide : Bool} {b c : DWord}
    {dst : Option (Nat × Nat)} : InOrder (performAtom s w core wg e op wide b c dst) := by
  unfold performAtom
  extract_lets n regs locs loc me lv s0 s1 old s2 s3 s4
  have h1 : InOrder s1 := InOrder.fixBytes (h.foldl fun h => h.pushByte)
  have h2 : InOrder s2 := by
    simp only [s2]
    split
    · exact h1.highBytes
    · exact h1.lowCopies
  have h4 : InOrder s4 := by
    simp only [s4]
    split
    · exact h2.atomReturn.pendFault
    · exact h2.atomReturn
  exact .ite h.atomReturn.pendFault (.ite h4.acquireScope h4)

/-- A deposit for an evicted wave waits in its entry. -/
protected theorem InOrder.depositEvicted (h : InOrder s) {src wg n : Nat} : InOrder (depositEvicted s src wg n) := h.mapParts

protected theorem InOrder.deliver (h : InOrder s) {src core wg target : Nat} : InOrder (deliver s src core wg target) := by
  unfold deliver
  split
  · exact h.updWave
  · split
    · exact h.updWave
    · exact h.depositEvicted

protected theorem InOrder.performEntry (h : InOrder s) {w i : Nat} : InOrder (performEntry s w i) := by
  unfold performEntry
  split
  · exact h
  · split
    · exact h
    · extract_lets s1
      have h1 : InOrder s1 := h.putSq
      split
      · exact h1.performStore.addToks
      · exact InOrder.updWave (.ite h1.performAtom h1.performAtom.addToks)
      · exact h1.deliver

protected theorem InOrder.drainEntry (h : InOrder s) {w i : Nat} : InOrder (drainEntry s w i) := h.carryToks.performEntry

protected theorem InOrder.drainThose (h : InOrder s) {may : SqEntry → Bool} {n w : Nat} : InOrder (drainThose may n s w) := by
  induction n generalizing s with
  | zero => exact h
  | succ n ih =>
    unfold drainThose
    split
    · exact h
    · split
      · exact h
      · exact ih h.drainEntry

protected theorem InOrder.drainOlder (h : InOrder s) {seq n w : Nat} : InOrder (drainOlder seq n s w) := h.drainThose

protected theorem InOrder.drainAll (h : InOrder s) {n w : Nat} : InOrder (drainAll n s w) := h.drainThose

protected theorem InOrder.drainSome (h : InOrder s) {named : SqEntry → Bool} {n w : Nat} : InOrder (drainSome named n s w) := by
  induction n generalizing s with
  | zero => exact h
  | succ n ih =>
    simp only [drainSome]
    split
    · exact h
    · split
      · exact h
      · exact ih h.drainEntry

protected theorem InOrder.drainNamed (h : InOrder s) {w : Nat} {named : SqEntry → Bool} : InOrder (drainNamed s w named) := by
  unfold drainNamed
  split
  · exact h.drainSome
  · exact h

protected theorem InOrder.drainOver (h : InOrder s) {w lo n : Nat} : InOrder (drainOver s w lo n) := by
  unfold drainOver
  split
  · exact .ite h.drainAll h
  · exact h

protected theorem InOrder.releaseNow (h : InOrder s) {w level : Nat} : InOrder (releaseNow s w level) := by
  unfold releaseNow
  split
  · exact h
  · exact h.drainAll.propPath

protected theorem InOrder.appendSq (h : InOrder s) {w grp : Nat} {kind : SqKind} {bytes : List (Nat × Byte × Byte)} {scope : Nat}
    {rel acq : Bool} {va : Nat} : InOrder (appendSq s w grp kind bytes scope rel acq va) := h.setSeq.updWave

protected theorem InOrder.loseAtoms (h : InOrder s) {n w : Nat} : InOrder (loseAtoms n s w) := by
  induction n generalizing s with
  | zero => exact h
  | succ n ih =>
    unfold loseAtoms
    split
    · exact h
    · split
      · exact h
      · exact ih h.performEntry

protected theorem InOrder.loseSq (h : InOrder s) {w : Nat} : InOrder (loseSq s w) := by
  unfold loseSq
  split
  · exact h
  · extract_lets s1
    split
    · exact h.loseAtoms.putSq
    · exact h.loseAtoms

protected theorem InOrder.loseHost (h : InOrder s) : InOrder (loseHost s) := h.foldl fun h => h.loseSq

protected theorem InOrder.drainOrphans (h : InOrder s) {mine : Orphan → Bool} : InOrder (drainOrphans s mine) := by
  refine h.foldl fun h => ?_
  split
  · exact h.drainAll
  · exact h

protected theorem InOrder.endWaves (h : InOrder s) {mine : State → Wave → Bool} : InOrder (endWaves s mine) := by
  refine h.foldl fun h => ?_
  split
  · exact h
  · extract_lets s1
    split
    · exact h.drainAll.endWave
    · exact h.drainAll

/-! Baton's tiles (R337 to R339). -/

protected theorem InOrder.engRelease (h : InOrder s) {o : EngOp} : InOrder (engRelease s o) := by
  unfold engRelease
  split
  · exact h
  · exact .ite h.drainOlder.carryToks h

protected theorem InOrder.engOverwrite (h : InOrder s) {o : EngOp} {l : List (Nat × Nat)} : InOrder (engOverwrite s o l) := by
  unfold engOverwrite
  split
  · exact h
  · exact h.drainSome

protected theorem InOrder.releaseRows (h : InOrder s) {t : BTile} : InOrder (releaseRows s t) := by
  refine h.foldl fun h => ?_
  split
  · exact h.engRelease
  · exact h

/-- A tile that is dispatched keeps its number. -/
protected theorem InOrder.dispatchTile (h : InOrder s) {id : Nat} : InOrder (dispatchTile s id) := by
  unfold dispatchTile
  split
  · exact h
  · next t ht =>
    have hid : t.id = id := by
      have := List.find?_some ht
      simp only [Bool.and_eq_true, decide_eq_true_eq] at this
      exact this.1
    extract_lets s1 part r f p t1 s2 gs s3
    have h2 : InOrder s2 := InOrder.fixBytes (h.releaseRows.mapTiles fun b _ => by split <;> simp_all [t1])
    exact InOrder.perfAdd (InOrder.perfAdd (h2.foldl fun h => h.foldl fun h => h.markTable))

protected theorem InOrder.dispatchAll (h : InOrder s) {core : Nat} :
    InOrder (dispatchAll s core) := h.foldl fun h => h.dispatchTile

/-- A row enters a tile that fills, or opens one with the next number. -/
protected theorem InOrder.enterRow (h : InOrder s) {core : Nat} {whtab : DWord} {k : Nat} {r : Row} :
    InOrder (enterRow core whtab k s r) := by
  unfold enterRow
  split
  · have h1 : ∀ (i : Nat), InOrder { s with btiles := s.btiles.map fun x => if x.id = i then { x with rows := x.rows ++ [r] } else x } :=
      fun i => h.mapTiles fun b _ => by split <;> rfl
    exact .ite (h1 _).dispatchTile (h1 _)
  · exact h.addTile rfl

protected theorem InOrder.enterGroups (h : InOrder s) {core : Nat} {whtab : DWord} {l : List (Nat × List Row)} :
    InOrder (enterGroups core whtab l s).1 := by
  induction l generalizing s with
  | nil => exact h
  | cons g t ih =>
    unfold enterGroups
    split
    · exact ih (h.foldl fun h => h.enterRow)
    · exact h

protected theorem InOrder.batonProgress (h : InOrder s) {o : EngOp} : InOrder (batonProgress s o) := by
  unfold batonProgress
  split
  · exact .ite h.enterGroups.setBres.updWave h.enterGroups.setBres
  · exact h

protected theorem InOrder.batonRetry (h : InOrder s) {id : Nat} : InOrder (batonRetry s id) := by
  unfold batonRetry
  split
  · exact h.batonProgress
  · exact h

/-! Instructions of class VEC: only the issuing wave is written (R234 to R276). -/

protected theorem InOrder.vecDst (h : InOrder s) {d : Reg} {wide : Bool} {n : Nat} {srcs : List Src} {form : Ctx → Option Form}
    {f : Ctx → Nat → DWord} : NextInOrder (vecDst s d wide n srcs form f) := by
  refine h.issue fun c => ?_
  split
  · trivial
  · split
    · trivial
    · exact h.setWave

protected theorem InOrder.vecPred (h : InOrder s) {d : Reg} {n : Nat} {srcs : List Src} {f : Ctx → Nat → Bool} :
    NextInOrder (vecPred s d n srcs f) := by
  refine h.issue fun c => ?_
  split
  · trivial
  · split
    · trivial
    · exact h.setWave

protected theorem InOrder.vecRefused (h : InOrder s) {w : Word} {d : Reg} {srcs : List Src} :
    NextInOrder (vecRefused s w d srcs) := by
  refine h.issue fun c => ?_
  split <;> trivial

protected theorem InOrder.laneOp (h : InOrder s) {d : Reg} {dOk : Ctx → Bool} {n : Nat} {srcs : List Src}
    {par : Ctx → Except Trap Unit} {unw : Ctx → Reg × Mask} {wr : Ctx → Wave → Wave} :
    NextInOrder (laneOp s d dOk n srcs par unw wr) := by
  refine h.issue fun c => ?_
  split
  · trivial
  · trivial
  · trivial
  · split
    split
    · trivial
    · exact h.setWave

/-! What the memory instructions share (R119, R305 to R313). -/

protected theorem InOrder.fillPlan (h : InOrder s) {c : Ctx} {loads : Bool} {p : Plan} : InOrder (fillPlan s c loads p) := by
  unfold fillPlan
  extract_lets s1 s2
  have h1 : InOrder s1 := .ite h.tlbFill h
  have h2 : InOrder s2 := by
    refine .ite ?_ h1
    split
    · exact h1.fixBytes.fillRead
    · exact h1
  exact h2.markHost

protected theorem InOrder.accQueue (h : InOrder s) {c : Ctx} {act : MemAct} {x : FM} {grp : Nat} {a : Access} :
    InOrder (accQueue c act x grp a s) := by
  unfold accQueue
  split
  · split
    · exact h.foldl fun h => h.appendSq
    · exact h.appendSq
    · exact h
  · exact h

protected theorem InOrder.makeAccesses (h : InOrder s) {c : Ctx} {act : MemAct} {x : FM} {grp : Nat} {as : List Access} {v : Wave} :
    InOrder (makeAccesses s c act x grp as v) := by
  unfold makeAccesses
  extract_lets ps v1 v2 s1 s2
  have h2 : InOrder s2 := (h.setWave.foldl fun h => h.fillPlan).foldl fun h => h.accQueue
  exact .ite h2.setFresh h2

protected theorem InOrder.takeLines (h : InOrder s) {c : Ctx} {loads : Bool} {lines got : List Nat} {rejected : Bool} :
    InOrder (takeLines s c loads lines got rejected) := by
  unfold takeLines
  extract_lets k s1 s2
  have h2 : InOrder s2 := .ite h.setCore.perfAdd h.setCore
  exact .ite h2.perfAdd h2

protected theorem InOrder.endAccess (h : InOrder s) {c : Ctx} {act : MemAct} {x : FM} {grp : Nat} {put : Path → Wave → Wave} :
    InOrder (endAccess s c act x grp put) :=
  .ite h.updWave (InOrder.updWave (.ite h.acquireScope h))

protected theorem InOrder.joinWait (h : InOrder s) {c : Ctx} {miss : Nat → Bool} {got : List Nat} {rej : List Plan} :
    InOrder (joinWait s c miss got rej) := h.setCore

protected theorem InOrder.beginAccess (h : InOrder s) {c : Ctx} {act : MemAct} {x : FM} {as : List Access} {srcs : List Src}
    {v : Wave} : InOrder (beginAccess s c act x as srcs v) := by
  simp only [beginAccess]
  exact .ite h.takeLines.makeAccesses.endAccess h.takeLines.makeAccesses.joinWait.setSeq.hold

protected theorem InOrder.loadLane (h : InOrder s) {x : FM} {n regs sx : Nat} : NextInOrder (loadLane s x n regs sx) := by
  refine h.issue fun c => ?_
  split
  · exact h
  · split
    · trivial
    · split
      · exact h.hold
      · exact h.beginAccess

protected theorem InOrder.loadRec (h : InOrder s) {x : FM} {regs : Nat} : NextInOrder (loadRec s x regs) := by
  refine h.issue fun c => ?_
  split
  · exact h
  · split
    · trivial
    · split
      · exact h.hold
      · exact h.markTable.beginAccess

protected theorem InOrder.loadOnce (h : InOrder s) {x : FM} {n : Nat} {wide : Bool} : NextInOrder (loadOnce s x n wide) := by
  refine h.issue fun c => ?_
  split
  · exact h
  · split
    · trivial
    · split
      · exact h.hold
      · exact h.beginAccess

protected theorem InOrder.storeLane (h : InOrder s) {x : FM} {n : Nat} : NextInOrder (storeLane s x n) := by
  refine h.issue fun c => ?_
  split
  · exact h
  · split
    · trivial
    · exact h.beginAccess

protected theorem InOrder.storeRec (h : InOrder s) {x : FM} {v4 : Bool} : NextInOrder (storeRec s x v4) := by
  refine h.issue fun c => ?_
  split
  · exact h
  · split
    · trivial
    · exact h.markTable.beginAccess

protected theorem InOrder.execStu (h : InOrder s) {x : FM} : NextInOrder (execStu x s) := by
  refine h.issue fun c => ?_
  split
  · exact h
  · split
    · trivial
    · exact h.beginAccess

protected theorem InOrder.atomic (h : InOrder s) {x : FM} {op : Nat} {wide ret cas : Bool} :
    NextInOrder (atomic s x op wide ret cas) := by
  refine h.issue fun c => ?_
  split
  · exact h
  · split
    · trivial
    · exact h.beginAccess

/-! Waits, arrivals, residency and cache operations (R314 to R321). -/

protected theorem InOrder.execWaitc (h : InOrder s) {x : FM} : NextInOrder (execWaitc x s) := by
  refine h.issue fun c => ?_
  split
  split
  · exact h.finish.updWave
  · exact h.hold

protected theorem InOrder.waitWord (h : InOrder s) {x : FM} {eq : Bool} : NextInOrder (waitWord s x eq) := by
  refine h.issue fun c => ?_
  split
  · exact h
  · split
    · trivial
    · exact InOrder.hold (h.setWave.foldl fun h => h.fillPlan)

protected theorem InOrder.execDepo (h : InOrder s) {x : FM} : NextInOrder (execDepo x s) := by
  refine h.issue fun c => ?_
  split
  · trivial
  · extract_lets n
    split
    · trivial
    · split
      · exact h.hold
      · exact h.appendSq.finish

protected theorem InOrder.passWarv (h : InOrder s) {c : Ctx} {n words : Nat} : InOrder (passWarv s c n words) :=
  h.setWave.acquireScope.finish

protected theorem InOrder.execWarv (h : InOrder s) {x : FM} : NextInOrder (execWarv x s) := by
  refine h.issue fun c => ?_
  split
  · trivial
  · extract_lets n
    split
    · trivial
    · split
      · exact h.finish
      · split
        · exact h.passWarv
        · exact h.hold

protected theorem InOrder.fillPages (h : InOrder s) {c : Ctx} {x : FM} : InOrder (fillPages s c x) := h.foldl fun h => h.tlbFill

protected theorem InOrder.execProbe (h : InOrder s) {x : FM} : NextInOrder (execProbe x s) := by
  refine h.issue fun c => ?_
  split
  · trivial
  · exact h.setWave.fillPages.finish

protected theorem InOrder.mboxPut (h : InOrder s) {n m : Nat} {l : List (List Byte)} : InOrder (mboxPut s n m l) := h.updPart

/-- Messages that have no room wait under the next number. -/
protected theorem InOrder.resPush (h : InOrder s) {c : Ctx} {n : Nat} {l : List (List Byte)} : InOrder (resPush s c n l) :=
  .ite h.mboxPut.finish (InOrder.hold (InOrder.updPart (h.mboxPut.nextId (Nat.le_succ _))))

protected theorem InOrder.execResreq (h : InOrder s) {x : FM} : NextInOrder (execResreq x s) := by
  refine h.issue fun c => ?_
  split
  · exact .ite h h.finish
  · split
    · trivial
    · exact h.setWave.fillPages.resPush

protected theorem InOrder.prefetchLine (h : InOrder s) {levels : BitVec 4} {c : Ctx} {line : Nat} :
    InOrder (prefetchLine levels c s line) :=
  .ite h (InOrder.fillRead (InOrder.setChoice (.ite h.perfAdd h)))

protected theorem InOrder.prefetch (h : InOrder s) {x : FM} {levels : BitVec 4} : NextInOrder (prefetch s x levels) := by
  refine h.issue fun c => ?_
  split
  · trivial
  · exact InOrder.finish (InOrder.setChoice (h.setWave.foldl fun h => h.prefetchLine))

protected theorem InOrder.lineOp {f : State → Nat → Nat → State} (hf : ∀ {s : State} {u b : Nat}, InOrder s → InOrder (f s u b))
    {level : Nat} {c : Ctx} {line : Nat} (h : InOrder s) : InOrder (lineOp level c f s line) :=
  .ite h (h.foldl fun h => h.foldl fun h => hf h)

protected theorem InOrder.lineInstr (h : InOrder s) {x : FM} {f : State → Nat → Nat → State}
    (hf : ∀ {s : State} {u b : Nat}, InOrder s → InOrder (f s u b)) : NextInOrder (lineInstr s x f) := by
  refine h.issue fun c => ?_
  split
  · trivial
  · exact InOrder.finish (h.setWave.foldl fun h => h.lineOp hf)

/-! Class CTL (R277 to R304). -/

theorem okInOrder_transfer (h : InOrder s) {c : Ctx} {a tval : Nat} {f : Wave → Wave} : OkInOrder (transfer s c a tval f) := by
  unfold transfer
  split
  · exact h.setWave
  · trivial

theorem okInOrder_transferPair (h : InOrder s) {c : Ctx} {r : Reg} {f : Wave → Wave} : OkInOrder (transferPair s c r f) := by
  unfold transferPair
  split
  · trivial
  · split
    · trivial
    · exact okInOrder_transfer h

protected theorem InOrder.execBrc (h : InOrder s) {x : FB} : NextInOrder (execBrc x s) := by
  refine h.issue fun c => ?_
  extract_lets a j m
  split
  · trivial
  · split
    · trivial
    · split
      · exact h.setWave
      · split
        · exact h.setWave
        · split
          · trivial
          · exact h.setWave

protected theorem InOrder.branchIf (h : InOrder s) {x : FB} {taken : Ctx → Bool} : NextInOrder (branchIf s x taken) := by
  refine h.issue fun c => ?_
  extract_lets a
  split
  · trivial
  · exact h.setWave

protected theorem InOrder.execJoin (h : InOrder s) : NextInOrder (execJoin s) := by
  refine h.issue fun c => ?_
  split
  · exact h.setWave
  · exact h.finish

protected theorem InOrder.execExit (h : InOrder s) : NextInOrder (execExit s) := by
  refine h.issue fun c => ?_
  split
  · trivial
  · exact h.setWave.reordCheck.endIfDone

protected theorem InOrder.execReord (h : InOrder s) {k : BitVec 4} {key : Reg} : NextInOrder (execReord k key s) := by
  refine h.issue fun c => ?_
  split
  · trivial
  · split
    · trivial
    · split
      · trivial
      · exact h.setWave.reordCheck

protected theorem InOrder.execBkpt (h : InOrder s) {code : BitVec 24} : NextInOrder (execBkpt code s) := by
  refine h.issue fun c => ?_
  split
  · trivial
  · exact h.finish

protected theorem InOrder.yieldTurn (h : InOrder s) {c : Ctx} : InOrder (yieldTurn s c) := h.finish.updWave

protected theorem InOrder.execWsleep (h : InOrder s) {a : Reg} : NextInOrder (execWsleep a s) := by
  refine h.issue fun c => ?_
  split
  · trivial
  · trivial
  · extract_lets n
    split
    · exact h.yieldTurn
    · exact h.hold

protected theorem InOrder.execIcinv (h : InOrder s) {scope : BitVec 3} : NextInOrder (execIcinv scope s) := by
  refine h.issue fun c => ?_
  split
  · trivial
  · exact h.hold

/-! Spawns (R36 to R38). -/

protected theorem InOrder.enterBlocks (h : InOrder s) {l : List (Nat × List Child)} : InOrder (enterBlocks l s).1 := by
  induction l generalizing s with
  | nil => exact h
  | cons b t ih =>
    simp only [enterBlocks]
    split
    · exact ih h.setCore
    · exact h

protected theorem InOrder.spawnEnter (h : InOrder s) {c : Ctx} : InOrder (spawnEnter s c) := by
  unfold spawnEnter
  split
  · exact h
  · split
    · exact h
    · split
      · exact h.hold
      · exact .ite h.enterBlocks.updWave.finish h.enterBlocks.updWave.hold

protected theorem InOrder.spawn (h : InOrder s) {op : BitVec 8} {k : BitVec 10} {a1 a0 : Reg} {low at_ : Bool} :
    NextInOrder (spawn s op k a1 a0 low at_) := by
  refine h.issue fun c => ?_
  split
  · trivial
  · split
    · trivial
    · split
      · trivial
      · split
        · exact h.spawnEnter
        · extract_lets ktab
          split
          · trivial
          · trivial
          · trivial
          · trivial
          · extract_lets srcs
            split
            · trivial
            · split
              · trivial
              · split
                · trivial
                · refine InOrder.spawnEnter (InOrder.releaseNow (InOrder.setWave ?_))
                  exact .ite (h.markTable.foldl fun h => h.tlbFill) h.markTable

/-! ERET and eviction (R46, R47, R290, R293). -/

theorem fixErrs_nextId (s : State) (hit : SErr → Bool) : (fixErrs s hit).nextId = s.nextId := by
  simp only [fixErrs]
  generalize List.filter _ _ = l
  have hfold : ∀ (l : List SErr) (s : State), (l.foldl (fun s e => countFix s e.strct) s).nextId = s.nextId := by
    intro l
    induction l with
    | nil => exact fun _ => rfl
    | cons e t ih => exact fun s => by rw [List.foldl_cons, ih]; rfl
  rw [hfold]

theorem tlbAdd_nextId (s : State) (u k : Nat) (e : DWord) : (tlbAdd s u k e).nextId = s.nextId := by
  simp only [tlbAdd]
  split <;> rfl

theorem tlbFill_nextId (s : State) (part core va : Nat) : (tlbFill s part core va).nextId = s.nextId := by
  simp only [tlbFill]
  split
  · rw [tlbAdd_nextId, tlbAdd_nextId]
  · rfl

theorem fixTable_nextId (s : State) (part core va n : Nat) : (fixTable s part core va n).nextId = s.nextId := by
  unfold fixTable
  split
  · rfl
  · exact fixErrs_nextId s _

/-- Reading a table takes no number. -/
theorem markTable_nextId (s : State) (g : Wg) (core va n : Nat) : (markTable s g core va n).nextId = s.nextId := by
  have h1 : (fixTable (tlbFill (tlbFill s g.part core va) g.part core (va + n - 1)) g.part core va n).nextId = s.nextId := by
    rw [fixTable_nextId, tlbFill_nextId, tlbFill_nextId]
  simp only [markTable]
  split
  · split
    · exact h1
    · exact h1
  · exact h1

protected theorem InOrder.reissueTrace (h : InOrder s) {w : Nat} {o : EngOp} : InOrder (reissueTrace w s o) := by
  simp only [reissueTrace]
  split
  · exact h
  · split
    · exact h.pendEng
    · exact InOrder.updWave (InOrder.setOps (h.markTable.nextId (Nat.le_succ_of_le (Nat.le_of_eq (markTable_nextId _ _ _ _ _)))))

protected theorem InOrder.reissueTraces (h : InOrder s) {c : Ctx} {l : List EngOp} : InOrder (reissueTraces s c l).1 := by
  induction l generalizing s with
  | nil => exact h
  | cons o t ih =>
    unfold reissueTraces
    split
    · exact h
    · exact ih h.reissueTrace

protected theorem InOrder.restoreDash (h : InOrder s) {c : Ctx} : InOrder (restoreDash s c) := by
  unfold restoreDash
  split
  · exact h
  · exact h.releaseNow.fixReplay.setDash.foldl fun h => h.updWave

protected theorem InOrder.resumeEret (h : InOrder s) {c : Ctx} {sv : Saved} : InOrder (resumeEret s c sv) :=
  have h1 : InOrder _ := h.restoreDash.reissueTraces.updWave
  .ite h1.updWave h1.hold

protected theorem InOrder.lastEvicted (h : InOrder s) {id : Nat} {g : Wg} : InOrder (lastEvicted s id g) := h.saveDash.delWg

/-- An evicted wave leaves its slot, which its workgroup names no more. -/
protected theorem InOrder.evictWave (h : InOrder s) {w : Nat} : InOrder (evictWave s w) := by
  unfold evictWave
  extract_lets s1
  have h1 : InOrder s1 := h.releaseNow
  split
  · exact h1
  · split
    · exact h1
    · next g hg =>
      extract_lets slots s2 s3
      have h2 : InOrder s2 := h1.delWave.updPart.updWg fun _ _ => (slots_nodup_of_getWg h1 hg).filter _
      exact InOrder.evictCheck (.ite h2.renameDepositor.lastEvicted h2.renameDepositor)

protected theorem InOrder.eretIn (h : InOrder s) {c : Ctx} : InOrder (eretIn s c) := by
  unfold eretIn
  split
  · exact h
  · split
    · exact h.haltWave
    · split
      · split
        · exact h.haltWith
        · exact .ite h.resumeEret (.ite h.evictWave h.hold)
      · exact h.updWave

protected theorem InOrder.execEret (h : InOrder s) : NextInOrder (execEret s) := by
  refine h.issue fun c => ?_
  split
  · trivial
  · split
    · exact h.setFresh.doubleFault
    · exact h.eretIn

/-! CSRs (R300). -/

protected theorem InOrder.csrOp (h : InOrder s) {num : BitVec 12} {r : Reg} {f : Ctx → Nat → DWord → State}
    (hf : ∀ c n x, InOrder (f c n x)) : NextInOrder (csrOp s num r f) := by
  refine h.issue fun c => ?_
  split
  · trivial
  · split
    · trivial
    · split
      · trivial
      · exact (hf _ _ _).finish

protected theorem InOrder.csrPut (h : InOrder s) {w : Nat} {v : Wave} {g : Wg} {n : Nat} {x : DWord} :
    InOrder (csrPut s w v g n x) := by
  simp only [csrPut]
  split
  iterate 18 exact h.setWave
  iterate 4 exact h.setCore
  · exact h.updPart
  · exact h

protected theorem InOrder.csrWrite (h : InOrder s) {num : BitVec 12} {r : Reg} {f : DWord → DWord → DWord → DWord → DWord} :
    NextInOrder (csrWrite s num r f) := by
  refine h.issue fun c => ?_
  split
  · trivial
  · split
    · trivial
    · split
      · trivial
      · split
        · trivial
        · exact h.csrPut.finish

/-! Engines: issue (R322 to R324). -/

/-- An operation begins: it takes the next number. -/
protected theorem InOrder.addOp (h : InOrder s) {c : Ctx} {op : Nat} {x : FE} {i : EngIn} {started : Bool} :
    InOrder (addOp s c op x i started) :=
  InOrder.updWave (InOrder.setOps (h.nextId (Nat.le_succ _)))

protected theorem InOrder.engTables (h : InOrder s) {c : Ctx} {op : Nat} {x : FE} : InOrder (engTables s c op x) := by
  simp only [engTables]
  refine .ite h.markTable (.ite ?_ h)
  split
  · exact h.markTable.foldl fun h => h.markTable
  · exact h

protected theorem InOrder.engIssueIf (h : InOrder s) {op ext : Nat} {x : FE} {held : Ctx → Bool}
    {f : Ctx → Except Trap (Wave × EngIn)} : NextInOrder (engIssueIf s op ext x held f) := by
  refine h.issue fun c => ?_
  split
  · trivial
  · split
    · exact h.hold
    · exact h.engTables.setWave.addOp.finish

protected theorem InOrder.batonIssue (h : InOrder s) {c : Ctx} {op : Nat} {x : FE} {v : Wave} {i : EngIn}
    {groups : List (Nat × List (Nat × List (BitVec 16)))} : InOrder (batonIssue s c op x v i groups) := by
  unfold batonIssue
  extract_lets first id s1 rows b s2
  have h2 : InOrder s2 := h.engTables.setWave.addOp.setBres.hold
  refine .ite h.hold ?_
  split
  · exact h2.batonProgress
  · exact h2

protected theorem InOrder.neval (h : InOrder s) {op : Nat} {x : FE} {once wide : Bool} :
    NextInOrder (neval s op x once wide) := by
  refine h.issue fun c => ?_
  split
  · exact h.batonRetry
  · split
    · trivial
    · exact h.batonIssue

protected theorem InOrder.texTouch (h : InOrder s) {o : EngOp} {g : Wg} {outs : List (Nat × TexOut)} :
    InOrder (texTouch s o g outs) :=
  h.fixBytes.updWave.foldl fun h => h.markTable

protected theorem InOrder.execTexn (h : InOrder s) {x : FE} : NextInOrder (execTexn x s) := by
  refine h.issue fun c => ?_
  split
  · exact h.batonRetry
  · split
    · trivial
    · split
      · exact h.hold
      · extract_lets o s0
        have h0 : InOrder s0 := h.engRelease
        split
        · exact h0
        · exact h0.batonIssue.texTouch.setFresh.setBres

/-! Engines: start and completion (R174, R324 to R356). -/

protected theorem InOrder.dropOp (h : InOrder s) {id : Nat} : InOrder (dropOp s id) := h.setOps

protected theorem InOrder.endOp (h : InOrder s) {o : EngOp} : InOrder (endOp s o) := h.dropOp.updWave.endIfDone

/-- The end of an operation, with the fault that it leaves. -/
protected theorem InOrder.endOpFault (h : InOrder s) {o : EngOp} {f : Option Trap} {handler : Bool} :
    InOrder (endOp (match f with | some t => pendEng s o.wave t handler | none => s) o) := by
  split
  · exact h.pendEng.endOp
  · exact h.endOp

protected theorem InOrder.execEngineStart (h : InOrder s) {id : Nat} : NextInOrder (execEngineStart id s) := by
  unfold execEngineStart
  split
  · exact h
  · extract_lets e head busy
    split
    · exact h.setOps
    · exact h

protected theorem InOrder.opStat (h : InOrder s) {o : EngOp} {bit : Nat} : InOrder (opStat s o bit) := h.updWave

protected theorem InOrder.putScr (h : InOrder s) {locs : List Nat} {e : Elem} {raw : Nat} : InOrder (putScr s locs e raw) :=
  h.foldl fun h => h.foldl fun h => h.memBits

protected theorem InOrder.copyWord {o : EngOp} {g : Wg} {level : Nat} {run : CopyRun} (h : InOrder run.1) :
    InOrder (copyWord o g level run).1 := by
  unfold copyWord
  split
  · exact h
  · extract_lets s va word
    split
    · exact h
    · exact h
    · exact h.opStat
    · exact h.tlbFill.markHost.foldl fun h => h.engWrite

protected theorem InOrder.copySs (h : InOrder s) {o : EngOp} {g : Wg} : InOrder (copySs s o g).1 :=
  InOrder.healBytes (h.fixBytes.foldl fun h => .ite h h.memBits)

/-- Every channel of an element is written to scratch. -/
theorem inOrder_putScrs (h : InOrder s) {α : Type} {l : List α} {scr : List Nat} {e : α → Elem} {raw : α → Nat} :
    InOrder (l.foldl (fun s x => putScr s scr (e x) (raw x)) s) :=
  h.foldl fun h => h.putScr

/-- What the copy of an element notes before it writes: WSTAT, the errors that it corrects, the pages and the host's memory. -/
theorem inOrder_noteCopied (h : InOrder s) {sparse : Bool} {o : EngOp} {level part va : Nat} {locs : List Nat} {g : Wg}
    {c : Prop} [Decidable c] {ls : List Nat} :
    let s1 := fixBytes (if sparse then opStat s o 2 else s) [] o.core level locs
    InOrder (markHost (if c then tlbFill s1 part o.core va else s1) g ls) :=
  have h1 : InOrder (fixBytes (if sparse then opStat s o 2 else s) [] o.core level locs) := InOrder.fixBytes (.ite h.opStat h)
  InOrder.markHost (.ite h1.tlbFill h1)

protected theorem InOrder.copyElem {o : EngOp} {g : Wg} {r : Rec} {store : Bool} {level : Nat} {scr : List Nat} {run : CopyRun}
    {i : Nat} (h : InOrder run.1) : InOrder (copyElem o g r store level scr run i).1 := by
  unfold copyElem
  extract_lets -lift x s chans
  split
  split
  · exact h
  · exact .ite h.opStat (inOrder_putScrs h.opStat)
  · split
    · exact h
    · extract_lets -lift c l first s1
      have h1 : InOrder s1 := .ite h.opStat h
      split
      · exact h
      · split
        · extract_lets -lift s2 poison bad
          have h2 : InOrder s2 := .ite h1 h1.pushBlocks
          clear_value bad
          split
          · exact h2
          · split
            · exact InOrder.healBytes (InOrder.foldl (inOrder_noteCopied h2) fun h => h.engWrite)
            · exact inOrder_putScrs (inOrder_noteCopied h2)
        · exact .ite h1.setFresh (inOrder_putScrs h1.setFresh)
        · exact .ite h1 (inOrder_putScrs h1)

protected theorem InOrder.copyRun (h : InOrder s) {o : EngOp} {g : Wg} {level : Nat} : InOrder (copyRun s o g level).1 := by
  unfold copyRun
  split
  · exact h.copySs
  · extract_lets -lift r scr run
    have h1 : InOrder run.1 := List.foldlRecOn (motive := fun run : CopyRun => InOrder run.1) _ _ h fun _ h _ _ => h.copyElem
    exact .ite h1 h1.healBytes

protected theorem InOrder.execCopyComplete (h : InOrder s) {id : Nat} : NextInOrder (execCopyComplete id s) := by
  unfold execCopyComplete
  split
  · exact h
  · split
    · exact h.dropOp
    · next o _ _ _ g _ => exact (h.engRelease.copyRun.copyWord (o := o) (g := g)).endOpFault

/-! The matrix engine's operations. -/

theorem inOrder_mdrain {r : MxeRun} (h : InOrder r.s) {o : EngOp} : InOrder (mdrain r o).s := by
  refine List.foldlRecOn (motive := fun r : MxeRun => InOrder r.s) _ _ h fun r h i _ => ?_
  split
  · exact h
  · exact h
  · exact h.updWave
  · exact h.markHost.foldl fun h => h.engWrite

theorem inOrder_mfill {r : MxeRun} (h : InOrder r.s) {o : EngOp} : InOrder (mfill r o).s := by
  refine List.foldlRecOn (motive := fun r : MxeRun => InOrder r.s) _ _ h fun r h i _ => ?_
  dsimp only
  split
  · exact h
  · exact h
  · exact h.updWave
  · exact h.fixRange.markHost

theorem inOrder_mxeRun (h : InOrder s) {g : Wg} {o : EngOp} : InOrder (mxeRun s g o).s := by
  unfold mxeRun
  extract_lets -lift t r
  split
  · exact h
  · exact h.fixRange
  · dsimp only
    refine InOrder.healBytes ?_
    exact h.foldl fun h => h.foldl fun h => h.memBits
  · exact h.noteExpand.updWave
  · exact h
  · dsimp only
    refine InOrder.healBytes ?_
    exact inOrder_mdrain h
  · exact inOrder_mfill (r := r) h
  · exact h.fixRange.fixRange

protected theorem InOrder.execMxeComplete (h : InOrder s) {id : Nat} : NextInOrder (execMxeComplete id s) := by
  unfold execMxeComplete
  split
  · exact h
  · split
    · exact h.dropOp
    · split
      · exact h
      · extract_lets -lift s1
        have h1 : InOrder s1 := h.engOverwrite.engRelease
        split
        · exact h1
        · exact InOrder.endOpFault (InOrder.setFresh (InOrder.updWgSame (inOrder_mxeRun h1)))

/-! Baton's results, the sampler, traversal and the Dash array. -/

protected theorem InOrder.finishBaton (h : InOrder s) {o : EngOp} {b : BRes} : InOrder (finishBaton s o b) := by
  unfold finishBaton
  extract_lets -lift pred n s0 bad s1 s2 s3
  have h2 : InOrder s2 := h.setBres.noteExpand.updWave.foldl fun h => h.pendEng
  have h3 : InOrder s3 := by
    simp only [s3]
    split
    · split
      · exact h2.pendEng
      · exact h2
    · exact h2
  exact h3.endOp

protected theorem InOrder.tryFinish (h : InOrder s) {id : Nat} : InOrder (tryFinish s id) := by
  unfold tryFinish
  split
  · exact .ite h.finishBaton h
  · exact h

protected theorem InOrder.execBatonTimeout (h : InOrder s) {core key : Nat} : NextInOrder (execBatonTimeout core key s) := by
  unfold execBatonTimeout
  split
  · exact h
  · split
    · exact h.dispatchTile
    · exact h

protected theorem InOrder.execBatonTileDone (h : InOrder s) {id : Nat} : NextInOrder (execBatonTileDone id s) := by
  unfold execBatonTileDone
  split
  · exact h
  · extract_lets -lift b1 s1 s2
    have h1 : InOrder s1 := h.filterTiles.setBres
    have h2 : InOrder s2 := by
      refine h1.foldl fun h => ?_
      split
      · exact .ite h.batonProgress h
      · exact h
    exact h2.foldl fun h => h.tryFinish

protected theorem InOrder.execTexComplete (h : InOrder s) {id : Nat} : NextInOrder (execTexComplete id s) := by
  unfold execTexComplete
  split
  · exact h
  · extract_lets -lift s0
    split
    · exact h.dropOp
    · extract_lets -lift outs s1 s2
      have h1 : InOrder s1 := h.engRelease.texTouch.noteExpand.updWave
      have h2 : InOrder s2 := h1.foldl fun h => h.pendEng
      exact h2.setFresh.endOp

protected theorem InOrder.execTraceComplete (h : InOrder s) {id : Nat} : NextInOrder (execTraceComplete id s) := by
  unfold execTraceComplete
  split
  · exact h
  · extract_lets -lift s0
    have h0 : InOrder s0 := h.engRelease
    split
    · exact h0.dropOp
    · extract_lets -lift t outs good s1 s2 fs
      have h2 : InOrder s2 := h0.noteExpand.updWave.fixBytes.foldl fun h => h.markTable
      exact InOrder.endOp (h2.perfAdd.foldl fun h => h.pendEng)

protected theorem InOrder.dashRun (h : InOrder s) {g : Wg} {o : EngOp} {d : Dash} : InOrder (dashRun s g o d).2.1 := by
  unfold dashRun
  extract_lets -lift a
  split
  · exact h.fixRange
  · exact h
  · exact h.fixRange
  · exact h
  · exact h
  · exact InOrder.healBytes (h.foldl fun h => h.memBytes)

protected theorem InOrder.execDashComplete (h : InOrder s) {id : Nat} : NextInOrder (execDashComplete id s) := by
  unfold execDashComplete
  split
  · exact h
  · extract_lets -lift s0
    have h0 : InOrder s0 := h.engOverwrite.engRelease
    split
    · exact h.dropOp
    · exact h0.dashRun.setDash.perfAdd.endOpFault

/-! Where a workgroup fits (R39): its slots stand once each. -/

/-- Slots that are free in each slice: none of them twice, in one slice or in two. -/
def SlotsApart (l : List (Nat × List Nat)) : Prop := (l.flatMap (·.2)).Nodup

theorem mem_freeSlots_bounds {s : State} {core k x : Nat} (h : x ∈ freeSlots s core k) : k * 12 ≤ x ∧ x < k * 12 + 12 := by
  simp only [freeSlots, List.mem_filter, List.mem_map, List.mem_range] at h
  omega

/-- Numbers that are counted from a base stand once each where those before did. -/
theorem nodup_map_add {l : List Nat} (a : Nat) (h : l.Nodup) : (l.map (a + ·)).Nodup :=
  List.Pairwise.map _ (fun _ _ hne he => hne (Nat.add_left_cancel he)) h

theorem freeSlots_nodup (s : State) (core k : Nat) : (freeSlots s core k).Nodup :=
  List.Pairwise.filter _ (nodup_map_add _ List.nodup_range)

theorem slotsApart_slicesFor (s : State) (part core : Nat) (pacer : Bool) : SlotsApart (slicesFor s part core pacer) := by
  have hsub : ∀ {c : Prop} [Decidable c] {k : Nat}, (if c then [] else freeSlots s core k).Sublist (freeSlots s core k) := by
    intro c _ k
    split
    · exact List.nil_sublist _
    · exact List.Sublist.refl _
  unfold SlotsApart slicesFor
  rw [List.flatMap_map, List.Nodup, List.pairwise_flatMap]
  refine ⟨fun k _ => (freeSlots_nodup s core k).sublist hsub, List.pairwise_lt_range.imp fun {a b} hab x ha y hb => ?_⟩
  have := mem_freeSlots_bounds (hsub.subset ha)
  have := mem_freeSlots_bounds (hsub.subset hb)
  omega

theorem holds_or_eq_of_ite_eq {α : Type} {c : Prop} [Decidable c] {a b x : α} (h : (if c then a else b) = x) :
    c ∧ a = x ∨ b = x := by
  split at h
  · next hc => exact .inl ⟨hc, h⟩
  · exact .inr h

/-- The slice that is chosen has a free slot. -/
theorem bestSlice_nonempty {need i j : Nat} {l : List (Nat × List Nat)} {best : Option (Nat × Nat)}
    (h : bestSlice need l i best = some j) :
    (∃ f, best = some (j, f)) ∨ ∃ k e, j = i + k ∧ l[k]? = some e ∧ e.2 ≠ [] := by
  induction l generalizing i best with
  | nil =>
    simp only [bestSlice, Option.map_eq_some_iff] at h
    obtain ⟨⟨a, f⟩, hb, rfl⟩ := h
    exact .inl ⟨f, hb⟩
  | cons e t ih =>
    obtain ⟨free, slots⟩ := e
    simp only [bestSlice] at h
    obtain ⟨f, hf⟩ | ⟨k, e, rfl, he, hne⟩ := ih h
    · obtain ⟨hc, hi⟩ | hb := holds_or_eq_of_ite_eq hf
      · cases hi
        refine .inr ⟨0, (free, slots), rfl, rfl, ?_⟩
        rintro rfl
        simp at hc
      · exact .inl ⟨f, hb⟩
    · exact .inr ⟨k + 1, e, by omega, he, hne⟩

/-- Taking the first free slot of a slice leaves its slice without it and the others as they were. -/
theorem flatMap_listMod_tail {l : List (Nat × List Nat)} {i f x : Nat} {xs : List Nat} (g : Nat → Nat)
    (h : l[i]? = some (f, x :: xs)) :
    (l.flatMap (·.2)).Perm (x :: (listMod l i fun e => (g e.1, e.2.tail)).flatMap (·.2)) := by
  induction l generalizing i with
  | nil => simp at h
  | cons e t ih =>
    cases i with
    | zero =>
      obtain rfl : e = (f, x :: xs) := by simpa using h
      exact List.Perm.refl _
    | succ i =>
      have := ih (i := i) (by simpa using h)
      simp only [listMod, List.flatMap_cons]
      exact (this.append_left e.2).trans List.perm_middle

/-- The slots that waves take are free ones, and no two take the same. -/
theorem assignWaves_nodup {need n : Nat} {free : List (Nat × List Nat)} {slots : List Nat} (hf : SlotsApart free)
    (h : assignWaves need n free = some slots) : slots.Nodup ∧ ∀ x ∈ slots, x ∈ free.flatMap (·.2) := by
  induction n generalizing free slots with
  | zero => cases h; simp
  | succ n ih =>
    unfold assignWaves at h
    split at h
    · cases h
    · next i hi =>
      obtain ⟨_, hb⟩ | ⟨k, ⟨f, l⟩, hk, hl, hne⟩ := bestSlice_nonempty hi
      · cases hb
      · obtain rfl : i = k := by omega
        obtain ⟨x, xs, rfl⟩ := List.exists_cons_of_ne_nil hne
        have hp := flatMap_listMod_tail (· - need) hl
        have hx := hp.nodup_iff.1 hf
        simp only [hl, Option.map_some, Option.getD_some, List.headD_cons, Option.map_eq_some_iff] at h
        obtain ⟨rest, hr, rfl⟩ := h
        obtain ⟨hn, hsub⟩ := ih (List.nodup_cons.1 hx).2 hr
        refine ⟨List.nodup_cons.2 ⟨fun hm => (List.nodup_cons.1 hx).1 (hsub x hm), hn⟩, fun y hy => hp.mem_iff.2 ?_⟩
        rcases List.mem_cons.1 hy with rfl | hy
        · exact List.mem_cons_self
        · exact List.mem_cons_of_mem _ (hsub y hy)

/-- A workgroup that fits takes no slot twice. -/
theorem fits_nodup {s : State} {part core : Nat} {e : KEnt} {pacer : Bool} {slots : List Nat} {scr : Nat}
    (h : fits s part core e pacer = some (slots, scr)) : slots.Nodup := by
  simp only [fits] at h
  split at h
  · cases h
  · split at h
    · next slots' _ hw _ =>
      cases h
      exact nodup_map_add _ (assignWaves_nodup (slotsApart_slicesFor s part core pacer) hw).1
    · cases h

theorem eq_some_of_firstSome {α β : Type} {f : α → Option β} {l : List α} {y : β} (h : firstSome f l = some y) :
    ∃ x, f x = some y := by
  induction l with
  | nil => cases h
  | cons x t ih =>
    unfold firstSome at h
    split at h
    · next y' hy => exact ⟨x, hy.trans h⟩
    · exact ih h

theorem childFit_nodup {s : State} {core c : Nat} {ch : Child} {slots : List Nat} {scr : Nat}
    (h : childFit s core = some (ch, c, slots, scr)) : slots.Nodup := by
  unfold childFit at h
  split at h
  · cases h
  · split at h
    · obtain ⟨k, hk⟩ := eq_some_of_firstSome h
      obtain ⟨f, hf, he⟩ := Option.map_eq_some_iff.1 hk
      cases he
      exact fits_nodup hf
    · cases h

theorem taskFit_nodup {s : State} {part p core : Nat} {g : Graph} {claimed slots : List Nat} {scr : Nat}
    (h : taskFit s part g p claimed = some (core, slots, scr)) : slots.Nodup := by
  unfold taskFit at h
  split at h
  · obtain ⟨k, hk⟩ := eq_some_of_firstSome h
    split at hk
    · cases hk
    · obtain ⟨f, hf, he⟩ := Option.map_eq_some_iff.1 hk
      cases he
      exact fits_nodup hf
  · cases h

theorem choose_nodup {s : State} {part g p core : Nat} {l : List Cand} {head : Bool} {claimed slots : List Nat} {scr : Nat}
    (h : choose s part l head claimed = some (g, p, core, slots, scr)) : slots.Nodup := by
  induction l generalizing head claimed with
  | nil => cases h
  | cons c t ih =>
    simp only [choose] at h
    split at h
    · exact ih h
    · split at h
      · exact ih h
      · split at h
        · next hf => cases h; exact taskFit_nodup hf
        · split at h <;> exact ih h

/-! Placing workgroups (R47, R103 to R108, R135). -/

protected theorem InOrder.refresh (h : InOrder s) {n : Nat} : InOrder (refresh s n) :=
  h.updPartGraphs fun _ hg => tabRising_map hg fun _ => rfl

protected theorem InOrder.placeWg (h : InOrder s) {part core : Nat} {kind : WgKind} {e : KEnt}
    {kbase kidx depth tilex tiley home : Nat} {arg0 arg1 : Word} {slots : List Nat} {scr : Nat} (hs : slots.Nodup) :
    InOrder (placeWg s part core kind e kbase kidx depth tilex tiley home arg0 arg1 slots scr) := by
  unfold placeWg
  extract_lets id frame g s1 s2
  have h1 : InOrder s1 := InOrder.zeroScratch (InOrder.putWg (h.nextId (Nat.le_succ _)) hs)
  have h2 : InOrder s2 := h1.foldl fun h => h.setWave
  exact InOrder.acquire (InOrder.noteCore (.ite h2.setDash h2))

protected theorem InOrder.resumeWave (h : InOrder s) {id : Nat} {g : Wg} {w : Nat} {v : Wave} :
    InOrder (resumeWave s id g w v) := by
  unfold resumeWave
  extract_lets _ _ v1 s0 s1
  have h1 : InOrder s1 := h.markVector.setWave.renameDepositor.perfAdd
  split
  · exact h1.setWave
  · exact h1.haltWave

protected theorem InOrder.resumeWg (h : InOrder s) {part core : Nat} {e : Evicted} {slots : List Nat} {scr : Nat}
    (hs : slots.Nodup) : InOrder (resumeWg s part core e slots scr) := by
  unfold resumeWg
  extract_lets age mine _ g s1 s2 s3
  have h1 : InOrder s1 :=
    ((h.nextId (Nat.le_succ _)).putWg (g := g) (hs.sublist (List.take_sublist _ _))).updPart
  have h3 : InOrder s3 := InOrder.acquire (InOrder.noteCore (.ite h1.zeroScratch.setDash h1.zeroScratch))
  exact h3.foldl fun h => h.resumeWave

protected theorem InOrder.noteResumed (h : InOrder s) {part core : Nat} {k : WgKind} : InOrder (noteResumed s part core k) := by
  unfold noteResumed
  split
  · exact h.updGraph
  · exact h

theorem someInOrder_resumeOne (h : InOrder s) (part : Nat) (e : Evicted) : SomeInOrder (resumeOne s part e) := by
  refine someInOrder_firstSome (fun c => ?_) _
  cases hf : fits s part c e.wg.ent (isPacerWg e.wg.kind) with
  | none => trivial
  | some f => exact h.noteResumed.resumeWg (fits_nodup hf)

theorem someInOrder_placeEvicted (h : InOrder s) (part : Nat) : SomeInOrder (placeEvicted s part) := by
  simp only [placeEvicted]
  split
  · split
    · exact someInOrder_resumeOne h part _
    · exact someInOrder_firstSome (someInOrder_resumeOne h part) _
  · trivial

protected theorem InOrder.placeTaskAt (h : InOrder s) {part g p core : Nat} {slots : List Nat} {scr : Nat} (hs : slots.Nodup) :
    InOrder (placeTaskAt s part g p core slots scr) := by
  unfold placeTaskAt
  split
  · exact h
  · split
    · exact (h.updGraph.placeWg hs).refresh
    · exact h

theorem someInOrder_placeTask (h : InOrder s) (part : Nat) : SomeInOrder (placeTask s part) := by
  unfold placeTask
  split
  · cases hc : choose s part (candidates s part) true [] with
    | none => trivial
    | some f => exact h.placeTaskAt (choose_nodup hc)
  · trivial

theorem someInOrder_placeChild (h : InOrder s) (l : List Nat) : SomeInOrder (placeChild s l) := by
  induction l with
  | nil => trivial
  | cons core t ih =>
    unfold placeChild
    split
    · exact ih
    · next hf => exact h.setCore.placeWg (childFit_nodup hf)

protected theorem InOrder.placeAll (h : InOrder s) {part n : Nat} : InOrder (placeAll part n s) := by
  induction n generalizing s with
  | zero => exact h
  | succ n ih =>
    unfold placeAll
    split
    · next he => exact ih ((someInOrder_placeEvicted h part).of_eq he)
    · split
      · next hc => exact ih ((someInOrder_placeChild h _).of_eq hc)
      · split
        · next ht => exact ih ((someInOrder_placeTask h part).of_eq ht)
        · exact h

protected theorem InOrder.placementRound (h : InOrder s) {part : Nat} : InOrder (placementRound s part) := h.placeAll

protected theorem InOrder.execWorkgroupPlace (h : InOrder s) {part : Nat} : NextInOrder (execWorkgroupPlace part s) := by
  unfold execWorkgroupPlace
  split
  · next he => exact (someInOrder_placeEvicted h part).of_eq he
  · exact (someInOrder_placeTask h part).getD h

protected theorem InOrder.execChildPlace (h : InOrder s) {core : Nat} : NextInOrder (execChildPlace core s) := by
  unfold execChildPlace
  split
  · exact h
  · next hf => exact h.setCore.placeWg (childFit_nodup hf)

/-! Graphs: submission, retirement, the end (R103 to R113, R357 to R361). -/

protected theorem InOrder.imageFill (h : InOrder s) {part core addr : Nat} {ktab : DWord} {raw : Raw} :
    InOrder (imageFill s part core addr ktab raw) := h.foldl fun h => h.tlbFill

protected theorem InOrder.recordFill (h : InOrder s) {part core : Nat} {im : Image} : InOrder (recordFill s part core im) :=
  h.foldl fun h => h.tlbFill.tlbFill

/-- A graph takes its slot in the order of the slots. -/
protected theorem InOrder.acceptGraph (h : InOrder s) {part g : Nat} {im : Image} : InOrder (acceptGraph s part g im) :=
  InOrder.refresh (h.zeroRange.zeroRange.updPartGraphs fun _ hg => tabRising_tabPut hg g _)

theorem okInOrder_gsubTry (h : InOrder s) {c : Ctx} {addr d : Nat} {ktab : DWord} : OkInOrder (gsubTry s c addr d ktab) := by
  unfold gsubTry
  extract_lets -lift part
  split
  · exact h.hold
  · split
    · trivial
    · split
      · trivial
      · exact h.imageFill.completeWith
      · split
        · exact h.imageFill.recordFill.completeWith
        · split
          · exact h.imageFill.recordFill.hold
          · exact h.imageFill.recordFill.acceptGraph.completeWith

protected theorem InOrder.execGsub (h : InOrder s) {x : FE} : NextInOrder (execGsub x s) := by
  refine h.issue fun c => ?_
  split
  · trivial
  · extract_lets -lift a
    split
    · trivial
    · exact okInOrder_gsubTry h.releaseNow

protected theorem InOrder.releaseTask (h : InOrder s) {part g p k : Nat} : InOrder (releaseTask s part g p k) :=
  h.foldl fun h => h.releaseNow

protected theorem InOrder.releaseGwait (h : InOrder s) {part g : Nat} : InOrder (releaseGwait s part g) := by
  refine h.foldl fun h => ?_
  split
  · exact .ite h.setWave.acquire h
  · exact h

protected theorem InOrder.releaseTl (h : InOrder s) {part t : Nat} {ok : DWord → Bool} {val : Word} {acq : Bool} :
    InOrder (releaseTl s part t ok val acq) :=
  h.foldl fun h => .ite (.ite h.setWave.acquire h.setWave) h

protected theorem InOrder.finishTear (h : InOrder s) {part g : Nat} {event : Bool} : InOrder (finishTear s part g event) := by
  unfold finishTear
  split
  · exact h
  · exact h.endWaves.drainOrphans.updPart.updGraph.releaseTl.evictCheck

protected theorem InOrder.stopCheck (h : InOrder s) {part g : Nat} : InOrder (stopCheck s part g) := by
  unfold stopCheck
  split
  · exact .ite h.finishTear h
  · exact h

/-- A timeline's new value starts passes in the graphs, which keep their slots. -/
protected theorem InOrder.tlWrite (h : InOrder s) {part t : Nat} {x : DWord} : InOrder (tlWrite s part t x) :=
  have h1 : InOrder _ := h.updPartGraphs (n := part) (f := fun p =>
    { p with timelines := tabSet 0 p.timelines t x, graphs := p.graphs.map (fun e => (e.1, startPasses t x e.2)) })
    fun _ hg => tabRising_map hg fun _ => rfl
  h1.releaseTl.refresh

protected theorem InOrder.completeGraph (h : InOrder s) {part g : Nat} : InOrder (completeGraph s part g) := by
  unfold completeGraph
  split
  · exact h
  · exact .ite h.updGraph.tlWrite h

protected theorem InOrder.execTaskRetire (h : InOrder s) {part g p k : Nat} : NextInOrder (execTaskRetire part g p k s) := by
  unfold execTaskRetire
  split
  · exact h
  · split
    · extract_lets -lift cores s0 s1 s2 s3 s4
      have h1 : InOrder s1 := h.updGraph.releaseTask.foldl fun h => h.propPath
      have h4 : InOrder s4 := h1.updTask.updGraph.releaseGwait.refresh.placementRound.completeGraph.stopCheck
      exact InOrder.ite h4 h4.updGraph
    · exact h

protected theorem InOrder.retireOwed (h : InOrder s) {part core n : Nat} : InOrder (retireOwed part core n s) := by
  induction n generalizing s with
  | zero => exact h
  | succ n ih =>
    unfold retireOwed
    split
    · exact h
    · split
      · next ht => exact ih (h.execTaskRetire.of_eq ht)
      · exact h

protected theorem InOrder.beforeEvent (h : InOrder s) {c : Ctx} : InOrder (beforeEvent s c) := h.retireOwed

protected theorem InOrder.startTear (h : InOrder s) {part g kind : Nat} {msg : List Byte} :
    InOrder (startTear s part g kind msg) := h.updGraph

protected theorem InOrder.execGabort (h : InOrder s) {x : FE} : NextInOrder (execGabort x s) := by
  refine h.issue fun c => ?_
  split
  · trivial
  · refine InOrder.finish ?_
    split
    · exact .ite h.beforeEvent.startTear h.beforeEvent
    · exact h.beforeEvent

protected theorem InOrder.execGstop (h : InOrder s) {x : FE} : NextInOrder (execGstop x s) := by
  refine h.issue fun c => ?_
  split
  · trivial
  · refine InOrder.finish ?_
    split
    · exact .ite h.beforeEvent.updGraph.stopCheck h.beforeEvent
    · exact h.beforeEvent

protected theorem InOrder.execGqry (h : InOrder s) {x : FE} : NextInOrder (execGqry x s) := by
  refine h.issue fun c => ?_
  split
  · trivial
  · extract_lets -lift sel
    split
    · trivial
    · exact h.completeWith

protected theorem InOrder.execGhint (h : InOrder s) {x : FE} : NextInOrder (execGhint x s) := by
  refine h.issue fun c => ?_
  split
  · trivial
  · refine InOrder.finish ?_
    split
    · split
      · exact .ite h h.updTask.refresh
      · exact h
    · exact h

protected theorem InOrder.execGwait (h : InOrder s) {x : FE} : NextInOrder (execGwait x s) := by
  refine h.issue fun c => ?_
  split
  · trivial
  · split
    · exact h.finish.acquire
    · exact h.hold

protected theorem InOrder.execTrel (h : InOrder s) {x : FE} : NextInOrder (execTrel x s) := by
  refine h.issue fun c => ?_
  split
  · trivial
  · split
    · exact h.releaseNow.finish
    · split
      · exact h.releaseNow.finish
      · split
        · exact h.releaseNow.finish
        · exact h.updTask.hold

protected theorem InOrder.closeRelease (h : InOrder s) {c : Ctx} {g p k : Nat} : InOrder (closeRelease s c g p k) := by
  unfold closeRelease
  split
  · exact h
  · exact InOrder.propPath (InOrder.drainNamed ((h.foldl fun h => h.drainNamed).foldl fun h => h.propRanges))

protected theorem InOrder.execTileClosure (h : InOrder s) {w : Nat} {pb : Bool} : NextInOrder (execTileClosure w pb s) := by
  unfold execTileClosure
  split
  · exact h
  · split
    · split
      · exact h.closeRelease.updTask.updGraph.finish.releaseGwait.refresh
      · exact h
    · exact h

/-- Waves are marked, and the children of the graph leave the queues of the cores. -/
protected theorem InOrder.freezeGraph (h : InOrder s) {part g : Nat} : InOrder (freezeGraph s part g) :=
  { h with
    waves := tabRising_map h.waves fun e => by split <;> rfl
    cores := tabRising_filterMap h.cores fun e e' he => by
      simp only [Option.ite_none_left_eq_some, Option.some.injEq] at he
      exact he.2 ▸ rfl }

protected theorem InOrder.execGraphTeardown (h : InOrder s) {part g : Nat} : NextInOrder (execGraphTeardown part g s) := by
  unfold execGraphTeardown
  split
  · exact h
  · split
    · extract_lets -lift s1
      split
      · exact h.freezeGraph.finishTear
      · exact h.freezeGraph
    · exact h

protected theorem InOrder.eventDone (h : InOrder s) {part : Nat} {e : EvSrc} : InOrder (eventDone s part e) := by
  unfold eventDone
  split
  · exact h.updGraph
  · exact h

protected theorem InOrder.execEventEnqueue (h : InOrder s) {part : Nat} : NextInOrder (execEventEnqueue part s) := by
  unfold execEventEnqueue
  extract_lets -lift p
  split
  · exact h
  · split
    · exact h
    · exact h.setPartSame.mboxPut.eventDone

/-! Timelines and mailboxes (R362 to R364). -/

protected theorem InOrder.timelineWrite (h : InOrder s) {x : FE} {new : DWord → DWord → DWord} :
    NextInOrder (timelineWrite s x new) := by
  refine h.issue fun c => ?_
  split
  · trivial
  · exact h.releaseNow.finish.tlWrite

protected theorem InOrder.execTlwait (h : InOrder s) {x : FE} : NextInOrder (execTlwait x s) := by
  refine h.issue fun c => ?_
  split
  · trivial
  · extract_lets -lift t
    split
    · exact h.completeWith.acquire
    · exact h.hold

protected theorem InOrder.execTlrd (h : InOrder s) {x : FE} : NextInOrder (execTlrd x s) := by
  refine h.issue fun c => ?_
  split
  · trivial
  · exact h.updWave.acquire

theorem someInOrder_recvTry (h : InOrder s) (c : Ctx) (mb off d n : Nat) : SomeInOrder (recvTry s c mb off d n) := by
  unfold recvTry
  split
  · trivial
  · exact h.updPart.drainOver.memBytes.healBytes.completeWith.acquire

protected theorem InOrder.execMbrecv (h : InOrder s) {x : FE} : NextInOrder (execMbrecv x s) := by
  refine h.issue fun c => ?_
  split
  · trivial
  · exact (someInOrder_recvTry h c _ _ _ _).getD h.hold

protected theorem InOrder.sendMail (h : InOrder s) {part mb : Nat} {m : List Byte} : InOrder (sendMail s part mb m) :=
  .ite h.mboxPut.msixVfs h.mboxPut

theorem okInOrder_sendRun (h : InOrder s) {c : Ctx} {mb off n : Nat} : OkInOrder (sendRun s c mb off n) := by
  unfold sendRun
  split
  · trivial
  · exact h.fixRange.sendMail.finish

protected theorem InOrder.execMbsend (h : InOrder s) {x : FE} : NextInOrder (execMbsend x s) := by
  refine h.issue fun c => ?_
  split
  · trivial
  · extract_lets -lift mb off s1
    split
    · exact h.releaseNow.hold
    · exact okInOrder_sendRun h.releaseNow

protected theorem InOrder.putDebug (h : InOrder s) {part : Nat} {w : Word} : InOrder (putDebug s part w) :=
  .ite h.updPart.msixVfs h.updPart

protected theorem InOrder.execDbgsend (h : InOrder s) {x : FE} : NextInOrder (execDbgsend x s) := by
  refine h.issue fun c => ?_
  split
  · trivial
  · extract_lets -lift w s1
    split
    · exact h.releaseNow.hold
    · exact h.releaseNow.putDebug.finish

/-! Events of the cores (R43, R149, R165, R173, R297 to R299). -/

protected theorem InOrder.fillCode (h : InOrder s) {part core base : Nat} {ws : List Word} :
    InOrder (fillCode s part core base ws) := h.setCore.tlbFill.tlbFill

protected theorem InOrder.execClauseFetch (h : InOrder s) : NextInOrder (execClauseFetch s) := by
  unfold execClauseFetch
  split
  · trivial
  · split
    · split
      · exact h.setWave
      · exact h
    · split
      · extract_lets -lift base
        split
        · exact h.takeTrap
        · split
          · exact h.takeTrap
          · exact h.setWave.fillCode.fixCode
          · exact h.takeTrap
      · exact h
    · exact h

protected theorem InOrder.execPendingTrap (h : InOrder s) : NextInOrder (execPendingTrap s) := by
  unfold execPendingTrap
  split
  · exact h
  · split
    · exact h
    · split
      · exact h.setWave.enterTrap
      · exact h.setWave.enterTrap
      · exact h.setWave.enterTrap
      · split
        · exact h.setWave.enterTrap
        · exact h
      · exact h

protected theorem InOrder.execSqDrain (h : InOrder s) {w i : Nat} : NextInOrder (execSqDrain w i s) := by
  unfold execSqDrain
  split
  · exact InOrder.ite h.performEntry h
  · exact h

protected theorem InOrder.execDepoDeliver (h : InOrder s) {w i : Nat} : NextInOrder (execDepoDeliver w i s) := by
  unfold execDepoDeliver
  split
  · exact InOrder.ite h.performEntry h
  · exact h

protected theorem InOrder.execWarvPass (h : InOrder s) {w : Nat} {pb : Bool} : NextInOrder (execWarvPass w pb s) := by
  unfold execWarvPass
  split
  · exact h
  · split
    · exact InOrder.ite h.passWarv h
    · exact h

protected theorem InOrder.readTest (h : InOrder s) {c : Ctx} {l : Nat} :
    InOrder (readTest s c l) := h.fixBytes.fillRead.markHost

protected theorem InOrder.makeTests (h : InOrder s) {eq : Bool} {scope : Nat} {c : Ctx} {tests : List WordTest} :
    InOrder (makeTests eq scope c s tests).1 := by
  refine List.foldlRecOn (motive := fun r : State × List WordTest => InOrder r.1) _ _ h fun r h t _ => ?_
  refine InOrder.acquire ?_
  split
  · exact h.readTest
  · exact h

protected theorem InOrder.runTests (h : InOrder s) {c : Ctx} {eq : Bool} {scope : Nat} {last : List Nat}
    {tests due : List WordTest} {rej : List Nat} {put : Path → Wave → Wave} :
    InOrder (runTests s c eq scope last tests due rej put) := by
  simp only [runTests]
  exact h.updWave.makeTests.updWave

protected theorem InOrder.execWaitaTest (h : InOrder s) {w : Nat} {pb : Bool} : NextInOrder (execWaitaTest w pb s) := by
  unfold execWaitaTest
  split
  · exact h
  · split
    · extract_lets -lift turn ps miss
      split
      split
      · exact h
      · split
        · exact h.takeTrap
        · exact InOrder.runTests (.ite h.takeLines h.takeLines.joinWait)
    · exact h

protected theorem InOrder.execWsleepExpiry (h : InOrder s) {w : Nat} {pb : Bool} : NextInOrder (execWsleepExpiry w pb s) := by
  unfold execWsleepExpiry
  split
  · exact h
  · split
    · split
      · exact h.finish
      · exact h
    · exact h

protected theorem InOrder.dropCode (h : InOrder s) {part core scope : Nat} : InOrder (dropCode s part core scope) :=
  h.foldl fun h => .ite h.setCore h

protected theorem InOrder.endIcinv (h : InOrder s) {core : Nat} : InOrder (endIcinv s core) := by
  simp only [endIcinv]
  split
  · exact h
  · exact h.setCore.dropCode

protected theorem InOrder.execIcinvComplete (h : InOrder s) {w : Nat} {pb : Bool} : NextInOrder (execIcinvComplete w pb s) := by
  unfold execIcinvComplete
  split
  · exact h.endIcinv
  · split
    · exact h.dropCode.finish
    · exact h.endIcinv

protected theorem InOrder.replayEcc (ht : InOrder t) {c : Ctx} {ps : List Plan} : InOrder (replayEcc s c ps t) := by
  unfold replayEcc
  split
  · exact ht
  · exact ht.pendFault

protected theorem InOrder.replayPath (h : InOrder s) {w depth : Nat} {pb : Bool} : InOrder (replayPath s w depth pb) := by
  unfold replayPath
  split
  · exact h
  · split
    · extract_lets -lift c put
      split
      · exact h.makeAccesses.replayEcc.endAccess
      · exact .ite h h.runTests.replayEcc
      · exact h
    · exact h

protected theorem InOrder.replayHead (h : InOrder s) {core : Nat} : InOrder (replayHead s core) := by
  simp only [replayHead]
  split
  · exact h
  · split
    · exact h.setCore
    · exact .ite h (h.setCore.foldl fun h => h.replayPath)

protected theorem InOrder.execMshrRelease (h : InOrder s) {core i : Nat} : NextInOrder (execMshrRelease core i s) := by
  refine InOrder.replayHead ?_
  split
  · exact h
  · split
    · exact h
    · split
      · exact h.setCore
      · exact h.setCore

protected theorem InOrder.execReordTimeout (h : InOrder s) {wg i : Nat} : NextInOrder (execReordTimeout wg i s) := by
  unfold execReordTimeout
  split
  · exact h
  · extract_lets -lift l
    split
    · exact h.closeCollection
    · exact h

protected theorem InOrder.deal {p l : List (Nat × Wave)} {all m : List Mover} (h : InOrder s) : InOrder (deal p all l m s) := by
  induction l generalizing s m with
  | nil => exact h
  | cons e t ih => exact ih h.setWave.endIfDone

protected theorem InOrder.execReordRepack (h : InOrder s) {wg i : Nat} : NextInOrder (execReordRepack wg i s) := by
  simp only [execReordRepack]
  split
  · exact h.deal
  · exact h

protected theorem InOrder.execSpawnEnqueue (h : InOrder s) {w : Nat} {pb : Bool} : NextInOrder (execSpawnEnqueue w pb s) := by
  unfold execSpawnEnqueue
  split
  · exact h
  · split
    · exact h.spawnEnter
    · exact h

protected theorem InOrder.execPwrbudRefresh (h : InOrder s) {part : Nat} : NextInOrder (execPwrbudRefresh part s) := by
  simp only [execPwrbudRefresh]
  split
  · exact h
  · exact h.setPartSame

protected theorem InOrder.execGsubAccept (h : InOrder s) {w : Nat} {pb : Bool} : NextInOrder (execGsubAccept w pb s) := by
  unfold execGsubAccept
  split
  · exact h
  · next c _ =>
    split
    · next addr d ktab _ =>
      have ht := okInOrder_gsubTry h (c := c) (addr := addr) (d := d) (ktab := ktab)
      split
      · next he => rwa [he] at ht
      · exact h.takeTrap
    · exact h

protected theorem InOrder.execMbrecvDequeue (h : InOrder s) {w : Nat} {pb : Bool} : NextInOrder (execMbrecvDequeue w pb s) := by
  unfold execMbrecvDequeue
  split
  · exact h
  · split
    · exact (someInOrder_recvTry h _ _ _ _ _).getD h
    · exact h

protected theorem InOrder.execMbsendEnqueue (h : InOrder s) {w : Nat} {pb : Bool} : NextInOrder (execMbsendEnqueue w pb s) := by
  unfold execMbsendEnqueue
  split
  · exact h
  · next c _ =>
    split
    · next mb off _ =>
      split
      · exact h
      · have ht := okInOrder_sendRun h (c := c) (mb := mb) (off := off) (n := wordsAt c.path)
        split
        · next he => rwa [he] at ht
        · exact h.takeTrap
    · exact h

protected theorem InOrder.execDbgsendAppend (h : InOrder s) {w : Nat} {pb : Bool} : NextInOrder (execDbgsendAppend w pb s) := by
  unfold execDbgsendAppend
  split
  · exact h
  · split
    · split
      · exact h
      · exact h.putDebug.finish
    · exact h

protected theorem InOrder.freezeWave (h : InOrder s) {w : Nat} {v : Wave} {span : Bool} : InOrder (freezeWave s w v span) := by
  unfold freezeWave
  split
  next s1 ab hs =>
    have h1 : InOrder s1 := by have := h.abandonTraces (w := w); rwa [hs] at this
    extract_lets -lift s2 s3
    have h3 : InOrder s3 := by
      simp only [s3]
      split
      · exact h1.updWave.openTrel.leaveIcinv
      · exact h1.updWave
    exact .ite h h3.dispatchAll

protected theorem InOrder.execWaveFreeze (h : InOrder s) {w : Nat} : NextInOrder (execWaveFreeze w s) := by
  unfold execWaveFreeze
  split
  · exact h
  · split
    · exact h
    · extract_lets -lift tear
      split
      · exact h
      · split
        · split
          · exact h.freezeWave
          · exact h
        · split
          · exact h.setWave.replayHead
          · exact h

/-! Partition commands (R373 to R375). -/

/-- A command answers what it does, or leaves the state alone. -/
protected theorem InOrder.command (h : InOrder s) (ht : InOrder t) {n : Nat} : NextInOrder (command s n t) := by
  unfold command
  split
  · exact ht
  · exact h

protected theorem InOrder.refuseCmd (h : InOrder s) {n err : Nat} : InOrder (refuseCmd s n err) := h.updPart

/-- A bare block has no graph. -/
protected theorem InOrder.makePart (h : InOrder s) {n : Nat} : InOrder (makePart s n) :=
  InOrder.msix (h.zeroPads.dropTlbs.setPart rfl)

protected theorem InOrder.execPcmdCreate (h : InOrder s) {n : Nat} : NextInOrder (execPcmdCreate n s) := by
  refine h.command ?_
  split
  · exact h.refuseCmd
  · exact h.zeroShares.makePart

protected theorem InOrder.startPacer (h : InOrder s) {n : Nat} : InOrder (startPacer s n) := by
  unfold startPacer
  split
  · exact h.refuseCmd
  · extract_lets -lift p core
    split
    · exact h
    · next hf => exact h.setPartSame.placeWg (fits_nodup hf)

protected theorem InOrder.finishEnd (h : InOrder s) {n : Nat} : InOrder (finishEnd s n) := by
  unfold finishEnd
  extract_lets -lift p s1 s2 s3
  have h2 : InOrder s2 := h.endWaves.drainOrphans.foldl fun h => h.propPath
  have h3 : InOrder s3 := h2.setPart rfl
  split
  · exact h3.makePart.startPacer
  · exact h3

protected theorem InOrder.goOnEnding (h : InOrder s) {n : Nat} : InOrder (goOnEnding s n) := .ite h.finishEnd h

protected theorem InOrder.dropChildren (h : InOrder s) {n : Nat} : InOrder (dropChildren s n) :=
  { h with
    cores := tabRising_filterMap h.cores fun e e' he => by
      simp only [Option.ite_none_left_eq_some, Option.some.injEq] at he
      exact he.2 ▸ rfl }

protected theorem InOrder.freezePart (h : InOrder s) {n : Nat} : InOrder (freezePart s n) :=
  h.mapWaves fun e => by split <;> rfl

protected theorem InOrder.beginEnd (h : InOrder s) {n : Nat} {e : Ending} : InOrder (beginEnd s n e) :=
  h.freezePart.dropChildren.updPartGraphs fun _ hg => tabRising_map hg fun _ => rfl

protected theorem InOrder.endPart (h : InOrder s) {n : Nat} {e : Ending} : NextInOrder (endPart s n e) := by
  unfold endPart
  split
  · exact h.goOnEnding
  · refine h.command ?_
    split
    · exact h.beginEnd.goOnEnding
    · exact h.beginEnd.goOnEnding
    · exact h.beginEnd.goOnEnding
    · exact h.refuseCmd

protected theorem InOrder.execPcmdPreempt (h : InOrder s) {n : Nat} : NextInOrder (execPcmdPreempt n s) := by
  refine h.command ?_
  split
  · exact h.updPart.freezePart.evictCheck
  · exact h.updPart.freezePart.evictCheck
  · exact h.refuseCmd

protected theorem InOrder.execPcmdResume (h : InOrder s) {n : Nat} : NextInOrder (execPcmdResume n s) := by
  refine h.command ?_
  have hg := graphs_rising_of_getPart h n
  refine .ite h.refuseCmd (.ite (InOrder.msix (h.setPart ?_)) (h.setPart ?_))
  · exact tabRising_map hg fun _ => rfl
  · exact tabRising_map hg fun _ => rfl

/-! The host port (R371 to R380). -/

theorem blockWrite_graphs (p : Part) (off : Nat) (v : DWord) : (blockWrite p off v).graphs = p.graphs := by
  unfold blockWrite
  split
  · rfl
  · split <;> rfl

protected theorem InOrder.execRegisterWrite (h : InOrder s) {fn off : Nat} {v : DWord} :
    NextInOrder (execRegisterWrite fn off v s) := by
  unfold execRegisterWrite
  split
  · exact h
  · split
    · exact h.updPart fun p => blockWrite_graphs p _ v
    · split
      · exact h.putDev
      · exact h

/-- What a VF does acts on its partition, if it is bound to one. -/
protected theorem InOrder.byVf (h : InOrder s) {vf : Nat} {f : Nat → State} (hf : ∀ n, InOrder (f n)) :
    NextInOrder (byVf s vf f) := by
  unfold byVf
  split
  · split
    · exact hf _
    · exact h
  · exact h

protected theorem InOrder.commitMail (h : InOrder s) {vf m part : Nat} : InOrder (commitMail s vf m part) :=
  .ite h.updPart h.mboxPut

protected theorem InOrder.execMbin (h : InOrder s) {vf m off : Nat} {data : List Byte} :
    NextInOrder (execMbin vf m off data s) :=
  h.byVf fun _ => .ite h (.ite h.putDev.commitMail h.putDev)

protected theorem InOrder.execMbpop (h : InOrder s) {vf : Nat} {v : DWord} : NextInOrder (execMbpop vf v s) :=
  h.byVf fun _ => .ite h.updPart h

protected theorem InOrder.readDebug (h : InOrder s) {part : Nat} : InOrder (readDebug s part) := by
  unfold readDebug
  split
  · exact h.toHost
  · exact h.updPart.toHost

protected theorem InOrder.execDbgdata (h : InOrder s) {vf : Nat} : NextInOrder (execDbgdata vf s) := by
  unfold execDbgdata
  split
  · exact h
  · split
    · exact h.toHost
    · exact h.readDebug

protected theorem InOrder.execTlbinv (h : InOrder s) {vf : Nat} {v : DWord} : NextInOrder (execTlbinv vf v s) :=
  h.byVf fun _ => .ite h.updPart h

protected theorem InOrder.execTlbinvComplete (h : InOrder s) {part : Nat} : NextInOrder (execTlbinvComplete part s) := by
  unfold execTlbinvComplete
  split
  · exact h.dropTlbs.updPart
  · exact h

protected theorem InOrder.execHostBar2Write (h : InOrder s) {vf addr : Nat} {data : List Byte} :
    NextInOrder (execHostBar2Write vf addr data s) := by
  unfold execHostBar2Write
  split
  · split
    · exact h.putDev
    · exact h
  · exact h.byVf fun _ => InOrder.healBytes (h.foldl fun h => h.hostWriteByte)

protected theorem InOrder.execHostBar2Read (h : InOrder s) {vf addr n : Nat} : NextInOrder (execHostBar2Read vf addr n s) := by
  unfold execHostBar2Read
  split
  · exact h
  · split
    · exact h.toHost
    · split
      · exact h.toHost
      · exact h.fixErrs.toHost

protected theorem InOrder.hostRead (h : InOrder s) {fn off n : Nat} : InOrder (hostRead s fn off n) := by
  unfold hostRead
  refine .ite h (.ite h.toHost (.ite h.toHost ?_))
  split
  · exact h.toHost
  · exact .ite h.readDebug h.toHost

/-! The device (R381 to R388). -/

protected theorem InOrder.execFwcmdRecovery (h : InOrder s) : NextInOrder (execFwcmdRecovery s) := by
  unfold execFwcmdRecovery
  split
  · exact h.putDev.setStatus
  · exact h

protected theorem InOrder.execFwcmdUpdate (h : InOrder s) : NextInOrder (execFwcmdUpdate s) := by
  unfold execFwcmdUpdate
  split
  · exact h.putDev
  · exact h

protected theorem InOrder.execAttgo (h : InOrder s) : NextInOrder (execAttgo s) := by
  unfold execAttgo
  split
  · exact h.putDev
  · exact h

protected theorem InOrder.execAttestReportReady (h : InOrder s) : NextInOrder (execAttestReportReady s) := by
  unfold execAttestReportReady
  split
  · generalize putBytes [] 0 (report s) = rep
    exact (h.setFresh (n := s.fresh + 1)).setDev.msix
  · exact h

protected theorem InOrder.clearCount (h : InOrder s) {f : Dev → Dev} : NextInOrder (clearCount s f) := by
  unfold clearCount
  split
  · exact h.putDev
  · exact h

protected theorem InOrder.execPatrolScrub (h : InOrder s) {hw : Bool} {loc : Nat} : NextInOrder (execPatrolScrub hw loc s) := by
  simp only [execPatrolScrub]
  split
  · exact h.fixErrs.putErrue
  · exact h.fixErrs

/-- Device reset empties every table. -/
theorem nextInOrder_execDeviceReset (s : State) : NextInOrder (execDeviceReset s) :=
  { views := rfl, waves := rfl, ended := rfl, groups := rfl, cores := rfl, parts := rfl
    graphs := fun _ he => by cases he
    tiles := ⟨List.Pairwise.nil, fun _ hb => by cases hb⟩
    slots := fun _ he => by cases he }

protected theorem InOrder.freezeNow (h : InOrder s) {part g : Nat} : InOrder (freezeNow s part g) :=
  h.freezeGraph.foldl fun h => .ite h.freezeWave h

protected theorem InOrder.loseGraph (h : InOrder s) {part g : Nat} : InOrder (loseGraph part g s) := h.startTear.freezeNow

protected theorem InOrder.execLinkDown (h : InOrder s) : NextInOrder (execLinkDown s) := by
  unfold execLinkDown
  split
  · exact h.putDev.loseHost.foldl fun h => h.loseGraph
  · exact h

protected theorem InOrder.execReenumeration (h : InOrder s) : NextInOrder (execReenumeration s) := by
  unfold execReenumeration
  split
  · exact h
  · exact (h.loseHost.mapParts (f := fun e => (e.1, emptyMail e.2)) (hg := fun _ hg => tabRising_map hg fun _ => rfl)).setDev

protected theorem InOrder.fatal (h : InOrder s) : NextInOrder (fatal s) := InOrder.ite h h.setStatus

protected theorem InOrder.execSoftError (h : InOrder s) {strct loc : Nat} {single : Bool} :
    NextInOrder (execSoftError strct loc single s) := by
  unfold execSoftError
  split
  · exact h.updWave
  · exact h.updWgSame
  · exact h.countFix
  · split
    · exact h
    · split
      · exact h.putDev
      · exact h.strike

/-! One instruction or event. -/

protected theorem InOrder.execLop3 (h : InOrder s) {x : F3} : NextInOrder (execLop3 x s) := by
  unfold execLop3
  split
  · exact h.vecDst
  · exact h.vecRefused

protected theorem InOrder.execSel (h : InOrder s) {x : FP} : NextInOrder (execSel x s) := by
  unfold execSel
  split
  · exact h.issue fun _ => trivial
  · exact h.vecDst

protected theorem InOrder.execPlane (h : InOrder s) {x : FI} : NextInOrder (execPlane x s) := by
  unfold execPlane
  split
  · exact h.vecRefused
  · exact h.vecDst

protected theorem InOrder.execUnplane (h : InOrder s) {x : FI} : NextInOrder (execUnplane x s) := by
  unfold execUnplane
  split
  · exact h.vecRefused
  · exact h.vecDst

protected theorem InOrder.execFclass (h : InOrder s) {x : F3} : NextInOrder (execFclass x s) := by
  unfold execFclass
  split
  · exact h.vecPred
  · exact h.vecDst

protected theorem InOrder.shuffle (h : InOrder s) {d a : Reg} {n : Nat} {srcs : List Src} {rest : Ctx → Nat → Bool} {other : Reg}
    {j : Ctx → Nat → Option Nat} : NextInOrder (shuffle s d a n srcs rest other j) := h.laneOp

protected theorem InOrder.reduce (h : InOrder s) {x : F3} {f : Ctx → List Word → Word} : NextInOrder (reduce s x f) := h.laneOp

protected theorem InOrder.reduceBy (h : InOrder s) {x : F3} {op : Word → Word → Word} :
    NextInOrder (reduceBy s x op) := h.reduce

protected theorem InOrder.execBallot (h : InOrder s) {x : F3} : NextInOrder (execBallot x s) := h.laneOp

protected theorem InOrder.execVany (h : InOrder s) {x : F3} : NextInOrder (execVany x s) := h.laneOp

protected theorem InOrder.execVall (h : InOrder s) {x : F3} : NextInOrder (execVall x s) := h.laneOp

protected theorem InOrder.execMatchOp (h : InOrder s) {x : F3} : NextInOrder (execMatchOp x s) := h.laneOp

protected theorem InOrder.execFirst (h : InOrder s) {x : F3} : NextInOrder (execFirst x s) := h.laneOp

protected theorem InOrder.execBcast (h : InOrder s) {x : F3} : NextInOrder (execBcast x s) := h.laneOp

protected theorem InOrder.execRedfadd (h : InOrder s) {x : F3} : NextInOrder (execRedfadd x s) := h.reduce

protected theorem InOrder.execNop (h : InOrder s) : NextInOrder (execNop s) := h.issue fun _ => h.finish

protected theorem InOrder.execTrap (h : InOrder s) {code : BitVec 24} :
    NextInOrder (execTrap code s) := h.issue fun _ => trivial

protected theorem InOrder.execYield (h : InOrder s) : NextInOrder (execYield s) := h.issue fun _ => h.yieldTurn

protected theorem InOrder.execHalt (h : InOrder s) : NextInOrder (execHalt s) := h.issue fun _ => h.setWave.haltWave

protected theorem InOrder.execCsrw (h : InOrder s) {num : BitVec 12} {r : Reg} : NextInOrder (execCsrw num r s) := h.csrWrite

protected theorem InOrder.execCsrs (h : InOrder s) {num : BitVec 12} {r : Reg} : NextInOrder (execCsrs num r s) := h.csrWrite

protected theorem InOrder.execCsrc (h : InOrder s) {num : BitVec 12} {r : Reg} : NextInOrder (execCsrc num r s) := h.csrWrite

protected theorem InOrder.execTlsig (h : InOrder s) {x : FE} : NextInOrder (execTlsig x s) := h.timelineWrite

protected theorem InOrder.execTlset (h : InOrder s) {x : FE} : NextInOrder (execTlset x s) := h.timelineWrite

protected theorem InOrder.execPassAgeing (h : InOrder s) {part g p : Nat} :
    NextInOrder (execPassAgeing part g p s) := h.updGraph

/-- Every instruction and every event leaves the tables in order. -/
protected theorem InOrder.exec (h : InOrder s) (i : Instr) : NextInOrder (exec i s) := by
  cases i with
  -- Class VEC: the forms that are not a write of D alone.
  | icmpEq | icmpNe | icmpLt | icmpLe | icmpGt | icmpGe | icmpUlt | icmpUle | icmpUgt | icmpUge | pand | por | pxor
  | pnot | fcmpEq | fcmpNe | fcmpLt | fcmpLe | fcmpGt | fcmpGe | fcmpUn | fcmpOrd => exact h.vecPred
  | shflIdx | shflUp | shflDn | shflXor | shflRot => exact h.shuffle
  | redadd | redmin | redmax | redumin | redumax | redand | redor | redxor => exact h.reduceBy
  | ballot => exact h.execBallot
  | vany => exact h.execVany
  | vall => exact h.execVall
  | matchOp => exact h.execMatchOp
  | first => exact h.execFirst
  | bcast => exact h.execBcast
  | redfadd => exact h.execRedfadd
  | lop3 => exact h.execLop3
  | sel => exact h.execSel
  | plane => exact h.execPlane
  | unplane => exact h.execUnplane
  | fclass => exact h.execFclass
  -- Classes MEM, CTL, ENG and GRF.
  | ldB | ldSb | ldH | ldSh | ldW | ldD | ldQ => exact h.loadLane
  | ldr | ldrV4 => exact h.loadRec
  | ldu | lduD => exact h.loadOnce
  | stB | stH | stW | stD | stQ => exact h.storeLane
  | str | strV4 => exact h.storeRec
  | atomAdd | atomMin | atomMax | atomUmin | atomUmax | atomAnd | atomOr | atomXor | atomXchg | atomCas | atomFadd
  | atomAdd64 | atomXchg64 | atomCas64 | redAdd | redMin | redMax | redUmin | redUmax | redAnd | redOr | redXor
  | redFadd => exact h.atomic
  | waita | waitae => exact h.waitWord
  | pref | prefL2 => exact h.prefetch
  | clwb => exact h.lineInstr fun h => h.propBlock
  | invl => exact h.lineInstr fun h => h.dropBlock
  | nop => exact h.execNop
  | bra | call => exact h.issue fun _ => okInOrder_transfer h
  | bri | calli | ret => exact h.issue fun _ => okInOrder_transferPair h
  | trap => exact h.execTrap
  | yield => exact h.execYield
  | halt => exact h.execHalt
  | csrr => exact h.csrOp fun _ _ _ => h.setWave
  | csrw => exact h.execCsrw
  | csrs => exact h.execCsrs
  | csrc => exact h.execCsrc
  | tlsig => exact h.execTlsig
  | tlset => exact h.execTlset
  | brcAny | brcAll | brcU => exact h.branchIf
  | spawn | spawnW | spawnAt => exact h.spawn
  | copyGs | copySg | copySs | copyMc | mma | mmaT | mmaz | mzero | mld | mst | mrd | mwr | mdrain | mfill | tex
  | texL | texB | texD | texG | tld | tqry | trace | traceA | dload | dwin | dlaunch | dlaunchR | dcapt | dcaptW
  | dreset => exact h.engIssueIf
  | neval | nevalU | nevalF32 => exact h.neval
  | stu => exact h.execStu
  | waitc => exact h.execWaitc
  | depo => exact h.execDepo
  | warv => exact h.execWarv
  | probe => exact h.execProbe
  | resreq => exact h.execResreq
  | brc => exact h.execBrc
  | join => exact h.execJoin
  | exit => exact h.execExit
  | reord => exact h.execReord
  | bkpt => exact h.execBkpt
  | eret => exact h.execEret
  | wsleep => exact h.execWsleep
  | icinv => exact h.execIcinv
  | texn => exact h.execTexn
  | gsub => exact h.execGsub
  | gabort => exact h.execGabort
  | gstop => exact h.execGstop
  | gqry => exact h.execGqry
  | ghint => exact h.execGhint
  | gwait => exact h.execGwait
  | trel => exact h.execTrel
  | tlwait => exact h.execTlwait
  | tlrd => exact h.execTlrd
  | mbrecv => exact h.execMbrecv
  | mbsend => exact h.execMbsend
  | dbgsend => exact h.execDbgsend
  -- Events.
  | propagate => exact h.propBlock
  | drop => exact h.dropBlock
  | heldDepositDeliver => exact h.updWave
  | passAgeing => exact h.execPassAgeing
  | pcmdStartPacer => exact h.command (.ite h.startPacer h.refuseCmd)
  | deviceReset => exact nextInOrder_execDeviceReset s
  | flitReplay => exact h
  | vfReset | clockThrottle | clockRestore => exact h.putDev
  | pcmdDestroy | pcmdPartitionReset => exact h.endPart
  | errgd | errhw | errsp | errpar => exact h.clearCount
  | linkRetrainFail | thermalFatal => exact h.fatal
  | clauseFetch => exact h.execClauseFetch
  | pendingTrap => exact h.execPendingTrap
  | sqDrain => exact h.execSqDrain
  | depoDeliver => exact h.execDepoDeliver
  | warvPass => exact h.execWarvPass
  | waitaTest => exact h.execWaitaTest
  | wsleepExpiry => exact h.execWsleepExpiry
  | icinvComplete => exact h.execIcinvComplete
  | mshrRelease => exact h.execMshrRelease
  | engineStart => exact h.execEngineStart
  | copyComplete => exact h.execCopyComplete
  | mxeComplete => exact h.execMxeComplete
  | batonTimeout => exact h.execBatonTimeout
  | batonTileDone => exact h.execBatonTileDone
  | texComplete => exact h.execTexComplete
  | traceComplete => exact h.execTraceComplete
  | dashComplete => exact h.execDashComplete
  | reordTimeout => exact h.execReordTimeout
  | reordRepack => exact h.execReordRepack
  | spawnEnqueue => exact h.execSpawnEnqueue
  | workgroupPlace => exact h.execWorkgroupPlace
  | childPlace => exact h.execChildPlace
  | taskRetire => exact h.execTaskRetire
  | tileClosure => exact h.execTileClosure
  | pwrbudRefresh => exact h.execPwrbudRefresh
  | graphTeardown => exact h.execGraphTeardown
  | eventEnqueue => exact h.execEventEnqueue
  | gsubAccept => exact h.execGsubAccept
  | mbrecvDequeue => exact h.execMbrecvDequeue
  | mbsendEnqueue => exact h.execMbsendEnqueue
  | dbgsendAppend => exact h.execDbgsendAppend
  | waveFreeze => exact h.execWaveFreeze
  | pcmdCreate => exact h.execPcmdCreate
  | pcmdPreempt => exact h.execPcmdPreempt
  | pcmdResume => exact h.execPcmdResume
  | registerWrite => exact h.execRegisterWrite
  | mbin => exact h.execMbin
  | mbpop => exact h.execMbpop
  | dbgdata => exact h.execDbgdata
  | tlbinv => exact h.execTlbinv
  | tlbinvComplete => exact h.execTlbinvComplete
  | hostBar2Write => exact h.execHostBar2Write
  | hostBar2Read => exact h.execHostBar2Read
  | fwcmdRecovery => exact h.execFwcmdRecovery
  | fwcmdUpdate => exact h.execFwcmdUpdate
  | attgo => exact h.execAttgo
  | attestReportReady => exact h.execAttestReportReady
  | patrolScrub => exact h.execPatrolScrub
  | linkDown => exact h.execLinkDown
  | reenumeration => exact h.execReenumeration
  | softError => exact h.execSoftError
  -- Every other instruction of VEC writes its D alone.
  | _ => exact h.vecDst

/-! Time (R33, R108, R154, R164, R337). -/

protected theorem InOrder.dueBudget (h : InOrder s) : InOrder (dueBudget s) := h.foldl fun h => h.orSame h.execPwrbudRefresh

protected theorem InOrder.dueDeposits (h : InOrder s) : InOrder (dueDeposits s) :=
  h.mapWaves fun e => by
    split <;> rfl

protected theorem InOrder.dueAgeing (h : InOrder s) : InOrder (dueAgeing s) :=
  h.foldl fun h => h.foldl fun h => h.foldl fun h => h.orSame h.execPassAgeing

protected theorem InOrder.dueReord (h : InOrder s) : InOrder (dueReord s) :=
  h.foldl fun h => .ite (h.orSame h.execReordTimeout) h

protected theorem InOrder.dueBaton (h : InOrder s) : InOrder (dueBaton s) :=
  h.foldl fun h => .ite (h.orSame h.execBatonTimeout) h

/-- Every core counts the cycles that pass. -/
protected theorem InOrder.countCores (h : InOrder s) {n : Nat} :
    InOrder { s with cores := s.cores.map (fun e => (e.1, countCycles n e.2)) } :=
  { h with cores := tabRising_map h.cores fun _ => rfl }

protected theorem InOrder.advanceTime (h : InOrder s) {n : Nat} : InOrder (advanceTime s n) := by
  unfold advanceTime
  extract_lets n s1
  have h1 : InOrder s1 := h.passCycles
  exact .ite h1 h1.countCores.dueDeposits.dueBudget.dueAgeing.dueReord.dueBaton.bootRom

/-! What surrounds an issue (R25, R165, R301). -/

protected theorem InOrder.keepPerf (h : InOrder s) {c : Ctx} {i : Instr} {at_ : State} : InOrder (keepPerf c i at_ s) := by
  simp only [keepPerf]
  split
  · exact h
  · split
    iterate 4 exact h.setCore
    exact h

protected theorem InOrder.busy (h : InOrder s) {w cycle : Nat} : InOrder (busy w cycle s) := h.updWave

protected theorem InOrder.account (h : InOrder s) {c : Ctx} {i : Instr} : InOrder (account c i s) :=
  .ite h.perfAdd.perfAdd.perfAdd.advanceTime.keepPerf.busy h.advanceTime

theorem nextInOrder_around {a : Answer} (ha : NextInOrder a) (c : Ctx) (i : Instr) : NextInOrder (around c i a) := by
  cases a with
  | next t => exact InOrder.account ha
  | fault => trivial
  | refused => trivial

protected theorem InOrder.issueInstr (h : InOrder s) {c : Ctx} {i : Instr} : NextInOrder (issueInstr s c i) := by
  unfold issueInstr
  split
  · exact h.advanceTime
  · exact nextInOrder_around (h.exec i) c i

protected theorem InOrder.runPath (h : InOrder s) : NextInOrder (runPath s) := by
  unfold runPath
  split
  · exact h
  · split
    · exact h.exec .pendingTrap
    · split
      · exact h.exec .clauseFetch
      · split
        · exact h.issueInstr
        · exact h.takeTrap
        · exact h

/-! Dual issue (R30 to R32, R280). -/

protected theorem InOrder.execAt (h : InOrder s) {w : Nat} {pb : Bool} {i : Instr} :
    InOrder (orSame s (exec i (atPath s w pb))) :=
  h.orSame (h.atPath.exec i)

protected theorem InOrder.mergeWatch (h : InOrder s) {w : Nat} {first : Option Pend} : InOrder (mergeWatch w first s) := by
  unfold mergeWatch
  split
  · exact h
  · exact h.updWave

protected theorem InOrder.keepFlags (ht : InOrder t) {w : Nat} {i j : Instr} : InOrder (keepFlags s w i j t) := by
  unfold keepFlags
  split
  · exact .ite ht.updWave ht
  · exact .ite ht.updWave ht
  · exact ht

protected theorem InOrder.stepPopped (h : InOrder s) {a : Ctx} : InOrder (stepPopped a s) := .ite h.updWave h

protected theorem InOrder.secondOf (ht : InOrder t) {w : Nat} {j : Instr} : InOrder (secondOf s t w j) :=
  have h2 : InOrder _ := .ite ht.updWave ht
  h2.execAt.mergeWatch

protected theorem InOrder.hideTop (h : InOrder s) {w : Nat} : InOrder (hideTop s w) := h.updWave

protected theorem InOrder.showTop (h : InOrder s) {w : Nat} {p : Option Pair} : InOrder (showTop p w s) := h.updWave

/-- What a cycle of dual issue leaves, in each of its outcomes. -/
theorem inOrder_dualPair (h : InOrder s) (a b : Ctx) (i j : Instr) : InOrder (dualPair s a b i j).st := by
  unfold dualPair
  extract_lets w d sA onlyA sB t deep s1 t'
  have hA : InOrder sA := h.execAt
  have hB : InOrder sB := h.execAt
  have ht : InOrder t := hB.execAt
  have h1 : InOrder s1 := .ite hA.hideTop hA
  have ht' : InOrder t' := h1.secondOf.keepFlags.stepPopped
  split
  · split
    · exact hA
    · exact ht
  · split
    · exact hA
    · exact .ite ht'.showTop ht'

protected theorem InOrder.countPath (h : InOrder s) {c : Ctx} {i : Instr} {r : Option State} : InOrder (countPath c i r s) :=
  .ite h.perfAdd.perfAdd h

protected theorem InOrder.keepPath (h : InOrder s) {c : Ctx} {i : Instr} {r : Option State} : InOrder (keepPath c i r s) := by
  unfold keepPath
  split
  · exact h.keepPerf
  · exact h

theorem inOrder_accountPair {p : PairEnd} (h : InOrder p.st) (a b : Ctx) (i j : Instr) : InOrder (accountPair a b i j p) := by
  unfold accountPair
  split
  next n both _ =>
    have ht : InOrder (advanceTime (perfAdd (countPath a i p.a (countPath b j p.b p.st)) a.core 3 both) n) :=
      h.countPath.countPath.perfAdd.advanceTime
    exact .ite ht.keepPath.keepPath.busy ht.keepPath.keepPath

protected theorem InOrder.runDual (h : InOrder s) {w : Nat} {pb : Bool} : NextInOrder (runDual s w pb) := by
  unfold runDual
  extract_lets alone
  have ha : NextInOrder alone := h.atPath.runPath
  split
  · split
    · exact ha
    · split
      · split
        · exact inOrder_accountPair (inOrder_dualPair h.atPath _ _ _ _) _ _ _ _
        · exact ha
      · exact ha
  · exact ha

/-! The moves of a step. -/

protected theorem InOrder.serve (h : InOrder s) {w : Nat} : InOrder (serve s w) := h.setCore.updWave

protected theorem InOrder.takeTurn (h : InOrder s) {w : Nat} : NextInOrder (takeTurn s w) := by
  unfold takeTurn
  extract_lets pb
  split
  · exact h.serve.runDual
  · exact h.serve.atPath.runPath

theorem someInOrder_firstChange (h : InOrder s) (l : List Instr) : SomeInOrder (firstChange s l) := by
  induction l with
  | nil => trivial
  | cons e l ih =>
    unfold firstChange
    split
    · exact h.orSame (h.exec e)
    · exact ih

protected theorem InOrder.runFree (h : InOrder s) : NextInOrder (runFree s) := by
  unfold runFree
  split
  · exact h.bootRom
  · split
    · exact h.advanceTime
    · split
      · next t ht => exact (someInOrder_firstChange h _).of_eq ht
      · split
        · exact h.takeTurn
        · exact h.advanceTime

protected theorem InOrder.runMove (h : InOrder s) {m : Move} : NextInOrder (runMove s m) := by
  unfold runMove
  split
  · split
    · exact h.serve.atPath.runPath
    · exact h.advanceTime
  · split
    · exact h.serve.runDual
    · exact h.advanceTime
  · split
    · exact h.exec _
    · exact h
  · exact h.advanceTime
  · exact h.hostRead
  · exact h.setChoice

protected theorem InOrder.setAgenda (h : InOrder s) {l : List Move} : InOrder { s with agenda := l } := { h with }

/-- A step is the machine's own move or the agenda's next one. -/
protected theorem InOrder.step (h : InOrder s) : NextInOrder (step s) := by
  unfold step
  split
  · exact h.runFree
  · exact h.setAgenda.runMove

end

/-- Settles O3: each operation of the machine on its state keeps the tables in order, an answer to an instruction, an event or a
passing cycle is composed of such operations, and a step is one of those answers. -/
theorem stepKeepsTablesInOrder : Obligations.StepKeepsTablesInOrder := by
  unfold Obligations.StepKeepsTablesInOrder
  exact fun _ _ h hs => h.step.of_eq hs

end Sys2Proof.Machine
end
